-- ==== Sys2Proof/Word.lean ====
section
/-! DEFINITION. The word types of the Draern 960 and their plainest arithmetic (R7, R9, R23, R79). -/

namespace Sys2Proof

/-- A register element or memory word (R128, R233). -/
abbrev Word := BitVec 32
/-- A 64-bit value: a pair, a PC, a virtual address (R23, R69). -/
abbrev Word64 := BitVec 64
/-- One byte of memory. -/
abbrev Byte := BitVec 8
/-- A lane mask, bit l for lane slot l (R247). -/
abbrev Lanes := BitVec 32
/-- A native instruction word (R29). -/
abbrev IWord := BitVec 96


end Sys2Proof
end

