-- ==== Sys2Proof/Config.lean ====
section
/-! DEFINITION. What an implementation fixes and the free values: constants without a body, so that nothing can
evaluate them (each is named in the assumption log). -/

namespace Sys2Proof.Config

/-- The choice of the next agent, and of an index among equals, where the spec gives no order (log 1, log 7, log 8).
DESIGN CHOICE: applied to the counter State.freeCount. -/
opaque pick : Nat → Nat
/-- The copy engine's forecast `estimate` of R95 and R103 (log 16). DESIGN CHOICE: free value. -/
opaque estimate : Nat → BitVec 64
/-- An entropy-mode draw u of R223, 0 to 65,535 (log 17). DESIGN CHOICE: free value. -/
opaque entropy : Nat → BitVec 16
/-- The 64-bit hash of R302 over the words that stand for a signature's content (log 13). DESIGN CHOICE. -/
opaque signature : List Nat → BitVec 64
/-- The set of an L2 slice that a block index falls into (R66 gives 768 sets and no index; log 8). DESIGN CHOICE. -/
opaque l2Set : Nat → Nat
/-- The die at which a request that comes from no cluster reaches the L2, by its page (R74 does not state it; log 7). DESIGN CHOICE. -/
opaque arrivalDie : Nat → Nat
/-- ML-DSA-87 verification of R348: key, message digest, signature (log 19). DESIGN CHOICE. -/
opaque mlDsaVerify : List (BitVec 8) → List (BitVec 8) → List (BitVec 8) → Bool
/-- The signature that the device identity key makes over a report (R349; log 19). DESIGN CHOICE. -/
opaque mlDsaSign : List (BitVec 8) → List (BitVec 8)
/-- The CRC-32 of a Draern Link flit's bytes 0 to 251 (R345 names no polynomial; log 25). DESIGN CHOICE. -/
opaque linkCrc : List (BitVec 8) → BitVec 32
/-- The payload bytes of the flits that a port sends, by port, sequence and place (R347 gives the traffic no form; log 25). DESIGN CHOICE. -/
opaque linkPayload : Nat → BitVec 8
/-- The %grid that the scheduler chooses for an accepted grid, before it is moved to a free number (R244; log 32). DESIGN CHOICE. -/
opaque gridNumber : Nat → Nat
/-- The records that an error ring holds (R64 gives no size; log 31). DESIGN CHOICE. -/
opaque ringSize : Nat
/-- A value the spec does not state (an unstated value, log 33). DESIGN CHOICE: free value. -/
opaque freeWord : Nat → BitVec 64

end Sys2Proof.Config
end

