-- ==== Sys2Proof/Machine/Sparse.lean ====
section
/-! DEFINITION. Finite maps as lists of (key, value) pairs with rising keys. AMap.find answers what is present; get and
set read and write against a default value that is never listed, so that equal maps are equal lists. -/

namespace Sys2Proof

/-- A finite map: pairs with strictly rising keys. -/
abbrev AMap (α : Type) := List (Nat × α)

namespace AMap

/-- The value at a key, if listed. -/
def find {α : Type} : AMap α → Nat → Option α
  | [], _ => none
  | (k, v) :: m, n => if n = k then some v else find m n

/-- Insert or replace. -/
def put {α : Type} : AMap α → Nat → α → AMap α
  | [], n, x => [(n, x)]
  | (k, v) :: m, n, x => if n = k then (n, x) :: m else if n < k then (n, x) :: (k, v) :: m else (k, v) :: put m n x

/-- Remove a key. -/
def del {α : Type} (m : AMap α) (n : Nat) : AMap α := m.filter fun e => decide (e.1 ≠ n)

/-- Whether a key is listed. -/
def has {α : Type} (m : AMap α) (n : Nat) : Bool := (m.find n).isSome

/-- Change the value at a listed key. -/
def modify {α : Type} (m : AMap α) (n : Nat) (f : α → α) : AMap α :=
  match m.find n with
  | some v => m.put n (f v)
  | none => m

/-- Read with a default. -/
def get {α : Type} (d : α) (m : AMap α) (n : Nat) : α := (m.find n).getD d

/-- Write with a default: writing the default removes the entry. -/
def set {α : Type} [DecidableEq α] (d : α) (m : AMap α) (n : Nat) (v : α) : AMap α := if v = d then m.del n else m.put n v

/-- Keys strictly above a bound, and rising. -/
def above {α : Type} : Nat → AMap α → Bool
  | _, [] => true
  | b, (k, _) :: m => decide (b < k) && above k m

/-- Keys rise. -/
def sorted {α : Type} : AMap α → Bool
  | [] => true
  | (k, _) :: m => above k m

/-- Canonical form against a default: keys rise and no value is the default. -/
def wf {α : Type} [DecidableEq α] (d : α) (m : AMap α) : Bool := sorted m && m.all fun e => decide (e.2 ≠ d)

end AMap
end Sys2Proof
end

