-- ==== Sys2Proof/Syntax.lean ====
section
/-! DEFINITION. The syntax of the Draern 960: one constructor of Instr per row of spec/opcode_table.json. The first 124
constructors are the native instructions of Table 2.9, each with exactly the fields it uses (R29); the others are the
machine's events, each naming what is pending or what an outside agent asks. -/

namespace Sys2Proof

/-- A guard (R32): none, or execute where p[pred] equals the sense. -/
inductive Guard where
  | always
  | when (pred : BitVec 4) (sense : Bool)
deriving DecidableEq, Repr, Inhabited

/-- The operand types of Table 2.5 (value 15 is no type). -/
inductive OpType where
  | s32 | z32 | s64 | z64 | f32 | f64 | f16 | bf16 | f16x2 | bf16x2 | s8 | z8 | s16 | z16 | slot
deriving DecidableEq, Repr, Inhabited

/-- The roundings of R36. -/
inductive Rounding where
  | rn | rz | rd | ru | rna | rdyn
deriving DecidableEq, Repr, Inhabited

/-- The compare conditions of Table 2.6, by their value 0 to 13. -/
inductive Cond where
  | eq | ne | lt | le | gt | ge | num | nan | equ | neu | ltu | leu | gtu | geu
deriving DecidableEq, Repr, Inhabited

/-- An operand number of Table 2.4. -/
abbrev Reg := BitVec 8

/-- A source register with its empty action (R34). -/
structure Src where
  reg : Reg
  ea  : Bool
deriving DecidableEq, Repr, Inhabited

/-- Operand b: a register, or IMM (R33). -/
inductive SrcB where
  | reg (s : Src)
  | imm (v : Word)
deriving DecidableEq, Repr, Inhabited

/-- The four await entries of a trailer (R43); 0 names no register. -/
structure Await where
  a : Reg
  b : Reg
  c : Reg
  d : Reg
deriving DecidableEq, Repr, Inhabited

/-- The memory spaces of Table 2.7. -/
inductive Space where
  | g | s | f
deriving DecidableEq, Repr, Inhabited

/-- The scopes of Table 2.7 and Table 13.1. -/
inductive Scope where
  | plain | grp | core | dev | part | sys
deriving DecidableEq, Repr, Inhabited

/-- The orders of Table 2.7. -/
inductive Order where
  | plain | acq | rel | ar
deriving DecidableEq, Repr, Inhabited

/-- The cache hints of Table 2.7. -/
inductive Hint where
  | normal | stream | keep | nol1
deriving DecidableEq, Repr, Inhabited

/-- The atomic operations of Table 2.7. -/
inductive AtomOp where
  | add | min | max | and | or | xor | exch | cas
deriving DecidableEq, Repr, Inhabited

/-- The operations of REDL and SCANL (Table 10.9). -/
inductive RedOp where
  | add | min | max | and | or | xor
deriving DecidableEq, Repr, Inhabited

/-- The modes of SHFL (R195). -/
inductive ShflMode where
  | at | back | fwd | flip
deriving DecidableEq, Repr, Inhabited

/-- The modes of POLL (R197). -/
inductive PollMode where
  | every | some | same | mask
deriving DecidableEq, Repr, Inhabited

/-- The operand kinds of PCLR and PTST (R191). -/
inductive PoisonKind where
  | reg | pair | pred
deriving DecidableEq, Repr, Inhabited

/-- The forms of COPY (R90). -/
inductive CopyForm where
  | gs | sg | gg
deriving DecidableEq, Repr, Inhabited

/-- What TLBINV removes (R75), with the sources each kind uses. -/
inductive TlbKind where
  | va (a b c : Src) | asid (c : Src) | ipa (a b c : Src) | part (c : Src) | all
deriving DecidableEq, Repr, Inhabited

/-- What ICINV removes (R338). -/
inductive IcKind where
  | range (a b : Src) | all
deriving DecidableEq, Repr, Inhabited

/-! ### Fields by instruction shape -/

/-- guard, type, destination and b (MOV). -/
structure FB where
  g : Guard
  ty : OpType
  d : Reg
  b : SrcB
deriving DecidableEq, Repr, Inhabited

/-- guard, type, destination, a. -/
structure FA where
  g : Guard
  ty : OpType
  d : Reg
  a : Src
deriving DecidableEq, Repr, Inhabited

/-- guard, type, destination, a, b. -/
structure FAB where
  g : Guard
  ty : OpType
  d : Reg
  a : Src
  b : SrcB
deriving DecidableEq, Repr, Inhabited

/-- guard, type, destination, a, b, c. -/
structure FABC where
  g : Guard
  ty : OpType
  d : Reg
  a : Src
  b : SrcB
  c : Src
deriving DecidableEq, Repr, Inhabited

/-- A rounding instruction of one source. -/
structure FAR where
  g : Guard
  ty : OpType
  d : Reg
  a : Src
  rm : Rounding
deriving DecidableEq, Repr, Inhabited

/-- A rounding instruction of two sources, with .sat where it is taken. -/
structure FABR where
  g : Guard
  ty : OpType
  d : Reg
  a : Src
  b : SrcB
  rm : Rounding
  sat : Bool
deriving DecidableEq, Repr, Inhabited

/-- A compare writing a predicate (R37). -/
structure FCmp where
  g : Guard
  ty : OpType
  p : BitVec 4
  a : Src
  b : SrcB
  cond : Cond
deriving DecidableEq, Repr, Inhabited

/-- A cross-lane move: value a, selecting operand b, optional predicate P (R193). -/
structure FX where
  g : Guard
  ty : OpType
  d : Reg
  a : Src
  b : SrcB
  p : Option (BitVec 4)
deriving DecidableEq, Repr, Inhabited

/-- REDL and SCANL (R198). -/
structure FRed where
  g : Guard
  ty : OpType
  d : Reg
  a : Src
  op : RedOp
  rm : Rounding
deriving DecidableEq, Repr, Inhabited

/-- Only a destination. -/
structure FD where
  g : Guard
  d : Reg
deriving DecidableEq, Repr, Inhabited

/-- Only a source. -/
structure FS where
  g : Guard
  a : Src
deriving DecidableEq, Repr, Inhabited

/-- A destination and a source. -/
structure FDS where
  g : Guard
  d : Reg
  a : Src
deriving DecidableEq, Repr, Inhabited

/-- A memory access: address a with its offset, and the sub-fields of Table 2.7. -/
structure FMem where
  g : Guard
  ty : OpType
  space : Space
  scope : Scope
  order : Order
  hint : Hint
  a : Src
  off : Word
deriving DecidableEq, Repr, Inhabited

/-- An atomic access (no hint, R113). -/
structure FAtom where
  g : Guard
  ty : OpType
  space : Space
  op : AtomOp
  scope : Scope
  order : Order
  a : Src
  b : Src
  off : Word
deriving DecidableEq, Repr, Inhabited

/-- CWB and CINV (R125). -/
structure FRange where
  g : Guard
  a : Src
  b : Src
  off : Word
deriving DecidableEq, Repr, Inhabited

/-- A trailer with no operand of its own. -/
structure FTr where
  g : Guard
  aw : Await
deriving DecidableEq, Repr, Inhabited

/-- A trailer with a direct target IMM[19:0] (R43). -/
structure FTrT where
  g : Guard
  tgt : BitVec 20
  aw : Await
deriving DecidableEq, Repr, Inhabited

/-- A trailer with a register operand in D. -/
structure FTrD where
  g : Guard
  d : Reg
  aw : Await
deriving DecidableEq, Repr, Inhabited

/-- A trailer with a register operand in D and a timeout. -/
structure FTrDT where
  g : Guard
  d : Reg
  tmo : BitVec 20
  aw : Await
deriving DecidableEq, Repr, Inhabited

/-- MLOAD and MSTORE. -/
structure FTile where
  g : Guard
  tile : BitVec 3
  ty : OpType
  slot : BitVec 3
  a : Src
deriving DecidableEq, Repr, Inhabited

/-- The stages of translation, storage and logging that a unit number belongs to in a scrub pass (Table 3.6). -/
inductive ScrubLevel where
  | hbm | msc | metadata | l2 | l1 | scratch
deriving DecidableEq, Repr, Inhabited

/-- The request of PARTITION_CREATE: every budget of Table 18.1 (R314, R326). -/
structure PartReq where
  part : Nat
  clusters : List Nat
  shared : List Nat
  granules : List Nat
  dieLocal : Option (List Nat)
  colours : List Nat
  rate : Nat
  burst : Nat
  contexts : Nat
  queues : Nat
  heapBytes : Nat
  shadowBytes : Nat
  saveBytes : Nat
  s2root : Nat
  helm : List Nat
  wantVf : Bool
  features : BitVec 6
  byHostOrRoot : Bool
deriving DecidableEq, Repr, Inhabited

/-- The request of CONTEXT_CREATE (R304, R315, R269); it names the partition's frame heap (R136). -/
structure CtxReq where
  part : Nat
  ctx : Nat
  asid : Nat
  s1root : Nat
  shadowPool : Nat
  savePages : List Nat
  heapBase : Nat
  heapSize : Nat
  preempt : BitVec 64
  inject : BitVec 32
  pair : BitVec 32
  vlog : BitVec 128
deriving DecidableEq, Repr, Inhabited

/-- One entry of a time chart (Table 18.2). -/
structure ChartEntry where
  dur : Nat
  child : Nat
  ctx : Nat
deriving DecidableEq, Repr, Inhabited

/-- A time chart (Table 18.2). -/
structure Chart where
  epoch : Nat
  period : Nat
  clmask : BitVec 40
  entries : List ChartEntry
deriving DecidableEq, Repr, Inhabited

/-- Where the loader places a section: its VA, for native text the VAs of its table, its image and its segment descriptor, and for DPF
text those of its target map and its descriptor; segVa 0 is a section without a descriptor. -/
structure CodePlace where
  va : Nat
  mapVa : Nat
  imageVa : Nat
  segVa : Nat
deriving DecidableEq, Repr, Inhabited

/-- A code object as it comes to the loader (R328): the bytes of the file, and where the loader places each section and the global
offset table. -/
structure CodeFile where
  bytes : List (BitVec 8)
  places : List CodePlace
  gotVa : Nat
deriving DecidableEq, Repr, Inhabited

/-- A section of a code object (Table 19.1): kind 0 native text, 1 DPF text, 2 data, 3 constant, 4 zero-filled. -/
structure ObjSection where
  kind : Nat
  align : Nat
  size : Nat
  va : Nat
  mapVa : Nat
  imageVa : Nat
  segVa : Nat
  words : List (BitVec 32)
deriving DecidableEq, Repr, Inhabited

/-- A symbol: its section and offset, or undefined; kernel headers are marked (Table 19.1). -/
structure ObjSymbol where
  sect : Option Nat
  value : Nat
  header : Bool
deriving DecidableEq, Repr, Inhabited

/-- A relocation record (R330). -/
structure ObjReloc where
  site : Nat
  ty : Nat
  sect : Nat
  sym : Nat
  addend : BitVec 64
deriving DecidableEq, Repr, Inhabited

/-- The parts of a code object as the loader has read them from its file (R328), each section with its place. -/
structure CodeObject where
  sections : List ObjSection
  symbols : List ObjSymbol
  relocs : List ObjReloc
  gotVa : Nat
deriving DecidableEq, Repr, Inhabited

/-- What a gate instruction asks of the unit: GSIG, GREAD, GWAIT's first arming. -/
inductive GateAct where
  | sig (set : Bool) (v : BitVec 64)
  | read
  | arm (threshold : BitVec 64)
deriving DecidableEq, Repr, Inhabited

/-- An access or gate operation that a remote window carries between modules (R347): the peer's physical address, whole words with their codes and marks
(R5), an atomic or a RED with its operands, and a gate operation with the handle, the issuer's partition and the right that it needs. -/
inductive PeerOp where
  | read (pa words : Nat)
  | write (pa : Nat) (data : BitVec 32) (code : BitVec 8) (mark : Bool)
  | atomic (pa : Nat) (op : AtomOp) (ty : OpType) (data : List (BitVec 32)) (returns : Bool)
  | gate (h : BitVec 32) (part right : Nat) (act : GateAct)
deriving DecidableEq, Repr, Inhabited

/-- A remote window that Smilor maps into a partition's stage-2 tables (R347): its physical addresses, which are no HBM, and the port and address that they
stand for at the peer; and the gate indices from gate on, so many as gates says, that stand for the peer's gates from peerGate on (log 25). -/
structure RWindow where
  part : Nat
  base : Nat
  size : Nat
  port : Nat
  peer : Nat
  gate : Nat := 0
  gates : Nat := 0
  peerGate : Nat := 0
deriving DecidableEq, Repr, Inhabited

/-- A Draern Link flit (R345): 256 bytes, what the FEC decoder made of it, and the operations that its payload carries, whose form the spec does not
give (log 25). -/
structure Flit where
  bytes : List (BitVec 8)
  fecFixed : Nat := 0
  fecFailed : Bool := false
  ops : List PeerOp := []
deriving DecidableEq, Repr, Inhabited

/-- The fields of a control register that have no behaviour of their own (R11, CONTROL_REGISTER_WRITE), the doublewords of a partition's queue and
context windows by their offset (R276, R305) and of BAR0 as the host writes it (R340), the gate records that Smilor creates and changes (R318), and the remote windows that it maps (R347). -/
inductive CtlReg where
  | queueQuantum (part q : Nat) (v : BitVec 32)
  | queueDeficit (part q : Nat) (v : BitVec 64)
  | queueDepth (part q : Nat) (v : BitVec 12)
  | queueCtx (part q : Nat) (v : BitVec 4)
  | queueDisable (part q : Nat)
  | queueWakeClear (part q : Nat) (v : BitVec 32)
  | queueErrClear (part q : Nat) (v : Bool)
  | helmWakeClear (helm : Nat) (v : BitVec 32)
  | scopeClamps (asid : Nat) (v : BitVec 32)
  | channelBase (part ch : Nat) (cpl : Bool) (v : BitVec 64)
  | channelSize (part ch : Nat) (v : BitVec 4)
  | channelErrClear (part ch : Nat) (v : BitVec 4)
  | channelDisable (part ch : Nat)
  | scrubPeriod (lvl : ScrubLevel) (ms : Nat)
  | bucket (stack part : Nat) (rate burst : BitVec 16)
  | compress (granule : Nat) (on : Bool)
  | errorRingRead (ring : Nat) (n : Nat)
  | queueWindow (part off : Nat) (v : BitVec 64)
  | contextWindow (part off : Nat) (v : BitVec 64)
  | bar0 (part off : Nat) (v : BitVec 64)
  | gateRecord (gate : Nat) (lastfill value : BitVec 64) (tokens burst rate gen : BitVec 16) (acl : List (BitVec 16)) (v : Bool)
  | remoteWindow (w : RWindow)
  | reserved
deriving DecidableEq, Repr, Inhabited

/-- The outcome of a host-side DMA read (R342): the bus address that was read, and the word list read or a failure. -/
structure HostDma where
  bus : Nat := 0
  ok : Bool
  words : List (BitVec 32)
deriving DecidableEq, Repr, Inhabited

/-- Every row of spec/opcode_table.json. -/
inductive Instr where
  -- class 0, integer and address
  | nop
  | mov (x : FB)
  | sel (x : FAB) (p : BitVec 4)
  | add (x : FAB) | sub (x : FAB) | adds (x : FAB)
  | neg (x : FA)
  | mul (x : FAB) | mulh (x : FAB)
  | mad (x : FABC)
  | dot4 (x : FABC) (sat : Bool)
  | div (x : FAB) | rem (x : FAB)
  | min (x : FAB) | max (x : FAB)
  | abs (x : FA)
  | and (x : FAB) | or (x : FAB) | xor (x : FAB) | andn (x : FAB)
  | not (x : FA)
  | shl (x : FAB) | shr (x : FAB) | sar (x : FAB) | rol (x : FAB)
  | bfx (x : FAB) | bfi (x : FABC)
  | popc (x : FA) | clz (x : FA) | ctz (x : FA) | brev (x : FA)
  | add64 (x : FAB) | sub64 (x : FAB)
  | lea (x : FAB) (sh : BitVec 5)
  | isetp (x : FCmp)
  | bsel (x : FABC)
  -- class 1, floating point
  | fadd (x : FABR) | fsub (x : FABR) | fmul (x : FABR)
  | ffma (x : FABR) (c : Src)
  | fmin (x : FAB) | fmax (x : FAB) | fminm (x : FAB) | fmaxm (x : FAB)
  | fabs (x : FA) | fneg (x : FA)
  | fsetp (x : FCmp)
  | fclass (x : FA)
  | frnd (x : FAR)
  | fscale (x : FABR)
  | fdiv (x : FABR)
  | fsqrt (x : FAR) | frcp (x : FAR) | frsq (x : FAR)
  | fexp2 (x : FA) | flog2 (x : FA) | fsin (x : FA) | fcos (x : FA) | ftanh (x : FA)
  | pclr (g : Guard) (k : PoisonKind) (d : Reg)
  | ptst (g : Guard) (k : PoisonKind) (p : BitVec 4) (a : Src)
  -- class 2, conversion
  | cvt (x : FAR) (sty : OpType) (sat : Bool) (slot : BitVec 3)
  | tfpk (g : Guard) (slot : BitVec 3) (hi : Bool) (d : Reg) (a b c : Src)
  | tfunpk (g : Guard) (slot : BitVec 3) (hi : Bool) (d : Reg) (a : Src)
  | pack2 (x : FABR)
  | slotq (g : Guard) (slot : BitVec 3) (d : Reg)
  -- class 3, cross-lane, predicate, special
  | shfl (x : FX) (mode : ShflMode)
  | shflr (x : FX)
  | xput (x : FX)
  | poll (g : Guard) (mode : PollMode) (d : Reg) (p : BitVec 4)
  | redl (x : FRed)
  | scanl (x : FRed) (excl : Bool)
  | kin (x : FA) (p : Option (BitVec 4)) (leader : Bool)
  | plop (g : Guard) (d a b c : BitVec 4) (table : BitVec 8)
  | pget (x : FD)
  | pput (x : FS) (mask : BitVec 16)
  | movs (x : FD) (num : BitVec 8)
  | movsw (x : FS) (num : BitVec 8)
  -- class 4, memory
  | ld (m : FMem) (d : Reg)
  | st (m : FMem) (b : Src)
  | atom (m : FAtom) (d : Reg)
  | red (m : FAtom)
  | pref (g : Guard) (space : Space) (hint : Hint) (a : Src) (off : Word)
  | faddr (x : FDS) (off : Word)
  | cwb (x : FRange)
  | cinv (x : FRange)
  | qld (m : FMem) (q : BitVec 4) (b : Src)
  -- class 5, engines
  | copy (g : Guard) (form : CopyForm) (a b c : Src)
  | seal (x : FD)
  | cwait (x : FS)
  | sleepto (x : FS)
  | cstat (x : FDS) (wide : Bool)
  | pgo (g : Guard) (a b : Src)
  | pstop (g : Guard) (flush : Bool)
  | qstat (x : FDS) (wide : Bool)
  | sabind (x : FD)
  | safree (g : Guard)
  | saload (g : Guard) (a : Src) (cells : Option (Src × Src))
  | saseed (x : FS) (ent : Bool)
  | saclamp (g : Guard) (a b : Src) (c : Option Src)
  | sasweep (g : Guard) (cnt : Bool) (d : Reg) (a b : Src)
  | saread (x : FDS)
  | sacnt (x : FDS) (clr : Bool)
  | sastat (x : FD) (wide : Bool)
  -- class 6, matrix
  | mma (g : Guard) (tile : BitVec 3) (slotA slotB : BitVec 3) (a b c : Src)
  | mzero (g : Guard) (tile : BitVec 3)
  | mload (x : FTile)
  | mstore (x : FTile)
  | mmov (g : Guard) (tile : BitVec 3) (a : Src) (b : Reg)
  | mpin (g : Guard) (slot : BitVec 3) (a c : Src)
  | munpin (g : Guard) (slot : BitVec 3) (a c : Src)
  | mrel (g : Guard) (tile : BitVec 3)
  | msave (g : Guard) (tile : BitVec 3) (a b : Src)
  | mrest (g : Guard) (tile : BitVec 3) (a b : Src)
  -- class 7, trailers
  | trail (x : FTr)
  | br (x : FTrT)
  | brx (x : FTrD)
  | call (x : FTrT)
  | callx (x : FTrD)
  | ret (x : FTr)
  | reform (x : FTrT)
  | exit (aw : Await)
  | lend (x : FTrT)
  | joinw (g : Guard) (p : BitVec 4) (tmo : BitVec 20) (aw : Await)
  | bar (aw : Await)
  | mwait (x : FTrDT)
  | rte (aw : Await)
  | sleep (x : FTrD)
  | gwait (x : FTrDT)
  -- class 7, others
  | loop (g : Guard) (a : Src) (tgt : BitVec 20)
  | spawn (g : Guard) (d : Reg) (a : Src) (tgt : BitVec 20)
  | launch (x : FDS)
  | fence (g : Guard) (scope : Scope) (order : Order)
  | trap (g : Guard) (imm : Word)
  | swi (g : Guard) (helm : Bool) (bit : BitVec 5) (queue : BitVec 6)
  | featq (g : Guard) (d : Reg) (k : BitVec 4)
  | icinv (g : Guard) (k : IcKind)
  | tlbinv (g : Guard) (k : TlbKind)
  | gsig (g : Guard) (set : Bool) (a b : Src)
  | gread (x : FDS)
  -- events: runs, fetch, memory
  | runStart (core slot : Nat)
  | awaitSetSatisfied (core group split : Nat)
  | l1InstructionFill (core : Nat) (asid : Nat) (line : Word64)
  | lineRefetch (core : Nat) (asid : Nat) (line : Word64)
  | loadDataReturn (core id : Nat)
  | longLatencyResult (core id : Nat)
  | l1DataFill (core id : Nat)
  | homeSliceAccess (core id : Nat)
  | baseDieRequest (id : Nat)
  | mscColourFlush (colours : BitVec 16)
  | scrubPeriodExpiry (lvl : ScrubLevel)
  | errorRecordTimeout (unit : Nat)
  | tableWalk (id : Nat)
  | tlbinvComplete (core group : Nat)
  | cwbComplete (core group : Nat)
  | icinvComplete (core group : Nat)
  | fenceComplete (core id : Nat)
  -- events: engines
  | copyRequestComplete (core id : Nat)
  | batchWaitEnd (core group split : Nat)
  | promiseExpiry (core group split : Nat)
  | pilotIssue (core : Nat)
  | qldPush (core id : Nat)
  | pilotStopComplete (core : Nat) (group : Nat)
  | mmaChunkFetch (core : Nat)
  | mmaChunkAdd (core : Nat)
  | tileClaimUnblock (core group : Nat)
  | sweepColourPhase (cluster : Nat)
  -- events: strands, groups, teams
  | splitFiling (core group split : Nat)
  | binProofTimerExpiry (core bin : Nat)
  | binLaunch (core bin : Nat)
  | barrierComplete (core team : Nat)
  | joinwTimeout (core group : Nat)
  | mwaitWake (core group split lane : Nat)
  | mwaitTimeout (core group split lane : Nat)
  | sleepWake (core group split lane : Nat)
  | gwaitTimeout (core group split : Nat)
  | gateUnitOperation (gate : Nat)
  | teamRetire (core team : Nat)
  | frameDiscard (part : Nat) (base : Nat)
  -- events: scheduling and control
  | dispatchChoice (part : Nat)
  | kernelPrefetchComplete (core team : Nat)
  | queueSubmit (part q : Nat) (record : Word64)
  | queueEnable (part q : Nat)
  | prioWrite (part q : Nat) (v : BitVec 2)
  | controlRegisterWrite (r : CtlReg)
  | stopRecordsComplete (asid : Nat)
  | signatureMatch (pair : Nat)
  | injectWrite (asid : Nat) (v : BitVec 32)
  | pairWrite (asid : Nat) (v : BitVec 32)
  | preemptWrite (asid : Nat) (v : BitVec 64)
  | vlogWrite (asid : Nat) (v : BitVec 128)
  -- events: contexts and partitions
  | contextCreate (r : CtxReq)
  | switchTick (root : Nat)
  | drainExpiry (asid : Nat)
  | forceExpiry (asid : Nat)
  | deadlineExpiry (asid : Nat)
  | contextSaveComplete (asid : Nat)
  | contextResume (asid : Nat)
  | partitionCreate (r : PartReq)
  | partitionDestroy (part : Nat)
  | tokenBucketRefill
  | timeChartInstall (root : Nat) (c : Chart)
  | gateRetire (gate : Nat)
  | partitionMigrate (part : Nat) (clusters : List Nat) (features : List (BitVec 32))
  | loadCodeObject (asid : Nat) (o : CodeFile)
  | dpfTranslation (asid : Nat) (header : Word64) (seg : Word64) (pcs : List (Word64 × Word64))
  | translationSwap (core team : Nat)
  -- events: host, links, boot, power
  | cmdtailWrite (part ch : Nat) (v : BitVec 32)
  | cplheadWrite (part ch : Nat) (v : BitVec 32)
  | channelEnable (part ch : Nat)
  | hostCmdNop (part ch : Nat) (rd : HostDma) (wrOk : Bool)
  | hostCmdSubmit (part ch : Nat) (rd : HostDma) (wrOk : Bool)
  | hostCmdCopyToDevice (part ch : Nat) (rd data : HostDma) (wrOk : Bool)
  | hostCmdCopyToHost (part ch : Nat) (rd : HostDma) (dataOk wrOk : Bool)
  | hostIngressWrite (asid : Nat) (va : Word64) (words : List (BitVec 32))
  | hostEgressRead (asid : Nat) (va : Word64) (count : Nat)
  | functionLevelReset (part : Nat)
  | linkFlitReceive (port : Nat) (f : Flit)
  | linkMarginEvaluation (port : Nat) (lowMargin : Bool)
  | linkRetrainComplete (port : Nat)
  | linkStepUp (port : Nat)
  | powerOnBoot
  | measurementExtend (reg : Nat) (digest : List (BitVec 8))
  | attestationRequest (part : Nat) (nonce : List (BitVec 8))
  | latencyToleranceWrite (part us : Nat)
  | powerStateExit
  | staggerExpiry (pair : Nat)
  | powerStateEntryComplete
  | supervisorContextReset (asid : Nat)
  | contextDestroy (asid : Nat)
deriving DecidableEq, Repr

end Sys2Proof
end

