-- ==== Sys2Proof/Machine/State.lean ====
section
/-! DEFINITION. The state of the Draern 960 as plain data, and the state after reset. Keys of the maps: an executor core is
0 to 639 for a compute core and 640 + k for Helm core k; a group key is core * 256 + %group, with 128 + j for pilot group j;
a strand key is team key * 2048 + rank, with 1024 + l for pilot lane l; a block is PA / 256. -/

namespace Sys2Proof.Machine

/-! ### Words with their codes -/

/-- A memory word with its datum check code and its mark (R63, R79). -/
structure TWord where
  data : Word := 0
  code : Byte := 0x55
  mark : Bool := false
deriving DecidableEq, Repr, Inhabited

/-- A register element: value, poison, full (R128), and an error that a read will find (R132): 1 correctable, 2 not. A write replaces
the element and its error. -/
structure Elem where
  val : Word := 0
  poison : Bool := false
  full : Bool := true
  err : BitVec 2 := 0
deriving DecidableEq, Repr, Inhabited

/-- One loop-stack entry (R264). -/
structure LoopEntry where
  count : Word
  start : Word64
deriving DecidableEq, Repr, Inhabited

/-- A reservation: the physical 64-byte line and the model's count of its writes when the read was performed (R270). -/
structure Reservation where
  line : Nat
  seq : Nat
deriving DecidableEq, Repr, Inhabited

/-- A sealed batch that is kept: its number, promise and REISSUED bit (R95, R99, R103). -/
structure Batch where
  num : Word
  promise : Word64
  reissued : Bool := false
deriving DecidableEq, Repr, Inhabited

/-- A strand's own state (R130, R252, R268); pe the predicates whose parity fails (R132); fseq counts the results that its core pair has
forwarded for it (R301); fenced: it has executed a FENCE with a release, after which
each of its writes is a release, and released: such a FENCE at .dev or wider (R236). -/
structure Strand where
  uid : Nat := 0
  x : AMap Elem := []
  p : BitVec 16 := 0
  pp : BitVec 16 := 0
  pe : BitVec 16 := 0
  fmode : Word := 0
  rets : List Word64 := []
  loops : List LoopEntry := []
  sealedNo : Word := 0
  completeNo : Word := 0
  batches : List Batch := []
  reservation : Option Reservation := none
  arrived : Bool := false
  vpos : Nat := 0
  fseq : Nat := 0
  fenced : Bool := false
  released : Bool := false
deriving DecidableEq, Repr, Inhabited

/-! ### Groups (R246 to R250) -/

/-- One lane's MWAIT: its monitored physical line if it has one, the count of writes it waits to pass, its deadline, and its place
in the order in which lines entered the core's monitor table (R270). -/
structure LaneWait where
  lane : Nat
  line : Option Nat
  seq : Nat
  deadline : Option Nat
  order : Nat := 0
  woken : Bool := false
deriving DecidableEq, Repr, Inhabited

/-- One lane's batch wait: the batch, and for SLEEPTO that the promise ends it (R97). -/
structure BatchWait where
  lane : Nat
  num : Word
  sleep : Bool
  ended : Bool := false
  missed : Bool := false
deriving DecidableEq, Repr, Inhabited

/-- What a parked split waits for (Table 14.2). asking: a GWAIT that its gate's unit has not answered, with a serial and the PC after it, the split standing at
the GWAIT. gwait: the value last read, none before it is armed, and its status and value once the wait has been decided (R325). -/
inductive Wait where
  | bar
  | joinw (at_ : Word64) (pred : BitVec 4) (deadline : Option Nat) (timeout : Nat)
  | mwait (ws : List LaneWait)
  | sleep (ws : List (Nat × Word64))
  | gwait (handle : Word) (threshold : Word64) (deadline : Option Nat) (timeout : Nat) (d : Reg) (last : Option Word64)
      (res : Option (Word × Word64))
  | asking (id : Nat) (next : Word64) (handle : Word) (threshold : Word64) (timeout : Nat) (d : Reg)
  | fence
deriving DecidableEq, Repr, Inhabited

/-- The states of a split (Table 14.2), and a split that has executed EXIT and whose strands end as their await sets fill (R263). -/
inductive SplitState where
  | running | awaiting | ready
  | parked (w : Wait)
  | filing (target : Word64)
  | exiting
  | arriving
deriving DecidableEq, Repr, Inhabited

/-- A line of the L1 instruction cache, native or DPF syllables (R334); asked: the runs whose fetches asked for its fill. -/
structure ILine where
  asid : Nat
  va : Nat
  words : List TWord
  refetch : Bool := false
  asked : List Nat := []
deriving DecidableEq, Repr, Inhabited

/-- The run state (R41, R42): temporaries keyed by lane * 8 + i, their written flags, the instructions issued, the lanes
skipping to a loop's end (R264), the armed batch wait (R97), what scratchpad loads read before a rollback of the run's speculation,
which no rollback undoes (R242), the inputs of an instruction that the voyage log has had no room for, of each lane the value and whether it has
been taken (R311), the lines that its fetch asked for and an ICINV met on their way, which it still gets (R334), and a serial that names the run. -/
structure RunState where
  t : AMap Elem := []
  tw : BitVec 8 := 0
  count : Nat := 0
  skip : List (Nat × Word64) := []
  bwait : Option (List BatchWait) := none
  kept : AMap (List TWord) := []
  inputs : Option (List (Nat × Word64 × Bool)) := none
  late : List ILine := []
  id : Nat := 0
deriving DecidableEq, Repr, Inhabited

/-- A split: PC, lane mask, state, the await entries of each lane set, the batch waits still to end (it is parked while there are
any, R97), the inputs of its wait's end that the voyage log has had no room for (R311), how often it was passed over, the run that it continues where one was interrupted (R42, R247, R249, R250), and whether its PC
is an entry that a transfer of control has still to reach (R25). -/
structure Split where
  pc : Word64
  mask : Lanes
  st : SplitState := .ready
  awaits : List (Lanes × List Reg) := []
  bw : List BatchWait := []
  took : List (Nat × Word64 × Bool) := []
  passed : Nat := 0
  cont : Option RunState := none
  entry : Bool := false
deriving DecidableEq, Repr, Inhabited

/-- A held trap (R290). -/
structure HeldTrap where
  cause : Nat
  epc : Word64
  tval : Word64
  lanes : Lanes
deriving DecidableEq, Repr, Inhabited

/-- What an interrupted group keeps while it is in handler mode (R289): its splits, and which was interrupted. -/
structure SavedRun where
  splits : List Split
  idx : Nat
deriving DecidableEq, Repr, Inhabited

/-- What one lane of a TLBINV names (R77): a range of an ASID's VAs, an ASID, a range of a partition's IPAs, a partition, everything. -/
inductive TlbSel where
  | va (asid lo n : Nat) | asid (asid : Nat) | ipa (part lo n : Nat) | part (p : Nat) | all
deriving DecidableEq, Repr, Inhabited

/-- What the issuing split waits for within a run: it issues nothing further until this is complete (R78, R126, R153, R338), or
until the tile it would claim may be tried again (R203), or until a gate unit has answered it (R322). -/
inductive Block where
  | cwb | tlbinv (mark : Nat) (sels : List TlbSel) | icinv | pstop (flush : Bool) | claim (tile : Nat) | gate
deriving DecidableEq, Repr, Inhabited

/-- A gate unit's answer to a gate instruction (R320 to R325): refused; the retry value of an empty bucket; accepted, a GSIG's or GREAD's operation then
standing at the unit; or, to a peer module, performed, with VALUE as last read and, for a GWAIT, the gate and threshold that it is armed with and how it ended. -/
inductive GateAnswer where
  | denied
  | empty (retry : Word64)
  | accepted
  | done (val : Word64) (armed : Option (Nat × Word64)) (res : Option (Word × Word64))
deriving DecidableEq, Repr, Inhabited

/-- A group, or a pilot group. sigWait: the leader's signature
that its irrevocable instruction waits for (R302). fullWait: the queue, set * 16 + q, on which a pilot group's QLD is stalled
(Table 8.1); copyWait: its QLD waits for the group's earlier copies (R150). -/
structure Group where
  gid : Nat := 0
  team : Nat
  qset : Nat := 0
  age : Nat := 0
  fromPool : Bool := false
  remap : AMap Nat := []
  splits : List Split := []
  g : AMap Elem := []
  run : RunState := {}
  cause : Word := 0
  causebits : Word := 0
  epc : Word64 := 0
  tval : Word64 := 0
  hm : Bool := false
  held : List HeldTrap := []
  saved : Option SavedRun := none
  passed : Nat := 0
  block : Option Block := none
  gate : Option GateAnswer := none
  sigWait : Option Nat := none
  fullWait : Option Nat := none
  copyWait : Bool := false
deriving DecidableEq, Repr, Inhabited


/-- A proofing bin (R251): key, strands in order of entry, timer start (while the team is saved, the clk that have run), the queue
set, launching, whether any of its strands was filed by REFORM or SPAWN and not by a fold (R246), and the strand whose need of a bin has made it
launch. -/
structure Bin where
  team : Nat
  pc : Word64
  ranks : List Nat
  started : Nat
  qset : Nat
  launching : Bool := false
  entered : Bool := true
  forced : Option Nat := none
deriving DecidableEq, Repr, Inhabited

/-! ### Operations in flight -/

/-- Where a result goes: strand, its uid, the group and run for g and t destinations, the issuing instruction's number, the
lane, whether it is the highest active lane, and the destination operand. -/
structure Dest where
  strand : Nat
  uid : Nat
  gk : Nat
  gid : Nat
  run : Nat
  isn : Nat
  lane : Nat
  top : Bool
  reg : Reg
  pair : Bool
deriving DecidableEq, Repr, Inhabited

/-- The unit that performs an access (R121). -/
inductive AccUnit where
  | l1 | slice | scratch
deriving DecidableEq, Repr, Inhabited

/-- What an access does at its unit. -/
inductive AccKind where
  | load | store | atom (op : AtomOp) | red (op : AtomOp)
deriving DecidableEq, Repr, Inhabited

/-- One lane's access in flight (R113 to R123). addr is the physical address, or the byte of the core's scratchpad; va the virtual
address, or the offset in the team's allocation. got holds the words already performed, for a sub-word store at a home slice the word
read; fwd is the key under which a core pair forwards them; seen is the line and moment of a read at .dev or wider (R270); failed: a
bad word has stopped it in a context fault, and it is made again on resume; fenced: a write after a release fence of its strand, and owed: after one at
.dev or wider (R236); hit: it was found in the L1 as it issued, or is made again after a halt, and has no translation of its own (R68). -/
structure Req where
  core : Nat
  asid : Nat
  kind : AccKind
  unit : AccUnit
  ty : OpType
  addr : Nat
  va : Nat
  width : Nat
  dest : Dest
  data : List Word := []
  hint : Hint := .normal
  rel : Bool := false
  acq : Bool := false
  wide : Bool := false
  got : List (Option TWord) := []
  fwd : Option Nat := none
  rights : BitVec 3 := 0
  pc : Word64 := 0
  done : Bool := false
  sub : Bool := false
  seen : Option Reservation := none
  failed : Bool := false
  fenced : Bool := false
  owed : Bool := false
  hit : Bool := false
deriving DecidableEq, Repr, Inhabited

/-- A fill of the L1 in flight (R106, R112, R124). -/
structure Fill where
  core : Nat
  asid : Nat
  va : Nat
  pa : Nat
  rights : BitVec 3
  mt : BitVec 2
  installs : Bool := true
  hint : Hint := .normal
deriving DecidableEq, Repr, Inhabited

/-- A long-latency result in flight (R177, R324): its words and poison, the destination, the key under which a core pair
forwards it, and the KIND of the input that it is, if it is one (R311). -/
structure Long where
  core : Nat
  dest : Dest
  vals : List Word
  poison : Bool
  fwd : Option Nat := none
  logged : Option Nat := none
deriving DecidableEq, Repr, Inhabited

/-- A fence in flight (R241); the accesses with lower numbers are earlier. sigs: the leader's signatures that a release waits for
(R302). -/
structure FenceOp where
  core : Nat
  gk : Nat
  strands : List Nat
  wide : Bool
  rel : Bool
  acq : Bool
  sigs : Nat := 0
  pc : Word64
deriving DecidableEq, Repr, Inhabited

/-- The batch a copy request belongs to (R95, R252). -/
inductive CopyBatch where
  | unsealed | sealed (n : Word) | orphan
deriving DecidableEq, Repr, Inhabited

/-- A copy request (R90 to R93). failed: it has raised COPY_FAULT, and its batch never completes (R102); late: it has met a fault after the stop records
of its context's halt, and meets it again after the resume; reissued: it has been made again while unsealed (R103); fenced and owed as in Req. -/
structure CopyReq where
  core : Nat
  team : Nat
  strand : Nat
  uid : Nat
  lane : Nat
  pilot : Bool
  form : CopyForm
  dims : Nat := 1
  strided : Nat
  packed : Nat
  words : Nat
  rows : Nat
  planes : Nat
  rstride : Int
  pstride : Int
  moved : AMap Bool := []
  batch : CopyBatch := .unsealed
  cancelled : Bool := false
  failed : Bool := false
  late : Bool := false
  reissued : Bool := false
  fenced : Bool := false
  owed : Bool := false
deriving DecidableEq, Repr, Inhabited

/-- A QLD that has passed its waits (R150): the queue in which it holds an entry, the lanes' physical and virtual addresses, the words read so
far. -/
structure QldOp where
  core : Nat
  gk : Nat
  team : Nat
  q : Nat
  set_ : Nat
  lanes : Lanes
  pas : AMap Nat
  vas : AMap Nat := []
  got : AMap TWord := []
deriving DecidableEq, Repr, Inhabited

/-- A queue entry: 32 words and the clk of its push (R147, R149). -/
structure QEntry where
  words : AMap TWord
  clk : Nat
deriving DecidableEq, Repr, Inhabited

/-- A tile descriptor's value (Table 11.2). -/
structure TileDesc where
  base : Nat
  stride : Int
  scratch : Bool
deriving DecidableEq, Repr, Inhabited

/-- What a speculating split goes back to (R242, R243): its fence, the group and the split's strands as they stood after the FENCE,
the PC before it, the recorded L1 lines, each with a mask of the words read (bits 31 to 0 those that were not dirty as they were read, bits 63 to 32 those that
were), the scratchpad words read, and the queue entries popped since. -/
structure Spec where
  fence : Nat
  grp : Group
  strands : AMap Strand
  fencePc : Word64
  lines : AMap Nat := []
  kept : AMap (List TWord) := []
  pops : List (Nat × QEntry) := []
deriving DecidableEq, Repr, Inhabited

/-- The operation of a matrix instruction in flight; MREL, MPIN and MUNPIN are performed as they issue. -/
inductive MOp where
  | mma (a b : TileDesc) (slotA slotB : Word) (k : Nat)
  | mzero
  | mload (a : TileDesc) (ty : OpType) (slot : Word)
  | mstore (a : TileDesc) (ty : OpType) (slot : Word)
  | mmov (sel : AMap Nat) (dests : List Dest)
deriving DecidableEq, Repr, Inhabited

/-- A matrix instruction in flight (R201, R218, R366): its lanes with their strands, whether a lane owns four rows, the chunks
added, the words fetched for the next one with the L2 blocks they pin, whether the check of Table 11.1 is to be made again, and the strands that had
executed a release fence, those at .dev or wider by themselves (R236). -/
structure MInstr where
  team : Nat
  gk : Nat
  pc : Word64
  isn : Nat
  tile : Nat
  strands : AMap Nat
  four : Bool
  op : MOp
  chunks : Nat := 0
  fetched : Option (AMap TWord × AMap TWord) := none
  blocks : List Nat := []
  check : Bool := false
  fenced : List Nat := []
  owed : List Nat := []
deriving DecidableEq, Repr, Inhabited

/-- The tag of an owned tile or a bound array: ASID, %grid, %team (R202, R219). -/
structure Tag where
  asid : Nat
  grid : Nat
  team : Nat
deriving DecidableEq, Repr, Inhabited

/-- An accumulator tile: its tag and its elements, keyed by row * 64 + column (R201, R202). -/
structure Tile where
  tag : Option Tag := none
  elems : AMap Word := []
deriving DecidableEq, Repr, Inhabited

/-- A pin entry (R216). -/
structure Pin where
  team : Nat
  desc : TileDesc
  k : Nat
  slot : Word
  blocks : List Nat
deriving DecidableEq, Repr, Inhabited

/-! ### The sampling array (R219) -/

/-- A cell (Table 12.1). -/
structure SCell where
  spin : Bool := false
  bias : BitVec 16 := 0
  nbrs : List (BitVec 14 × BitVec 8) := []
  colour : BitVec 3 := 0
  clamp : Bool := false
  counter : BitVec 16 := 0
deriving DecidableEq, Repr, Inhabited

/-- An array instruction in flight (R225); SABIND, SAFREE, SALOAD and SASTAT are performed as they issue. -/
inductive SOp where
  | seed (v : Word) (ent : Bool)
  | clamp (items : List (Nat × Word × Option Word))
  | sweep (beta : BitVec 16) (count : Nat) (cnt : Bool)
  | read (idx : AMap Nat)
  | cnt (idx : AMap Nat) (clr : Bool)
deriving DecidableEq, Repr, Inhabited

/-- An array instruction with its team, the lanes' destinations and their keys for a core pair's forwarding. -/
structure SInstr where
  team : Nat
  gk : Nat
  pc : Word64
  dests : List (Dest × Option Nat)
  op : SOp
deriving DecidableEq, Repr, Inhabited

/-- One cluster's sampling array. drawn: the draws already made for the colour phase in progress, where the voyage log has had no room for all
(R311). -/
structure Sampler where
  bound : Option Tag := none
  cells : AMap SCell := []
  chart : AMap (BitVec 16) := []
  loaded : Bool := false
  ncolm1 : BitVec 3 := 0
  seed : Word := 0
  entropy : Bool := false
  sc : Word := 0
  queue : List SInstr := []
  colour : Nat := 0
  remain : Nat := 0
  drawn : AMap Nat := []
deriving DecidableEq, Repr, Inhabited

/-! ### Teams and grids -/

/-- The decoded kernel header (Table 19.3). -/
structure KHeader where
  prefetch : List (BitVec 16) := []
  segdesc : Word64 := 0
  trapent : Word64 := 0
  pilotent : Word64 := 0
  execent : Word64 := 0
  frameb : Nat := 64
  scratchb : Nat := 0
  proof : Nat := 0
  capacity : Nat := 32
  regs : Nat := 16
  level : Nat := 0
  prot : Nat := 0
  pmask : BitVec 3 := 0
  misgrp : Bool := false
  noxlate : Bool := false
  form : Nat := 0
deriving DecidableEq, Repr, Inhabited

/-- A segment descriptor (Table 19.4). -/
structure SegDesc where
  textbase : Word64
  map : Word64
  image : Word64
  count : Nat
deriving DecidableEq, Repr, Inhabited

/-- Everything a team's barrier checkpoint records (R103, R155, R268): strands, groups, queues, pilot group, bins, scratchpad, tiles and
mask, array, and the copy requests outstanding. -/
structure Checkpoint where
  strands : AMap Strand := []
  groups : AMap Group := []
  queues : AMap (List QEntry) := []
  bins : List (Nat × Bin) := []
  scratch : AMap TWord := []
  tmask : BitVec 8 := 0
  tiles : AMap Tile := []
  array : Option Sampler := none
  copies : AMap CopyReq := []
  mark : Nat := 0
deriving DecidableEq, Repr, Inhabited

/-- A team resident on a core, or saved (R255, R256): save holds what the save area keeps of it (R307, log 15); draws counts the entropy draws
of each cell, which are positions of the voyage log (R311). -/
structure Team where
  grid : Nat
  num : Nat
  core : Nat
  saved : Bool := false
  save : Checkpoint := {}
  scratchBase : Nat := 0
  queues : AMap (List QEntry) := []
  tmask : BitVec 8 := 0
  irrevocable : Bool := false
  rollbacks : Nat := 0
  pendingRollback : Option (Nat × Nat × Option (Nat × Nat)) := none
  cp : Checkpoint := {}
  dispatched : Nat := 0
  savedClk : Nat := 0
  savedAt : Nat := 0
  order : Nat := 0
  prio : BitVec 2 := 0
  ready : Bool := false
  prefetch : List Nat := []
  inNative : Bool := true
  seg : Option SegDesc := none
  trapent : Word64 := 0
  pilotEnded : Bool := true
  pair : Option (Bool × Nat) := none
  sup : Nat := 0
  shadow : Nat := 0
  lateBins : List Bin := []
  lateTiles : AMap Tile := []
  draws : AMap Nat := []
deriving DecidableEq, Repr, Inhabited

/-- A grid accepted and not yet complete (R244, R274). -/
structure Grid where
  num : Nat
  asid : Nat
  part : Nat
  queue : Nat
  record : Word64
  khdr : Word64
  hdr : KHeader
  teams : Nat
  strands : Nat
  slots : List Word
  cword : Word64
  parentFrame : Nat := 0
  display : List Word64 := []
  fsizes : List Nat := []
  framed : Bool := false
  dispatched : Nat := 0
  retired : Nat := 0
  accepted : Nat := 0
deriving DecidableEq, Repr, Inhabited

/-- An activation frame in the scheduler's frame table (R137, R139): slink is the key of its static parent's frame, 0 at level 0. -/
structure Frame where
  part : Nat
  base : Nat
  rounded : Nat
  size : Nat
  refs : Nat
  level : Nat
  slink : Nat
  grid : Nat
  asid : Nat
  pages : List (Nat × Nat) := []
  discarding : Bool := false
deriving DecidableEq, Repr, Inhabited

/-- A launch queue (Table 16.1). -/
structure LQueue where
  wake : Word := 0
  errAddr : Word64 := 0
  errv : Bool := false
  err : BitVec 3 := 0
  deficit : Int := 0
  quantum : Word := 0
  ctx : BitVec 4 := 0
  depthm1 : BitVec 12 := 0
  prio : BitVec 2 := 0
  prioNext : Option (BitVec 2) := none
  en : Bool := false
  grids : List Nat := []
  resident : Nat := 0
deriving DecidableEq, Repr, Inhabited

/-- A host channel (Table 20.1). -/
structure Channel where
  cmdbase : Word64 := 0
  cplbase : Word64 := 0
  cmdtail : Word := 0
  cmdhead : Word := 0
  cpltail : Word := 0
  cplhead : Word := 0
  tailNew : Option Word := none
  headNew : Option Word := none
  err : BitVec 4 := 0
  size : BitVec 4 := 0
  en : Bool := false
deriving DecidableEq, Repr, Inhabited

/-- A partition (R314, R326, R340). hostWrites: what the device has written to host memory, by bus address; hostReads: the words that
egress lanes have answered, and whether a check failed. chartAt: 1 + the index of its time chart's current entry, 0 before the first tick (R317).
nextDispatch: the first clk whose dispatch choice is still to be made (R278, R281). -/
structure Partition where
  clusters : List Nat := []
  shared : List Nat := []
  granules : List Nat := []
  dieLocal : Option (List Nat) := none
  colours : List Nat := []
  rate : Nat := 0
  contexts : Nat := 0
  queues : Nat := 0
  heapBytes : Nat := 0
  shadowBytes : Nat := 0
  saveBytes : Nat := 0
  heapBase : Nat := 0
  heapSize : Nat := 0
  free : List (Nat × Nat) := []
  s2root : Nat := 0
  helm : List Nat := []
  vf : Bool := false
  features : List Word := []
  qs : AMap LQueue := []
  lastQ : AMap Nat := []
  nextDispatch : Nat := 0
  channels : AMap Channel := []
  hostWrites : List (Nat × List Word) := []
  hostReads : List (List Word × Bool) := []
  chart : Option Chart := none
  chartAt : Nat := 0
  nextTick : Nat := 0
  tolerance : Nat := 0
deriving DecidableEq, Repr, Inhabited

/-! ### Contexts -/

/-- A stop record (Table 17.3): the header's fields and the engine's body. -/
structure StopRecord where
  lcause : AMap Nat := []
  tval : Word64 := 0
  epc : Word64 := 0
  time : Nat := 0
  group : Nat := 0xFF
  engine : Nat := 0
  unit_ : Nat := 0
  seq : Nat := 0
  asid : Nat := 0
  stopclk : Nat := 0
  cause : Nat := 0
  hm : Bool := false
  origin : Bool := false
  body : List Word := []
deriving DecidableEq, Repr, Inhabited

/-- A voyage-log record (Table 17.7). -/
structure VRecord where
  value : Word64
  rank : Nat
  team : Nat
  grid : Nat
  pos : Nat
  seq : Nat
  kind : Nat
deriving DecidableEq, Repr, Inhabited

/-- The stages of the pre-emption ladder (Table 17.5). -/
inductive Stage where
  | drain | reconverge | saving
deriving DecidableEq, Repr, Inhabited

/-- A cause raised by an engine within the halt's skid: engine, unit, group, cause, %epc, %tval, and the lanes' own causes. -/
structure Raised where
  engine : Nat
  unit_ : Nat
  group : Nat
  cause : Nat
  epc : Word64
  tval : Word64
  hm : Bool
  lcause : AMap Nat
deriving DecidableEq, Repr, Inhabited

/-- A context (R304, R315, Tables 17.4 and 17.8). vrecords holds what a replay takes (log 14); faulted: a context fault that the
supervisor has not resolved; ladder: the tick and the stage of R306. -/
structure Ctx where
  part : Nat
  num : Nat
  s1root : Nat := 0
  clamps : Word := 0
  shadowPool : Nat := 0
  shadowUsed : Nat := 0
  savePages : List Nat := []
  preempt : BitVec 64 := 0x0400000200000000
  preemptNew : Option (BitVec 64) := none
  inject : BitVec 32 := 0
  compares : Nat := 0
  pairWord : BitVec 32 := 0
  pairNew : Option (BitVec 32) := none
  vlog : BitVec 128 := 0
  vlogNew : Option (BitVec 128) := none
  vhead : Nat := 0
  vrecords : List VRecord := []
  halted : Bool := false
  haltClk : Nat := 0
  raised : List Raised := []
  haltCause : Nat := 0
  preempting : Bool := false
  records : List StopRecord := []
  recordSeq : Nat := 0
  interrupt : Bool := false
  ladder : Option (Nat × Stage) := none
  saved : Bool := false
  faulted : Bool := false
deriving DecidableEq, Repr, Inhabited

/-- What a leader forwards: its instruction's number, the words, and the reservation that its read set (R270, R301). -/
structure Fwd where
  isn : Nat
  words : List TWord
  seen : Option Reservation := none
deriving DecidableEq, Repr, Inhabited

/-- A core pair (R301, R302, R374), by its leader's team key. fwd: forwarded words keyed by rank * 2^32 + fseq. matched and issuedSigs count signatures since the pair's last dispatch, resume or rollback. -/
structure Pair where
  trailer : Nat
  asid : Nat
  buffer : List (BitVec 64 × Nat) := []
  tsigs : List (BitVec 64 × Nat) := []
  fwd : AMap Fwd := []
  stagger : Nat := 0
  released : Bool := true
  matched : Nat := 0
  issuedSigs : Nat := 0
deriving DecidableEq, Repr, Inhabited

/-- The native translation of a DPF kernel (R337). -/
structure Xlate where
  asid : Nat
  header : Word64
  seg : Word64
  text : Nat
  size : Nat
  pcs : List (Word64 × Word64)
deriving DecidableEq, Repr, Inhabited

/-! ### Memory -/

/-- A memory-side-cache entry: the block as stored (R54). -/
structure MscEntry where
  block : Nat
  bytes : List Byte
  dirty : Bool
  nru : Bool
  marked : Bool
deriving DecidableEq, Repr, Inhabited

/-- An L2 line (R66). -/
structure L2Line where
  words : List TWord
  dirty : Bool := false
deriving DecidableEq, Repr, Inhabited

/-- An L1 data line (Table 6.1). Its dirty mask holds one bit per word: a store dirties whole words (R107). -/
structure L1Line where
  va : Nat
  asid : Nat
  pa : Nat
  rights : BitVec 3
  mt : BitVec 2
  filled : Bool
  dirty : BitVec 32
  keep : Bool := false
  nru : Bool := false
  words : List TWord
deriving DecidableEq, Repr, Inhabited

/-- A word that a strand of a grid has written to an L1 after a release FENCE at .dev or wider, while it is dirty there: the lines that were dirty when it was
written go to their home slices before it (R236). -/
structure Owed where
  grid : Nat
  core : Nat
  asid : Nat
  va : Nat
  before : List Nat
deriving DecidableEq, Repr, Inhabited

/-- A translation-cache entry (R73, R74). -/
structure TEntry where
  asid : Nat
  part : Nat
  vpage : Nat
  size : Nat
  pa : Nat
  rights : BitVec 3
  mt : BitVec 2
  ipa : Nat
  ipaSize : Nat
deriving DecidableEq, Repr, Inhabited

/-- A partial walk that a walker keeps (R74): of a stage, for an ASID (stage 1) or a partition (stage 2), the table of a level for the
addresses of one index. -/
structure PWalk where
  stage2 : Bool
  id : Nat
  level : Nat
  index : Nat
  table : Nat
deriving DecidableEq, Repr, Inhabited

/-- A walk for a request that raises nothing: a PREF (pref), a prefetch, an MPIN (R74, R124, R216, R283). -/
structure Walk where
  cache : Nat
  asid : Nat
  va : Nat
  right : BitVec 3
  core : Nat
  toL1 : Bool
  hint : Hint
  pref : Bool := false
deriving DecidableEq, Repr, Inhabited

/-- An error present in a protected unit of Table 3.6 (R62, R63, R132, R219). level as LEVEL of Table 3.7, unit_ as UNIT. addr: a block
for levels 0, 1 and 2, and for 8 the unit of sixteen blocks, or in part 2 the block; an L1 line's key for 3; (core * 4096 + ASID) * 2^64 + the VA of an instruction line for 4; a pair of scratchpad words for 5; a tile
for 7; cluster * 32768 + a cell, or 16384 + a chart entry, for 9. part is the protected unit within addr: a sector for levels 0 and 1, a pair of
words for 2, 3 and 4, an element, row * 64 + column, for 7, and and for 8 0 the backing, 1 the metadata cache, or 2 a block whose unit is lost. bad counts the bad bytes at
the DRAM levels and the bad bits elsewhere; bytes is what a record reports. marker: the pattern that a write-back of a marked block
leaves in every sector, listed at sector 0. -/
structure SoftError where
  level : Nat
  unit_ : Nat
  addr : Nat
  part : Nat := 0
  bad : Nat := 1
  marker : Bool := false
  bytes : Nat := 1
deriving DecidableEq, Repr, Inhabited

/-- An error record (Table 3.7). -/
structure ErrRec where
  time : Nat
  addr : Nat
  asid : Nat
  part : Nat
  count : Nat
  bytes : Nat
  meta_ : Nat
  kind : Nat
  level : Nat
  source : Nat
  unit_ : Nat
  seq : Nat
deriving DecidableEq, Repr, Inhabited

/-- An error ring (R64): ring 0 is Smilor's, ring r + 1 that of root partition r. -/
structure Ring where
  recs : List ErrRec := []
  seq : Nat := 0
  overflow : Nat := 0
  raised : Bool := false
deriving DecidableEq, Repr, Inhabited

/-- A base-die request waiting in arrival order (R56): a read for the L2, a write-back of a block, or a scrub correction. -/
inductive BaseKind where
  | read
  | write (words : List TWord)
  | scrub
deriving DecidableEq, Repr, Inhabited

/-- A base-die request. -/
structure BaseReq where
  block : Nat
  kind : BaseKind
deriving DecidableEq, Repr, Inhabited

/-- An HBM token bucket (R316). -/
structure Bucket where
  rate : Nat
  burst : Nat
  tokens : Int
deriving DecidableEq, Repr, Inhabited

/-- Memory: storage, caches, translation, errors. owing: by the number of the word at a completion word's PA, what a read of it must find at the home
slices (R236). late: the block of a demand read that a base die has deferred within the step (R316);
no state between two steps holds one. -/
structure Mem where
  hbm : List Host.Cell := []
  meta_ : AMap (BitVec 4) := []
  compress : AMap Bool := []
  msc : AMap MscEntry := []
  l2 : AMap L2Line := []
  l1d : AMap L1Line := []
  owed : List Owed := []
  owing : AMap (List Owed) := []
  l1i : AMap (List ILine) := []
  lat : AMap (List (Nat × Nat × Nat × TWord)) := []
  tcache : AMap (List TEntry) := []
  walks : AMap Walk := []
  partials : AMap (List PWalk) := []
  wseq : AMap Nat := []
  base : AMap BaseReq := []
  buckets : AMap Bucket := []
  errors : List SoftError := []
  openRecs : AMap (ErrRec × Nat) := []
  rings : AMap Ring := []
  scrubAt : AMap Nat := []
  scrubPeriod : AMap Nat := []
  scratch : AMap TWord := []
  late : Option Nat := none
deriving DecidableEq, Repr, Inhabited

/-- Execution: teams, groups, strands, and the operations in flight. launched: the clk of each core's last launch of a bin (R284). -/
structure Exec where
  teams : AMap Team := []
  groups : AMap Group := []
  strands : AMap Strand := []
  runs : AMap Nat := []
  bins : AMap Bin := []
  launched : AMap Nat := []
  specs : AMap Spec := []
  reqs : AMap Req := []
  fills : AMap Fill := []
  longs : AMap Long := []
  fences : AMap FenceOp := []
  copies : AMap CopyReq := []
  qlds : AMap QldOp := []
  mq : AMap (List MInstr) := []
  tiles : AMap Tile := []
  pins : AMap (List Pin) := []
  arrays : AMap Sampler := []
  stops : AMap (List HeldTrap) := []
deriving DecidableEq, Repr, Inhabited

/-- The organisation: partitions, contexts, grids, frames, pairs, translations of DPF kernels. -/
structure Org where
  parts : AMap Partition := []
  ctxs : AMap Ctx := []
  grids : AMap Grid := []
  frames : AMap Frame := []
  pairs : AMap Pair := []
  xlates : List Xlate := []
  usedAsids : List Nat := []
deriving DecidableEq, Repr, Inhabited

/-- A gate record (Table 18.3). -/
structure Gate where
  lastfill : Word64 := 0
  tokens : BitVec 16 := 0
  burst : BitVec 16 := 0
  rate : BitVec 16 := 0
  acl : List (BitVec 16) := []
  gen : BitVec 16 := 0
  v : Bool := false
  value : Word64 := 0
deriving DecidableEq, Repr, Inhabited

/-- An operation on its way to a gate unit (R321): the checks and the charge of an instruction, with the handle, the issuer's partition, the right that the
unit checks (R322) and a GWAIT's serial; what an accepted GSIG of a team writes, and the destinations of an accepted GREAD on a core; or the re-arming of a resumed
group's GWAITs (R325). -/
inductive GateOp where
  | ask (h : Word) (part right : Nat) (act : GateAct) (id : Nat)
  | sig (team : Nat) (set : Bool) (v : Word64)
  | read (core : Nat) (ds : List (Dest × Option Nat))
  | rearm
deriving DecidableEq, Repr, Inhabited

/-- What a port has to send to its peer for remote windows (R347): an operation, or the answer to one of the peer's. -/
inductive PeerMsg where
  | ask (o : PeerOp)
  | words (ws : List TWord)
  | gate (a : GateAnswer)
deriving DecidableEq, Repr, Inhabited

/-- A flit as a port sends it, with the message that its payload carries, if any (log 25). -/
structure SentFlit where
  flit : Flit
  msg : Option PeerMsg := none
deriving DecidableEq, Repr, Inhabited

/-- A Draern Link port (R345, R346): sent holds what waits for room in the replay buffer, replay the flits not yet acknowledged, wire all that it has put on
its lanes. -/
structure Port where
  rate : Nat := 112
  rxSeq : Nat := 0
  txSeq : Nat := 0
  replay : List SentFlit := []
  wire : List SentFlit := []
  retraining : Bool := false
  retrainAt : Nat := 0
  nextEval : Nat := 1000000
  corrected : Nat := 0
  down : Bool := false
  delivered : List (List Byte) := []
  nak : Bool := false
  sent : List PeerMsg := []
deriving DecidableEq, Repr, Inhabited

/-- The boot stage (R348). -/
inductive BootStage where
  | off | running (image : Nat) | done | failed (stage : Nat) (cause : Nat)
deriving DecidableEq, Repr, Inhabited

/-- A firmware image with its signature (R348). -/
structure Firmware where
  bytes : List Byte := []
  signature : List Byte := []
deriving DecidableEq, Repr, Inhabited

/-- An attestation report with its signature (R349). -/
structure Report where
  measurements : List (List Byte)
  nonce : List Byte
  partNumber : List Byte
  features : List Word
  signature : List Byte
deriving DecidableEq, Repr, Inhabited

/-- A Helm core's wake register and the reports that its interrupts carry (R293, R294, R64, R346). -/
structure Helm where
  wake : Word := 0
  wakeIrq : Bool := false
  haltIrq : List Nat := []
  errIrq : Bool := false
  linkDown : List Nat := []
  lost : List Nat := []
deriving DecidableEq, Repr, Inhabited

/-- The device: clock, boot, power, gates, links, Helm cores, the remote windows and the GWAITs of peers that are armed at the gate units (R347). -/
structure Device where
  clock : Nat := 0
  boot : BootStage := .off
  key : List Byte := []
  images : List Firmware := []
  measures : List (List Byte) := List.replicate 8 (List.replicate 64 0)
  reports : List Report := []
  power : Nat := 0
  entering : Option Nat := none
  exiting : Bool := false
  gates : AMap Gate := []
  gops : AMap (List (Nat × GateOp)) := []
  ports : AMap Port := []
  helm : AMap Helm := []
  lastRefill : Nat := 0
  windows : List RWindow := []
  peerWaits : List (Nat × Nat × Word64) := []
  parted : Bool := false
deriving DecidableEq, Repr, Inhabited

/-- Which agent moves next (log 1): the choice itself, an issue slot, a pending event, the next input from outside, the
performing of a write at its own core's L1 by its number, the eviction of an L1 line by its key, or the clock. -/
inductive Turn where
  | arbitrate
  | issue (core slot : Nat)
  | event (i : Instr)
  | input
  | perform (id : Nat)
  | evict (line : Nat)
  | tick
deriving DecidableEq, Repr

/-- Which executing split an instruction acts for: its group key. -/
abbrev GroupKey := Nat

/-- The machine. -/
structure State where
  dev : Device := {}
  mem : Mem := {}
  ex : Exec := {}
  org : Org := {}
  turn : Turn := .event .powerOnBoot
  inputs : List Instr := []
  cur : Option GroupKey := none
  freeCount : Nat := 0
  nextId : Nat := 1
deriving DecidableEq, Repr

/-- Why the machine stops. Both are of the model alone: no step that State.turn chooses raises them. -/
inductive Fault where
  /-- exec was asked for a native instruction with no split executing. Safe: the spec gives an instruction no meaning outside a run. -/
  | noExecutor
  /-- exec was asked for an event that is not pending. Safe: the event does not happen, and no step chooses it. -/
  | notDue
deriving DecidableEq, Repr

/-- Why an instruction has no meaning. -/
inductive Refusal where
  /-- The instruction has no meaning in the model yet, by its mnemonic. Safe: the run stops. -/
  | notModelled (mnemonic : String)
deriving DecidableEq, Repr

/-- What exec and step answer. -/
abbrev Result := Host.Outcome State Fault Refusal

/-- The machine right after reset: no partition, no context, caches empty, memory with nothing listed, the clock at 0, and
power-on boot the next step (R133, R348; the values the spec does not give are those of log 3, 4, 25, 26 and 31). -/
def State.reset : State := {}

end Sys2Proof.Machine
end

