-- ==== Sys2Proof/Machine/Code.lean ====
section
/-! DEFINITION. Bit helpers, the datum check code (R79), byte order (R9), and compression of blocks (R59 to R61). -/

namespace Sys2Proof.Machine

/-- The bytes of a word, least significant first (R9). -/
def bytesOf (w : Word) : List Byte := [w.extractLsb' 0 8, w.extractLsb' 8 8, w.extractLsb' 16 8, w.extractLsb' 24 8]

/-- The word of four bytes, least significant first (R9). -/
def wordOf (bs : List Byte) : Word :=
  match bs with
  | [a, b, c, d] => d ++ c ++ b ++ a
  | _ => 0

/-- One step of the check code over bit i of w (R79). -/
def dccStep (w : Word) (crc : Byte) (i : Nat) : Byte :=
  let sh := crc <<< 1
  if (crc.getLsbD 7) != (w.getLsbD i) then sh ^^^ 0x07 else sh

/-- The datum check code (R79): CRC-8 over bits 31 down to 0, XORed with 0x55. -/
def dcc (w : Word) : Byte := (List.range 32).foldl (fun c k => dccStep w c (31 - k)) 0 ^^^ 0x55

/-- A word with its fresh code and no mark (R80, R63). -/
def TWord.fresh (w : Word) : TWord := { data := w, code := dcc w, mark := false }

/-- What a consuming lane finds in a word (R81): UNCORRECTABLE for a mark, CHECK_CODE for a mismatch, else nothing. -/
def TWord.judge (t : TWord) : Option Nat := if t.mark then some 12 else if t.code = dcc t.data then none else some 11

/-- Sign extension to an integer of the low n bits of a Nat. -/
def sxNat (n v : Nat) : Int := let m := v % 2 ^ n; if 2 * m < 2 ^ n then m else (m : Int) - 2 ^ n

/-- Whether a 64-bit address is canonical: bits [63:57] all equal bit 56 (R69, R115). -/
def canonical (a : Word64) : Bool := a.extractLsb' 56 8 == 0 || a.extractLsb' 56 8 == 0xFF

/-- The 57 low bits of an address, which translation uses. -/
def va57 (a : Word64) : Nat := (a.extractLsb' 0 57).toNat

/-- The canonical address of 57 bits. -/
def sx57 (n : Nat) : Word64 := (BitVec.ofNat 57 n).signExtend 64

/-- Replace the element at an index. -/
def setAt {α : Type} (l : List α) (i : Nat) (x : α) : List α := l.set i x

/-! ### Compression (R58 to R61) -/

/-- The constant of bit plane p over the words, if it is constant. -/
def planeConst (ws : List Word) (p : Nat) : Option Bool :=
  match ws with
  | [] => some false
  | w :: r => if r.all (fun x => x.getLsbD p == w.getLsbD p) then some (w.getLsbD p) else none

/-- Bytes of a number of bits taken from a predicate. -/
def packBits (n : Nat) (f : Nat → Bool) : List Byte :=
  (List.range n).map fun k => (List.range 8).foldl (fun b j => if f (8 * k + j) then b ||| (1#8 <<< j) else b) 0

/-- A block's data words and codes as bytes, uncompressed (R59). -/
def rawBlock (ws : List TWord) : List Byte := ws.flatMap (fun t => bytesOf t.data) ++ ws.map (·.code)

/-- The bit-plane form (Table 3.5). -/
def planeBlock (ws : List TWord) : List Byte :=
  let ds := ws.map (·.data)
  packBits 4 (fun p => (planeConst ds p).isSome) ++ packBits 4 (fun p => (planeConst ds p).getD false)
    ++ ((List.range 32).filter fun p => (planeConst ds p).isNone).flatMap (fun p => packBits 8 fun i => (ds.getD i 0).getLsbD p)
    ++ ws.map (·.code)

/-- Whether every delta from word 0 fits w bits (Table 3.5). -/
def deltasFit (ds : List Word) (w : Nat) : Bool :=
  ds.all fun d => let x := d - ds.headD 0; (x.setWidth w).signExtend 32 == x

/-- The base-plus-delta form of delta width w (Table 3.5). -/
def deltaBlock (ws : List TWord) (w : Nat) : List Byte :=
  let ds := ws.map (·.data)
  [BitVec.ofNat 8 w] ++ bytesOf (ds.headD 0)
    ++ ds.flatMap (fun d => (bytesOf (d - ds.headD 0)).take (w / 8)) ++ ws.map (·.code)

/-- The size class, sectors minus one, of a number of stored bytes (R59). -/
def sizeClass (n : Nat) : Nat := if n ≤ 80 then 0 else if n ≤ 160 then 1 else if n ≤ 240 then 2 else 3

/-- The metadata and stored bytes that the compressor chooses (R60): the smallest class; ties all-zero, bit-plane,
base-plus-delta, uncompressed. -/
def compressBlock (ws : List TWord) : BitVec 4 × List Byte :=
  let ds := ws.map (·.data)
  if ws.all (fun t => t.data == 0 && t.code == 0x55) then (0b0100, [])
  else
    let pl := planeBlock ws
    let pc := sizeClass pl.length
    let dl := if deltasFit ds 8 then some (1, deltaBlock ws 8) else if deltasFit ds 16 then some (2, deltaBlock ws 16) else none
    match dl with
    | some (c, bs) =>
      if pc ≤ c then (0b1100 + BitVec.ofNat 4 pc, pl) else (0b1000 + BitVec.ofNat 4 c, bs)
    | none => if pc ≤ 2 then (0b1100 + BitVec.ofNat 4 pc, pl) else (0b0011, rawBlock ws)

/-- Bit i of a list of bytes. -/
def bitOf (bs : List Byte) (i : Nat) : Bool := (bs.getD (i / 8) 0).getLsbD (i % 8)

/-- The word of four bytes at an offset. -/
def wordAt (bs : List Byte) (o : Nat) : Word := wordOf ((bs.drop o).take 4)

/-- A word from a predicate on its bits. -/
def wordBits (f : Nat → Bool) : Word := (List.range 32).foldl (fun w p => if f p then w ||| (1#32 <<< p) else w) 0

/-- Words from a block's stored bytes (R59): none for metadata outside the legal combinations (R61). -/
def expandBlock (m : BitVec 4) (bs : List Byte) : Option (List TWord) :=
  let mk (f : Nat → Word) (co : Nat) : List TWord :=
    (List.range 64).map fun i => { data := f i, code := bs.getD (co + i) 0, mark := false }
  match m.toNat with
  | 0b0011 => some (mk (fun i => wordAt bs (4 * i)) 256)
  | 0b0100 => some (List.replicate 64 {})
  | 0b1001 | 0b1010 =>
    let w := (bs.headD 0).toNat
    let n := w / 8
    some (mk (fun i =>
      let d := (bs.drop (5 + n * i)).take n
      let v := if n = 1 then (d.headD 0).signExtend 32 else ((d.getD 1 0) ++ (d.headD 0) : BitVec 16).signExtend 32
      wordAt bs 1 + v) (5 + 64 * n))
  | 0b1100 | 0b1101 | 0b1110 =>
    let isConst := bitOf (bs.take 4)
    let planes := (List.range 32).filter fun p => !isConst p
    let at_ (p : Nat) : Nat := (planes.filter (· < p)).length
    some (mk (fun i => wordBits fun p =>
      if isConst p then bitOf ((bs.drop 4).take 4) p else bitOf (bs.drop (8 + 8 * at_ p)) i) (8 + 8 * planes.length))
  | _ => none

end Sys2Proof.Machine
end

