-- ==== Sys2Proof/Machine/Link.lean ====
section
/-! DEFINITION. The flits of Draern Link and the sender's side of a port (R345, R346): header and CRC, the replay buffer of 64 flits, retransmission
in sequence order. The places in the header and the uses of its type are the model's (log 25). -/

namespace Sys2Proof.Machine

/-- k bytes of a number, least significant first (R9). -/
def leBytes (n k : Nat) : List Byte := (List.range k).map fun i => BitVec.ofNat 8 (n / 256 ^ i)
/-- The number of some bytes, least significant first. -/
def leNat (bs : List Byte) : Nat := bs.foldr (fun b n => b.toNat + 256 * n) 0

/-- A flit's sequence, modulo 2^32: header bytes 0 to 3. -/
def flitSeq (f : Flit) : Nat := leNat (f.bytes.take 4)
/-- A flit's type: header byte 4; 0 carries payload, 1 only returns credit, 2 asks for a replay. -/
def flitKind (f : Flit) : Nat := leNat ((f.bytes.drop 4).take 1)
/-- A flit's credit return: header bytes 5 to 7, the next sequence that its sender expects, modulo 2^24. -/
def flitCredit (f : Flit) : Nat := leNat ((f.bytes.drop 5).take 3)
/-- Whether a flit's CRC holds (R345): bytes 252 to 255 over the bytes before them. -/
def flitOk (f : Flit) : Bool := f.bytes.length == 256 && leNat (f.bytes.drop 252) == (Config.linkCrc (f.bytes.take 252)).toNat

/-- The bytes of a flit of a port: header, payload and CRC. -/
def flitBytes (port seq kind credit : Nat) : List Byte :=
  let head := leBytes seq 4 ++ leBytes kind 1 ++ leBytes credit 3
    ++ (List.range 244).map fun i => Config.linkPayload ((port * 2 ^ 32 + seq % 2 ^ 32) * 256 + i)
  head ++ leBytes (Config.linkCrc head).toNat 4

/-- Whether a port sends: it is not paused for a retrain, and not down (R346). -/
def Port.sends (p : Port) : Bool := !p.retraining && !p.down

/-- Send a flit of no payload. -/
def Port.control (p : Port) (port kind : Nat) : Port :=
  if p.sends then { p with wire := p.wire ++ [{ flit := { bytes := flitBytes port p.txSeq kind p.rxSeq } }] } else p

/-- Send what waits, as the replay buffer of 64 flits has room (R345). -/
def Port.pump (p : Port) (port : Nat) : Port :=
  if !p.sends then p else
  let k := Nat.min (64 - p.replay.length) p.sent.length
  let out : List SentFlit := ((p.sent.take k).zipIdx).map fun e =>
    { flit := { bytes := flitBytes port (p.txSeq + e.2) 0 p.rxSeq }, msg := some e.1 }
  { p with sent := p.sent.drop k, replay := p.replay ++ out, wire := p.wire ++ out, txSeq := p.txSeq + k }

/-- Send every unacknowledged flit once more, in sequence order (R345, R346). -/
def Port.resend (p : Port) : Port := if p.sends then { p with wire := p.wire ++ p.replay } else p

/-- What a credit return acknowledges leaves the replay buffer. -/
def Port.credited (p : Port) (credit : Nat) : Port :=
  let n := (credit + 2 ^ 24 - (p.txSeq - p.replay.length) % 2 ^ 24) % 2 ^ 24
  if n ≤ p.replay.length then { p with replay := p.replay.drop n } else p

/-- How far a sequence modulo 2^32 lies ahead of a count. -/
def seqAhead (seq count : Nat) : Nat := (seq + 2 ^ 32 - count % 2 ^ 32) % 2 ^ 32

/-- A port's receiver takes a flit whose CRC holds (R345): the next in sequence is delivered, a later one asks for a replay, an earlier one is dropped. -/
def Port.take (p : Port) (port : Nat) (f : Flit) : Port :=
  let p := p.credited (flitCredit f)
  let d := seqAhead (flitSeq f) p.rxSeq
  if flitKind f == 2 then p.resend.pump port
  else if flitKind f != 0 then p.pump port
  else if d == 0 then ({ p with rxSeq := p.rxSeq + 1, nak := false, delivered := p.delivered ++ [f.bytes] }.control port 1).pump port
  else if d < 2 ^ 31 then ((if p.nak then p else { p with nak := true }.control port 2)).pump port
  else (p.control port 1).pump port

/-- Whether a flit that a port takes is delivered: it carries payload and is the next in sequence. -/
def Port.delivers (p : Port) (f : Flit) : Bool := flitKind f == 0 && flitSeq f == p.rxSeq % 2 ^ 32

end Sys2Proof.Machine
end

