-- ==== Sys2Proof/Machine/Storage.lean ====
section
/-! DEFINITION. The HBM stacks, the memory-side cache, error records and the base die (R50 to R64, R316). Every request is
performed on plain data; State.base holds the requests that wait (R56). -/

namespace Sys2Proof.Machine

/-! ### State access -/

/-- Change the memory. -/
def State.modMem (s : State) (f : Mem → Mem) : State := { s with mem := f s.mem }
/-- Change what executes. -/
def State.modEx (s : State) (f : Exec → Exec) : State := { s with ex := f s.ex }
/-- Change the organisation. -/
def State.modOrg (s : State) (f : Org → Org) : State := { s with org := f s.org }
/-- Change the device. -/
def State.modDev (s : State) (f : Device → Device) : State := { s with dev := f s.dev }
/-- The next free value's index, and the state that has used it. -/
def State.free (s : State) : Nat × State := (s.freeCount, { s with freeCount := s.freeCount + 1 })
/-- A fresh number for an operation in flight. -/
def State.fresh (s : State) : Nat × State := (s.nextId, { s with nextId := s.nextId + 1 })

/-- The first of n fresh identifiers in a row. -/
def State.freshes (s : State) (n : Nat) : Nat × State := (s.nextId, { s with nextId := s.nextId + n })

/-! ### One byte of storage, in canonical form -/

/-- What the storage byte at an address reads as where nothing has written it (log 3): a zero data byte, and the code 0x55 of a zero
word (R51, R79). DESIGN CHOICE, UNSAFE. -/
def unlistedByte (a : Nat) : Byte := if a % 320 < 256 then 0 else 0x55

/-- Read one storage byte. -/
def Mem.byte (m : Mem) (a : Nat) : Byte := AMap.get (unlistedByte a) m.hbm a

/-- Write one storage byte, keeping the canonical form. -/
def Mem.setByte (m : Mem) (a : Nat) (b : Byte) : Mem := { m with hbm := AMap.set (unlistedByte a) m.hbm a b }

/-- Write consecutive storage bytes. -/
def Mem.setBytes (m : Mem) : Nat → List Byte → Mem
  | _, [] => m
  | a, b :: r => (m.setByte a b).setBytes (a + 1) r

/-- The stored memory is canonical: addresses rise and no entry equals what an unlisted address reads as. -/
def Memory.wf (m : Mem) : Bool := AMap.sorted m.hbm && m.hbm.all fun e => decide (e.2 ≠ unlistedByte e.1)

/-- The storage bytes of a block: 320 from address 320 * block (R51). -/
def Mem.stored (m : Mem) (block n : Nat) : List Byte := (List.range n).map fun i => m.byte (320 * block + i)

/-! ### Owners and placement (R52, R53) -/

/-- The partition that owns a granule: a child if one does, else a root. -/
def State.ownerOf (s : State) (granule : Nat) : Option (Nat × Partition) :=
  let own := s.org.parts.filter fun e => e.2.granules.contains granule
  match own.find? (fun e => e.1 % 16 != 0) with
  | some e => some e
  | none => own.head?

/-- XOR of two small numbers. -/
def xorNat (a b : Nat) : Nat := ((BitVec.ofNat 8 a) ^^^ (BitVec.ofNat 8 b)).toNat

/-- The stack of a physical address (Table 3.3). -/
def State.stackOf (s : State) (pa : Nat) : Nat :=
  match s.ownerOf (pa / 2 ^ 30) with
  | some (_, p) =>
    match p.dieLocal with
    | some ds =>
      let d := ds.getD (p.granules.findIdx (· == pa / 2 ^ 30)) 0
      4 * d + xorNat (pa / 2 ^ 12 % 4) (pa / 2 ^ 14 % 4)
    | none => xorNat (pa / 2 ^ 12 % 16) (pa / 2 ^ 16 % 16)
  | none => xorNat (pa / 2 ^ 12 % 16) (pa / 2 ^ 16 % 16)

/-- The home die of a physical address (R53). -/
def State.homeDie (s : State) (pa : Nat) : Nat := s.stackOf pa / 4

/-- The home slice within its die (R65). -/
def sliceOf (pa : Nat) : Nat := xorNat (pa / 2 ^ 8 % 32) (pa / 2 ^ 13 % 32)

/-- The home slice as die * 32 + slice. -/
def State.homeSlice (s : State) (pa : Nat) : Nat := s.homeDie pa * 32 + sliceOf pa

/-- The die on which a granule is placed whole; none where it is interleaved (R52, R53). -/
def State.granuleDie (s : State) (g : Nat) : Option Nat :=
  match s.ownerOf g with
  | some (_, { granules := gs, dieLocal := some ds, .. }) => some (ds.getD (gs.findIdx (· == g)) 0)
  | _ => none

/-- The blocks of a granule on one stack: 64 MiB of it, or 256 MiB on each stack of its die (R53). -/
def State.share (s : State) (stack g : Nat) : Nat :=
  match s.granuleDie g with
  | some d => if stack / 4 == d then 2 ^ 20 else 0
  | none => 2 ^ 18

/-- The granules that some root partition owns. -/
def State.ownedGranules (s : State) : List Nat := (s.org.parts.filter fun e => e.1 % 16 == 0).flatMap fun e => e.2.granules

/-- The blocks that a list of granules has on one stack. -/
def State.shares (s : State) (stack : Nat) (gs : List Nat) : Nat := gs.foldl (fun n g => n + s.share stack g) 0

/-- Whether every stack has room for the granules that it holds, 48 GiB each (R51, R53). -/
def State.stacksFit (s : State) : Bool := (List.range 16).all fun k => decide (s.shares k s.ownedGranules ≤ 768 * 2 ^ 18)

/-- The index of a block within its stack, whose mapping the spec leaves to firmware (log 8): owned granules in the order of addresses, with the
blocks that each has on the stack, and then those that nobody owns. DESIGN CHOICE. -/
def State.stackIndex (s : State) (pa : Nat) : Nat :=
  let g := pa / 2 ^ 30
  let own := s.ownedGranules
  let base := if own.contains g then s.shares (s.stackOf pa) (own.filter (· < g)) else s.shares (s.stackOf pa) own + g * 2 ^ 18
  base + pa % 2 ^ 30 / (if (s.granuleDie g).isSome then 2 ^ 14 else 2 ^ 16) * 16 + pa / 2 ^ 8 % 16

/-- The colours of a block, ascending (R54); of one whose granule no partition owns, all sixteen (log 8). DESIGN CHOICE for that one. -/
def State.coloursOf (s : State) (pa : Nat) : List Nat :=
  match s.ownerOf (pa / 2 ^ 30) with
  | some (_, p) => if p.colours.isEmpty then List.range 16 else (List.range 16).filter p.colours.contains
  | none => List.range 16

/-- The memory-side-cache set of a block within its stack (R54). -/
def State.mscSet (s : State) (pa : Nat) : Nat :=
  let n := s.stackIndex pa
  let c := s.coloursOf pa
  c.getD ((n / 25600) % c.length) 0 * 25600 + n % 25600

/-! ### Error records (R64) -/

/-- The 256 bits of an error record (Table 3.7). -/
def ErrRec.word (r : ErrRec) : BitVec 256 :=
  BitVec.ofNat 64 r.time ++ BitVec.ofNat 52 r.addr ++ BitVec.ofNat 12 r.asid ++ BitVec.ofNat 8 r.part ++ BitVec.ofNat 16 r.count
    ++ BitVec.ofNat 8 r.bytes ++ BitVec.ofNat 4 r.meta_ ++ BitVec.ofNat 4 r.kind ++ BitVec.ofNat 4 r.level ++ BitVec.ofNat 4 r.source
    ++ BitVec.ofNat 16 r.unit_ ++ BitVec.ofNat 32 r.seq ++ (1 : BitVec 32)

/-- The unit that logs a record, as a key of open records: a base die, a slice, or a core, at whichever LEVEL (R64, Table 3.7). -/
def unitKey (r : ErrRec) : Nat :=
  (if r.level ≤ 1 then 0 else if r.level == 2 || r.level == 8 then 4096 else 8192) + r.unit_

/-- Append a record to one ring: dropped, and counted, where the ring is full; the first uncorrectable record after the ring
was emptied raises an interrupt to Smilor's Helm core. DESIGN CHOICE (log 31): of the four that Smilor runs on (R313), it is Helm core 0. -/
def State.ringAppend (s : State) (ring : Nat) (r : ErrRec) : State :=
  let g := AMap.get {} s.mem.rings ring
  if Config.ringSize ≤ g.recs.length then
    s.modMem fun m => { m with rings := m.rings.put ring { g with overflow := g.overflow + 1 } }
  else
    let irq := r.kind == 1 && !g.raised
    let g := { g with recs := g.recs ++ [{ r with seq := g.seq }], seq := g.seq + 1, raised := g.raised || r.kind == 1 }
    let s := s.modMem fun m => { m with rings := m.rings.put ring g }
    if irq then s.modDev fun d => { d with helm := d.helm.put 0 { AMap.get {} d.helm 0 with errIrq := true } } else s

/-- What stands in a record's PART, which holds its low eight bits, where nobody owns the granule or core: no root's ring gets the record. -/
def noOwner : Nat := 256

/-- Write a record to Smilor's ring and to the ring of the root partition that owns the granule or core concerned (R64). -/
def State.writeRecordOf (s : State) (owner : Nat) (r : ErrRec) : State :=
  let s := s.ringAppend 0 r
  if s.org.parts.has (owner / 16 * 16) then s.ringAppend (owner / 16 + 1) r else s

/-- Write a record whose PART is the owner. -/
def State.writeRecord (s : State) (r : ErrRec) : State := s.writeRecordOf r.part r

/-- Close a unit's open corrected record by writing it. -/
def State.closeRecord (s : State) (key : Nat) : State :=
  match s.mem.openRecs.find key with
  | some (r, _) => (s.writeRecord r).modMem fun m => { m with openRecs := m.openRecs.del key }
  | none => s

/-- One event of a logging unit (R64): corrected events with the open record's LEVEL and ADDR add to its COUNT; every other
event closes the open record, and then opens a new one or writes its own record. DESIGN CHOICE (log 31): BYTES, ASID and SOURCE of a record
of several events are those of the first. -/
def State.logError (s : State) (r : ErrRec) : State :=
  let key := unitKey r
  let r := { r with time := s.dev.clock }
  if r.kind == 0 then
    match s.mem.openRecs.find key with
    | some (o, t) =>
      if o.addr == r.addr && o.level == r.level then
        s.modMem fun m => { m with openRecs := m.openRecs.put key ({ o with count := Nat.min 0xFFFF (o.count + 1) }, t) }
      else (s.closeRecord key).modMem fun m => { m with openRecs := m.openRecs.put key ({ r with count := 1 }, s.dev.clock) }
    | none => s.modMem fun m => { m with openRecs := m.openRecs.put key ({ r with count := 1 }, s.dev.clock) }
  else (s.closeRecord key).writeRecord { r with count := 0 }

/-- A record's fields; TIME and SEQ are filled in when it is written. -/
def errRec (level kind source unit_ addr asid part bytes meta_ : Nat) : ErrRec :=
  { time := 0, addr := addr, asid := asid, part := part, count := 0, bytes := bytes, meta_ := meta_, kind := kind,
    level := level, source := source, unit_ := unit_, seq := 0 }

/-- The partition number that owns a block. -/
def State.ownerNum (s : State) (pa : Nat) : Nat := ((s.ownerOf (pa / 2 ^ 30)).map (·.1)).getD noOwner

/-! ### The memory-side cache and the stacks (R54 to R57) -/

/-- What a read of a block at the base die delivers: its stored bytes and whether it is marked (R63). -/
structure BlockRead where
  bytes : List Byte
  marked : Bool

/-- The keys of the four ways of a block's set. -/
def State.mscWays (s : State) (block : Nat) : List Nat :=
  let k := (s.stackOf (256 * block) * 409600 + s.mscSet (256 * block)) * 4
  [k, k + 1, k + 2, k + 3]

/-- The way that holds a block. -/
def State.mscHit (s : State) (block : Nat) : Option Nat :=
  (s.mscWays block).find? fun k => match s.mem.msc.find k with | some e => e.block == block | none => false

/-! ### Errors in protected units (R62, R63, Table 3.6) -/

/-- What a protected unit holds that is wrong: the errors listed for it together. -/
def Mem.errorOf (m : Mem) (lvl addr part : Nat) : Option SoftError :=
  match m.errors.filter fun e => e.level == lvl && e.addr == addr && e.part == part with
  | [] => none
  | e :: r => some (r.foldl (fun a b => { a with bad := a.bad + b.bad, bytes := a.bytes + b.bytes, marker := a.marker || b.marker }) e)

/-- Whether the unit's code corrects it: one bad byte or bit (Table 3.6). What exceeds the code's detection counts as detected (log 21). -/
def SoftError.correctable (e : SoftError) : Bool := !e.marker && decide (e.bad ≤ 1)

/-- The KIND of an error's record (Table 3.7). -/
def SoftError.kind (e : SoftError) : Nat := if e.marker then 2 else if e.correctable then 0 else 1

/-- Remove a protected unit's errors: it has been written. -/
def Mem.mend (m : Mem) (lvl addr part : Nat) : Mem :=
  { m with errors := m.errors.filter fun e => !(e.level == lvl && e.addr == addr && e.part == part) }

/-- Remove every error at an address of a level: all its units have been written, or dropped. -/
def Mem.clearError (m : Mem) (lvl addr : Nat) : Mem :=
  { m with errors := m.errors.filter fun e => !(e.level == lvl && e.addr == addr) }

/-- The ECC marker pattern in every sector of a block (R63). -/
def Mem.setMarkers (m : Mem) (stack block : Nat) : Mem :=
  let m := m.clearError 0 block
  { m with errors := m.errors ++ (List.range 4).map fun p => { level := 0, unit_ := stack, addr := block, part := p, bad := 0, marker := true, bytes := 0 } }

/-- Check the protected units of an address as they are read (R63): a corrected error is written back corrected; each error is logged
under the record that its KIND and unit give. It answers whether any could not be corrected. -/
def State.judge (s : State) (lvl addr : Nat) (parts : List Nat) (record : SoftError → ErrRec) : Bool × State :=
  parts.foldl (fun r p => match r.2.mem.errorOf lvl addr p with
    | none => r
    | some e => (r.1 || !e.correctable, (if e.correctable then r.2.modMem (·.mend lvl addr p) else r.2).logError (record e))) (false, s)

/-- The record of an error found in a block at a level whose records name blocks; a scrub or write-back gives no ASID (Table 3.7). -/
def State.blockRecord (s : State) (lvl block asid source : Nat) (e : SoftError) : ErrRec :=
  let pa := 256 * block
  let unit_ := if lvl ≤ 1 then s.stackOf pa else s.homeSlice pa
  errRec lvl e.kind source unit_ pa (if source == 1 || source == 2 then 0 else asid) (s.ownerNum pa) e.bytes (AMap.get 0b0011 s.mem.meta_ block).toNat

/-- The partition that owns a core: a child that has its cluster to itself, else the root whose cluster it is (R314). -/
def State.coreOwner (s : State) (core : Nat) : Nat :=
  let own := s.org.parts.filter fun e => e.2.clusters.contains (core / 16)
  match own.find? (fun e => e.1 % 16 != 0) with
  | some e => e.1
  | none => (own.head?.map (·.1)).getD noOwner

/-- The partition of a core-level record: the requester's, else the core's owner. -/
def State.corePart (s : State) (core asid : Nat) : Nat :=
  match s.org.ctxs.find asid with
  | some c => c.part
  | none => s.coreOwner core

/-- The record of an error found in a core's array (Table 3.7). -/
def State.coreRecord (s : State) (lvl core index asid source : Nat) (e : SoftError) : ErrRec :=
  let asid := if source == 1 || source == 2 then 0 else asid
  errRec lvl e.kind source core index asid (s.corePart core asid) e.bytes 0

/-! ### Traffic of the stacks (R55, R59, R316) -/

/-- The sectors of a number of stored bytes. -/
def sectorsOf (n : Nat) : List Nat := List.range ((n + 79) / 80)

/-- Write an entry's bytes to HBM (R55); sectors that a compressed block does not use keep what they held (R59). A marked block is
written with the ECC marker pattern in every sector (R63). -/
def State.hbmWrite (s : State) (block : Nat) (bs : List Byte) (marked : Bool) : State :=
  s.modMem fun m =>
    let m := ((sectorsOf bs.length).foldl (fun m p => m.mend 0 block p) m).setBytes (320 * block) bs
    if marked then m.setMarkers (s.stackOf (256 * block)) block else m

/-- Note a use of a way: when every way of the set is then recently used, the other ways' bits are cleared (log 8). -/
def touchMsc (m : AMap MscEntry) (ways : List Nat) (k : Nat) : AMap MscEntry :=
  let m := m.modify k fun e => { e with nru := true }
  if ways.all (fun w => match m.find w with | some e => e.nru | none => false) then
    ways.foldl (fun m w => if w == k then m else m.modify w fun e => { e with nru := false }) m
  else m

/-- The victim way: the lowest-numbered way not recently used (R55). DESIGN CHOICE (log 8): an invalid way counts as one that is not recently
used and goes before every valid one. -/
def mscVictim (m : AMap MscEntry) (ways : List Nat) : Nat :=
  match ways.find? (fun w => !m.has w) with
  | some w => w
  | none => (ways.find? fun w => match m.find w with | some e => !e.nru | none => true).getD (ways.headD 0)

/-- Charge the token buckets of a block's owner for the sectors moved on the stack (R316). -/
def State.charge (s : State) (block sectors : Nat) : State :=
  match s.ownerOf (256 * block / 2 ^ 30) with
  | some (p, _) =>
    let st := s.stackOf (256 * block)
    let sub (m : AMap Bucket) (q : Nat) : AMap Bucket := m.modify (st * 256 + q) fun b => { b with tokens := b.tokens - sectors }
    s.modMem fun m => { m with buckets := if p % 16 == 0 then sub m.buckets p else sub (sub m.buckets p) (p / 16 * 16) }
  | none => s

/-- A memory-side-cache entry is read (R63): its sectors are checked; an uncorrectable error drops a clean entry and marks a dirty one. -/
def State.mscJudge (s : State) (block asid source : Nat) (only : List Nat := List.range 4) : State :=
  match s.mscHit block with
  | none => s
  | some k =>
    match s.mem.msc.find k with
    | none => s
    | some e =>
      let (bad, s) := s.judge 1 block ((sectorsOf e.bytes.length).filter only.contains) (s.blockRecord 1 block asid source)
      if !bad then s else s.modMem fun m =>
        { m.clearError 1 block with msc := if e.dirty then m.msc.put k { e with marked := true } else m.msc.del k }

/-- An entry leaves the cache: a dirty one is read, its errors judged (R63), and written to HBM (R55). -/
def State.mscOut (s : State) (k : Nat) : State :=
  match s.mem.msc.find k with
  | none => s
  | some v =>
    let s := if v.dirty then s.mscJudge v.block 0 1 else s
    let s := match s.mem.msc.find k with
      | some v => if v.dirty then (s.hbmWrite v.block v.bytes v.marked).charge v.block (v.bytes.length / 80) else s
      | none => s
    s.modMem fun m => { m.clearError 1 v.block with msc := m.msc.del k }

/-- Install an entry, its victim leaving first (R55). -/
def State.mscInstall (s : State) (e : MscEntry) : State :=
  let ways := s.mscWays e.block
  let k := mscVictim s.mem.msc ways
  (s.mscOut k).modMem fun m => { m with msc := touchMsc (m.msc.put k e) ways k }

/-- Whether a sector holds the ECC marker pattern. -/
def Mem.markerAt (m : Mem) (block p : Nat) : Bool := (m.errorOf 0 block p).any (·.marker)

/-- The sectors whose errors are events of their own: the marker pattern of a block is one event, that of sector 0 (log 21). -/
def Mem.sectorEvents (m : Mem) (block : Nat) (ps : List Nat) : List Nat := ps.filter fun p => p == 0 || !(m.markerAt block p && m.markerAt block 0)

/-- Read a block's moved bytes from HBM (R63): corrected errors are written back and logged; an uncorrectable one marks the block, and
stays in HBM. -/
def State.hbmRead (s : State) (block n asid source : Nat) : BlockRead × State :=
  let (bad, s) := s.judge 0 block (s.mem.sectorEvents block (sectorsOf n)) (s.blockRecord 0 block asid source)
  (⟨s.mem.stored block n, bad⟩, s)

/-- A scrub reads one sector of HBM (R62, R63). An uncorrectable error marks the block: its sectors get the marker pattern, and its entry in the
memory-side cache, if it has one, its mark (log 21). -/
def State.hbmScrub (s : State) (block p : Nat) : State :=
  let fresh := !s.mem.markerAt block p
  let (bad, s) := s.judge 0 block (s.mem.sectorEvents block [p]) (s.blockRecord 0 block 0 2)
  if !bad || !fresh then s else s.modMem fun m =>
    { m.setMarkers (s.stackOf (256 * block)) block with msc := match s.mscHit block with | some k => m.msc.modify k fun e => { e with marked := true } | none => m.msc }

/-- Bytes moved for a block of this metadata (R59). -/
def movedBytes (m : BitVec 4) : Nat := if m == 0b0100 then 0 else 80 * ((m.extractLsb' 0 2).toNat + 1)

/-- A block's metadata. Every granule is disabled at reset, so a block that nothing has written is uncompressed (R58). -/
def Mem.metaOf (m : Mem) (block : Nat) : BitVec 4 := AMap.get 0b0011 m.meta_ block

/-- A slice reads some parts, 0 the backing and 1 the metadata cache, of the 64-bit unit that holds a block's metadata and that of fifteen others (R61,
R62): corrected errors are logged and gone. Where the unit cannot be corrected the metadata of each of the sixteen blocks is lost (part 2 of an
error at level 8, by block), until it is written anew. Whether this block's is lost. Table 3.7 does not state UNIT at level 8: the home slice's
number, as for the L2 (log 31). DESIGN CHOICE. -/
def State.metaJudge (s : State) (block asid source : Nat) (parts : List Nat := [0, 1]) : Bool × State :=
  let unit := block / 16
  let (bad, s) := s.judge 8 unit parts (s.blockRecord 8 block asid source)
  if bad then
    (true, s.modMem fun m =>
      let m := (m.mend 8 unit 0).mend 8 unit 1
      { m with errors := m.errors ++ (List.range 16).map fun i => { level := 8, unit_ := 0, addr := unit * 16 + i, part := 2, bad := 2, bytes := 1 } })
  else match s.mem.errorOf 8 block 2 with
    | some e => (true, s.logError (s.blockRecord 8 block asid source e))
    | none => (false, s)

/-- Whether a block's owner has a token in each bucket a request needs (R316). -/
def State.hasTokens (s : State) (block : Nat) : Bool :=
  match s.ownerOf (256 * block / 2 ^ 30) with
  | some (p, _) =>
    let st := s.stackOf (256 * block)
    let ok (q : Nat) : Bool := match s.mem.buckets.find (st * 256 + q) with | some b => decide (1 ≤ b.tokens) | none => true
    ok p && ok (p / 16 * 16)
  | none => true

/-- Whether the base die would defer a read of a block (R316): it moves sectors on the stack, and a bucket lacks a token. -/
def State.deferred (s : State) (block : Nat) : Bool :=
  movedBytes (s.mem.metaOf block) != 0 && (s.mscHit block).isNone && !s.hasTokens block

/-- Note a demand read that the base die defers: the step in which it was made waits for it (R316, log 45). -/
def State.noteLate (s : State) (block : Nat) : State :=
  if s.deferred block && s.mem.late.isNone then s.modMem fun m => { m with late := some block } else s

/-- Whether a block's entry in the memory-side cache holds the marker pattern. -/
def State.mscMarked (s : State) (block : Nat) : Bool := ((s.mscHit block).bind s.mem.msc.find).any (·.marked)

/-- Read a block at the base die (R55, R63): a hit, or a miss that allocates an entry. An entry that holds the marker pattern is read as
a marked block (KIND 2). -/
def State.baseRead (s : State) (block asid source : Nat) : BlockRead × State :=
  let present := (s.mscHit block).isSome
  let was := s.mscMarked block
  let s := s.mscJudge block asid source
  match (s.mscHit block).bind fun k => (s.mem.msc.find k).map fun e => (k, e) with
  | some (k, e) =>
    let s := if was then s.logError (s.blockRecord 1 block asid source { level := 1, unit_ := 0, addr := block, marker := true, bytes := 0 }) else s
    (⟨e.bytes, e.marked⟩, s.modMem fun m => { m with msc := touchMsc m.msc (s.mscWays block) k })
  | none =>
    let n := movedBytes (s.mem.metaOf block)
    let (r, s) := s.hbmRead block n asid (if present then 3 else source)
    let s := s.charge block (n / 80)
    (r, s.mscInstall { block := block, bytes := r.bytes, dirty := false, nru := true, marked := r.marked })

/-- Write a block at the base die: the bytes of the sectors that its size class moves, its metadata and mark; the cache allocates an
entry on every write (R55, R59, R61). A sector's bytes beyond the stored form keep what they held. New metadata replaces the old, lost or not, in a
unit that is read first. -/
def State.baseWrite (s : State) (block : Nat) (mt : BitVec 4) (bs : List Byte) (marked : Bool) : State :=
  let n := movedBytes mt
  let hit := s.mscHit block
  let held := match hit.bind s.mem.msc.find with | some e => e.bytes | none => []
  let old := held ++ (s.mem.stored block 320).drop held.length
  let e : MscEntry := { block := block, bytes := (bs ++ old.drop bs.length).take n, dirty := true, nru := true, marked := marked }
  let s := if s.mem.errors.any (fun e => e.level == 8 && e.addr == block / 16) then (s.metaJudge block 0 1).2 else s
  let s := s.modMem fun m => { (m.clearError 1 block).mend 8 block 2 with meta_ := AMap.set 0b0011 m.meta_ block mt }
  match hit with
  | some k => s.modMem fun m => { m with msc := touchMsc (m.msc.put k e) (s.mscWays block) k }
  | none => s.mscInstall e

end Sys2Proof.Machine
end

