-- ==== Sys2Proof/Machine/Slice.lean ====
section
/-! DEFINITION. The L2 home slices (R65 to R67), compression at their memory port (R58 to R61), the base-die requests (R56),
and the access to one word at its home slice. -/

namespace Sys2Proof.Machine

/-- The words that a block read delivers (R61, R63): metadata that is uncorrectable or outside the legal combinations, and a marked block,
mark all. -/
def State.expandRead (s : State) (block asid source : Nat) (r : BlockRead) : List TWord × State :=
  let mt := s.mem.metaOf block
  let markAll (ws : List TWord) : List TWord := ws.map fun t => { t with mark := true }
  let asIs := (List.range 64).map fun i => ({ data := wordAt r.bytes (4 * i), code := r.bytes.getD (256 + i) 0, mark := true } : TWord)
  match s.metaJudge block asid source, expandBlock mt r.bytes with
  | (false, s), some ws => (if r.marked then markAll ws else ws, s)
  | (true, s), _ => (asIs, s)
  | (false, s), none =>
    (asIs, s.logError { s.blockRecord 8 block asid source { level := 8, unit_ := 0, addr := block, bytes := 0 } with kind := 3 })

/-- The stored form of a block that the slice writes back (R58, R60, R63): a block with a marked word goes uncompressed. -/
def State.packBlock (s : State) (block : Nat) (ws : List TWord) : BitVec 4 × List Byte × Bool :=
  if ws.any (·.mark) then (0b0011, rawBlock ws, true)
  else if AMap.get false s.mem.compress (256 * block / 2 ^ 30) then
    let (m, bs) := compressBlock ws
    (m, bs, false)
  else (0b0011, rawBlock ws, false)

/-- Put a request at the end of the base die's queue (R56). -/
def State.enqueueBase (s : State) (block : Nat) (k : BaseKind) : State :=
  let (id, s) := s.fresh
  s.modMem fun m => { m with base := m.base.put id { block := block, kind := k } }

/-- The set of a block in its slice, one of 768; the index is free (R66, log 8). -/
def l2Set (block : Nat) : Nat := Config.l2Set block % 768

/-- The L2 lines that share a block's slice and set. -/
def State.l2Peers (s : State) (block : Nat) : List (Nat × L2Line) :=
  s.mem.l2.filter fun e => s.homeSlice (256 * e.1) == s.homeSlice (256 * block) && l2Set e.1 == l2Set block

/-- The protected units of an L2 line: pairs of words. -/
def l2Units : List Nat := List.range 32

/-- An L2 line's units are checked as they are read (R63): corrected; a line with an uncorrectable error is dropped where it is clean, to
be fetched again, and marked where it is dirty. -/
def State.l2Judge (s : State) (block : Nat) (units : List Nat) (asid source : Nat) : State :=
  match s.mem.l2.find block with
  | none => s
  | some l =>
    let (bad, s) := s.judge 2 block units (s.blockRecord 2 block asid source)
    if !bad then s else s.modMem fun m =>
      if l.dirty then { units.foldl (fun m u => m.mend 2 block u) m with l2 := m.l2.put block { l with words := l.words.map fun t => { t with mark := true } } }
      else { m.clearError 2 block with l2 := m.l2.del block }

/-- The words of a block as its home slice holds them. -/
def State.l2Words (s : State) (block : Nat) : List TWord :=
  match s.mem.l2.find block with
  | some l => l.words
  | none => []

/-- Remove an L2 line; a dirty one is read, its errors judged (R63), and written back through the base die. -/
def State.l2Evict (s : State) (block : Nat) : State :=
  match s.mem.l2.find block with
  | none => s
  | some l =>
    let s := if l.dirty then s.l2Judge block l2Units 0 1 else s
    let ws := s.l2Words block
    let s := s.modMem fun m => { m.clearError 2 block with l2 := m.l2.del block }
    if l.dirty then s.enqueueBase block (.write ws) else s

/-- Whether a block's line is pinned: by an entry of a pin table, or by a chunk fetched and not yet added (R207, R216). -/
def State.pinned (s : State) (block : Nat) : Bool :=
  s.ex.pins.any (fun e => e.2.any fun p => p.blocks.contains block) || s.ex.mq.any fun e => e.2.any fun i => i.blocks.contains block

/-- Whether a slice may pin a block: of the other lines of its set, it pins fewer than 8, those of a list among them (R216). -/
def State.pinRoom (s : State) (mine : List Nat) (block : Nat) : Bool :=
  decide (((s.l2Peers block).filter fun e => e.1 != block && (s.pinned e.1 || mine.contains e.1)).length < 8)

/-- Of the blocks that a chunk was fetched from, those whose lines a slice pins (R207, R216). -/
def State.pinnable (s : State) (bs : List Nat) : List Nat := bs.foldl (fun l b => if s.mem.l2.has b && s.pinRoom l b then l ++ [b] else l) []

/-- Install a line, making room in a set of 16 ways; a pinned line is never the victim (R66, R216; the choice is free, log 8). -/
def State.l2Install (s : State) (block : Nat) (ws : List TWord) : State :=
  let peers := s.l2Peers block
  let s := if peers.length < 16 then s else
    match peers.filter (fun e => !s.pinned e.1) with
    | [] => s
    | e :: r =>
      let (c, s) := s.free
      s.l2Evict ((e :: r).getD (Config.pick c % (r.length + 1)) e).1
  s.modMem fun m => { m with l2 := m.l2.put block { words := ws } }

/-- Fetch a block from the base die into its home slice (R61, R66). -/
def State.l2Fetch (s : State) (block asid source : Nat) : State :=
  let (r, s) := (s.noteLate block).baseRead block asid source
  let (ws, s) := s.expandRead block asid source r
  s.l2Install block ws

/-- Perform one base-die request (R56): a read fills the L2; a write stores the block with its metadata; a scrub corrects. -/
def State.performBase (s : State) (id : Nat) : State :=
  match s.mem.base.find id with
  | none => s
  | some q =>
    let s := s.modMem fun m => { m with base := m.base.del id }
    match q.kind with
    | .read => if s.mem.l2.has q.block then s else s.l2Fetch q.block 0 0
    | .write ws =>
      let (m, bs, marked) := s.packBlock q.block ws
      s.baseWrite q.block m bs marked
    | .scrub => (sectorsOf (movedBytes (s.mem.metaOf q.block))).foldl (fun s p => s.hbmScrub q.block p) s

/-- The requests for one block in arrival order (R56). -/
def State.baseOf (s : State) (block : Nat) : List Nat := (s.mem.base.filter fun e => e.2.block == block).map (·.1)

/-- Perform every waiting request for a block, in order. -/
def State.settleBase (s : State) (block : Nat) : State := (s.baseOf block).foldl State.performBase s

/-- Write back and drop what caches below the L1s hold of some granules, and every entry of the memory-side caches: Smilor flushes them before it
changes who owns granules and where they are placed (R52, R56, R57, log 8). -/
def State.emptyBelow (s : State) (granules : List Nat) : State :=
  let s := ((s.mem.l2.map (·.1)).filter fun b => granules.contains (256 * b / 2 ^ 30)).foldl State.l2Evict s
  let s := ((s.mem.base.map fun e => e.2.block).eraseDups).foldl State.settleBase s
  (s.mem.msc.map (·.1)).foldl State.mscOut s

/-- Enable or disable compression in a granule (R58). A block of a disabled granule is always stored uncompressed, so its compressed blocks are read and
written back as it is disabled (log 56). -/
def State.setCompress (s : State) (granule : Nat) (on : Bool) : State :=
  let s := s.modMem fun m => { m with compress := AMap.set false m.compress granule on }
  let plain (s : State) (block : Nat) : State :=
    let s := s.settleBase block
    if s.mem.metaOf block == 0b0011 then s else
    let (r, s) := s.baseRead block 0 1
    let (ws, s) := s.expandRead block 0 1 r
    s.baseWrite block 0b0011 (rawBlock ws) (ws.any (·.mark))
  if on then s else ((s.mem.meta_.map (·.1)).filter fun b => 256 * b / 2 ^ 30 == granule).foldl plain s

/-! ### Remote windows (R347) -/

/-- The bytes of HBM (R52): no address from here on is HBM. -/
def hbmEnd : Nat := 768 * 2 ^ 30

/-- The remote window that a physical address is in. -/
def State.remoteAt (s : State) (pa : Nat) : Option RWindow := s.dev.windows.find? fun w => decide (w.base ≤ pa) && decide (pa < w.base + w.size)

/-- Put a message on its way to a port's peer. -/
def State.sendPeer (s : State) (port : Nat) (m : PeerMsg) : State :=
  s.modDev fun d =>
    let p : Port := AMap.get {} d.ports port
    { d with ports := d.ports.put port ({ p with sent := p.sent ++ [m] }.pump port) }

/-- A word that a peer's home slice answers: a free value (log 25). -/
def State.peerWord (s : State) : TWord × State :=
  let f (i : Nat) : Word64 := Config.freeWord (s.freeCount + i)
  ({ data := (f 0).setWidth 32, code := (f 1).setWidth 8, mark := (f 2).getLsbD 0 }, s.free.2.free.2.free.2)

/-- Read a word of a remote window: the peer's home slice performs the read. -/
def State.remoteRead (s : State) (w : RWindow) (pa : Nat) : TWord × State :=
  (s.peerWord.1, s.peerWord.2.sendPeer w.port (.ask (.read (w.peer + (pa - w.base)) 1)))

/-- Write a word of a remote window: the peer's home slice performs the write. -/
def State.remoteWrite (s : State) (w : RWindow) (pa : Nat) (t : TWord) : State :=
  s.sendPeer w.port (.ask (.write (w.peer + (pa - w.base)) t.data t.code t.mark))

/-- Bring a block into its home slice for the units that are read (R66), performing first what waits for it at the base die (R56). A line
that an uncorrectable error has made a miss is a refetch. -/
def State.l2Ensure (s : State) (block asid : Nat) (source : Nat := 0) (units : List Nat := []) : State :=
  if (s.remoteAt (256 * block)).isSome then s else
  let present := s.mem.l2.has block
  let s := s.l2Judge block units asid source
  if s.mem.l2.has block then s else
    let s := s.settleBase block
    if s.mem.l2.has block then s else s.l2Fetch block asid (if present then 3 else source)

/-- Read one word at its home slice (R67), a peer's where it lies in a remote window (R347). -/
def State.sliceRead (s : State) (pa asid : Nat) (source : Nat := 0) : TWord × State :=
  match s.remoteAt pa with
  | some w => s.remoteRead w pa
  | none =>
  let s := s.l2Ensure (pa / 256) asid source [pa % 256 / 8]
  ((s.l2Words (pa / 256)).getD (pa % 256 / 4) {}, s)

/-- Write one word at its home slice under a word mask (R66), counting the write for its 64-byte line (R270). Half of a protected unit
is written, so the unit is checked first. A word of a remote window is written at the peer's (R347). -/
def State.sliceWrite (s : State) (pa asid : Nat) (t : TWord) (source : Nat := 0) : State :=
  match s.remoteAt pa with
  | some w => s.remoteWrite w pa t
  | none =>
  let s := s.l2Ensure (pa / 256) asid source [pa % 256 / 8]
  s.modMem fun m =>
    { m with l2 := m.l2.modify (pa / 256) fun l => { l with words := l.words.set (pa % 256 / 4) t, dirty := true },
             wseq := m.wseq.put (pa / 64) (AMap.get 0 m.wseq (pa / 64) + 1) }

/-- Mark every word of a block at its home slice: an error above it was found where no clean copy exists (R63). -/
def State.markBlock (s : State) (block asid : Nat) : State :=
  (s.l2Ensure block asid).modMem fun m =>
    { m with l2 := m.l2.modify block fun l => { l with words := l.words.map fun t => { t with mark := true }, dirty := true } }

/-- Read consecutive words at their home slices. -/
def State.sliceReads (s : State) (pa asid : Nat) (n : Nat) (source : Nat := 0) : List TWord × State :=
  match n with
  | 0 => ([], s)
  | n + 1 =>
    let (t, s) := s.sliceRead pa asid source
    let (r, s) := s.sliceReads (pa + 4) asid n source
    (t :: r, s)

/-- Write consecutive words at their home slices. -/
def State.sliceWrites (s : State) (pa asid : Nat) : List TWord → State
  | [] => s
  | t :: r => (s.sliceWrite pa asid t).sliceWrites (pa + 4) asid r

end Sys2Proof.Machine
end

