-- ==== Sys2Proof/Machine/Translate.lean ====
section
/-! DEFINITION. Translation at the L2 boundary: the two-stage walk, rights, the translation caches and what TLBINV removes
(R68 to R78). A right is a mask: bit 0 RD, bit 1 W, bit 2 X. -/

namespace Sys2Proof.Machine

/-- A leaf: address of the page, log2 of its size, rights, memory type. -/
structure Leaf where
  base : Nat
  size : Nat
  rights : BitVec 3
  mt : BitVec 2
deriving Repr

/-- log2 of the coverage of one entry of a level (Table 4.2). -/
def levelShift (l : Nat) : Nat := 48 - 9 * l

/-- The level at which a leaf of a SIZE stands (Table 4.4). -/
def leafLevel (size : Nat) : Nat := if size ≤ 4 then 4 else if size ≤ 8 then 3 else if size ≤ 13 then 2 else 1

/-- What an entry says at a level (R70, R72): none where the walk fails, a pointer, or a leaf. -/
def readEntry (e : Word64) (level : Nat) : Option (Nat ⊕ Leaf) :=
  let size := (e.extractLsb' 60 4).toNat
  let frame := (e.extractLsb' 12 40).toNat * 4096
  if !e.getLsbD 0 then none
  else if e.extractLsb' 52 8 != 0 || e.extractLsb' 8 4 != 0 || e.getLsbD 1 then none
  else if e.getLsbD 2 then
    if (e.extractLsb' 6 2).toNat ≥ 2 then none
    else if leafLevel size != level then none
    else if frame % 2 ^ (12 + 2 * size) != 0 then none
    else some (.inr { base := frame, size := 12 + 2 * size, rights := e.extractLsb' 3 3, mt := e.extractLsb' 6 2 })
  else if size != 0 || level == 4 then none
  else some (.inl frame)

/-- The 64-bit entry at a physical address, read at its home slice (R74). A walker is no lane of R81: DESIGN CHOICE (log 5), it takes the
data as they stand, whatever mark or code they carry. -/
def State.readEntryAt (s : State) (pa : Nat) : Word64 × State :=
  let (lo, s) := s.sliceRead pa 0
  let (hi, s) := s.sliceRead (pa + 4) 0
  (hi.data ++ lo.data, s)

/-! ### Partial walks (R74) -/

/-- The levels of a walk. -/
def levels : List Nat := [0, 1, 2, 3, 4]

/-- The index of an address among the tables of a level: the address bits above what one table covers. -/
def tableIndex (l addr : Nat) : Nat := addr / 2 ^ (levelShift l + 9)

/-- Where a walk begins: at the root, or, by a free choice, at a table that a walker of the die still knows from an earlier walk (log 5). -/
def State.walkStart (s : State) (die : Nat) (stage2 : Bool) (id addr root : Nat) : (Nat × List Nat) × State :=
  let known := (AMap.get [] s.mem.partials die).filter fun p => p.stage2 == stage2 && p.id == id && p.index == tableIndex p.level addr
  if known.isEmpty then ((root, levels), s) else
    let (n, s) := s.free
    match known[Config.pick n % (known.length + 1)]? with
    | some p => ((p.table, levels.drop p.level), s)
    | none => ((root, levels), s)

/-- Keep a pointer that a walk has read, for later walks of the die: up to 64, four for each of its 16 walkers (log 5). -/
def State.keepPartial (s : State) (die : Nat) (p : PWalk) : State :=
  s.modMem fun m => { m with partials := m.partials.put die ((p :: (AMap.get [] m.partials die).erase p).take 64) }

/-- Whether a page lies in a remote window of a partition (R347). -/
def State.windowed (s : State) (part base size : Nat) : Bool :=
  s.dev.windows.any fun w => w.part == part && decide (w.base ≤ base) && decide (base + size ≤ w.base + w.size)

/-- A stage-2 walk from a table of a level (R69 to R72): a leaf inside the partition's granules, or in a remote window of it (R347), or none. -/
def State.walk2 (s : State) (die part : Nat) (granules : List Nat) (ipa table : Nat) : List Nat → Option Leaf × State
  | [] => (none, s)
  | l :: ls =>
    let (e, s) := s.readEntryAt (table + 8 * (ipa / 2 ^ levelShift l % 512))
    match readEntry e l with
    | none => (none, s)
    | some (.inl t) =>
      (s.keepPartial die { stage2 := true, id := part, level := l + 1, index := tableIndex (l + 1) ipa, table := t }).walk2 die part granules ipa t ls
    | some (.inr f) =>
      if (List.range ((2 ^ f.size + 2 ^ 30 - 1) / 2 ^ 30)).all (fun k => granules.contains (f.base / 2 ^ 30 + k)) || s.windowed part f.base (2 ^ f.size) then (some f, s)
      else (none, s)

/-- The stage-2 walk of an IPA of a partition. -/
def State.walkIpa (s : State) (die part : Nat) (p : Partition) (ipa : Nat) : Option Leaf × State :=
  let ((t, ls), s) := s.walkStart die true part ipa p.s2root
  s.walk2 die part p.granules ipa t ls

/-- What a walk answers: a cause with its %tval, or both leaves. -/
abbrev WalkResult := Except (Nat × Word64) (Leaf × Leaf × Nat)

/-- A stage-1 walk from a table of a level with the stage-2 walk of each table address (R68, R72), and the rights in the order of R72. DESIGN CHOICE (log 5): where the
stage-2 walk of a table address fails, %tval is the IPA of the entry that was to be read; R72 says no more than 'the IPA'. -/
def State.walk1 (s : State) (die asid part : Nat) (p : Partition) (va : Nat) (va64 : Word64) (right : BitVec 3) (table : Nat) :
    List Nat → WalkResult × State
  | [] => (.error (8, va64), s)
  | l :: ls =>
    let ipa := table + 8 * (va / 2 ^ levelShift l % 512)
    match s.walkIpa die part p ipa with
    | (none, s) => (.error (10, BitVec.ofNat 64 ipa), s)
    | (some f2, s) =>
      let (e, s) := s.readEntryAt (f2.base + ipa % 2 ^ f2.size)
      match readEntry e l with
      | none => (.error (8, va64), s)
      | some (.inl t) =>
        (s.keepPartial die { stage2 := false, id := asid, level := l + 1, index := tableIndex (l + 1) va, table := t }).walk1 die asid part p va va64 right t ls
      | some (.inr f1) =>
        if f1.rights &&& right != right then (.error (9, va64), s)
        else
          let ipa := f1.base + va % 2 ^ f1.size
          match s.walkIpa die part p ipa with
          | (none, s) => (.error (10, BitVec.ofNat 64 ipa), s)
          | (some f2, s) =>
            if f2.rights &&& right != right then (.error (10, BitVec.ofNat 64 ipa), s) else (.ok (f1, f2, ipa), s)

/-- The result of R73 as a translation-cache entry. -/
def entryOf (asid part va : Nat) (f1 f2 : Leaf) (ipa : Nat) : TEntry :=
  let size := Nat.min f1.size f2.size
  let pa := f2.base + ipa % 2 ^ f2.size
  { asid := asid, part := part, vpage := va / 2 ^ size, size := size, pa := pa / 2 ^ size * 2 ^ size,
    rights := f1.rights &&& f2.rights, mt := if f1.mt == 1 || f2.mt == 1 then 1 else 0,
    ipa := ipa / 2 ^ f2.size * 2 ^ f2.size, ipaSize := f2.size }

/-- The physical address of a virtual address in a translated page. -/
def TEntry.paOf (e : TEntry) (va : Nat) : Nat := e.pa + va % 2 ^ e.size

/-- The translation cache of an executor: its cluster's, or its die's for Helm cores (R74). -/
def cacheOf (core : Nat) : Nat := if core < 640 then core / 16 else 40 + (core - 640) / 4

/-- The entries a cache holds (R74). -/
def cacheCap (c : Nat) : Nat := if c < 40 then 8192 else 1024

/-- Add an entry, making room by a free choice (log 7). -/
def State.tcacheAdd (s : State) (c : Nat) (e : TEntry) : State :=
  let l := AMap.get [] s.mem.tcache c
  let (l, s) := if l.length < cacheCap c then (l, s) else
    let (k, s) := s.free
    (l.eraseIdx (Config.pick k % l.length), s)
  s.modMem fun m => { m with tcache := m.tcache.put c (l ++ [e]) }

/-- The die of a translation cache: ten clusters to a die (R74). -/
def dieOfCache (c : Nat) : Nat := if c < 40 then c / 10 else c - 40

/-- The full walk for a context's address with a right (R72), by a walker of a die. -/
def State.walkFor (s : State) (die asid : Nat) (va64 : Word64) (right : BitVec 3) : Except (Nat × Word64) TEntry × State :=
  if !canonical va64 then (.error (8, va64), s) else
  match s.org.ctxs.find asid with
  | none => (.error (8, va64), s)
  | some c =>
    match s.org.parts.find c.part with
    | none => (.error (8, va64), s)
    | some p =>
      let ((t, ls), s) := s.walkStart die false asid (va57 va64) c.s1root
      match s.walk1 die asid c.part p (va57 va64) va64 right t ls with
      | (.error e, s) => (.error e, s)
      | (.ok (f1, f2, ipa), s) => (.ok (entryOf asid c.part (va57 va64) f1 f2 ipa), s)

/-- The requests that come from no cluster: each is translated at the die where it reaches the L2 (R74). -/
def dieCache : Nat := 44

/-- The translation cache that a request uses. At which die a request that comes from no cluster reaches the L2 is not stated: a free
function of its page (log 7). -/
def cacheFor (cache : Nat) (va64 : Word64) : Nat := if cache < 44 then cache else 40 + Config.arrivalDie (va57 va64 / 4096) % 4

/-- Translate an address once at the L2 boundary (R68, R73, R74): a cached entry with the right, else a walk whose result is
cached. The walk is made at once (log 5), so that a later miss in the page finds its result. DESIGN CHOICE (log 5): a cached entry that lacks the right is passed
over, and the walk decides. -/
def State.translate (s : State) (cache asid : Nat) (va64 : Word64) (right : BitVec 3) : Except (Nat × Word64) TEntry × State :=
  let cache := cacheFor cache va64
  if !canonical va64 then (.error (8, va64), s) else
  match (AMap.get [] s.mem.tcache cache).find? (fun e => e.asid == asid && va57 va64 / 2 ^ e.size == e.vpage
      && e.rights &&& right == right) with
  | some e => (.ok e, s)
  | none =>
    match s.walkFor (dieOfCache cache) asid va64 right with
    | (.error e, s) => (.error e, s)
    | (.ok e, s) => (.ok e, s.tcacheAdd cache e)

/-- The rights masks of R72. -/
def rRD : BitVec 3 := 1
/-- The write right. -/
def rW : BitVec 3 := 2
/-- The instruction-fill right. -/
def rX : BitVec 3 := 4
/-- Atomics need both. -/
def rRW : BitVec 3 := 3

/-- Read n words at a VA, each translated and read at its home slice; the first failure is answered. -/
def State.readVa (s : State) (cache asid : Nat) (va : Word64) (right : BitVec 3) (n : Nat) (source : Nat := 0) :
    Except (Nat × Word64) (List TWord) × State :=
  match n with
  | 0 => (.ok [], s)
  | n + 1 =>
    match s.translate cache asid va right with
    | (.error e, s) => (.error e, s)
    | (.ok e, s) =>
      let (t, s) := s.sliceRead (e.paOf (va57 va)) asid source
      match s.readVa cache asid (va + 4) right n source with
      | (.error e, s) => (.error e, s)
      | (.ok r, s) => (.ok (t :: r), s)

/-- Write words at a VA, each at its home slice; the first failure is answered and nothing from it on is written. -/
def State.writeVa (s : State) (cache asid : Nat) (va : Word64) (ts : List TWord) (right : BitVec 3 := rW) :
    Except (Nat × Word64) Unit × State :=
  match ts with
  | [] => (.ok (), s)
  | t :: r =>
    match s.translate cache asid va right with
    | (.error e, s) => (.error e, s)
    | (.ok e, s) => (s.sliceWrite (e.paOf (va57 va)) asid t).writeVa cache asid (va + 4) r right

/-- The first failing word of a check of marks and codes (R81): cause and index. -/
def judgeWords (ts : List TWord) : Option (Nat × Nat) :=
  ((ts.zipIdx).findSome? fun (t, i) => t.judge.map fun c => (c, i))

end Sys2Proof.Machine
end

