-- ==== Sys2Proof/Machine/L1.lean ====
section
/-! DEFINITION. The L1 data cache (R105 to R112), the sweep, write-back and the invalidations that other units ask for. A line's
key is core * 2048 + set * 8 + way. -/

namespace Sys2Proof.Machine

/-- The set of an address (R105). -/
def l1Set (va : Nat) : Nat := va / 128 % 256

/-- The keys of the eight ways of an address's set. -/
def l1Ways (core va : Nat) : List Nat := (List.range 8).map fun w => core * 2048 + l1Set va * 8 + w

/-- The line that holds an address for an ASID (R105). -/
def State.l1Key (s : State) (core asid va : Nat) : Option Nat :=
  (l1Ways core va).find? fun k => match s.mem.l1d.find k with
    | some l => l.va == va / 128 * 128 && l.asid == asid
    | none => false

/-- The line at a key. -/
def State.l1Line (s : State) (k : Nat) : L1Line :=
  (s.mem.l1d.find k).getD { va := 0, asid := 0, pa := 0, rights := 0, mt := 0, filled := false, dirty := 0, words := [] }

/-- Whether word i of a line is dirty. -/
def L1Line.isDirty (l : L1Line) (i : Nat) : Bool := l.dirty.getLsbD i

/-- The protected units of a line that an access of a width reads: pairs of words (Table 3.6). -/
def l1Units (va width : Nat) : List Nat := [va % 128 / 8, (va % 128 + width - 1) / 8].eraseDups
/-- Every protected unit of a line. -/
def l1AllUnits : List Nat := List.range 16

/-- A line's units are checked as they are read (R63, R112): corrected; with an uncorrectable error a line without dirty words is dropped,
to be fetched again, and otherwise its words are marked, and the words of its block at the home slice with them (log 21). -/
def State.l1Judge (s : State) (k : Nat) (units : List Nat) (source : Nat := 0) : State :=
  match s.mem.l1d.find k with
  | none => s
  | some l =>
    let (bad, s) := s.judge 3 k units fun e => s.coreRecord 3 (k / 2048) (k % 2048 * 32 + 2 * e.part) l.asid source e
    if !bad then s
    else if l.dirty == 0 then s.modMem fun m => { m.clearError 3 k with l1d := m.l1d.del k }
    else (s.modMem fun m => { units.foldl (fun m u => m.mend 3 k u) m with
        l1d := m.l1d.put k { l with words := l.words.map fun t => { t with mark := true } } }).markBlock (l.pa / 256) l.asid

/-- The owed words are those that are still dirty (R236). -/
def Mem.keepOwed (m : Mem) : Mem :=
  { m with owed := m.owed.filter fun o => m.l1d.any fun e =>
      e.1 / 2048 == o.core && e.2.asid == o.asid && e.2.va == o.va / 128 * 128 && e.2.isDirty (o.va % 128 / 4) }

/-- Send a line's dirty words to the PA kept with it (R73, R107), its errors judged (R63); they stay as clean (R108). -/
def State.l1Send (s : State) (k : Nat) : State :=
  if (s.l1Line k).dirty == 0 then s else
  let s := s.l1Judge k l1AllUnits 1
  let l := s.l1Line k
  let s := (List.range 32).foldl (fun s i => if l.isDirty i then s.sliceWrite (l.pa + 4 * i) l.asid (l.words.getD i {}) 1 else s) s
  s.modMem fun m => Mem.keepOwed { m with l1d := m.l1d.modify k fun l => { l with dirty := 0 } }

/-- Remove a line, its dirty words sent first (R108 point 3). -/
def State.l1Out (s : State) (k : Nat) : State := (s.l1Send k).modMem fun m => { m.clearError 3 k with l1d := m.l1d.del k }

/-- The dirty lines that must be at their home slices before a line's words are: those that were dirty when a strand wrote one of its words after a
release FENCE at .dev or wider (R235, R236; log 10). -/
def State.linesBefore (s : State) (k : Nat) : List Nat :=
  let l := s.l1Line k
  let vas := (s.mem.owed.filter fun o => o.core == k / 2048 && o.asid == l.asid && o.va / 128 * 128 == l.va && l.isDirty (o.va % 128 / 4)).flatMap (·.before)
  (vas.filterMap (s.l1Key (k / 2048) l.asid)).filter fun n => (s.l1Line n).dirty != 0

/-- Some lines, with all that must be at their home slices before them; the fuel counts the lines of an L1. -/
def State.linesFirst (s : State) : Nat → List Nat → List Nat
  | 0, ks => ks
  | n + 1, ks =>
    let more := ((ks.flatMap s.linesBefore).filter fun k => !ks.contains k).eraseDups
    if more.isEmpty then ks else s.linesFirst n (ks ++ more)

/-- The other lines that a line's words wait for. -/
def State.owedLines (s : State) (k : Nat) : List Nat := if s.mem.owed.isEmpty then [] else (s.linesFirst 2048 [k]).filter (· != k)

/-- Write a line's dirty words back, after the eviction of the lines that its words wait for. -/
def State.l1WriteBack (s : State) (k : Nat) : State := ((s.owedLines k).foldl State.l1Out s).l1Send k

/-- Evict a line (R108 point 3, R109): its dirty words are written back and the way becomes invalid. -/
def State.l1Evict (s : State) (k : Nat) : State := ((s.owedLines k).foldl State.l1Out s).l1Out k

/-- Write back one word if it is dirty (R108 point 4), its line's errors judged (R63); a line whose words wait for others is evicted behind them. -/
def State.l1WriteBackWord (s : State) (core asid va : Nat) : State :=
  match s.l1Key core asid va with
  | none => s
  | some k =>
    let i := va % 128 / 4
    if (s.l1Line k).isDirty i then
      if !(s.owedLines k).isEmpty then s.l1Evict k else
      let s := s.l1Judge k (l1Units va 4) 1
      let l := s.l1Line k
      let s := s.sliceWrite (l.pa + 4 * i) asid (l.words.getD i {}) 1
      s.modMem fun m => Mem.keepOwed { m with l1d := m.l1d.modify k fun l => { l with dirty := l.dirty &&& ~~~(1#32 <<< i) } }
    else s

/-- Note a use (R109, R110): .stream leaves NRU unchanged, .keep sets Keep in at most four ways; when every way is valid and
recently used, the other ways' bits are cleared. -/
def State.l1Touch (s : State) (k : Nat) (h : Hint) : State :=
  if h == .stream then s else
  let ways := (List.range 8).map fun w => k / 8 * 8 + w
  let keeps := (ways.filter fun w => match s.mem.l1d.find w with | some l => l.keep && w != k | none => false).length
  let s := s.modMem fun m => { m with l1d := m.l1d.modify k fun l => { l with nru := true, keep := l.keep || (h == .keep && keeps < 4) } }
  if ways.all (fun w => match s.mem.l1d.find w with | some l => l.nru | none => false) then
    s.modMem fun m => { m with l1d := ways.foldl (fun d w => if w == k then d else d.modify w fun l => { l with nru := false }) m.l1d }
  else s

/-- The victim way (R109), and the state with the set's NRU bits cleared where step 3 clears them. -/
def State.l1Victim (s : State) (core va : Nat) : Nat × State :=
  let ways := l1Ways core va
  let get (k : Nat) : Option L1Line := s.mem.l1d.find k
  match ways.find? (fun k => (get k).isNone) with
  | some k => (k, s)
  | none =>
    match ways.find? (fun k => match get k with | some l => !l.keep && !l.nru | none => true) with
    | some k => (k, s)
    | none =>
      match ways.find? (fun k => match get k with | some l => !l.keep | none => true) with
      | some k => (k, s.modMem fun m => { m with l1d := ways.foldl (fun d w => d.modify w fun l => { l with nru := false }) m.l1d })
      | none => (ways.headD 0, s)

/-- Allocate a line with F = 0 (R107), writing a dirty victim back first (R109). -/
def State.l1Alloc (s : State) (core asid va : Nat) (e : TEntry) (h : Hint) : Nat × State :=
  let (k, s) := s.l1Victim core va
  let s := s.l1WriteBack k
  let line := va / 128 * 128
  let l : L1Line := { va := line, asid := asid, pa := e.paOf line, rights := e.rights, mt := e.mt, filled := false,
                      dirty := 0, words := List.replicate 32 {} }
  let s := s.modMem fun m => { m.clearError 3 k with l1d := m.l1d.put k l }
  (k, s.l1Touch k h)

/-- Fill a line with the half block under a translation, which it keeps (R73, R106): bytes that are dirty keep their values. -/
def State.l1FillAt (s : State) (k : Nat) (e : TEntry) (source : Nat := 0) : State :=
  match s.mem.l1d.find k with
  | none => s
  | some l =>
    let pa := e.paOf l.va
    let (ws, s) := s.sliceReads pa l.asid 32 source
    s.modMem fun m => { m with l1d := m.l1d.modify k fun l =>
      { l with pa := pa, rights := e.rights, mt := e.mt, filled := true,
               words := (List.range 32).map fun i => if l.isDirty i then l.words.getD i {} else ws.getD i {} } }

/-- Whether a load's words hit: valid, and each word dirty or filled (R106). -/
def State.l1Hit (s : State) (core asid va width : Nat) : Bool :=
  match s.l1Key core asid va with
  | none => false
  | some k =>
    let l := s.l1Line k
    (List.range ((width + 3) / 4)).all fun i => l.filled || l.isDirty (va % 128 / 4 + i)

/-- The word of a line at an address. -/
def State.l1Word (s : State) (k va : Nat) : TWord := (s.l1Line k).words.getD (va % 128 / 4) {}

/-- Write a word into a line and set its dirty bits (R107). -/
def State.l1Store (s : State) (k va : Nat) (t : TWord) : State :=
  s.modMem fun m => { m with l1d := m.l1d.modify k fun l =>
    { l with words := l.words.set (va % 128 / 4) t, dirty := l.dirty ||| (1#32 <<< (va % 128 / 4)) } }

/-- R116: a store performed at the home slice also writes its words into a line that is present, as clean words. -/
def State.l1Update (s : State) (core asid va : Nat) (t : TWord) : State :=
  match s.l1Key core asid va with
  | none => s
  | some k => s.modMem fun m => { m with l1d := m.l1d.modify k fun l =>
      { l with words := l.words.set (va % 128 / 4) t, dirty := l.dirty &&& ~~~(1#32 <<< (va % 128 / 4)) } }

/-- The keys of one core's lines of an ASID. -/
def State.l1Lines (s : State) (core asid : Nat) : List Nat :=
  (s.mem.l1d.filter fun e => e.1 / 2048 == core && e.2.asid == asid).map (·.1)

/-- Write back every dirty word of an ASID in one core's L1 (R114). -/
def State.l1WriteBackAll (s : State) (core asid : Nat) : State := (s.l1Lines core asid).foldl State.l1Send s

/-- Evict the lines of an ASID in one core's L1 that hold dirty words: what a write after a release FENCE at .dev or wider comes after, where it is performed
at a home slice (R236, log 10). -/
def State.l1Empty (s : State) (core asid : Nat) : State :=
  ((s.l1Lines core asid).filter fun k => (s.l1Line k).dirty != 0).foldl State.l1Out s

/-- A read of a completion word finds at their home slices the words that the strands of its grids wrote after a release FENCE (R236, the completion case):
what is still dirty of them is evicted first. -/
def State.payAt (s : State) (pa : Nat) : State :=
  match s.mem.owing.find (pa / 4) with
  | none => s
  | some os =>
    let s := os.foldl (fun s o => match s.l1Key o.core o.asid o.va with
      | some k => if (s.l1Line k).isDirty (o.va % 128 / 4) then s.l1Evict k else s
      | none => s) s
    s.modMem fun m => { m with owing := m.owing.del (pa / 4) }

/-- The same for the words from an address on. -/
def State.payFrom (s : State) (pa n : Nat) : State := if s.mem.owing.isEmpty then s else (List.range n).foldl (fun s i => s.payAt (pa + 4 * i)) s

/-- Sweep lines (R112, R127): one with no dirty word becomes invalid; one with dirty words keeps them and has F cleared. -/
def sweepLine (d : AMap L1Line) (k : Nat) : AMap L1Line :=
  match d.find k with
  | some l => if l.dirty == 0 then d.del k else d.put k { l with filled := false }
  | none => d

/-- Put the lines of the L1s; errors of lines that are gone go with them. -/
def Mem.setL1 (m : Mem) (d : AMap L1Line) : Mem :=
  Mem.keepOwed { m with l1d := d, errors := m.errors.filter fun e => e.level != 3 || d.has e.addr }

/-- Sweep the lines of some keys. -/
def State.l1SweepKeys (s : State) (ks : List Nat) : State := s.modMem fun m => m.setL1 (ks.foldl sweepLine m.l1d)

/-- Fills in flight of a core's lines of an ASID that a predicate on their VA selects install nothing (R112). -/
def State.dropFills (s : State) (core asid : Nat) (sel : Nat → Bool) : State :=
  s.modEx fun x => { x with fills := x.fills.map fun e =>
    (e.1, if e.2.core == core && e.2.asid == asid && sel e.2.va then { e.2 with installs := false } else e.2) }

/-- The invalidation sweep of an acquire (R112): fills in flight install nothing. -/
def State.l1Sweep (s : State) (core asid : Nat) : State := (s.l1SweepKeys (s.l1Lines core asid)).dropFills core asid fun _ => true

/-- Lines of a core and ASID that overlap [lo, lo + n). -/
def State.l1Overlap (s : State) (core asid lo n : Nat) : List Nat :=
  (s.l1Lines core asid).filter fun k => let v := (s.l1Line k).va; decide (v < lo + n) && decide (lo < v + 128)

/-- R100: drop the clean lines that overlap a word; dirty bytes are kept. -/
def State.l1DropClean (s : State) (core asid va : Nat) : State :=
  match s.l1Key core asid va with
  | none => s
  | some k => s.l1SweepKeys [k]

/-- R377: invalidate every line whose kept PA lies in a range, discarding dirty words. -/
def State.l1Discard (s : State) (lo n : Nat) : State :=
  s.modMem fun m => m.setL1 (m.l1d.filter fun e => !(decide (e.2.pa < lo + n) && decide (lo < e.2.pa + 128)))

/-- R77: write back and invalidate every core's lines of an ASID that a predicate on their VA selects. -/
def State.l1Flush (s : State) (asid : Nat) (sel : Nat → Bool) : State :=
  let ks := (s.mem.l1d.filter fun e => e.2.asid == asid && sel e.2.va).map (·.1)
  (ks.foldl State.l1WriteBack s).modMem fun m => m.setL1 (ks.foldl (fun d k => d.del k) m.l1d)

end Sys2Proof.Machine
end

