-- ==== Sys2Proof/Machine/Lines.lean ====
section
/-! DEFINITION. Code as the front end sees it: fetch lines and their checks (R21 to R28), compressed lines (R334), DPF
syllables (R335, R336), sequential order and target checks. -/

namespace Sys2Proof.Machine

/-- XOR of the bits of a value. -/
def parityOf (n : Nat) (f : Nat → Bool) : Bool := (List.range n).foldl (fun b i => b != f i) false

/-- The line word's bit. -/
def lwBit (ws : List TWord) (i : Nat) : Bool := (ws.getD 15 {}).data.getLsbD i

/-- The 96-bit word of slot j (R21). -/
def slotWord (ws : List TWord) (j : Nat) : IWord :=
  (ws.getD (3 * j + 2) {}).data ++ (ws.getD (3 * j + 1) {}).data ++ (ws.getD (3 * j) {}).data

/-- Slot and line-word parities and marks (R22, R27): whether the line passes. -/
def lineOk (ws : List TWord) : Bool :=
  ws.all (fun t => !t.mark) && !parityOf 32 (lwBit ws)
    && (List.range 5).all fun j => parityOf 96 (fun i => (slotWord ws j).getLsbD i) == lwBit ws (26 + j)

/-- R28: reserved bits of the line word, or a FORM that is not native. -/
def lineIllegal (ws : List TWord) : Bool := (List.range 10).any (fun i => lwBit ws (14 + i)) || lwBit ws 24 || lwBit ws 25

/-- Whether slot j of a line is valid. -/
def slotValid (ws : List TWord) (j : Nat) : Bool := lwBit ws (9 + j)
/-- Whether slot j of a line may be entered by a transfer of control. -/
def slotTarget (ws : List TWord) (j : Nat) : Bool := lwBit ws j

/-- The address of the line of a PC. -/
def lineVa (pc : Word64) : Word64 := (pc.extractLsb' 6 58) ++ (0 : BitVec 6)
/-- The slot number of a PC. -/
def slotNo (pc : Word64) : Nat := (pc.extractLsb' 0 3).toNat
/-- The PC of a slot of a line. -/
def pcOf (line : Word64) (j : Nat) : Word64 := line + BitVec.ofNat 64 j
/-- Whether a PC has the form of R23: bits [5:3] zero, a slot from 0 to 4, and a line address sign-extended from bit 56. Which cause a
transfer raises to a PC that fails only in the last is not stated: DESIGN CHOICE (log 23), it names no instruction either, so
ILLEGAL_INSTRUCTION with reason 0x07. -/
def pcForm (pc : Word64) : Bool := pc.extractLsb' 3 3 == 0 && decide (slotNo pc ≤ 4) && canonical pc

/-- A read of a line for the L1 instruction cache: a cause with %tval, or the line's words, or none where it is malformed. -/
abbrev LineRead := Except (Nat × Word64) (Option (List TWord))

/-- The byte at offset i of words. -/
def byteAt (ws : List TWord) (i : Nat) : Byte := (ws.getD (i / 4) {}).data.extractLsb' (8 * (i % 4)) 8

/-- Expand a compressed block of LEN bytes that starts at byte o of the words read (R334): none where malformed or marked. -/
def expandLine (ws : List TWord) (o len : Nat) : Option (List TWord) :=
  let m : BitVec 16 := byteAt ws (o + 1) ++ byteAt ws o
  let ones := (List.range 16).foldl (fun n i => if m.getLsbD i then n + 1 else n) 0
  if len != 2 + 4 * (16 - ones) || ws.any (·.mark) then none
  else some ((List.range 16).map fun i =>
    if m.getLsbD i then {} else
      let k := o + 2 + 4 * ((List.range i).foldl (fun n j => if m.getLsbD j then n else n + 1) 0)
      TWord.fresh (byteAt ws (k + 3) ++ byteAt ws (k + 2) ++ byteAt ws (k + 1) ++ byteAt ws k))

/-- The cached line-address-translation-table entry of an executor, or its word at the home slice; up to 64 are cached (R334). -/
def State.latEntry (s : State) (core asid : Nat) (line va : Word64) (source : Nat) : Except (Nat × Word64) TWord × State :=
  let l := AMap.get [] s.mem.lat core
  match l.find? (fun e => e.1 == asid && e.2.1 == va.toNat && e.2.2.1 == line.toNat) with
  | some e => (.ok e.2.2.2, s)
  | none =>
    match s.readVa (cacheOf core) asid va rX 1 source with
    | (.error e, s) => (.error e, s)
    | (.ok ts, s) =>
      let t := ts.headD {}
      (.ok t, if t.mark then s else s.modMem fun m => { m with lat := m.lat.put core ((l ++ [(asid, va.toNat, line.toNat, t)]).drop (l.length - 63)) })

/-- Read a native line (R333, R334): through the segment descriptor, or uncompressed at the line's VA. -/
def State.readLine (s : State) (core asid : Nat) (seg : Option SegDesc) (line : Word64) (source : Nat) : LineRead × State :=
  match seg with
  | none =>
    match s.readVa (cacheOf core) asid line rX 16 source with
    | (.error e, s) => (.error e, s)
    | (.ok ts, s) => (.ok (some ts), s)
  | some d =>
    let n := (line.toNat - d.textbase.toNat) / 64
    if line.toNat < d.textbase.toNat || d.count ≤ n then (.error (8, line), s) else
    match s.latEntry core asid line (d.map + BitVec.ofNat 64 (4 * n)) source with
    | (.error e, s) => (.error e, s)
    | (.ok t, s) =>
      let len := (t.data.extractLsb' 0 7).toNat
      if t.mark then (.ok none, s)
      else if len == 0 then (.ok (some (List.replicate 16 {})), s)
      else
        let va := d.image + BitVec.ofNat 64 (2 * (t.data.extractLsb' 7 25).toNat)
        let o := va.toNat % 4
        match s.readVa (cacheOf core) asid (va - BitVec.ofNat 64 o) rX ((o + len + 3) / 4) source with
        | (.error e, s) => (.error e, s)
        | (.ok ts, s) => (.ok (expandLine ts o len), s)

/-- Read a 64-byte line of DPF text (R333, R335). -/
def State.readDpf (s : State) (core asid : Nat) (line : Word64) (source : Nat) : LineRead × State :=
  match s.readVa (cacheOf core) asid line rX 16 source with
  | (.error e, s) => (.error e, s)
  | (.ok ts, s) => (.ok (some ts), s)

/-- The resident copy of a line. -/
def State.iline (s : State) (core asid : Nat) (line : Word64) : Option ILine :=
  (AMap.get [] s.mem.l1i core).find? fun l => l.asid == asid && l.va == line.toNat

/-- The index of a resident line in its core's instruction cache, in words of the array as Table 3.7 counts it (log 31). -/
def State.ilineIndex (s : State) (core asid : Nat) (line : Word64) : Nat :=
  16 * (AMap.get [] s.mem.l1i core).findIdx fun l => l.asid == asid && l.va == line.toNat

/-- Read the line of a team's code: native or DPF. SOURCE is 4 for an instruction fill, 3 for a refetch (Table 3.7). -/
def State.readCode (s : State) (core asid : Nat) (t : Team) (line : Word64) (source : Nat := 4) : LineRead × State :=
  if t.inNative then s.readLine core asid t.seg line source else s.readDpf core asid line source

/-- Whether a native line lies outside the team's text (R333). -/
def nativeOutside (t : Team) (line : Word64) : Bool :=
  match t.seg with
  | none => false
  | some d => decide (line.toNat < d.textbase.toNat) || decide (d.count ≤ (line.toNat - d.textbase.toNat) / 64)

/-- Whether a line as it was read passes the checks of R27: one that does not is fetched once more. -/
def lineReads (t : Team) (r : LineRead) : Bool :=
  match r with
  | .ok (some ws) => lineOk ws || !t.inNative
  | .ok none => false
  | .error _ => true

/-- What the front end sees of a line now: the resident copy that has passed its check, else what a fill would bring, read once more
where it fails its check (R27, log 23). -/
def State.peekLine (s : State) (core asid : Nat) (t : Team) (line : Word64) : Except (Nat × Word64) (List TWord) :=
  if t.inNative && nativeOutside t line then .error (8, line) else
  match s.iline core asid line with
  | some { words := ws, refetch := false, .. } => .ok ws
  | l =>
    let (r, s) := s.readCode core asid t line
    let (r, _) := if l.isSome || lineReads t r then (r, s) else s.readCode core asid t line
    match r with
    | .error e => .error e
    | .ok none => .error (12, line)
    | .ok (some ws) => if lineOk ws || !t.inNative then .ok ws else .error (12, line)

/-- The next valid slot after slot j. -/
def nextSlot (ws : List TWord) (from_ : Nat) : Option Nat := (List.range 5).find? fun j => from_ ≤ j && slotValid ws j

/-- The first valid slot from a line on (R24): lines with an empty VALID field are skipped; a line that cannot be read gives its slot 0,
where the fetch meets its cause. The fuel counts every line of the address space. -/
def State.firstSlot (s : State) (core asid : Nat) (t : Team) : Nat → Word64 → Word64
  | 0, line => line
  | n + 1, line =>
    match s.peekLine core asid t line with
    | .error _ => line
    | .ok ws => match nextSlot ws 0 with
      | some j => pcOf line j
      | none => s.firstSlot core asid t n (line + 64)

/-- The length in bytes of the DPF instruction at a PC (R335). -/
def State.dpfLen (s : State) (core asid : Nat) (t : Team) (pc : Word64) : Nat :=
  match s.peekLine core asid t (lineVa pc) with
  | .ok ws => if (ws.getD (pc.toNat % 64 / 4) {}).data.getLsbD 30 then 12 else 8
  | .error _ => 8

/-- The next PC in sequential order (R24, R336). -/
def State.seqPc (s : State) (core asid : Nat) (t : Team) (pc : Word64) : Word64 :=
  if !t.inNative then pc + BitVec.ofNat 64 (s.dpfLen core asid t pc) else
  match s.peekLine core asid t (lineVa pc) with
  | .error _ => lineVa pc + 64
  | .ok ws => match nextSlot ws (slotNo pc + 1) with
    | some j => pcOf (lineVa pc) j
    | none => s.firstSlot core asid t (2 ^ 58) (lineVa pc + 64)

/-- The check of a transfer of control (R25, R336): none where the target is valid, else the cause and %tval. -/
def State.badTarget (s : State) (core asid : Nat) (t : Team) (pc : Word64) : Option (Nat × Word64) :=
  if t.inNative then
    if !pcForm pc then some (1, 7) else
    match s.peekLine core asid t (lineVa pc) with
    | .error e => some e
    | .ok ws =>
      if lineIllegal ws then some (1, 6)
      else if slotValid ws (slotNo pc) && slotTarget ws (slotNo pc) then none else some (1, 7)
  else
    match t.seg with
    | none => some (1, 7)
    | some d =>
      let n := (pc.toNat - d.textbase.toNat) / 4
      if pc.extractLsb' 0 2 != 0 || pc.toNat < d.textbase.toNat || d.count ≤ n then some (1, 7) else
      let at_ := d.map + BitVec.ofNat 64 (n / 8)
      match (s.readVa (cacheOf core) asid (at_ &&& ~~~3#64) rX 1).1 with
      | .error e => some e
      | .ok ts => if (byteAt ts (at_.toNat % 4)).getLsbD (n % 8) then none else some (1, 7)

/-- The target of a direct transfer (R43, R336): 64 bytes times the signed line offset, and the slot; or a signed offset in
syllables. -/
def directTarget (t : Team) (pc : Word64) (tgt : BitVec 20) : Word64 :=
  if t.inNative then pcOf (lineVa pc + (tgt.extractLsb' 3 17).signExtend 64 * 64) (tgt.extractLsb' 0 3).toNat
  else pc + tgt.signExtend 64 * 4

end Sys2Proof.Machine
end

