-- ==== Sys2Proof/Machine/Ops.lean ====
section
/-! DEFINITION. The named operations over registers, scratchpad and results; the executing split; taking an exception as one
shared operation (R287 to R290, R294, R298, R299), and the return from one (R291). -/

namespace Sys2Proof.Machine

/-! ### The executing split -/

/-- Everything an instruction's meaning looks at of its executor: group, running split, team, grid, context. -/
structure View where
  gk : Nat
  core : Nat
  grp : Group
  idx : Nat
  split : Split
  teamKey : Nat
  team : Team
  grid : Grid
  asid : Nat
  ctx : Ctx

/-- The executor of a group key. -/
def coreOf (gk : Nat) : Nat := gk / 256
/-- Whether a group key names a pilot group. -/
def isPilot (gk : Nat) : Bool := decide (128 ≤ gk % 256)
/-- The key of a team's strand of a rank. -/
def strandKey (team rank : Nat) : Nat := team * 2048 + rank

/-- The view of a group's split. -/
def State.viewOf (s : State) (gk idx : Nat) : Option View :=
  match s.ex.groups.find gk with
  | none => none
  | some g =>
    match g.splits[idx]?, s.ex.teams.find g.team with
    | some sp, some t =>
      match s.org.grids.find t.grid with
      | none => none
      | some gr =>
        match s.org.ctxs.find gr.asid with
        | none => none
        | some c => some { gk := gk, core := coreOf gk, grp := g, idx := idx, split := sp, teamKey := g.team, team := t, grid := gr,
                           asid := gr.asid, ctx := c }
    | _, _ => none

/-- The index of a group's running split. -/
def Group.runningIdx (g : Group) : Option Nat := g.splits.findIdx? fun sp => sp.st == .running

/-- The view of the executing split. -/
def State.view (s : State) : Option View :=
  match s.cur with
  | none => none
  | some gk =>
    match s.ex.groups.find gk with
    | none => none
    | some g => match g.runningIdx with
      | some i => s.viewOf gk i
      | none => none

/-- Whether a view is the pilot's. -/
def View.pilot (v : View) : Bool := isPilot v.gk
/-- Whether a view's group runs in lane-pair mode: the model keeps one copy per visible lane (log 12); a pilot group has 32 lanes
of its own (R143). -/
def View.lanePair (v : View) : Bool := v.grid.hdr.prot == 1 && !v.pilot
/-- Whether code has supervisor privilege: 1 a partition supervisor, 2 Smilor (R313). -/
def View.sup (v : View) : Nat := v.team.sup
/-- The rank in a lane slot, none where it is EMPTY (R254). -/
def View.rank (v : View) (l : Nat) : Option Nat := v.grp.remap.find l
/-- The strand key of a lane. -/
def View.key (v : View) (l : Nat) : Nat := strandKey v.teamKey ((v.rank l).getD 2047)
/-- The lanes of the executing split. -/
def View.lanes (v : View) : List Nat := (List.range 32).filter fun l => v.split.mask.getLsbD l
/-- The strand in a lane. -/
def State.strandAt (s : State) (k : Nat) : Strand := (s.ex.strands.find k).getD {}
/-- Change a strand. -/
def State.modStrand (s : State) (k : Nat) (f : Strand → Strand) : State := s.modEx fun x => { x with strands := x.strands.modify k f }
/-- Change a group. -/
def State.modGroup (s : State) (gk : Nat) (f : Group → Group) : State := s.modEx fun x => { x with groups := x.groups.modify gk f }
/-- Change a team. -/
def State.modTeam (s : State) (k : Nat) (f : Team → Team) : State := s.modEx fun x => { x with teams := x.teams.modify k f }
/-- Change a context. -/
def State.modCtx (s : State) (asid : Nat) (f : Ctx → Ctx) : State := s.modOrg fun o => { o with ctxs := o.ctxs.modify asid f }
/-- Change a partition. -/
def State.modPart (s : State) (p : Nat) (f : Partition → Partition) : State := s.modOrg fun o => { o with parts := o.parts.modify p f }
/-- Change a grid. -/
def State.modGrid (s : State) (g : Nat) (f : Grid → Grid) : State := s.modOrg fun o => { o with grids := o.grids.modify g f }
/-- Change a split of a group. -/
def Group.modSplit (g : Group) (i : Nat) (f : Split → Split) : Group := { g with splits := g.splits.modify i f }
/-- The bits of a lane list. -/
def lanesOf (ls : List Nat) : Lanes := ls.foldl (fun m l => m ||| (1#32 <<< l)) 0
/-- The lanes of a mask, ascending. -/
def lanesIn (m : Lanes) : List Nat := (List.range 32).filter fun l => m.getLsbD l

/-! ### Registers (R30, R128, R131) -/

/-- Read an element as a lane sees it: x, t, g and d operands; a queue's element is read with its entry (R149). -/
def readElem (v : View) (s : State) (l r : Nat) : Elem :=
  if r = 0 then {}
  else if r < 192 then AMap.get {} (s.strandAt (v.key l)).x r
  else if r < 200 then AMap.get {} v.grp.run.t (l * 8 + (r - 192))
  else if r < 216 then {}
  else if r < 248 then AMap.get {} v.grp.g (r - 216)
  else { val := BitVec.ofNat 32 ((r - 248) * 2 ^ 29) }

/-- Write an element of an x register; x0 discards (R131). -/
def Strand.setX (t : Strand) (r : Nat) (e : Elem) : Strand := if r = 0 then t else { t with x := AMap.set {} t.x r e }

/-- Write one element in a lane. A g register is written by writeG instead. -/
def writeElem (v : View) (l r : Nat) (e : Elem) (s : State) : State :=
  if r < 192 then s.modStrand (v.key l) (·.setX r e)
  else if r < 200 then s.modGroup v.gk fun g => { g with run := { g.run with t := AMap.set {} g.run.t (l * 8 + (r - 192)) e } }
  else s

/-- Write a g register (R131). -/
def writeG (v : View) (r : Nat) (e : Elem) (s : State) : State :=
  s.modGroup v.gk fun g => { g with g := AMap.set {} g.g (r - 216) e }

/-- Set a temporary's written flag (R41). -/
def flagT (v : View) (r : Nat) (s : State) : State :=
  if 192 ≤ r && r < 200 then s.modGroup v.gk fun g => { g with run := { g.run with tw := g.run.tw ||| (1#8 <<< (r - 192)) } } else s

/-- Set the written flags of a destination, or of a pair, whatever the guard (R41). -/
def flagDest (v : View) (d : Reg) (pair : Bool) (s : State) : State :=
  let s := flagT v d.toNat s
  if pair then flagT v (d.toNat + 1) s else s

/-- Write a destination in the active lanes from a function of the lane (R131): x and t per lane, g from the highest lane. -/
def writeReg (v : View) (act : List Nat) (r : Nat) (f : Nat → Elem) (s : State) : State :=
  let s := flagT v r s
  if 216 ≤ r && r < 248 then
    match act.getLast? with
    | some h => writeG v r (f h) s
    | none => s
  else act.foldl (fun s l => writeElem v l r (f l) s) s

/-- Write words to a destination or a pair, full and with a poison bit. -/
def writeDest (v : View) (act : List Nat) (d : Reg) (f : Nat → List Word × Bool) (s : State) : State :=
  let r := d.toNat
  let el (i l : Nat) : Elem := { val := (f l).1.getD i 0, poison := (f l).2, full := true }
  let n := (f (act.headD 0)).1.length
  let s := writeReg v act r (el 0) s
  if n = 2 then writeReg v act (r + 1) (el 1) s else s

/-- Mark a destination empty in the active lanes (R177). -/
def markEmpty (v : View) (act : List Nat) (d : Reg) (pair : Bool) (s : State) : State :=
  let one (s : State) (r : Nat) : State := writeReg v act r (fun l => { readElem v s l r with full := false }) s
  let s := one s d.toNat
  if pair then one s (d.toNat + 1) else s

/-- Read a predicate in a lane: its value and poison. -/
def readPred (v : View) (s : State) (l : Nat) (p : BitVec 4) : Bool × Bool :=
  let t := s.strandAt (v.key l)
  (t.p.getLsbD p.toNat, t.pp.getLsbD p.toNat)

/-- Set or clear a bit. -/
def setBit (m : BitVec 16) (i : Nat) (b : Bool) : BitVec 16 := if b then m ||| (1#16 <<< i) else m &&& ~~~(1#16 <<< i)

/-- Write a predicate in the active lanes; its parity is made anew (R132). -/
def writePred (v : View) (act : List Nat) (p : BitVec 4) (f : Nat → Bool × Bool) (s : State) : State :=
  act.foldl (fun s l => s.modStrand (v.key l) fun t =>
    { t with p := setBit t.p p.toNat (f l).1, pp := setBit t.pp p.toNat (f l).2, pe := setBit t.pe p.toNat false }) s

/-- Where a result of an instruction goes. -/
def destOf (v : View) (s : State) (act : List Nat) (isn l : Nat) (d : Reg) (pair : Bool) : Dest :=
  { strand := v.key l, uid := (s.strandAt (v.key l)).uid, gk := v.gk, gid := v.grp.gid, run := v.grp.run.id, isn := isn, lane := l,
    top := act.getLast? == some l, reg := d, pair := pair }

/-- Whether results of an instruction are still in flight. -/
def State.isnLive (s : State) (isn : Nat) : Bool :=
  s.ex.reqs.any (fun e => e.2.dest.isn == isn) || s.ex.longs.any (fun e => e.2.dest.isn == isn)

/-- Deliver a result to an x register: into the strand, into a checkpoint that recorded the element as empty (log 11), and into
the state that a speculating group goes back to. -/
def deliverX (d : Dest) (r : Nat) (e : Elem) (s : State) : State :=
  let put (t : Strand) : Strand := if t.uid == d.uid then t.setX r e else t
  let cpPut (t : Strand) : Strand := if t.uid == d.uid && !(AMap.get {} t.x r).full then t.setX r e else t
  let s := s.modStrand d.strand put
  let s := s.modTeam (d.strand / 2048) fun t => { t with cp := { t.cp with strands := t.cp.strands.modify d.strand cpPut } }
  s.modEx fun x => { x with specs := x.specs.modify d.gk fun p => { p with strands := p.strands.modify d.strand cpPut } }

/-- Change a group's run of a serial number, in progress or interrupted. -/
def Group.modRun (g : Group) (id : Nat) (f : RunState → RunState) : Group :=
  let one (u : RunState) : RunState := if u.id == id then f u else u
  let sp (x : Split) : Split := { x with cont := x.cont.map one }
  { g with run := one g.run, splits := g.splits.map sp, saved := g.saved.map fun sv => { sv with splits := sv.splits.map sp } }

/-- Deliver a result to a group's t or g register: a temporary's result is dropped after its run (R41); a g register takes the
highest lane's value and is full when the last lane's value has arrived (R131). A group that is saved takes it in its image (R295). -/
def deliverG (d : Dest) (r : Nat) (e : Elem) (s : State) : State :=
  let put (g : Group) : Group :=
    if g.gid != d.gid then g
    else if r < 200 then g.modRun d.run fun u => { u with t := AMap.set {} u.t (d.lane * 8 + (r - 192)) e }
    else
      let old := AMap.get {} g.g (r - 216)
      let e' : Elem := { if d.top then e else old with full := !(s.isnLive d.isn) }
      { g with g := AMap.set {} g.g (r - 216) e' }
  let keep (g : Group) : Group :=
    let old := if r < 200 then AMap.get {} g.run.t (d.lane * 8 + (r - 192)) else AMap.get {} g.g (r - 216)
    if old.full then g else put g
  let s := s.modGroup d.gk put
  let s := s.modTeam (d.strand / 2048) fun t => { t with
    cp := { t.cp with groups := t.cp.groups.map fun e => (e.1, keep e.2) }
    save := { t.save with groups := t.save.groups.map fun e => (e.1, put e.2) } }
  s.modEx fun x => { x with specs := x.specs.modify d.gk fun p => { p with grp := keep p.grp } }

/-- Deliver words to a destination (R118, R131, R177). The operation in flight has been removed already. DESIGN CHOICE (log 65): a 64-bit result with D = 0 names the
pair x0:x1 (Table 2.4); x0 discards its word, and x1 takes the high one. -/
def deliver (d : Dest) (ws : List Word) (poison : Bool) (s : State) : State :=
  let one (s : State) (r : Nat) (w : Word) : State :=
    let e : Elem := { val := w, poison := poison, full := true }
    if r = 0 then s else if r < 192 then deliverX d r e s else deliverG d r e s
  let s := one s d.reg.toNat (ws.getD 0 0)
  if d.pair then one s (d.reg.toNat + 1) (ws.getD 1 0) else s

/-! ### Scratchpad (R85, R86) -/

/-- The key of a scratchpad word. -/
def scratchKey (core byte : Nat) : Nat := core * 98304 + byte / 4
/-- Read a scratchpad word. -/
def State.scratchRead (s : State) (core byte : Nat) : TWord := AMap.get {} s.mem.scratch (scratchKey core byte)
/-- The protected pair of scratchpad words that one is in is checked as it is read (R63): corrected, or both words are marked. -/
def State.scratchJudge (s : State) (core byte : Nat) (asid : Nat := 0) (source : Nat := 0) : State :=
  let n := scratchKey core byte / 2
  let (bad, s) := s.judge 5 n [0] (s.coreRecord 5 core (2 * n % 98304) asid source)
  if !bad then s else s.modMem fun m =>
    { m.clearError 5 n with scratch := [2 * n, 2 * n + 1].foldl (fun a k => AMap.set {} a k { AMap.get {} a k with mark := true }) m.scratch }
/-- Read a scratchpad word, its errors judged. -/
def State.scratchFetch (s : State) (core byte : Nat) (asid : Nat := 0) : TWord × State :=
  let s := s.scratchJudge core byte asid
  (s.scratchRead core byte, s)
/-- Write a scratchpad word. -/
def State.scratchWrite (s : State) (core byte : Nat) (t : TWord) : State :=
  s.modMem fun m => { m with scratch := AMap.set {} m.scratch (scratchKey core byte) t }
/-- Store a scratchpad word into its protected pair, which is checked first. -/
def State.scratchStore (s : State) (core byte : Nat) (t : TWord) (asid : Nat := 0) : State := (s.scratchJudge core byte asid).scratchWrite core byte t
/-- A team's scratchpad bytes, rounded up to 1 KiB (R85). -/
def scratchSize (h : KHeader) : Nat := (h.scratchb + 1023) / 1024 * 1024
/-- The scratchpad words of a team. -/
def State.scratchOf (s : State) (t : Team) (h : KHeader) : AMap TWord :=
  s.mem.scratch.filter fun e => scratchKey t.core t.scratchBase ≤ e.1 && e.1 < scratchKey t.core (t.scratchBase + scratchSize h)

/-! ### Stopping, trapping, rolling back -/

/-- A cause that some lanes raise. addr: where a consumed word stands (R299); place: LEVEL and array index of a register or accumulator element. -/
structure Fail where
  cause : Nat
  tval : Word64 := 0
  lanes : Lanes := 0
  lcause : AMap Nat := []
  epc : Option Word64 := none
  fetch : Bool := false
  addr : Nat := 0
  place : Option (Nat × Nat) := none
  clearArm : Bool := false
deriving Repr

/-- Why a body of a meaning does not perform: it waits; it waits, having changed the state; a cause; or a cause found by reads that
have changed the state (a storage error that they met is logged). -/
inductive Stop where
  | stall
  | hold (s : State)
  | fail (f : Fail)
  | failIn (s : State) (f : Fail)

/-- A body of a meaning. -/
abbrev Body := Except Stop State

/-- Table 17.1: the causes of the group route. -/
def groupCause (h : KHeader) (c : Nat) : Bool := c == 4 || c == 5 || c == 13 || c == 15 || c == 20 || (c == 6 && h.misgrp)
/-- Table 17.1: the causes of the rollback route. -/
def rollbackCause (c : Nat) : Bool := c == 11 || c == 12 || c == 18

/-- A fresh run (R39, R41). -/
def freshRun (id : Nat) : RunState := { id := id }

/-- R289: enter handler mode with the raising lanes. -/
def enterHandler (t : Team) (cause : Nat) (epc tval : Word64) (lanes : Lanes) (id : Nat) (g : Group) : Group :=
  { g with cause := BitVec.ofNat 32 cause, epc := epc, tval := tval, hm := true, run := freshRun id,
           splits := [{ pc := t.trapent, mask := lanes, st := .ready, entry := true }] }

/-- The slot of a core that a group is homed on, the pilot's being 4 (R144, R285). -/
def homeSlot (gk : Nat) : Nat := if isPilot gk then 4 else gk % 256 % 4
/-- The key of a run in progress. -/
def slotKey (gk : Nat) : Nat := coreOf gk * 8 + homeSlot gk
/-- End the run in progress on a group's slot, if it is that group's. -/
def State.endRun (s : State) (gk : Nat) : State :=
  s.modEx fun x => if x.runs.find (slotKey gk) == some (gk % 256) then { x with runs := x.runs.del (slotKey gk) } else x

/-- Stop a group's run between two instructions: the running split keeps its run state (R42, R295). -/
def Group.pause (g : Group) : Group :=
  { g with splits := g.splits.map fun sp => match sp.st with | .running => { sp with st := .ready, cont := some g.run } | _ => sp }

/-- Take or hold a group trap (R289, R290). idx is the interrupted split. -/
def takeGroupTrap (v : View) (cause : Nat) (epc tval : Word64) (lanes : Lanes) (inRun : Bool) (s : State) : State :=
  let (id, s) := s.fresh
  if v.grp.hm || v.ctx.halted then
    s.modGroup v.gk fun g =>
      if g.causebits.getLsbD cause then g else
        { g with causebits := g.causebits ||| (1#32 <<< cause),
                 held := g.held ++ [{ cause := cause, epc := epc, tval := tval, lanes := lanes }] }
  else
    (s.modGroup v.gk fun g =>
      enterHandler v.team cause epc tval lanes id
        { g with saved := some { splits := if inRun then g.pause.splits else g.splits, idx := v.idx } }).endRun v.gk

/-- Whether a split is the one that speculates: it runs, or it is parked at its trailer until the fence completes (R242). -/
def Split.speculates (sp : Split) : Bool := sp.st == .running || sp.st == .parked .fence

/-- A group whose speculating split goes back to a PC and a run state, ready to continue; its g registers are those that it had there. -/
def Group.backTo (p : Spec) (pc : Word64) (run : RunState) (g : Group) : Group :=
  { g with g := p.grp.g, splits := g.splits.map fun sp => if sp.speculates then { sp with pc := pc, st := .ready, cont := some run } else sp }

/-- A strand as a speculation's rollback leaves it: its registers, stacks and count of forwarded results are those that it had. -/
def Strand.backTo (old now : Strand) : Strand :=
  { now with x := old.x, p := old.p, pp := old.pp, pe := old.pe, rets := old.rets, loops := old.loops, fmode := old.fmode, fseq := old.fseq }

/-- Put popped entries back at the heads of their queues. -/
def Team.unpop (pops : List (Nat × QEntry)) (t : Team) : Team :=
  { t with queues := pops.foldr (fun e m => m.put e.1 (e.2 :: AMap.get [] m e.1)) t.queues }

/-- Discard what a group did since its FENCE (R242, R243): its split goes back to a PC and a run state there, its held writes go with the results on
their way to it, and the queues hold again what it popped. -/
def State.unspeculate (s : State) (gk : Nat) (p : Spec) (pc : Word64) (run : RunState) : State :=
  let s := (s.endRun gk).modGroup gk (Group.backTo p pc run)
  let s := p.strands.foldl (fun s e => s.modStrand e.1 fun t => if t.uid == e.2.uid then Strand.backTo e.2 t else t) s
  (s.modTeam p.grp.team (Team.unpop p.pops)).modEx fun x => { x with
    reqs := x.reqs.filter fun e => !(e.2.dest.gk == gk && e.2.kind == .load && decide (p.fence < e.1))
    longs := x.longs.filter fun e => !(e.2.dest.gk == gk && decide (p.fence < e.1))
    specs := x.specs.del gk }

/-- Discard a group's speculation as it is halted or a group trap is taken (R243): it is saved at the FENCE's PC, with the run count as it stood before
the FENCE, which is performed again on resume. -/
def State.dropSpec (s : State) (gk : Nat) : State :=
  match s.ex.specs.find gk with
  | none => s
  | some p =>
    (s.unspeculate gk p p.fencePc { p.grp.run with count := p.grp.run.count - 1 }).modEx fun x => { x with fences := x.fences.del p.fence }

/-- The context of a team. -/
def State.asidOf (s : State) (k : Nat) : Option Nat := ((s.ex.teams.find k).bind fun t => s.org.grids.find t.grid).map (·.asid)

/-- Whether a team is resident and its context runs. -/
def State.teamRuns (s : State) (k : Nat) : Bool :=
  match s.ex.teams.find k, (s.asidOf k).bind s.org.ctxs.find with
  | some t, some c => !t.saved && !c.halted
  | _, _ => false

/-- The groups of a context that speculate. -/
def State.specsOf (s : State) (asid : Nat) : List Nat :=
  (s.ex.specs.filter fun e => s.asidOf e.2.grp.team == some asid).map (·.1)

/-- Take back what some groups have on its way to gate units, but for the writes of accepted GSIGs, and unless all is set the reads of accepted GREADs. -/
def State.dropGates (s : State) (mine : Nat → Bool) (all : Bool) : State :=
  let stays (o : Nat × GateOp) : Bool := !mine o.1 || (match o.2 with | .sig .. => true | .read .. => !all | _ => false)
  s.modDev fun d => { d with gops := (d.gops.map fun e => (e.1, e.2.filter stays)).filter fun e => !e.2.isEmpty }

/-- A GWAIT that has not been answered issues again. -/
def Split.unasked (sp : Split) : Split :=
  match sp.st with | .parked (.asking ..) => { sp with st := .awaiting, awaits := [] } | _ => sp

/-- A group whose gate instructions have not been answered issues them again after the halt. -/
def Group.unasked (g : Group) : Group :=
  { g with block := if g.block == some .gate then none else g.block, splits := g.splits.map Split.unasked,
           saved := g.saved.map fun sv => { sv with splits := sv.splits.map Split.unasked } }

/-- Raise the halt line of a context (R294): the cause is listed for the engine that raised it, and speculation is discarded
(R243). -/
def State.halt (s : State) (asid : Nat) (r : Option Raised) : State :=
  let s := (s.specsOf asid).foldl State.dropSpec s
  let mine := s.ex.groups.filter fun e => s.asidOf e.2.team == some asid
  let s := mine.foldl (fun s e => (s.modGroup e.1 fun g => g.pause.unasked).endRun e.1) s
  let s := s.dropGates (fun gk => mine.any fun e => e.1 == gk) false
  s.modCtx asid fun c =>
    { c with halted := true, haltClk := if c.halted then c.haltClk else s.dev.clock, interrupt := false,
             haltCause := if c.halted then c.haltCause else (r.map (·.cause)).getD 0,
             raised := match r with | some r => c.raised ++ [r] | none => c.raised,
             preempting := c.preempting || r.isNone, faulted := c.faulted || r.isSome }

/-- The lowest group number that an executor has free (R244). -/
def State.freeGroup (s : State) (core : Nat) : Option Nat :=
  (List.range 128).find? fun n => !s.ex.groups.has (core * 256 + n)

/-- The lowest place that a core's pilot engine has free (R143). -/
def State.freePilot (s : State) (core : Nat) : Option Nat :=
  (List.range 16).find? fun j => !s.ex.groups.has (core * 256 + 128 + j)

/-- Put a recorded group back under its number, or the lowest free one where another team has taken it. A pilot group recorded within a run
continues that run (R155, R299 step 5). -/
def State.restoreGroup (s : State) (e : Nat × Group) : State :=
  let core := coreOf e.1
  let n := if isPilot e.1 then 128 + (s.freePilot core).getD 15 else (s.freeGroup core).getD 127
  s.modEx fun x => { x with groups := x.groups.put (if s.ex.groups.has e.1 then core * 256 + n else e.1) e.2.pause }

/-- Put a recorded bin back: under its number, or the lowest free one of its core; with no bin free its strands wait for one (log 66). -/
def State.restoreBin (s : State) (e : Nat × Bin) : State :=
  match (e.1 :: (List.range 32).map (e.1 / 32 * 32 + ·)).find? fun n => !s.ex.bins.has n with
  | some n => s.modEx fun x => { x with bins := x.bins.put n e.2 }
  | none => s.modTeam e.2.team fun t => { t with lateBins := t.lateBins ++ [e.2] }

/-- A copy request that is made again sets its batch's REISSUED bit (R103); an unsealed one keeps that for its SEAL. -/
def State.reissued (s : State) (r : CopyReq) : State :=
  match r.batch with
  | .sealed n => s.modStrand r.strand fun t => { t with batches := t.batches.map fun b => if b.num == n then { b with reissued := true } else b }
  | _ => s

/-- A team's tag (R202). -/
def tagOf (s : State) (t : Team) : Tag :=
  match s.org.grids.find t.grid with
  | some g => { asid := g.asid, grid := g.num, team := t.num }
  | none => { asid := 0, grid := 0, team := 0 }

/-- Remove everything a team has in groups, bins and engines (R299 steps 1 and 3): loads and requests made since the
checkpoint are discarded, in the trailer of a core pair its atomics that wait for the leader's result too; stores and atomics already
issued stay to be performed; every copy request is cancelled (R103). -/
def State.dropTeam (s : State) (k : Nat) (mark : Nat) : State :=
  let mine (gk : Nat) : Bool := match s.ex.groups.find gk with | some g => g.team == k | none => false
  let s := (s.ex.groups.filter fun e => e.2.team == k).foldl (fun s e => s.endRun e.1) s
  let trails := match (s.ex.teams.find k).bind (·.pair) with | some (lead, _) => !lead | none => false
  let s := (s.dropGates mine true).modTeam k fun t => { t with lateBins := [] }
  s.modEx fun x => { x with
    reqs := x.reqs.filter fun e => !(e.2.dest.strand / 2048 == k && (e.2.kind == .load || (trails && e.2.fwd.isSome)) && mark ≤ e.1)
    longs := x.longs.filter fun e => !(e.2.dest.strand / 2048 == k && mark ≤ e.1)
    fences := x.fences.filter fun e => !mine e.2.gk
    specs := x.specs.filter fun e => !mine e.1
    copies := x.copies.filter fun e => e.2.team != k
    qlds := x.qlds.filter fun e => e.2.team != k
    mq := x.mq.map fun e => (e.1, e.2.filter fun m => m.team != k)
    arrays := x.arrays.map fun e => (e.1, { e.2 with queue := e.2.queue.filter fun q => q.team != k, remain := if e.2.queue.any (fun q => q.team == k) then 0 else e.2.remain })
    bins := x.bins.filter fun e => e.2.team != k
    strands := x.strands.filter fun e => e.1 / 2048 != k
    groups := x.groups.filter fun e => e.2.team != k }

/-- Whether a tile is a team's (R202): its tag, and, since the teams of a core pair share theirs, not on its partner's core. -/
def State.ownsTile (s : State) (t : Team) (key : Nat) (tile : Tile) : Bool :=
  tile.tag == some (tagOf s t) && !(match t.pair.bind fun p => s.ex.teams.find p.2 with | some p => p.core == key / 8 | none => false)

/-- Where a team's shadowed tile of a core stands at a rollback (log 49): where it was, or where the supervisor has moved it since. -/
def tilePlace (s : State) (t : Team) (key : Nat) : Option Nat :=
  if (s.ex.tiles.find key).any (s.ownsTile t key) then some key
  else (s.ex.tiles.find? fun e => e.1 % 8 == key % 8 && s.ownsTile t e.1 e.2 && !t.cp.tiles.has e.1).map (·.1)

/-- Give a team a tile of its checkpoint on its core, once no other team holds it there (log 49). -/
def State.giveTile (k : Nat) (s : State) (e : Nat × Tile) : State :=
  match s.ex.teams.find k with
  | none => s
  | some t =>
    let key := t.core * 8 + e.1 % 8
    if ((s.ex.tiles.find key).bind (·.tag)).isNone then
      s.modEx fun x => { x with tiles := x.tiles.put key e.2, teams := x.teams.put k { t with lateTiles := t.lateTiles.del e.1 } }
    else s.modTeam k fun t => { t with lateTiles := t.lateTiles.put e.1 e.2 }

/-- A team's tiles as its checkpoint recorded them; those claimed since are FREE (R218). -/
def State.restoreTiles (s : State) (k : Nat) (t : Team) : State :=
  let mine (k : Nat) : Bool := (s.ex.tiles.find k).any (s.ownsTile t k)
  let back := t.cp.tiles.filterMap fun e => (tilePlace s t e.1).map fun n => (n, e.2)
  let away := t.cp.tiles.filter fun e => (tilePlace s t e.1).isNone
  let s := (s.modMem fun m => { m with errors := m.errors.filter fun e => !(e.level == 7 && (mine e.addr || away.any fun b => t.core * 8 + b.1 % 8 == e.addr)) }).modEx
    fun x => { x with tiles := back.foldl (fun a e => a.put e.1 e.2) (x.tiles.map fun e => (e.1, if s.ownsTile t e.1 e.2 then {} else e.2)) }
  away.foldl (State.giveTile k) (s.modTeam k fun t => { t with lateTiles := [] })

/-- Put tiles that a rollback found held by another team where they belong, once they are FREE. -/
def State.settleTiles (s : State) : State :=
  s.ex.teams.foldl (fun s e => if e.2.saved then s else e.2.lateTiles.foldl (State.giveTile e.1) s) s

/-- The array that a team held at its checkpoint, in its cluster; one that it has bound since is free (R227). A trailer holds none (R228). -/
def State.restoreArray (s : State) (t : Team) : State :=
  let tag := tagOf s t
  let cl := t.core / 16
  let s := s.modMem fun m => { m with errors := m.errors.filter fun e => !(e.level == 9 && e.addr / 32768 == cl && (s.ex.arrays.find cl).any fun a => a.bound == some tag) }
  match t.pair, t.cp.array, (s.ex.arrays.find cl).any fun a => a.bound.isSome && a.bound != some tag with
  | some (false, _), _, _ => s
  | _, some a, false => s.modEx fun x => { x with arrays := x.arrays.put cl a }
  | _, _, _ => s.modEx fun x => { x with arrays := x.arrays.map fun e => (e.1, if e.2.bound == some tag then {} else e.2) }

/-- Restore a team from its checkpoint (R299): registers, control state, groups, bins, queues, scratchpad, tiles and array. The copy requests that were
outstanding at the checkpoint are made again, their batches reissued: R155 says so of the pilot's, and of the others the spec is silent
(DESIGN CHOICE, log 65). -/
def State.restoreTeam (s : State) (k : Nat) : State :=
  match s.ex.teams.find k with
  | none => s
  | some t =>
    match s.org.grids.find t.grid with
    | none => s
    | some gr =>
      let cp := t.cp
      let s := s.dropTeam k cp.mark
      let keep := (s.scratchOf t gr.hdr).map (·.1)
      let s := s.modMem fun m => { m with
        errors := m.errors.filter fun e => !(e.level == 5 && decide (scratchKey t.core t.scratchBase ≤ 2 * e.addr)
          && decide (2 * e.addr < scratchKey t.core (t.scratchBase + scratchSize gr.hdr)))
        scratch := cp.scratch.foldl (fun a e => AMap.set {} a e.1 e.2) (keep.foldl (fun a n => a.del n) m.scratch) }
      let s := ((s.restoreTiles k t).restoreArray t).modEx fun x => { x with
        strands := cp.strands.foldl (fun a e => a.put e.1 e.2) x.strands
        copies := cp.copies.foldl (fun a e => a.put e.1 { e.2 with moved := [], reissued := true }) x.copies }
      let s := cp.copies.foldl (fun s e => s.reissued e.2) s
      let s := cp.bins.foldl State.restoreBin (cp.groups.foldl State.restoreGroup s)
      s.modTeam k fun t => { t with queues := cp.queues, tmask := cp.tmask, irrevocable := false, rollbacks := t.rollbacks + 1,
                                    pilotEnded := !(cp.groups.any fun e => isPilot e.1), pendingRollback := none }

/-- The place of a register element in its file, as an error record names it: strand or group, and register; a predicate n is number
256 + n of its strand (log 21). -/
def elemIndex (v : View) (l r : Nat) : Nat := (if r < 192 || 256 ≤ r then v.key l else v.gk) * 512 + r

/-- The error record of a rollback (R299 step 4). -/
def rollbackRecord (s : State) (v : View) (f : Fail) : ErrRec :=
  if f.cause == 18 then errRec 11 1 0 v.core 0 v.asid v.grid.part 0 0
  else if let some (lvl, i) := f.place then errRec lvl 1 0 v.core i v.asid v.grid.part 1 0
  else errRec 10 1 0 v.core f.addr v.asid v.grid.part 0 (s.mem.metaOf (f.addr / 256)).toNat

/-- Perform a rollback (R299) of a team, and of its partner in a core pair (R302), whose trailer is staggered again (R374); on a
halted context it is kept pending. -/
def State.rollback (s : State) (v : View) (f : Fail) : State :=
  if v.ctx.halted then s.modTeam v.teamKey fun t => { t with pendingRollback := some (f.cause, f.addr, f.place) }
  else
    let record := rollbackRecord s v f
    let s := s.restoreTeam v.teamKey
    let s := match v.team.pair with
      | some (lead, p) =>
        let k := if lead then v.teamKey else p
        let trail := if lead then p else v.teamKey
        let wait := match s.org.ctxs.find v.asid with | some c => s.dev.clock + (c.pairWord.extractLsb' 0 20).toNat | none => s.dev.clock
        ((s.restoreTeam p).modTeam trail fun t => { t with ready := false }).modOrg fun o => { o with pairs := o.pairs.modify k fun q =>
          { q with buffer := [], tsigs := [], fwd := [], matched := 0, issuedSigs := 0, stagger := wait, released := false } }
      | none => s
    s.logError record

/-- The engine number of a view (Table 17.3). -/
def View.engine (v : View) : Nat := if v.pilot then 2 else 0

/-- Raise a context fault (R294). Where no lane's own cause is listed, every raising lane has the delivered one. -/
def raiseContext (v : View) (f : Fail) (epc : Word64) (engine : Nat) (s : State) : State :=
  let lanes := lanesIn (if f.lanes == 0 then v.split.mask else f.lanes)
  s.halt v.asid (some { engine := engine, unit_ := v.core, group := if v.pilot then 0xFF else v.gk % 256, cause := f.cause,
                        epc := epc, tval := f.tval, hm := v.grp.hm, lcause := if f.lcause.isEmpty then lanes.map fun l => (l, f.cause) else f.lcause })

/-- Whether a cause rolls the team back (R287, R298); a pilot's is a context fault, whatever its route (R145). -/
def willRollback (v : View) (f : Fail) : Bool :=
  rollbackCause f.cause && !f.fetch && !v.pilot && !v.team.irrevocable && decide (v.team.rollbacks < 3)

/-- TAKING AN EXCEPTION: the one operation by which every cause is delivered (R287, R288). A group cause traps, unless it is the
pilot's, the trap entry is 0, or MISALIGNED's route bit selects the context; a rollback cause rolls the team back, unless the
irrevocable flag is set or the team has rolled back three times; every other cause is a context fault. -/
def raise (v : View) (f : Fail) (inRun : Bool) (s : State) : State :=
  let epc := f.epc.getD v.split.pc
  let lanes := if f.lanes == 0 then v.split.mask else f.lanes
  let s := if f.clearArm then s.modCtx v.asid fun c => { c with inject := c.inject &&& 0x7FFFFFFF } else s
  if groupCause v.grid.hdr f.cause && !v.pilot && v.team.trapent != 0 then takeGroupTrap v f.cause epc f.tval lanes inRun s
  else if willRollback v f then s.rollback v f
  else raiseContext v f epc v.engine s

/-- RETURNING FROM AN EXCEPTION (R291): the lowest held trap runs next; with none held, HM clears and the interrupted split
continues at %epc with its run state; one that was filing files its strands there. -/
def returnFrom (v : View) (id : Nat) (g : Group) : Group :=
  if g.causebits != 0 then
    let n := ((List.range 32).find? fun i => g.causebits.getLsbD i).getD 0
    let h := (g.held.find? fun h => h.cause == n).getD { cause := n, epc := g.epc, tval := g.tval, lanes := lanesOf v.lanes }
    { enterHandler v.team n h.epc h.tval h.lanes id g with
        causebits := g.causebits &&& ~~~(1#32 <<< n), held := g.held.filter fun h => h.cause != n }
  else
    match g.saved with
    | none => { g with hm := false }
    | some sv =>
      { g with hm := false, saved := none,
               splits := (sv.splits.modify sv.idx fun sp => { sp with pc := g.epc, st := match sp.st with | .filing _ => .filing g.epc | _ => .ready }).filter fun sp => sp.mask != 0 }

/-! ### Running a meaning -/

/-- The next PC of a view's split in sequential order (R24). -/
def View.nextPc (v : View) (s : State) : Word64 := s.seqPc v.core v.asid v.team v.split.pc

/-- The state after a non-trailer has been performed: the count rises and the PC moves on (R24, R39). -/
def advance (v : View) (pc : Word64) (s : State) : State :=
  s.modGroup v.gk fun g => { g.modSplit v.idx (fun sp => { sp with pc := pc }) with run := { g.run with count := g.run.count + 1 } }

/-- End of an instruction: no split is executing. -/
def State.idle (s : State) : State := { s with cur := none }

/-- Deliver a cause, or, where the split speculates, leave the instruction to raise it again when its fence has completed (R243). -/
def raiseNow (v : View) (f : Fail) (s : State) : State := if s.ex.specs.has v.gk then s else raise v f true s

/-- Run the body of a native instruction that is not a trailer: performed and the PC advanced; waiting and unchanged; or the
cause delivered with nothing of the body performed (R288). -/
def runBody (s : State) (body : View → State → Body) : Result :=
  match s.view with
  | none => .fault .noExecutor
  | some v =>
    match body v s with
    | .ok t => .next (advance v (v.nextPc s) t).idle
    | .error .stall => .next s.idle
    | .error (.hold t) => .next t.idle
    | .error (.fail f) => .next (raiseNow v f s).free.2.idle
    | .error (.failIn t f) => .next (raiseNow v f t).free.2.idle

/-- Run the body of a trailer, which places the split itself. -/
def runTrailer (s : State) (body : View → State → Body) : Result :=
  match s.view with
  | none => .fault .noExecutor
  | some v =>
    match body v s with
    | .ok t => .next t.idle
    | .error .stall => .next s.idle
    | .error (.hold t) => .next t.idle
    | .error (.fail f) => .next (raiseNow v f s).free.2.idle
    | .error (.failIn t f) => .next (raiseNow v f t).free.2.idle

/-- A body that stops with one cause in every active lane. -/
def failAll (cause : Nat) (tval : Word64) (act : List Nat) : Stop :=
  .fail { cause := cause, tval := tval, lanes := lanesOf act, lcause := act.map fun l => (l, cause) }

/-- The delivered cause of lanes that raise several (R49, R288): the lowest-numbered; its %tval is that of its lowest lane. -/
def pickCause (cs : List (Nat × Nat × Word64)) : Option Fail :=
  match cs with
  | [] => none
  | c :: r =>
    let best := r.foldl (fun b x => if x.2.1 < b.2.1 then x else b) c
    let own := cs.foldl (fun (m : AMap Nat) x => match m.find x.1 with
      | some k => if x.2.1 < k then m.put x.1 x.2.1 else m
      | none => m.put x.1 x.2.1) []
    some { cause := best.2.1, tval := best.2.2, lcause := own, addr := if rollbackCause best.2.1 then best.2.2.toNat else 0,
           lanes := lanesOf ((own.filter fun e => e.2 == best.2.1).map (·.1)) }

/-- Stop with the delivered cause, if any lane raises one. -/
def checkCauses (cs : List (Nat × Nat × Word64)) : Except Stop Unit :=
  match pickCause cs with
  | some f => .error (.fail f)
  | none => .ok ()

/-- R25: the causes of the lanes whose targets no transfer of control may reach. -/
def targetCauses (v : View) (s : State) (act : List Nat) (target : Nat → Word64) : List (Nat × Nat × Word64) :=
  act.filterMap fun l => (s.badTarget v.core v.asid v.team (target l)).map fun e => (l, e.1, e.2)

/-- Stop a transfer with the delivered cause (R260), if any lane raises one: of an illegal line word at the target %epc is the PC being entered (R28). The causes
that come after these are delivered only where there are none, and stand in the stop record all the same. -/
def checkTargets (cs ts : List (Nat × Nat × Word64)) (target : Nat → Word64) (after : List (Nat × Nat × Word64) := []) : Except Stop Unit :=
  match pickCause (cs ++ ts) with
  | some f => .error (.fail { f with
      lcause := after.foldl (fun m c => if m.has c.1 then m else m.put c.1 c.2.1) f.lcause
      fetch := f.cause == 12 && !(cs.any fun c => c.2.1 == 12)
      epc := if f.cause == 1 && f.tval == 6 then ((ts.find? fun c => c.2.1 == 1).map fun c => target c.1) else none })
  | none => checkCauses after

/-- Give a cause that stops an instruction before its own checks the %epc of an illegal line word that they have found (R28). -/
def atEntry (target : Nat → Option Word64) {α : Type} (r : Except Stop α) : Except Stop α :=
  match r with
  | .error (.fail f) => .error (.fail (if f.cause == 1 && f.tval == 6 then { f with epc := ((lanesIn f.lanes).head?).bind target } else f))
  | r => r

end Sys2Proof.Machine
end

