-- ==== Sys2Proof/WellFormed.lean ====
section
/-! DEFINITION. When a native instruction is well formed: each field an instruction uses holds one of the values defined
for it (R29), so that a word encodes it. Events name what is pending and carry no encoding; they are well formed. -/

namespace Sys2Proof

/-- The code of a type in Table 2.5. -/
def OpType.code : OpType → BitVec 4
  | .s32 => 0 | .z32 => 1 | .s64 => 2 | .z64 => 3 | .f32 => 4 | .f64 => 5 | .f16 => 6 | .bf16 => 7
  | .f16x2 => 8 | .bf16x2 => 9 | .s8 => 10 | .z8 => 11 | .s16 => 12 | .z16 => 13 | .slot => 14

/-- The codes lo to hi of Table 2.5. -/
def OpType.within (t : OpType) (lo hi : Nat) : Bool := decide (lo ≤ t.code.toNat) && decide (t.code.toNat ≤ hi)

/-- TYPE 0 or 1 (.s32, .z32). -/
def OpType.i32 (t : OpType) : Bool := t.within 0 1
/-- TYPE 0 to 13: every type but .slot. -/
def OpType.plain (t : OpType) : Bool := t.within 0 13
/-- TYPE 4 to 9: the floating-point types of class 1. -/
def OpType.fp (t : OpType) : Bool := t.within 4 9
/-- TYPE 4 to 7: the floating-point types that are not packed. -/
def OpType.fp1 (t : OpType) : Bool := t.within 4 7
/-- .f32 or .f16 (R190). -/
def OpType.trans (t : OpType) : Bool := t == .f32 || t == .f16
/-- TYPE 0 to 5: the types of 32 or 64 bits (R193, Table 6.7). -/
def OpType.w3264 (t : OpType) : Bool := t.within 0 5
/-- TYPE 0, 1 or 4 (REDL, SCANL). -/
def OpType.red (t : OpType) : Bool := t.i32 || t == .f32
/-- The 4-byte types (R150). -/
def OpType.word4 (t : OpType) : Bool := t.i32 || t == .f32 || t.within 8 9
/-- The types of a tile row's elements (Table 11.6). -/
def OpType.tile (t : OpType) : Bool := t.red || t == .slot
/-- .z32 or .z64: the status forms (R99, R154, R229). -/
def OpType.status (t : OpType) : Bool := t == .z32 || t == .z64
/-- A packed type (Table 2.5). -/
def OpType.packed (t : OpType) : Bool := t.within 8 9

/-- Table 6.7: the types an atomic operation accepts. -/
def AtomOp.accepts (op : AtomOp) (t : OpType) : Bool :=
  match op with
  | .add | .min | .max | .exch => t.within 0 5
  | .and | .or | .xor | .cas => t.within 0 3

/-- R193: and, or, xor are illegal on .f32. -/
def RedOp.accepts (op : RedOp) (t : OpType) : Bool :=
  match op with
  | .and | .or | .xor => t != .f32
  | _ => true

/-- R114: a non-plain order needs a non-plain scope; in space .s only plain, .grp and .core. -/
def scopeOrderOk (sp : Space) (sc : Scope) (o : Order) : Bool :=
  (o == .plain || sc != .plain) && (sp != .s || sc == .plain || sc == .grp || sc == .core)

/-- The special-register numbers of Table 7.2. -/
def specialNumbers : List Nat :=
  [0, 1, 2, 3, 4, 5, 6, 7, 8, 9, 10, 11, 12, 13, 14, 15, 16, 24, 25, 26, 27, 28]

/-- R134: the number names a special register. -/
def specialOk (n : BitVec 8) : Bool := specialNumbers.contains n.toNat

/-- The predicate named by an 8-bit operand: D[7:4] is reserved (R30). -/
def predReg (d : Reg) : Bool := decide (d.toNat < 16)

/-- The types and orders of LD, ST and QLD as each accepts them (Table 6.5). -/
def memOk (m : FMem) (orders : List Order) : Bool :=
  m.ty.plain && orders.contains m.order && scopeOrderOk m.space m.scope m.order

/-- A native instruction with every used field legal (R29, R35 to R38 and each instruction's own table). -/
def WellFormed : Instr → Bool
  | .mov x => x.ty.plain
  | .sel x _ => x.ty.plain
  | .add x | .sub x | .adds x | .mul x | .mulh x | .min x | .max x | .and x | .or x | .xor x | .andn x
  | .div x | .rem x | .shl x | .shr x | .sar x | .rol x | .bfx x => x.ty.i32
  | .neg x | .not x | .popc x | .clz x | .ctz x | .brev x => x.ty.i32
  | .abs x => x.ty == .s32
  | .mad x => x.ty.i32
  | .bfi x => x.ty.i32
  | .dot4 x _ => x.ty.within 10 11
  | .bsel x => x.ty == .z32
  | .add64 x | .sub64 x => x.ty.within 2 3
  | .lea x _ => x.ty.i32
  | .isetp x => x.ty.within 0 3 && (x.cond == .eq || x.cond == .ne || x.cond == .lt || x.cond == .le || x.cond == .gt || x.cond == .ge)
  | .fadd x | .fsub x | .fmul x => x.ty.fp
  | .ffma x _ => x.ty.fp
  | .fmin x | .fmax x | .fminm x | .fmaxm x => x.ty.fp
  | .fabs x | .fneg x => x.ty.fp
  | .fsetp x => x.ty.fp1
  | .fclass x => x.ty.fp1
  | .frnd x | .fsqrt x | .frcp x | .frsq x => x.ty.fp1
  | .fscale x => x.ty.fp1
  | .fdiv x => x.ty.fp1 && !x.sat
  | .fexp2 x | .flog2 x | .fsin x | .fcos x | .ftanh x => x.ty.trans
  | .pclr _ k d => k != .pred || predReg d
  | .ptst _ k _ a => k != .pred || (predReg a.reg && !a.ea)
  | .cvt x sty sat slot =>
    !x.ty.packed && !sty.packed && !(x.ty == .slot && sty == .slot) && (x.ty != .slot || (x.rm == .rn && !sat))
      && (x.ty == .slot || sty == .slot || slot == 0)
  | .pack2 x => x.ty.packed
  | .shfl x _ | .shflr x | .xput x => x.ty.w3264
  | .poll _ mode d _ => mode == .mask || predReg d
  | .redl x | .scanl x _ =>
    x.ty.red && x.op.accepts x.ty && (x.rm == .rn || (x.ty == .f32 && x.op == .add))
  | .kin x p leader => x.ty.w3264 && (p.isSome || !leader)
  | .movs _ n | .movsw _ n => specialOk n
  | .ld m _ => memOk m [.plain, .acq]
  | .st m _ => memOk m [.plain, .rel]
  | .atom m _ => m.op.accepts m.ty && scopeOrderOk m.space m.scope m.order
  | .red m =>
    m.op.accepts m.ty && scopeOrderOk m.space m.scope m.order && (m.order == .plain || m.order == .rel)
      && m.op != .exch && m.op != .cas
  | .pref _ sp _ _ _ => sp != .s
  | .qld m _ _ => m.ty.word4 && m.space != .s && m.scope == .plain && m.order == .plain
  | .cstat _ _ | .qstat _ _ | .sastat _ _ => true
  | .mload x | .mstore x => x.ty.tile && (x.ty == .slot || x.slot == 0)
  | .fence _ sc o => sc != .plain && o != .plain
  | .swi _ helm _ q => !helm || q == 0
  | .brx _ | .callx _ | .mwait _ | .sleep _ | .gwait _ => true
  | _ => true

end Sys2Proof
end

