-- ==== Sys2Proof/Machine/Operands.lean ====
section
/-! DEFINITION. Operand forms: static checks (R31), guards (R32), immediates (R33), empty actions (R34), temporaries (R41),
queue pops (R149), display registers (R31, R138), and what a source reads as a 32- or 64-bit value. -/

namespace Sys2Proof.Machine

/-- A use of a source operand. -/
structure Use where
  reg : Nat
  ea : Bool := false
  pair : Bool := false
deriving Repr

end Sys2Proof.Machine

namespace Sys2Proof

/-- The use of a source register. -/
def Src.use (x : Src) (pair : Bool := false) : Machine.Use := { reg := x.reg.toNat, ea := x.ea, pair := pair }
/-- The use of operand b, none for an immediate. -/
def SrcB.uses (x : SrcB) (pair : Bool := false) : List Machine.Use :=
  match x with
  | .reg r => [r.use pair]
  | .imm _ => []

/-- The width of a type in a register pair. -/
def OpType.wide (t : OpType) : Bool := t == .s64 || t == .z64 || t == .f64

/-- Whether a type is signed. -/
def OpType.signed (t : OpType) : Bool := t == .s32 || t == .s64 || t == .s8 || t == .s16

end Sys2Proof

namespace Sys2Proof.Machine

/-- Whether an operand number names a queue. -/
def isQueue (r : Nat) : Bool := 200 ≤ r && r < 216

/-- R31, R144: the static check of one operand. -/
def badOperand (v : View) (r : Nat) (pair dst : Bool) : Bool :=
  (if v.pilot then (64 ≤ r && r < 192) || (200 ≤ r && r < 248) else r < 192 && decide (v.grid.hdr.regs ≤ r))
    || (pair && (r % 2 == 1 || isQueue r || 248 ≤ r))
    || (dst && (isQueue r || 248 ≤ r))

/-- R31, R144: whether the sources or destinations of an instruction fail the static checks. -/
def badOperands (v : View) (srcs : List Use) (dsts : List (Reg × Bool)) : Bool :=
  srcs.any (fun u => badOperand v u.reg u.pair false) || dsts.any (fun d => badOperand v d.1.toNat d.2 true)
    || (let qs := (srcs.filter fun u => isQueue u.reg).map (·.reg); decide (qs.eraseDups.length < qs.length))

/-- The queue key of a queue operand of the group's set (R148). -/
def queueKey (v : View) (r : Nat) : Nat := v.grp.qset * 16 + (r - 200)
/-- The oldest entry that may be popped: pushed in an earlier clk (R149). -/
def queueHead (v : View) (s : State) (r : Nat) : Option QEntry :=
  match AMap.get [] v.team.queues (queueKey v r) with
  | e :: _ => if e.clk < s.dev.clock then some e else none
  | [] => none

/-- The elements of a source in a lane: one, or two for a pair. -/
def srcElems (v : View) (s : State) (l : Nat) (u : Use) : List Elem :=
  if isQueue u.reg then [{ val := match queueHead v s u.reg with | some e => (AMap.get {} e.words l).data | none => 0 }]
  else if u.pair then [readElem v s l u.reg, readElem v s l (u.reg + 1)]
  else [readElem v s l u.reg]

/-- Whether a source is empty in a lane (R34). -/
def srcEmpty (v : View) (s : State) (l : Nat) (u : Use) : Bool :=
  if isQueue u.reg then (queueHead v s u.reg).isNone else (srcElems v s l u).any fun e => !e.full
/-- Whether a source carries poison in a lane. -/
def srcPoison (v : View) (s : State) (l : Nat) (u : Use) : Bool := (srcElems v s l u).any (·.poison)
/-- A source as a word. -/
def srcW (v : View) (s : State) (l : Nat) (u : Use) : Word := ((srcElems v s l u).getD 0 {}).val
/-- A pair source as 64 bits: the even register holds the low word (R30). -/
def srcW64 (v : View) (s : State) (l : Nat) (u : Use) : Word64 :=
  ((srcElems v s l u).getD 1 {}).val ++ ((srcElems v s l u).getD 0 {}).val

/-- The lanes that issue: those of the split that are not skipping to a loop's end (R264). -/
def liveLanes (v : View) : List Nat := v.lanes.filter fun l => !(v.grp.run.skip.any fun e => e.1 == l)

/-- Whether a predicate's parity fails in a lane (R132). -/
def predError (v : View) (s : State) (l : Nat) (p : BitVec 4) : Bool := (s.strandAt (v.key l)).pe.getLsbD p.toNat

/-- The lanes of the split whose guard predicate is bad: POISON (R32), or a parity error that the replay has not removed (R132). -/
def guardCauses (v : View) (s : State) (g : Guard) : List (Nat × Nat × Word64) :=
  match g with
  | .always => []
  | .when p _ => v.lanes.filterMap fun l =>
      if predError v s l p then some (l, 12, Config.freeWord s.freeCount)
      else if (readPred v s l p).2 then some (l, 5, BitVec.ofNat 64 (0x100 + p.toNat)) else none

/-- The lanes that a guard lets issue (R32). -/
def activeLanes (v : View) (s : State) (g : Guard) : List Nat :=
  match g with
  | .always => liveLanes v
  | .when p sense => (liveLanes v).filter fun l => (readPred v s l p).1 == sense

/-- R41: reading a temporary whose written flag is clear. -/
def unwrittenTemp (v : View) (u : Use) : Bool :=
  let one (r : Nat) : Bool := 192 ≤ r && r < 200 && !v.grp.run.tw.getLsbD (r - 192)
  one u.reg || (u.pair && one (u.reg + 1))

/-- Whether a destination is still empty from an earlier producer in an active lane (R131). -/
def destEmpty (v : View) (s : State) (act : List Nat) (d : Reg × Bool) : Bool :=
  act.any fun l => !(readElem v s l d.1.toNat).full || (d.2 && !(readElem v s l (d.1.toNat + 1)).full)

/-- FRAME_LEVEL of the display registers beyond the grid's level (R31). -/
def displayCauses (v : View) (act : List Nat) (srcs : List Use) : List (Nat × Nat × Word64) :=
  srcs.flatMap fun u =>
    if 248 ≤ u.reg && v.grid.hdr.level < u.reg - 248 then act.map fun l => (l, 7, BitVec.ofNat 64 ((u.reg - 248) * 2 ^ 29)) else []

/-- Causes of the named sources that concern no instruction's own rule: a display register beyond the level among those that are shown (R31),
and a popped element that is marked or fails its code (R149). -/
def sourceCauses (v : View) (s : State) (act : List Nat) (srcs shown : List Use) : List (Nat × Nat × Word64) :=
  displayCauses v act shown ++ srcs.flatMap fun u =>
    if isQueue u.reg then
      match queueHead v s u.reg with
      | some e => act.filterMap fun l => (AMap.get {} e.words l).judge.map fun c => (l, c, BitVec.ofNat 64 (u.reg - 200))
      | none => []
    else []

/-- Remove a queue's oldest entry. -/
def Team.pop (q : Nat) (t : Team) : Team := { t with queues := t.queues.modify q List.tail }

/-- The queue operands that an instruction pops: those whose queue has an oldest entry for it. -/
def popList (v : View) (s : State) (srcs : List Use) : List Use := srcs.filter fun u => isQueue u.reg && (queueHead v s u.reg).isSome

/-- The entries that an instruction pops, each with its queue. -/
def popHeads (v : View) (s : State) (srcs : List Use) : List (Nat × QEntry) :=
  (popList v s srcs).flatMap fun u => ((AMap.get [] v.team.queues (queueKey v u.reg)).take 1).map fun e => (queueKey v u.reg, e)

/-- A speculating group keeps the entries that it pops for a rollback (R242). -/
def State.keepPops (s : State) (gk : Nat) (ps : List (Nat × QEntry)) : State :=
  if ps.isEmpty then s else s.modEx fun x => { x with specs := x.specs.modify gk fun p => { p with pops := p.pops ++ ps } }

/-- Remove the oldest entry of each queue that an instruction names as a source (R149). -/
def popQueues (v : View) (srcs : List Use) (s : State) : State :=
  (popList v s srcs).foldl (fun s u => s.modTeam v.teamKey (Team.pop (queueKey v u.reg))) (s.keepPops v.gk (popHeads v s srcs))

/-- The register elements that an instruction reads in its active lanes. -/
def readsOf (act : List Nat) (srcs : List Use) : List (Nat × Nat) :=
  (srcs.flatMap fun u => if isQueue u.reg then [] else if u.pair then [u.reg, u.reg + 1] else [u.reg]).flatMap fun r => act.map fun l => (l, r)

/-- Write a register element back as it stands, without its error. -/
def mendElem (v : View) (l r : Nat) (e : Elem) (s : State) : State :=
  if 216 ≤ r && r < 248 then writeG v r { e with err := 0 } s else writeElem v l r { e with err := 0 } s

/-- UNCORRECTABLE in the lanes whose register elements read stay uncorrectable, or that read a predicate with a parity error (R132). -/
def hardErrors (v : View) (s : State) (act : List Nat) (srcs : List Use) (preds : List (BitVec 4)) : List (Nat × Nat × Word64) :=
  (((readsOf act srcs).filter fun k => decide (1 < (readElem v s k.1 k.2).err)).map (·.1) ++ act.filter fun l => preds.any (predError v s l)).map
    fun l => (l, 12, Config.freeWord s.freeCount)

/-- R132: a read that finds an error that the code corrects rewrites the element, logs a record and replays the instruction once;
one that stays uncorrectable, or a predicate's parity error, is consumed. -/
def registerErrors (v : View) (s : State) (act : List Nat) (srcs : List Use) (preds : List (BitVec 4)) : Except Stop (List (Nat × Nat × Word64)) :=
  let errs := (readsOf act srcs).filter fun k => (readElem v s k.1 k.2).err != 0
  match errs.find? (fun k => (readElem v s k.1 k.2).err == 1) with
  | some (l, r) =>
    .error (.hold ((mendElem v l r (readElem v s l r) s).logError (errRec 6 0 0 v.core (elemIndex v l r) v.asid v.grid.part 1 0)))
  | none => .ok (hardErrors v s act srcs preds)

/-- EMPTY_REGISTER in each active lane that has an empty source whose action is 1; %tval is the number of the first such source in the order
a, b, c (R34). DESIGN CHOICE (log 20): in an operand of more than two registers (a tile descriptor, the data of a 64-bit cas) it is the number
of the first register or pair of it that is empty. -/
def emptyCauses (v : View) (s : State) (act : List Nat) (srcs : List Use) : List (Nat × Nat × Word64) :=
  match srcs.filter fun u => u.ea && act.any fun l => srcEmpty v s l u with
  | [] => []
  | u :: r => (act.filter fun l => (u :: r).any fun x => srcEmpty v s l x).map fun l => (l, 4, BitVec.ofNat 64 u.reg)

/-- The first of some lists of causes that is not empty: checks that are made in an order of their own. -/
def firstCauses : List (List (Nat × Nat × Word64)) → List (Nat × Nat × Word64)
  | [] => []
  | cs :: r => if cs.isEmpty then firstCauses r else cs

/-- The first register element or predicate among those that some lanes read that stays uncorrectable: LEVEL and array index (R299). -/
def badPlace (v : View) (s : State) (ls : List Nat) (srcs : List Use) (preds : List (BitVec 4)) : Option (Nat × Nat) :=
  match (readsOf ls srcs).find? fun k => decide (1 < (readElem v s k.1 k.2).err) with
  | some (l, r) => some (6, elemIndex v l r)
  | none => ls.findSome? fun l => (preds.find? (predError v s l)).map fun p => (6, elemIndex v l (256 + p.toNat))

/-- The predicate of a guard. -/
def guardPreds (g : Guard) : List (BitVec 4) := match g with | .always => [] | .when p _ => [p]

/-- Causes that stop an instruction's other lanes, and those of registers and predicates that stay uncorrectable, with the place of one of these where it is
what is delivered. -/
def hardStop (v : View) (s : State) (cs hard : List (Nat × Nat × Word64)) (srcs : List Use) (preds : List (BitVec 4)) : Option Fail :=
  (pickCause (cs ++ hard)).map fun f =>
    { f with place := if f.cause == 12 && !(cs.any fun c => c.2.1 == 12) then badPlace v s (lanesIn f.lanes) srcs preds else none }

/-- ILLEGAL_OPERAND where an instruction reads a temporary whose written flag is clear (R41). -/
def tempCauses (v : View) (act : List Nat) (srcs : List Use) : List (Nat × Nat × Word64) :=
  if srcs.any (unwrittenTemp v) then act.map fun l => (l, 3, 0) else []

/-- The prologue of every instruction: static checks (R31), the guard (R32), temporaries (R41), empty actions (R34),
destinations still empty (R131), and the errors of the registers and predicates read (R132). It answers the active lanes and the causes
that the instruction's own checks join. Where a guard, a temporary or an empty source stops some lanes, the causes that the instruction's own
checks find join theirs, since the lowest-numbered cause of all lanes is delivered (R49): fixed gives those that no operand decides, and own those
of the lanes whose operands can be read. DESIGN CHOICE (log 65): of a temporary never written and another ILLEGAL_OPERAND, %tval is R41's. -/
def prologue (v : View) (s : State) (g : Guard) (srcs : List Use) (dsts : List (Reg × Bool)) (bad : Bool := false)
    (own : List Nat → List (Nat × Nat × Word64) := fun _ => []) (preds : List (BitVec 4) := []) (shown : List Use := srcs)
    (fixed : List Nat → List (Nat × Nat × Word64) := fun _ => []) : Except Stop (List Nat × List (Nat × Nat × Word64)) :=
  if bad || badOperands v srcs dsts then .error (failAll 3 0 (v.lanes)) else
  let act := activeLanes v s g
  let gs := guardCauses v s g
  if act.isEmpty && gs.isEmpty then
    if srcs.any (fun u => isQueue u.reg && !u.ea && (queueHead v s u.reg).isNone) then .error .stall else .ok (act, [])
  else
  let sure := act.filter fun l => !(gs.any fun c => c.1 == l)
  let temps := tempCauses v sure srcs
  let pre := gs ++ temps ++ emptyCauses v s sure srcs
  let rest := if temps.isEmpty then sure.filter fun l => !(srcs.any fun u => srcEmpty v s l u) else []
  let soft := pre.filter (·.2.1 != 12) ++ fixed sure ++ own rest ++ sourceCauses v s rest srcs shown
  let hard := pre.filter (·.2.1 == 12) ++ hardErrors v s rest srcs preds
  match if pre.isEmpty then none else hardStop v s soft hard srcs (guardPreds g ++ preds) with
  | some f => .error (.fail f)
  | none =>
    if srcs.any (fun u => act.any fun l => srcEmpty v s l u) || dsts.any (destEmpty v s act) then .error .stall
    else match registerErrors v s act srcs preds with
      | .error e => .error e
      | .ok hard =>
        let cs := sourceCauses v s act srcs shown
        match if hard.isEmpty then none else hardStop v s (fixed act ++ own act ++ cs) hard srcs preds with
        | some f => .error (.fail f)
        | none => .ok (act, cs)

/-- POISON in each active lane that has a poisoned operand, with the number of the first (Table 17.1). -/
def poisonCauses (v : View) (s : State) (act : List Nat) (srcs : List Use) : List (Nat × Nat × Word64) :=
  let regs := srcs.flatMap fun u => if u.pair then [u.reg, u.reg + 1] else [u.reg]
  act.filterMap fun l => (regs.find? fun r => (readElem v s l r).poison).map fun r => (l, 5, BitVec.ofNat 64 r)

/-- An immediate widened by TYPE (R33), as 64 bits. -/
def immValue (t : OpType) (imm : Word) : Word64 :=
  match t with
  | .s8 => (imm.extractLsb' 0 8).signExtend 64
  | .z8 => (imm.extractLsb' 0 8).setWidth 64
  | .s16 => (imm.extractLsb' 0 16).signExtend 64
  | .z16 | .f16 | .bf16 => (imm.extractLsb' 0 16).setWidth 64
  | .s32 | .s64 => imm.signExtend 64
  | .f64 => imm ++ (0 : BitVec 32)
  | _ => imm.setWidth 64

/-- Operand b in a lane: 64 bits (a register's word zero-extended), and its poison. -/
def valB (v : View) (s : State) (l : Nat) (t : OpType) (b : SrcB) (pair : Bool) : Word64 × Bool :=
  match b with
  | .imm i => (immValue t i, false)
  | .reg r =>
    let u := r.use pair
    (if pair then srcW64 v s l u else (srcW v s l u).setWidth 64, srcPoison v s l u)

/-- A register source in a lane: 64 bits and its poison. -/
def valR (v : View) (s : State) (l : Nat) (r : Src) (pair : Bool) : Word64 × Bool := valB v s l .z32 (.reg r) pair

/-- The low word. -/
def lo (x : Word64) : Word := x.extractLsb' 0 32
/-- The high word. -/
def hi (x : Word64) : Word := x.extractLsb' 32 32
/-- The words of a result: one, or the pair. -/
def wordsOf (pair : Bool) (x : Word64) : List Word := if pair then [lo x, hi x] else [lo x]

/-- Table 9.1: the fill of a result narrower than 32 bits. -/
def fillOf (t : OpType) (x : Word64) : Word64 :=
  match t with
  | .s8 => (x.extractLsb' 0 8).signExtend 64
  | .z8 => (x.extractLsb' 0 8).setWidth 64
  | .s16 => (x.extractLsb' 0 16).signExtend 64
  | .z16 | .f16 | .bf16 => (x.extractLsb' 0 16).setWidth 64
  | _ => x

/-! ### The shape of the instructions that compute at issue (R175 to R177) -/

/-- The result of one lane: 64 bits, poison, and the sticky flags raised (%fmode bits 8 to 12). -/
structure LaneOut where
  val : Word64 := 0
  poison : Bool := false
  flags : BitVec 5 := 0

/-- R161: sticky flags are set in %fmode whatever the mask; invalid, divide-by-zero and overflow poison where enabled. -/
def setFlags (v : View) (act : List Nat) (f : Nat → BitVec 5) (s : State) : State :=
  act.foldl (fun s l => if f l == 0 then s else
    s.modStrand (v.key l) fun t => { t with fmode := t.fmode ||| ((f l).setWidth 32 <<< 8) }) s

/-- Whether the poison mask enables an exception raised (R161): flag bits 0 NV, 1 DZ, 2 OF. -/
def enabledPoison (h : KHeader) (f : BitVec 5) : Bool := (f.extractLsb' 0 3 &&& h.pmask) != 0

/-- An instruction that reads its sources in every active lane and then writes its destination at issue. -/
def computeAtIssue (g : Guard) (srcs : List Use) (d : Reg) (pair : Bool) (f : View → State → List Nat → Nat → LaneOut)
    (bad : View → Bool := fun _ => false) (preds : List (BitVec 4) := []) (v : View) (s : State) : Body := do
  let (act, cs) ← prologue v s g srcs [(d, pair)] (bad v) (preds := preds)
  checkCauses cs
  let out := f v s act
  let s := writeDest v act d (fun l => (wordsOf pair (out l).val, (out l).poison || enabledPoison v.grid.hdr (out l).flags)) s
  return popQueues v srcs (setFlags v act (fun l => (out l).flags) s)

/-- Put a long-latency result in flight (R177). -/
def State.sendLong (s : State) (r : Long) : State :=
  let (id, s) := s.fresh
  s.modEx fun x => { x with longs := x.longs.put id r }

/-- An instruction that computes at issue and delivers its result later (R177): the destination is empty meanwhile. -/
def computeLater (g : Guard) (srcs : List Use) (d : Reg) (pair : Bool) (f : View → State → List Nat → Nat → LaneOut)
    (v : View) (s : State) : Body := do
  let (act, cs) ← prologue v s g srcs [(d, pair)]
  checkCauses cs
  let out := f v s act
  let long (l : Nat) : Long :=
    { core := v.core, dest := destOf v s act s.nextId l d pair, vals := wordsOf pair (out l).val,
      poison := (out l).poison || enabledPoison v.grid.hdr (out l).flags }
  let s := act.foldl (fun s l => s.sendLong (long l)) s
  let s := markEmpty v act d pair s
  return popQueues v srcs (setFlags v act (fun l => (out l).flags) s)

/-- An instruction that writes a predicate in each active lane. -/
def computePred (g : Guard) (srcs : List Use) (p : BitVec 4) (f : View → State → List Nat → Nat → Bool × LaneOut)
    (v : View) (s : State) : Body := do
  let (act, cs) ← prologue v s g srcs []
  checkCauses cs
  let out := f v s act
  let s := writePred v act p (fun l => ((out l).1, (out l).2.poison || enabledPoison v.grid.hdr (out l).2.flags)) s
  return popQueues v srcs (setFlags v act (fun l => (out l).2.flags) s)

end Sys2Proof.Machine
end

