-- ==== Sys2Proof/Machine/Flags.lean ====
section
/-! DEFINITION. The five exceptions (R161, Table 7.3) as bits of a lane's result: bit i is %fmode bit 8 + i. -/

namespace Sys2Proof.Machine

/-- Invalid. -/
def fNV : BitVec 5 := 1
/-- Divide-by-zero. -/
def fDZ : BitVec 5 := 2
/-- Overflow. -/
def fOF : BitVec 5 := 4
/-- Underflow. -/
def fUF : BitVec 5 := 8
/-- Inexact. -/
def fNX : BitVec 5 := 16

/-- A flag under a condition. -/
def flagIf (b : Bool) (f : BitVec 5) : BitVec 5 := if b then f else 0

/-- %fmode with the flags of a result added; no other bit changes (R161). -/
def fmodeWith (m : Word) (f : BitVec 5) : Word := m ||| (f.setWidth 32 <<< 8)

end Sys2Proof.Machine
end

