-- ==== Sys2Proof/Machine/Redundancy.lean ====
section
/-! DEFINITION. Inputs that the voyage log records or replays (R311, R312), redundancy compares (R300, R303), and what a core pair
signs and forwards (R301, R302, R374). -/

namespace Sys2Proof.Machine

/-! ### The voyage log -/

/-- MODE of a context's log. -/
def Ctx.vmode (c : Ctx) : Nat := (c.vlog.extractLsb' 0 2).toNat
/-- Whether the ring has room for n more records. -/
def Ctx.vroom (c : Ctx) (n : Nat) : Bool :=
  let size := (c.vlog.extractLsb' 8 24).toNat + 1
  let unread := (c.vhead + 2 ^ 32 - (c.vlog.extractLsb' 32 32).toNat) % 2 ^ 32
  decide (unread + n ≤ size)

/-- The eight words of a record (Table 17.7). -/
def VRecord.words (r : VRecord) : List Word :=
  [BitVec.ofNat 32 r.kind, BitVec.ofNat 32 r.seq, BitVec.ofNat 32 r.pos, BitVec.ofNat 32 r.grid, BitVec.ofNat 32 r.team,
    BitVec.ofNat 32 r.rank, r.value.extractLsb' 0 32, r.value.extractLsb' 32 32]
/-- A record from its words. -/
def vrecordOf (ws : List Word) : VRecord :=
  let n (i : Nat) : Nat := (ws.getD i 0).toNat
  { kind := n 0 % 16, seq := n 1, pos := n 2, grid := n 3, team := n 4, rank := n 5, value := ws.getD 7 0 ++ ws.getD 6 0 }
/-- The place of a record in the ring: HEAD stands at BASE, and the records from 32 bytes on (log 14). -/
def Ctx.vplace (c : Ctx) (seq : Nat) : Word64 :=
  c.vlog.extractLsb' 64 64 + BitVec.ofNat 64 (32 + 32 * (seq % ((c.vlog.extractLsb' 8 24).toNat + 1)))

/-- Append one record to the ring, in SEQ order (R311). -/
def State.vappend (s : State) (asid kind grid team rank pos : Nat) (val : Word64) : State :=
  match s.org.ctxs.find asid with
  | none => s
  | some c =>
    let r : VRecord := { value := val, rank := rank, team := team, grid := grid, pos := pos, seq := c.vhead, kind := kind }
    let s := (s.writeVa dieCache asid (c.vplace c.vhead) (r.words.map TWord.fresh)).2
    let s := (s.writeVa dieCache asid (c.vlog.extractLsb' 64 64) [TWord.fresh (BitVec.ofNat 32 (c.vhead + 1))]).2
    s.modCtx asid fun c => { c with vhead := (c.vhead + 1) % 2 ^ 32 }

/-- Read n records of the ring from a sequence number on; a record that cannot be read is missing. -/
def State.vread (s : State) (asid : Nat) (c : Ctx) (seq : Nat) : Nat → List VRecord × State
  | 0 => ([], s)
  | n + 1 =>
    match s.readVa dieCache asid (c.vplace seq) 1 8 with
    | (.ok ts, s) => let (r, s) := s.vread asid c ((seq + 1) % 2 ^ 32) n; (vrecordOf (ts.map (·.data)) :: r, s)
    | (.error _, s) => s.vread asid c ((seq + 1) % 2 ^ 32) n

/-- The records that a replay takes: those from TAIL to the ring's HEAD, as the log's word takes effect (R312, log 14). -/
def State.vload (s : State) (asid : Nat) : State :=
  match s.org.ctxs.find asid with
  | none => s
  | some c =>
    if c.vmode != 2 then s else
    let tail := (c.vlog.extractLsb' 32 32).toNat
    let (h, s) := s.readVa dieCache asid (c.vlog.extractLsb' 64 64) 1 1
    let head := match h with | .ok (t :: _) => t.data.toNat | _ => tail
    let n := Nat.min ((head + 2 ^ 32 - tail) % 2 ^ 32) ((c.vlog.extractLsb' 8 24).toNat + 1)
    let (rs, s) := s.vread asid c tail n
    s.modCtx asid fun c => { c with vrecords := rs }

/-- The logged record of an input, by grid, team, rank and POS (R312): a strand's, or a cell's draw. -/
def Ctx.vfind (c : Ctx) (draw : Bool) (grid team rank pos : Nat) : Option VRecord :=
  c.vrecords.find? fun r => r.grid == grid && r.team == team && r.rank == rank && r.pos == pos && (r.kind == 5) == draw

/-- A divergence of a replay: the context halts with CAUSE 0 and ORIGIN 1 (R312). -/
def divergence (v : View) : Stop := .fail { cause := 0, lanes := v.split.mask }

/-- Whether a view leads a core pair. -/
def View.leads (v : View) : Bool := match v.team.pair with | some (b, _) => b | none => false
/-- Whether a view trails in a core pair. -/
def View.trails (v : View) : Bool := match v.team.pair with | some (b, _) => !b | none => false
/-- Whether a team trails in a core pair. -/
def Team.trails (t : Team) : Bool := match t.pair with | some (b, _) => !b | none => false

/-- The context of a view now. -/
def State.ctxNow (s : State) (v : View) : Ctx := (s.org.ctxs.find v.asid).getD v.ctx
/-- Whether a view's inputs are replayed (R312). -/
def State.replays (s : State) (v : View) : Bool := (s.ctxNow v).vmode == 2

/-- Count one more logged input of a strand. -/
def State.countInput (s : State) (key : Nat) : State := s.modStrand key fun t => { t with vpos := t.vpos + 1 }

/-- One strand's nondeterministic input: recorded in MODE 1, taken from the log in MODE 2 (R311, R312). The two teams of a core pair are one to the
log: only the leader writes records, and the trailer counts the same inputs (DEDUCED, log 14). -/
def logOne (v : View) (kind l : Nat) (val : Word64) (s : State) : Except Stop (Word64 × State) :=
  let c := s.ctxNow v
  let rank := (v.rank l).getD 0
  let pos := (s.strandAt (v.key l)).vpos
  match c.vmode with
  | 1 =>
    if v.trails then .ok (val, s.countInput (v.key l))
    else if c.vroom 1 then .ok (val, (s.vappend v.asid kind v.grid.num v.team.num rank pos val).countInput (v.key l)) else .error .stall
  | 2 =>
    match c.vfind false v.grid.num v.team.num rank pos with
    | some r => if r.kind == kind then .ok (r.value, s.countInput (v.key l)) else .error (divergence v)
    | none => .error (divergence v)
  | _ => .ok (val, s)

/-- The inputs of several lanes, in ascending slot, as far as the log has room: of each the value, and whether it has been taken. -/
def logInputs (v : View) (kind : Nat) : List (Nat × Word64 × Bool) → State → Except Stop (List (Nat × Word64 × Bool) × State)
  | [], s => .ok ([], s)
  | (l, x, true) :: r, s =>
    match logInputs v kind r s with
    | .error e => .error e
    | .ok (r, s) => .ok ((l, x, true) :: r, s)
  | (l, x, false) :: r, s =>
    match logOne v kind l x s with
    | .error .stall => .ok ((l, x, false) :: r, s)
    | .error e => .error e
    | .ok (x, s) =>
      match logInputs v kind r s with
      | .error e => .error e
      | .ok (r, s) => .ok ((l, x, true) :: r, s)

/-- Whether every input of a list has been taken. -/
def allTaken (l : List (Nat × Word64 × Bool)) : Bool := l.all fun e => e.2.2
/-- A lane's value in such a list. -/
def takenAt (l : List (Nat × Word64 × Bool)) (n : Nat) : Word64 := ((l.find? fun e => e.1 == n).map fun e => e.2.1).getD 0

/-- What becomes of an input that a strand takes after its instruction has issued. -/
inductive Logged where
  | val (x : Word64) (s : State)
  | full
  | diverged

/-- Record or replay such an input (R311, R312); a strand that has ended takes none. -/
def State.logStrand (s : State) (key uid kind : Nat) (x : Word64) : Logged :=
  match (s.ex.teams.find (key / 2048)).bind fun t => (s.org.grids.find t.grid).map fun g => (t, g) with
  | none => .val x s
  | some (t, g) =>
    match s.org.ctxs.find g.asid with
    | none => .val x s
    | some c =>
      let st := s.strandAt key
      if st.uid != uid then .val x s else
      match c.vmode with
      | 1 =>
        if t.trails then .val x (s.countInput key)
        else if c.vroom 1 then .val x ((s.vappend g.asid kind g.num t.num (key % 2048) st.vpos x).countInput key) else .full
      | 2 =>
        match c.vfind false g.num t.num (key % 2048) st.vpos with
        | some r => if r.kind == kind then .val r.value (s.countInput key) else .diverged
        | none => .diverged
      | _ => .val x s

/-! ### Redundancy -/

/-- Whether a context's injection strikes within the next n compares (R303): COUNT 0 behaves as 1. -/
def Ctx.injectHits (c : Ctx) (n : Nat) : Bool :=
  let k := Nat.max 1 (c.inject.extractLsb' 0 24).toNat
  c.inject.getLsbD 31 && decide (c.compares < k) && decide (k ≤ c.compares + n)

/-- n lane-pair compares of an instruction (R300): both lanes hold the same values (log 12), so only an injected mismatch
differs; %tval is the PC. -/
def lanePairCompare (v : View) (n : Nat) (s : State) : Except Stop State :=
  if !v.lanePair then .ok s
  else
    let c := (s.org.ctxs.find v.asid).getD v.ctx
    if c.injectHits n then
      .error (.fail { cause := 18, tval := v.split.pc, lanes := v.split.mask, clearArm := true })
    else .ok (s.modCtx v.asid fun c => { c with compares := c.compares + n })

/-- The key of a view's core pair. -/
def View.pairKey (v : View) : Nat := match v.team.pair with | some (b, p) => if b then v.teamKey else p | none => 0
/-- A view's core pair. -/
def State.pairOf (s : State) (v : View) : Pair := (s.org.pairs.find v.pairKey).getD { trailer := 0, asid := v.asid }
/-- Change a core pair. -/
def State.modPair (s : State) (k : Nat) (f : Pair → Pair) : State := s.modOrg fun o => { o with pairs := o.pairs.modify k f }

/-- The content of a signature: the PC and what the caller lists of the active lanes (R302). -/
def signatureOf (v : View) (content : List Nat) : BitVec 64 := Config.signature (v.split.pc.toNat :: content)

/-- Sign a store or COPY (R302): the leader stalls where the compare buffer is full; both sides go on. -/
def signAccess (v : View) (content : List Nat) (s : State) : Except Stop State := do
  let s ← lanePairCompare v 1 s
  if v.leads then
    if 256 ≤ (s.pairOf v).buffer.length then .error .stall
    else return s.modPair v.pairKey fun p => { p with buffer := p.buffer ++ [(signatureOf v content, v.split.pc.toNat)], issuedSigs := p.issuedSigs + 1 }
  else if v.trails then
    return s.modPair v.pairKey fun p => { p with tsigs := p.tsigs ++ [(signatureOf v content, v.split.pc.toNat)] }
  else return s

/-- Sign an irrevocable operation: each side of a pair signs it once and issues it again; the leader performs it only once its own
signature has been matched (R302). -/
def signIrrevocable (v : View) (content : List Nat) (s : State) : Except Stop State :=
  if v.leads || v.trails then
    match v.grp.sigWait with
    | some n =>
      if v.trails || n ≤ (s.pairOf v).matched then .ok (s.modGroup v.gk fun g => { g with sigWait := none }) else .error .stall
    | none =>
      match signAccess v content s with
      | .error e => .error e
      | .ok s => .error (.hold (s.modGroup v.gk fun g => { g with sigWait := some (s.pairOf v).issuedSigs }))
  else signAccess v content s

/-- Whether a release of the leader must wait for unmatched signatures (R302). -/
def releaseHeld (v : View) (s : State) : Bool := v.leads && !(s.pairOf v).buffer.isEmpty

/-- The key under which a strand's next result is forwarded. -/
def fwdKey (v : View) (s : State) (l : Nat) : Nat := (v.rank l).getD 0 * 2 ^ 32 + (s.strandAt (v.key l)).fseq

/-- The forwarded results of how many leader instructions the queue holds, those still to arrive among them (R374). -/
def State.fwdCount (s : State) (k : Nat) : Nat :=
  let p := (s.org.pairs.find k).getD { trailer := 0, asid := 0 }
  let here := p.fwd.map fun e => e.2.isn
  let coming := (s.ex.reqs.filter fun e => e.2.fwd.isSome && e.2.dest.strand / 2048 == k).map fun e => e.2.dest.isn
  let late := (s.ex.longs.filter fun e => e.2.fwd.isSome && e.2.dest.strand / 2048 == k).map fun e => e.2.dest.isn
  let wanted (ds : List (Dest × Option Nat)) : List Nat := (ds.filter fun d => d.2.isSome && d.1.strand / 2048 == k).map (·.1.isn)
  let queued := s.ex.arrays.flatMap fun e => e.2.queue.flatMap fun i => wanted i.dests
  let asked := s.dev.gops.flatMap fun e => e.2.flatMap fun o => match o.2 with | .read _ ds => wanted ds | _ => []
  (here ++ coming ++ late ++ queued ++ asked).eraseDups.length

/-- Count a forwarded result of each lane. -/
def bumpFwd (v : View) (act : List Nat) (s : State) : State :=
  act.foldl (fun s l => s.modStrand (v.key l) fun t => { t with fseq := t.fseq + 1 }) s

/-- Forward each lane's words from the leader to the trailer, or take them in the trailer, which waits for them (R301). -/
def forward (v : View) (act : List Nat) (isn : Nat) (words : Nat → List Word) (s : State) :
    Except Stop ((Nat → List Word) × State) :=
  if v.leads then
    if 1024 ≤ s.fwdCount v.pairKey then .error .stall
    else
      let put (m : AMap Fwd) (l : Nat) : AMap Fwd := m.put (fwdKey v s l) { isn := isn, words := (words l).map TWord.fresh }
      .ok (words, bumpFwd v act (s.modPair v.pairKey fun p => { p with fwd := act.foldl put p.fwd }))
  else if v.trails then
    let p := s.pairOf v
    if act.all fun l => p.fwd.has (fwdKey v s l) then
      let got (l : Nat) : List Word := match p.fwd.find (fwdKey v s l) with | some e => e.words.map (·.data) | none => []
      let drop (m : AMap Fwd) (l : Nat) : AMap Fwd := m.del (fwdKey v s l)
      .ok (got, bumpFwd v act (s.modPair v.pairKey fun p => { p with fwd := act.foldl drop p.fwd }))
    else .error .stall
  else .ok (words, s)

/-- Both words of a 64-bit value. -/
def twoWords (x : Word64) : List Word := [lo x, hi x]
/-- A 64-bit value of two words. -/
def ofTwo (ws : List Word) : Word64 := ws.getD 1 0 ++ ws.getD 0 0

/-- A nondeterministic input that the active lanes take at issue: recorded or replayed (R311, R312), and forwarded from the leader of
a core pair to its trailer (R301). One that is logged or forwarded waits while its group speculates, since a rollback could not take it
back (R242: only time differs; log 30). Where the log has room for some lanes alone, the instruction keeps what it has taken and waits. -/
def takeInput (v : View) (kind isn : Nat) (act : List Nat) (val : Nat → Word64) (s : State) : Except Stop ((Nat → Word64) × State) := do
  if s.ex.specs.has v.gk && (v.leads || v.trails || v.ctx.vmode != 0) then throw .stall
  if v.trails then
    let (w, s) ← forward v act isn (fun l => twoWords (val l)) s
    return (fun l => ofTwo (w l), if (s.ctxNow v).vmode == 0 then s else act.foldl (fun s l => s.countInput (v.key l)) s)
  else
    let (m, s) ← logInputs v kind (v.grp.run.inputs.getD (act.map fun l => (l, val l, false))) s
    if !allTaken m then throw (.hold (s.modGroup v.gk fun g => { g with run := { g.run with inputs := some m } }))
    let (_, s) ← forward v act isn (fun l => twoWords (takenAt m l)) s
    return (takenAt m, if v.grp.run.inputs.isNone then s else s.modGroup v.gk fun g => { g with run := { g.run with inputs := none } })

/-- Set a team's irrevocable flag as an irrevocable operation is performed (R298). In a core pair the leader performs the operation for both
teams (R302). -/
def State.setIrrevocable (s : State) (k : Nat) : State :=
  let set (k : Nat) (s : State) : State := s.modTeam k fun t => { t with irrevocable := true }
  match (s.ex.teams.find k).bind (·.pair) with
  | some (true, p) => set p (set k s)
  | some (false, _) => s
  | none => set k s

end Sys2Proof.Machine
end

