-- ==== Sys2Proof/Machine/Special.lean ====
section
/-! DEFINITION. Special registers (R133 to R135), TRAP and SWI (R292, R293), frame addresses (R138, R142) and FEATQ (R326). -/

namespace Sys2Proof.Machine

/-! ### Special registers -/

/-- Whether a special register has 64 bits (Table 7.2). -/
def specialWide (n : Nat) : Bool := n == 0x00 || n == 0x0E || n == 0x1A || n == 0x1B || n == 0x1C

/-- The partition of a view. -/
def State.partOf (s : State) (v : View) : Partition := (s.org.parts.find v.grid.part).getD {}

/-- Live splits of a group (Table 7.4, R247). A handler's run is that of the interrupted split, with those of its lanes that raised active (R289), so
the interrupted split counts as the splits into which the handler has divided. -/
def Group.liveSplits (g : Group) : Nat :=
  match g.saved with
  | none => g.splits.length
  | some sv => ((sv.splits.eraseIdx sv.idx).filter fun sp => sp.mask != 0).length + Nat.max g.splits.length ((sv.splits[sv.idx]?).any fun sp => sp.mask != 0).toNat

/-- %core, %cluster and %die of an executor; the spec gives Helm cores no %core and no %cluster (log 33). -/
def coreNumbers (core : Nat) : Word × Word × Word :=
  if core < 640 then (BitVec.ofNat 32 core, BitVec.ofNat 32 (core / 16), BitVec.ofNat 32 (core / 160))
  else (lo (Config.freeWord core), hi (Config.freeWord core), BitVec.ofNat 32 ((core - 640) / 4))

/-- %pstat (Table 7.4). -/
def pstat (v : View) : Word :=
  BitVec.ofNat 32 (v.grp.liveSplits * 256 + (if v.trails then 32 else 0) + v.grid.hdr.prot * 8 + (if v.sup = 0 then 0 else 2)
    + (if v.grp.hm then 1 else 0))

/-- The value of a special register as a lane sees it (Table 7.2). -/
def specialValue (v : View) (s : State) (l n : Nat) : Word64 :=
  let w (x : Word) : Word64 := x.setWidth 64
  let nat (x : Nat) : Word64 := BitVec.ofNat 64 x
  match n with
  | 0x00 => nat s.dev.clock
  | 0x01 => nat ((v.rank l).getD 0)
  | 0x02 => nat l
  | 0x03 => nat (v.gk % 256)
  | 0x04 => nat v.team.num
  | 0x05 => nat v.grid.num
  | 0x06 => w (coreNumbers v.core).1
  | 0x07 => w (coreNumbers v.core).2.1
  | 0x08 => w (coreNumbers v.core).2.2
  | 0x09 => nat v.grid.hdr.level
  | 0x0A => nat (v.asid * 65536 + v.ctx.num)
  | 0x0B => nat v.grid.part
  | 0x0C => w (s.strandAt (v.key l)).fmode
  | 0x0D => w (pstat v)
  | 0x0E => nat (((s.partOf v).free.map (·.2)).sum)
  | 0x0F => w (AMap.get {} (s.partOf v).qs v.grid.queue).wake
  | 0x10 => w v.ctx.clamps
  | 0x18 => w v.grp.cause
  | 0x19 => w v.grp.causebits
  | 0x1A => v.grp.epc
  | 0x1B => v.grp.tval
  | 0x1C => v.team.trapent
  | _ => 0

/-- MOVS (R134): a read of %clock is a nondeterministic input (R311) and is forwarded in a core pair (R301). -/
def execMovs (x : FD) (num : BitVec 8) (s : State) : Result := runBody s fun v s => do
  let n := num.toNat
  let wide := specialWide n
  let (act, _) ← prologue v s x.g [] [(x.d, wide)]
  if n = 0 then
    let (val, s) ← takeInput v 0 s.nextId act (fun l => specialValue v s l n) s
    return writeDest v act x.d (fun l => (twoWords (val l), false)) s
  else return writeDest v act x.d (fun l => (wordsOf wide (specialValue v s l n), false)) s

/-- Whether MOVSW may not name a register: read-only, or RW(H) outside handler mode (R135). -/
def movswBad (v : View) (n : Nat) : Bool :=
  !(n == 0x0C || n == 0x0F || n == 0x10 || (0x18 ≤ n && n ≤ 0x1B)) || (0x18 ≤ n && n ≤ 0x1B && !v.grp.hm)

/-- Write a register that is held per group or wider (R135): W1C for %wake, else the highest lane's value. -/
def writeSpecial (v : View) (n : Nat) (any : Word) (top : Word64) (s : State) : State :=
  match n with
  | 0x0F => s.modPart v.grid.part fun p => { p with qs := p.qs.modify v.grid.queue fun q => { q with wake := q.wake &&& ~~~any } }
  | 0x10 => s.modCtx v.asid fun c => { c with clamps := lo top }
  | 0x18 => s.modGroup v.gk fun g => { g with cause := lo top &&& 0x1F }
  | 0x19 => s.modGroup v.gk fun g => { g with causebits := lo top }
  | 0x1A => s.modGroup v.gk fun g => { g with epc := top }
  | 0x1B => s.modGroup v.gk fun g => { g with tval := top }
  | _ => s

/-- MOVSW (R135). -/
def execMovsw (x : FS) (num : BitVec 8) (s : State) : Result := runBody s fun v s => do
  let n := num.toNat
  let wide := specialWide n
  if n = 0x10 && v.sup = 0 && !movswBad v n then throw (failAll 2 0 v.lanes)
  let val (l : Nat) : Word64 := (valR v s l x.a wide).1
  let badMode (ls : List Nat) : List (Nat × Nat × Word64) :=
    (ls.filter fun l => n == 0x0C && !srcPoison v s l (x.a.use wide) && decide (4 < (val l).toNat % 8)).map fun l => (l, 3, 0)
  let (act, cs) ← prologue v s x.g [x.a.use wide] [] (movswBad v n) 
    (own := fun ls => poisonCauses v s ls [x.a.use wide] ++ badMode ls)
  checkCauses (cs ++ poisonCauses v s act [x.a.use wide] ++ badMode act)
  if n = 0x0C then
    return popQueues v [x.a.use wide] (act.foldl (fun s l => s.modStrand (v.key l) fun t => { t with fmode := lo (val l) &&& 0x1F07 }) s)
  else
    match act.getLast? with
    | none => return popQueues v [x.a.use wide] s
    | some h => return popQueues v [x.a.use wide] (writeSpecial v n (act.foldl (fun m l => m ||| lo (val l)) 0) (val h) s)

/-! ### TRAP and SWI -/

/-- TRAP (R292): it is performed and raises SOFT, so %epc holds the next instruction (R288); with no active lane it does nothing. -/
def execTrap (g : Guard) (imm : Word) (s : State) : Result :=
  match s.view with
  | none => .fault .noExecutor
  | some v =>
    match prologue v s g [] [] with
    | .error .stall => .next s.idle
    | .error (.hold t) => .next t.idle
    | .error (.fail f) => .next (raiseNow v f s).idle
    | .error (.failIn t f) => .next (raiseNow v f t).idle
    | .ok (act, _) =>
      if act.isEmpty then .next (advance v (v.nextPc s) s).idle
      else if s.ex.specs.has v.gk then .next s.idle
      else
        .next (raise v { cause := 20, tval := imm.setWidth 64, lanes := lanesOf act, epc := some (v.nextPc s) } true
          (advance v (v.nextPc s) s)).idle

/-- SWI (R293): the bit is set once if any lane is active; it waits for a release fence (R241). -/
def execSwi (g : Guard) (helm : Bool) (bit : BitVec 5) (queue : BitVec 6) (s : State) : Result := runBody s fun v s => do
  let (act, _) ← prologue v s g [] []
  if act.isEmpty || v.trails then return s
  if s.ex.fences.any (fun e => e.2.gk == v.gk && e.2.rel) then throw .stall
  let m : Word := 1#32 <<< bit.toNat
  if helm then
    let k := (s.partOf v).helm.headD 0
    return s.modDev fun d => { d with helm := d.helm.put k { AMap.get {} d.helm k with wake := (AMap.get {} d.helm k).wake ||| m, wakeIrq := true } }
  else
    return s.modPart v.grid.part fun p => { p with qs := p.qs.put queue.toNat { AMap.get {} p.qs queue.toNat with wake := (AMap.get {} p.qs queue.toNat).wake ||| m } }

/-! ### Frame addresses -/

/-- The frame of a level of a grid's display: its base and declared size; none beyond the grid's level (R138). -/
def frameOf (g : Grid) (k : Nat) : Option (Word64 × Nat) :=
  if g.hdr.level < k then none else some (g.display.getD k 0, g.fsizes.getD k 0)

/-- %tval of a frame-space cause: k × 2^29 + (off mod 2^29). -/
def frameTval (k : Nat) (off : Int) : Word64 := BitVec.ofNat 64 (k * 2 ^ 29 + (off % 2 ^ 29).toNat)

/-- FADDR (R142): one past the end is allowed. -/
def execFaddr (x : FDS) (off : Word) (s : State) : Result := runBody s fun v s => do
  let at_ (l : Nat) : Nat × Int :=
    let fa := (lo (valR v s l x.a false).1).toNat
    (fa / 2 ^ 29, (fa % 2 ^ 29 : Nat) + off.toInt)
  let bad (l : Nat) : Option (Nat × Nat × Word64) :=
    let (k, o) := at_ l
    match frameOf v.grid k with
    | none => some (l, 7, frameTval k o)
    | some (_, n) => if o < 0 || (n : Int) < o then some (l, 9, frameTval k o) else none
  let own (ls : List Nat) : List (Nat × Nat × Word64) := poisonCauses v s ls [x.a.use] ++ ls.filterMap bad
  let (act, cs) ← prologue v s x.g [x.a.use] [(x.d, true)] (isQueue x.a.reg.toNat) (own := own) (shown := [])
  checkCauses (cs ++ own act)
  let val (l : Nat) : Word64 :=
    let (k, o) := at_ l
    match frameOf v.grid k with
    | some (b, _) => b + BitVec.ofInt 64 o
    | none => 0
  return writeDest v act x.d (fun l => (twoWords (val l), false)) s

/-! ### FEATQ -/

/-- FEATQ (R326). -/
def execFeatq (g : Guard) (d : Reg) (k : BitVec 4) (s : State) : Result := runBody s fun v s =>
  computeAtIssue g [] d false (fun v s _ _ => { val := ((s.partOf v).features.getD k.toNat 0).setWidth 64 }) (v := v) (s := s)

end Sys2Proof.Machine
end

