-- ==== Sys2Proof/Machine/Float.lean ====
section
/-! DEFINITION. The floating-point formats and the exact arithmetic behind their rounding (R157 to R161, R184 to R189). A finite
value is a sign, a natural significand and an exponent of two. -/

namespace Sys2Proof.Machine

/-- A binary format: exponent bits and fraction bits (Table 9.2). -/
structure FFmt where
  eb : Nat
  mb : Nat
deriving DecidableEq, Repr

/-- binary16. -/
def fmt16 : FFmt := ⟨5, 10⟩
/-- bfloat16. -/
def fmtB16 : FFmt := ⟨8, 7⟩
/-- binary32. -/
def fmt32 : FFmt := ⟨8, 23⟩
/-- binary64. -/
def fmt64 : FFmt := ⟨11, 52⟩

/-- The format of a floating-point type's element. -/
def fmtOf (t : OpType) : FFmt :=
  match t with
  | .f16 | .f16x2 => fmt16
  | .bf16 | .bf16x2 => fmtB16
  | .f64 => fmt64
  | _ => fmt32

/-- The bias. -/
def FFmt.bias (f : FFmt) : Nat := 2 ^ (f.eb - 1) - 1
/-- The exponent of the smallest normal value. -/
def FFmt.emin (f : FFmt) : Int := 1 - f.bias
/-- The width in bits. -/
def FFmt.width (f : FFmt) : Nat := f.eb + f.mb + 1
/-- The sign bit's weight. -/
def FFmt.signBit (f : FFmt) : Nat := 2 ^ (f.eb + f.mb)
/-- +∞. -/
def FFmt.inf (f : FFmt) : Nat := (2 ^ f.eb - 1) * 2 ^ f.mb
/-- The canonical NaN. -/
def FFmt.qnan (f : FFmt) : Nat := f.inf + 2 ^ (f.mb - 1)
/-- The largest finite value. -/
def FFmt.maxFin (f : FFmt) : Nat := f.inf - 1
/-- 1.0. -/
def FFmt.one (f : FFmt) : Nat := f.bias * 2 ^ f.mb
/-- Bits with a sign. -/
def FFmt.signed (f : FFmt) (s : Bool) (b : Nat) : Nat := if s then f.signBit + b else b
/-- The sign of bits. -/
def FFmt.sign (f : FFmt) (b : Nat) : Bool := b / f.signBit % 2 == 1
/-- Bits without their sign. -/
def FFmt.mag (f : FFmt) (b : Nat) : Nat := b % f.signBit
/-- A NaN. -/
def FFmt.isNaN (f : FFmt) (b : Nat) : Bool := decide (f.inf < f.mag b)
/-- A signalling NaN. -/
def FFmt.isSNaN (f : FFmt) (b : Nat) : Bool := f.isNaN b && b / 2 ^ (f.mb - 1) % 2 == 0
/-- A NaN made quiet, sign and payload kept. -/
def FFmt.quiet (f : FFmt) (b : Nat) : Nat := if b / 2 ^ (f.mb - 1) % 2 == 1 then b else b + 2 ^ (f.mb - 1)

/-- A number: infinite, or finite with sign, significand and exponent. -/
inductive Num where
  | inf (s : Bool)
  | fin (s : Bool) (m : Nat) (e : Int)
deriving DecidableEq, Repr, Inhabited

/-- The number of bits that are no NaN (R159: subnormals are kept). -/
def FFmt.num (f : FFmt) (b : Nat) : Num :=
  let s := f.sign b
  let x := f.mag b / 2 ^ f.mb
  let m := b % 2 ^ f.mb
  if x = 2 ^ f.eb - 1 then .inf s
  else if x = 0 then .fin s m (f.emin - f.mb)
  else .fin s (m + 2 ^ f.mb) (f.emin - f.mb + (x - 1 : Nat))

/-- The result of an element: bits and exceptions. -/
abbrev FRes := Nat × BitVec 5

/-- Whether the discarded part rounds the magnitude up: the kept value, the part below it against half (R36). -/
def roundsUp (rm : Rounding) (s odd : Bool) (half rest : Bool) : Bool :=
  match rm with
  | .rz => false
  | .rd => s && (half || rest)
  | .ru => !s && (half || rest)
  | .rna => half
  | .rn | .rdyn => half && (rest || odd)

/-- m × 2^(-k) rounded to an integer, and whether anything was discarded. -/
def roundShift (rm : Rounding) (s : Bool) (m : Nat) (k : Int) : Nat × Bool :=
  if k ≤ 0 then (m * 2 ^ (-k).toNat, false)
  else if (Nat.log2 m : Int) + 2 < k then
    (if roundsUp rm s false false (m != 0) then 1 else 0, m != 0)
  else
    let d := k.toNat
    let n := m / 2 ^ d
    let half := m / 2 ^ (d - 1) % 2 == 1
    let rest := m % 2 ^ (d - 1) != 0
    (if roundsUp rm s (n % 2 == 1) half rest then n + 1 else n, half || rest)

/-- The result of an overflow (R161, IEEE 754). -/
def FFmt.overflow (f : FFmt) (rm : Rounding) (s : Bool) : Nat :=
  f.signed s (match rm with
    | .rz => f.maxFin
    | .rd => if s then f.inf else f.maxFin
    | .ru => if s then f.maxFin else f.inf
    | _ => f.inf)

/-- Round an exact value to a format, with its exceptions: underflow is detected after rounding and raised only with inexact
(R161). -/
def FFmt.round (f : FFmt) (rm : Rounding) (s : Bool) (m : Nat) (e : Int) : FRes :=
  if m = 0 then (f.signed s 0, 0)
  else
    let top : Int := e + (Nat.log2 m : Int)
    if (f.bias : Int) < top then (f.overflow rm s, fOF ||| fNX)
    else
      let q : Int := max (top - f.mb) (f.emin - f.mb)
      let (n, nx) := roundShift rm s m (q - e)
      let tiny : Bool := top < f.emin && (top < f.emin - 1 || (roundShift rm s m (top - f.mb - e)).1 < 2 ^ (f.mb + 1))
      if n < 2 ^ f.mb then (f.signed s n, if nx then fNX ||| fUF else 0)
      else
        let (n, q) := if n = 2 ^ (f.mb + 1) then (2 ^ f.mb, q + 1) else (n, q)
        let x := (q - (f.emin - f.mb) + 1).toNat
        if 2 ^ f.eb - 1 ≤ x then (f.overflow rm s, fOF ||| fNX)
        else (f.signed s (x * 2 ^ f.mb + n % 2 ^ f.mb), flagIf nx fNX ||| flagIf (nx && tiny) fUF)

/-- A number rounded; ±∞ is exact. -/
def FFmt.ofNum (f : FFmt) (rm : Rounding) : Num → FRes
  | .inf s => (f.signed s f.inf, 0)
  | .fin s m e => f.round rm s m e

/-- .sat (R184): clamp to +0 … 1.0; a NaN or −0 gives +0. -/
def FFmt.sat (f : FFmt) (b : Nat) : Nat :=
  if f.isNaN b || f.sign b then 0 else if f.one < b then f.one else b

/-- The first NaN of some operands made quiet, with invalid where one signals; none where no operand is a NaN (R184). -/
def FFmt.nanOf (f : FFmt) (ops : List Nat) : Option FRes :=
  (ops.find? f.isNaN).map fun n => (f.quiet n, flagIf (ops.any f.isSNaN) fNV)

/-! ### Sums and products -/

/-- The integer of a finite value at an exponent no larger than its own. -/
def scaled (s : Bool) (m : Nat) (e at_ : Int) : Int := let v : Int := m * 2 ^ (e - at_).toNat; if s then -v else v

/-- The exact sum of two finite values; an exact zero from opposite signs is +0, or −0 under .rd (R184). -/
def sumFin (rm : Rounding) (s1 : Bool) (m1 : Nat) (e1 : Int) (s2 : Bool) (m2 : Nat) (e2 : Int) : Num :=
  let e := min e1 e2
  let t := scaled s1 m1 e1 e + scaled s2 m2 e2 e
  if t = 0 then .fin (if s1 == s2 then s1 else rm == .rd) 0 e
  else .fin (decide (t < 0)) t.natAbs e

/-- a + b on numbers, none where it is invalid. -/
def addNum (rm : Rounding) : Num → Num → Option Num
  | .inf s, .inf t => if s == t then some (.inf s) else none
  | .inf s, .fin .. => some (.inf s)
  | .fin .., .inf t => some (.inf t)
  | .fin s1 m1 e1, .fin s2 m2 e2 => some (sumFin rm s1 m1 e1 s2 m2 e2)

/-- a × b on numbers, none where it is 0 × ∞. -/
def mulNum : Num → Num → Option Num
  | .inf s, .inf t => some (.inf (s != t))
  | .inf s, .fin t m _ => if m = 0 then none else some (.inf (s != t))
  | .fin s m _, .inf t => if m = 0 then none else some (.inf (s != t))
  | .fin s m e, .fin t n d => some (.fin (s != t) (m * n) (e + d))

/-- A result or the canonical NaN with invalid. -/
def FFmt.orInvalid (f : FFmt) (rm : Rounding) : Option Num → FRes
  | some x => f.ofNum rm x
  | none => (f.qnan, fNV)

/-- FADD (R184). -/
def FFmt.add (f : FFmt) (rm : Rounding) (a b : Nat) : FRes :=
  match f.nanOf [a, b] with
  | some r => r
  | none => f.orInvalid rm (addNum rm (f.num a) (f.num b))

/-- The bits with the sign inverted. -/
def FFmt.negate (f : FFmt) (b : Nat) : Nat := if f.sign b then b - f.signBit else b + f.signBit

/-- FSUB (R184). -/
def FFmt.sub (f : FFmt) (rm : Rounding) (a b : Nat) : FRes :=
  match f.nanOf [a, b] with
  | some r => r
  | none => f.orInvalid rm (addNum rm (f.num a) (f.num (f.negate b)))

/-- FMUL (R184). -/
def FFmt.mul (f : FFmt) (rm : Rounding) (a b : Nat) : FRes :=
  match f.nanOf [a, b] with
  | some r => r
  | none => f.orInvalid rm (mulNum (f.num a) (f.num b))

/-- FFMA (R184): one rounding; 0 × ∞ is invalid even where c is a NaN. -/
def FFmt.fma (f : FFmt) (rm : Rounding) (a b c : Nat) : FRes :=
  let bad : Bool := !f.isNaN a && !f.isNaN b && (mulNum (f.num a) (f.num b)).isNone
  match f.nanOf [a, b, c] with
  | some r => (r.1, r.2 ||| flagIf bad fNV)
  | none => f.orInvalid rm ((mulNum (f.num a) (f.num b)).bind fun p => addNum rm p (f.num c))

/-! ### Comparisons and the number rule -/

/-- A comparison key of bits that are no NaN: values rise with it, −0 just below +0 (R185). -/
def FFmt.key (f : FFmt) (b : Nat) : Int := if f.sign b then -(f.mag b : Int) - 1 else f.mag b

/-- The smaller or larger of two that are no NaN. -/
def FFmt.pick (f : FFmt) (large : Bool) (a b : Nat) : Nat := if (decide (f.key a < f.key b)) == large then b else a

/-- FMIN and FMAX: the number rule (R122, R185). -/
def FFmt.minMax (f : FFmt) (large : Bool) (a b : Nat) : FRes :=
  let nv := flagIf (f.isSNaN a || f.isSNaN b) fNV
  (if f.isNaN a && f.isNaN b then f.qnan else if f.isNaN a then b else if f.isNaN b then a else f.pick large a b, nv)

/-- FMINM and FMAXM (R185). -/
def FFmt.minMaxM (f : FFmt) (large : Bool) (a b : Nat) : FRes :=
  match f.nanOf [a, b] with
  | some r => r
  | none => (f.pick large a b, 0)

/-- The value order of two numbers that are no NaN: −0 equals +0. -/
def FFmt.cmp (f : FFmt) (a b : Nat) : Ordering :=
  let v (x : Nat) : Int := if f.sign x then -(f.mag x : Int) else f.mag x
  compare (v a) (v b)

/-- FSETP's condition and exceptions (R37, R187). -/
def FFmt.cond (f : FFmt) (c : Cond) (a b : Nat) : Bool × BitVec 5 :=
  let un := f.isNaN a || f.isNaN b
  let o := f.cmp a b
  let ord (p : Bool) : Bool := !un && p
  let r : Bool := match c with
    | .eq => ord (o == .eq) | .ne => ord (o != .eq) | .lt => ord (o == .lt) | .le => ord (o != .gt)
    | .gt => ord (o == .gt) | .ge => ord (o != .lt) | .num => !un | .nan => un
    | .equ => un || o == .eq | .neu => un || o != .eq | .ltu => un || o == .lt | .leu => un || o != .gt
    | .gtu => un || o == .gt | .geu => un || o != .lt
  let loud : Bool := match c with | .lt | .le | .gt | .ge => un | _ => f.isSNaN a || f.isSNaN b
  (r, flagIf loud fNV)

/-- FCLASS (R186). -/
def FFmt.classOf (f : FFmt) (b : Nat) : Nat :=
  let s := f.sign b
  let m := f.mag b
  if f.isNaN b then (if f.isSNaN b then 8 else 9)
  else if m = f.inf then (if s then 0 else 7)
  else if m = 0 then (if s then 3 else 4)
  else if m < 2 ^ f.mb then (if s then 2 else 5)
  else if s then 1 else 6

/-! ### Integral rounding, scaling, division, roots (R188, R189) -/

/-- FRND: round to an integral value, no inexact. -/
def FFmt.rnd (f : FFmt) (rm : Rounding) (a : Nat) : FRes :=
  match f.nanOf [a] with
  | some r => r
  | none =>
    match f.num a with
    | .inf _ => (a, 0)
    | .fin s m e => if m = 0 || 0 ≤ e then (a, 0) else (f.signed s (f.round .rz false (roundShift rm s m (-e)).1 0).1, 0)

/-- FSCALE: a × 2^b rounded once. -/
def FFmt.scale (f : FFmt) (rm : Rounding) (a : Nat) (b : Int) : FRes :=
  match f.nanOf [a] with
  | some r => r
  | none =>
    match f.num a with
    | .inf _ => (a, 0)
    | .fin s m e => if m = 0 then (a, 0) else f.round rm s m (e + b)

/-- A quotient with a sticky bit below it: m × 2^e = floor(n ÷ d) and whether anything remains, with at least p + 3 bits. -/
def quotient (p n d : Nat) : Nat × Int :=
  let k := p + 3 + Nat.log2 d - Nat.log2 n
  let q := n * 2 ^ k / d
  (2 * q + (if n * 2 ^ k % d = 0 then 0 else 1), -(k : Int) - 1)

/-- FDIV (Table 10.6). -/
def FFmt.div (f : FFmt) (rm : Rounding) (a b : Nat) : FRes :=
  match f.nanOf [a, b] with
  | some r => r
  | none =>
    match f.num a, f.num b with
    | .inf _, .inf _ => (f.qnan, fNV)
    | .inf s, .fin t _ _ => (f.signed (s != t) f.inf, 0)
    | .fin s _ _, .inf t => (f.signed (s != t) 0, 0)
    | .fin s m e, .fin t n d =>
      if n = 0 then (if m = 0 then (f.qnan, fNV) else (f.signed (s != t) f.inf, fDZ))
      else if m = 0 then (f.signed (s != t) 0, 0)
      else let (q, k) := quotient f.mb m n; f.round rm (s != t) q (e - d + k)

/-- The floor of the square root of a number below 4^n. -/
def isqrt (n m : Nat) : Nat :=
  (List.range n).foldl (fun r i => let t := r + 2 ^ (n - 1 - i); if t * t ≤ m then t else r) 0

/-- A finite positive value with an even exponent. -/
def evenExp (m : Nat) (e : Int) : Nat × Int := if e % 2 = 0 then (m, e) else (2 * m, e - 1)

/-- FSQRT (Table 10.6). -/
def FFmt.sqrt (f : FFmt) (rm : Rounding) (a : Nat) : FRes :=
  match f.nanOf [a] with
  | some r => r
  | none =>
    match f.num a with
    | .inf s => if s then (f.qnan, fNV) else (a, 0)
    | .fin s m e =>
      if m = 0 then (a, 0) else if s then (f.qnan, fNV) else
      let (m, e) := evenExp m e
      let k := f.mb + 4
      let n := m * 4 ^ k
      let r := isqrt (Nat.log2 n / 2 + 1) n
      f.round rm false (2 * r + (if r * r = n then 0 else 1)) (e / 2 - k - 1)

/-- FRCP (Table 10.6). -/
def FFmt.rcp (f : FFmt) (rm : Rounding) (a : Nat) : FRes :=
  match f.nanOf [a] with
  | some r => r
  | none =>
    match f.num a with
    | .inf s => (f.signed s 0, 0)
    | .fin s m e =>
      if m = 0 then (f.signed s f.inf, fDZ) else let (q, k) := quotient f.mb 1 m; f.round rm s q (k - e)

/-- FRSQ (Table 10.6). -/
def FFmt.rsq (f : FFmt) (rm : Rounding) (a : Nat) : FRes :=
  match f.nanOf [a] with
  | some r => r
  | none =>
    match f.num a with
    | .inf s => if s then (f.qnan, fNV) else (0, 0)
    | .fin s m e =>
      if m = 0 then (f.signed s f.inf, fDZ) else if s then (f.qnan, fNV) else
      let (m, e) := evenExp m e
      let k := f.mb + 4 + Nat.log2 m
      let n := 4 ^ k / m
      let r := isqrt (k + 1) n
      f.round rm false (2 * r + (if r * r * m = 4 ^ k then 0 else 1)) (-(e / 2) - k - 1)

end Sys2Proof.Machine
end

