-- ==== Sys2Proof/Machine/Tapered.lean ====
section
/-! DEFINITION. Values across formats (R160), the tapered formats (R162 to R165), and reading and writing in a format slot
(R166 to R168). -/

namespace Sys2Proof.Machine

/-- A value of any format: NaR, a NaN with its sign, fraction, fraction width and whether it signals, or a number. -/
inductive CVal where
  | nar
  | nan (s : Bool) (frac mb : Nat) (sig : Bool)
  | num (n : Num)
deriving DecidableEq, Repr, Inhabited

/-- The value of a format's bits. -/
def FFmt.value (f : FFmt) (b : Nat) : CVal :=
  if f.isNaN b then .nan (f.sign b) (b % 2 ^ f.mb) f.mb (f.isSNaN b) else .num (f.num b)

/-- The value of an integer. -/
def intVal (x : Int) : CVal := .num (.fin (decide (x < 0)) x.natAbs 0)

/-- A value times 2^k. -/
def CVal.scale (k : Int) : CVal → CVal
  | .num (.fin s m e) => .num (.fin s m (e + k))
  | x => x

/-- Convert a value to a floating-point format (R160): NaR gives the canonical NaN. -/
def FFmt.ofVal (f : FFmt) (rm : Rounding) : CVal → FRes
  | .nar => (f.qnan, 0)
  | .nan s frac mb sig =>
    let fr := if mb ≤ f.mb then frac * 2 ^ (f.mb - mb) else frac / 2 ^ (mb - f.mb)
    (f.quiet (f.signed s (f.inf + fr)), flagIf sig fNV)
  | .num n => f.ofNum rm n

/-- A number rounded to an integer, none for ±∞, and whether it was inexact. -/
def toInt (rm : Rounding) (s : Bool) (m : Nat) (e : Int) : Int × Bool :=
  if 1100 < e then (if s then -2 ^ 80 else 2 ^ 80, false)
  else let (n, nx) := roundShift rm s m (-e); (if s then -(n : Int) else n, nx)

/-- Convert a value to an integer range: .sat turns the invalid of a value out of range into inexact (R170, Table 9.6). -/
def toRange (rm : Rounding) (sat : Bool) (lo hi : Int) : CVal → Int × BitVec 5
  | .nar | .nan .. => (0, fNV)
  | .num (.inf s) => (if s then lo else hi, if sat then fNX else fNV)
  | .num (.fin s m e) =>
    let (t, nx) := toInt rm s m e
    if t < lo then (lo, if sat then fNX else fNV)
    else if hi < t then (hi, if sat then fNX else fNV)
    else (t, flagIf nx fNX)

/-! ### Tapered codes -/

/-- The value of a positive code (R162): significand and exponent. -/
def tfMag (n p : Nat) : Nat × Int :=
  let r := p / 2 ^ (n - 2) % 2
  let k := ((List.range (n - 1)).find? fun i => p / 2 ^ (n - 2 - i) % 2 != r).getD (n - 1)
  let m : Int := if r = 1 then k - 1 else -(k : Int)
  let rest := n - 2 - k
  let e := if 1 ≤ rest then p / 2 ^ (rest - 1) % 2 else 0
  let nf := rest - 1
  (2 ^ nf + p % 2 ^ nf, 2 * m + e - nf)

/-- tf_decode (R162). -/
def tfDecode (n v : Nat) : CVal :=
  if v = 0 then .num (.fin false 0 0)
  else if v = 2 ^ (n - 1) then .nar
  else
    let s := v / 2 ^ (n - 1) % 2 == 1
    let (m, e) := tfMag n (if s then 2 ^ n - v else v)
    .num (.fin s m e)

/-- The order of two positive dyadic values. -/
def cmpMag (a b : Nat × Int) : Ordering :=
  let e := min a.2 b.2
  compare (a.1 * 2 ^ (a.2 - e).toNat) (b.1 * 2 ^ (b.2 - e).toNat)

/-- The largest positive code whose value is at most a, which lies between minpos and maxpos. -/
def tfFloor (n : Nat) (a : Nat × Int) : Nat :=
  (List.range (2 ^ (n - 1) - 1)).foldl (fun c i => if cmpMag (tfMag n (i + 1)) a != .gt then i + 1 else c) 1

/-- The order of a and the middle of two values. -/
def cmpMid (a lo hi : Nat × Int) : Ordering :=
  let e := min lo.2 hi.2
  cmpMag (2 * a.1, a.2) (lo.1 * 2 ^ (lo.2 - e).toNat + hi.1 * 2 ^ (hi.2 - e).toNat, e)

/-- tf_encode (R165) with its exceptions. -/
def tfEncode (n : Nat) (rm : Rounding) (sat : Bool) (x : CVal) : FRes :=
  let maxc := 2 ^ (n - 1) - 1
  let fin (s : Bool) (p : Nat) : Nat := if s then 2 ^ n - p else p
  match x with
  | .nar => (2 ^ (n - 1), 0)
  | .nan _ _ _ sig => (2 ^ (n - 1), flagIf sig fNV)
  | .num (.inf s) => if sat then (fin s maxc, fOF ||| fNX) else (2 ^ (n - 1), fNV)
  | .num (.fin s m e) =>
    if m = 0 then (0, 0)
    else
      let a := (m, e)
      match cmpMag a (tfMag n maxc), cmpMag a (tfMag n 1) with
      | .gt, _ => (fin s maxc, fOF ||| fNX)
      | .eq, _ => (fin s maxc, 0)
      | _, .lt => (fin s 1, fUF ||| fNX)
      | _, .eq => (fin s 1, 0)
      | _, _ =>
        let lo := tfFloor n a
        if cmpMag (tfMag n lo) a == .eq then (fin s lo, 0)
        else
          let up : Bool := match rm with
            | .rz => false
            | .rd => s
            | .ru => !s
            | _ => match cmpMid a (tfMag n lo) (tfMag n (lo + 1)) with
              | .lt => false
              | .gt => true
              | .eq => lo % 2 == 1
          (fin s (if up then lo + 1 else lo), fNX)

/-! ### Format slots (Table 9.5) -/

/-- FMT. -/
def slotFmt (d : Word) : Nat := (d.extractLsb' 0 4).toNat
/-- SCALE. -/
def slotScale (d : Word) : Int := (d.extractLsb' 4 10).toInt
/-- PSAT. -/
def slotSat (d : Word) : Bool := d.getLsbD 14
/-- PRND. -/
def slotRm (d : Word) : Rounding :=
  match (d.extractLsb' 15 2).toNat with | 0 => .rn | 1 => .rz | 2 => .rd | _ => .ru
/-- Whether a descriptor is legal (R166). -/
def slotLegal (d : Word) : Bool := decide (slotFmt d < 7) && d.extractLsb' 17 15 == 0
/-- The bits that a code occupies in a register (Table 9.1). -/
def slotBits (d : Word) : Nat :=
  match slotFmt d with | 0 => 32 | 1 | 2 => 16 | 4 => 6 | _ => 8

/-- The value of a code without its scale. -/
def slotCode (d : Word) (b : Nat) : CVal :=
  let c := b % 2 ^ slotBits d
  match slotFmt d with
  | 0 => fmt32.value c
  | 1 => fmt16.value c
  | 2 => fmtB16.value c
  | 3 => tfDecode 8 c
  | 4 => tfDecode 6 c
  | 5 => intVal (BitVec.ofNat 8 c).toInt
  | _ => intVal c

/-- The value of a source in slot format (R167). -/
def slotValue (d : Word) (b : Nat) : CVal := (slotCode d b).scale (slotScale d)

/-- Encode into an IEEE format of a slot (Table 9.6). -/
def slotFloat (f : FFmt) (rm : Rounding) (sat : Bool) (x : CVal) : FRes :=
  let r := f.ofVal rm x
  match x with
  | .num (.inf s) => if sat then (f.signed s f.maxFin, fOF ||| fNX) else r
  | .num (.fin s _ _) => if sat && r.2 &&& fOF != 0 then (f.signed s f.maxFin, r.2) else r
  | _ => r

/-- Encode a result into a slot (R168). -/
def slotEncode (d : Word) (x : CVal) : FRes :=
  let y := x.scale (-slotScale d)
  let rm := slotRm d
  let sat := slotSat d
  match slotFmt d with
  | 0 => slotFloat fmt32 rm sat y
  | 1 => slotFloat fmt16 rm sat y
  | 2 => slotFloat fmtB16 rm sat y
  | 3 => tfEncode 8 rm sat y
  | 4 => tfEncode 6 rm sat y
  | 5 => let r := toRange rm sat (-128) 127 y; ((BitVec.ofInt 8 r.1).toNat, r.2)
  | _ => let r := toRange rm sat 0 255 y; ((BitVec.ofInt 8 r.1).toNat, r.2)

end Sys2Proof.Machine
end

