-- ==== Sys2Proof/Machine/Access.lean ====
section
/-! DEFINITION. Memory accesses: effective addresses (R86, R115), the unit that performs an access (R111, R116, R121), atomic
arithmetic (R121, R122), and the performing of a request in flight (R106 to R123). -/

namespace Sys2Proof.Machine

/-! ### Types -/

/-- The width of an access (Table 6.6). -/
def accWidth (t : OpType) : Nat :=
  match t with
  | .s8 | .z8 => 1
  | .s16 | .z16 | .f16 | .bf16 => 2
  | .s64 | .z64 | .f64 => 8
  | _ => 4

/-- The value of a load's words at a byte offset within the first (Table 6.6). -/
def loadValue (t : OpType) (ws : List Word) (byte : Nat) : Word64 :=
  if t.wide then ofTwo ws else fillOf t (((ws.getD 0 0) >>> (8 * (byte % 4))).setWidth 64)

/-- Merge the low bytes of a value into a word (R82). -/
def mergeWord (old data : Word) (byte width : Nat) : Word :=
  let m : Word := BitVec.ofNat 32 (2 ^ (8 * width) - 1) <<< (8 * (byte % 4))
  (old &&& ~~~m) ||| ((data <<< (8 * (byte % 4))) &&& m)

/-- The bits of words as one number. -/
def bitsOf (ws : List Word) : Nat := if ws.length = 2 then (ofTwo ws).toNat else (ws.getD 0 0).toNat
/-- The words of a number. -/
def wordsFrom (t : OpType) (n : Nat) : List Word := if t.wide then twoWords (BitVec.ofNat 64 n) else [BitVec.ofNat 32 n]

/-- Floating-point add of an atomic (R121): rounds to nearest even and sets no flag. -/
def atomFadd (f : FFmt) (a b : Nat) : Nat := (f.add .rn a b).1

/-- The new words of an atomic, none where nothing is written (R121, R122): data holds b, and for cas the compare and new values. -/
def atomResult (op : AtomOp) (t : OpType) (old data : List Word) : Option (List Word) :=
  let o := bitsOf old
  let n := if t.wide then 2 else 1
  let b := bitsOf (data.take n)
  let fp := t == .f32 || t == .f64
  let f := fmtOf t
  let w := if t.wide then 64 else 32
  let sg (x : Nat) : Int := if t.signed then (BitVec.ofNat w x).toInt else x
  match op with
  | .add => some (wordsFrom t (if fp then atomFadd f o b else o + b))
  | .min => some (wordsFrom t (if fp then (f.minMax false o b).1 else if sg b < sg o then b else o))
  | .max => some (wordsFrom t (if fp then (f.minMax true o b).1 else if sg o < sg b then b else o))
  | .and => some (wordsFrom t (o &&& b))
  | .or => some (wordsFrom t (o ||| b))
  | .xor => some (wordsFrom t (o ^^^ b))
  | .exch => some (wordsFrom t b)
  | .cas => if o = b then some (wordsFrom t (bitsOf (data.drop n))) else none

/-! ### Effective addresses -/

/-- Whether operand A may name an address in a space (R113). -/
def badAddress (sp : Space) (a : Src) : Bool :=
  match sp with
  | .g => 248 ≤ a.reg.toNat
  | .s => isQueue a.reg.toNat || 248 ≤ a.reg.toNat
  | .f => isQueue a.reg.toNat

/-- The use of an address operand: an even pair in space .g. -/
def addrUse (sp : Space) (a : Src) : Use := a.use (sp == .g)

/-- The size of a view's scratchpad allocation (R85). -/
def View.scratch (v : View) : Nat := scratchSize v.grid.hdr

/-- ea(l) of R115: a global VA, or an offset in the team's scratchpad; else the lowest-numbered cause with its %tval. -/
def effAddr (v : View) (s : State) (l : Nat) (sp : Space) (a : Src) (off : Word) (w : Nat) (writes : Bool) : Except (Nat × Word64) Word64 :=
  match sp with
  | .g =>
    let va := (valR v s l a true).1 + off.signExtend 64
    if va.toNat % w != 0 then .error (6, va) else if !canonical va then .error (8, va) else .ok va
  | .s =>
    let o := lo (valR v s l a false).1 + off
    if o.toNat % w != 0 then .error (6, o.setWidth 64)
    else if v.scratch < o.toNat + w then .error (9, o.setWidth 64) else .ok (o.setWidth 64)
  | .f =>
    let fa := (lo (valR v s l a false).1).toNat
    let k := fa / 2 ^ 29
    let o : Int := (fa % 2 ^ 29 : Nat) + off.toInt
    if o % w != 0 then .error (6, frameTval k o)
    else match frameOf v.grid k with
      | none => .error (7, frameTval k o)
      | some (base, n) =>
        if o < 0 || (n : Int) < o + w || (writes && o < 64) then .error (9, frameTval k o) else .ok (base + BitVec.ofInt 64 o)

/-- Whether an access hits its core's L1 (R106, R107): a store in any line that holds its address, a read where every word is there. -/
def l1Hits (v : View) (s : State) (va width : Nat) (store : Bool) : Bool :=
  if store then (s.l1Key v.core v.asid va).isSome else s.l1Hit v.core v.asid va width

/-- The translation of a global access (R68): a hit in the L1 is never translated, and is checked against the rights kept with its line
(R73), PERMISSION where it lacks one (log 5); every access that goes to the L2 is translated there. The pilot never uses the L1. The answer says whether
it was a hit. -/
def accessEntry (v : View) (va : Word64) (right : BitVec 3) (wide : Bool) (width : Nat) (s : State) : Except (Nat × Word64) (TEntry × Bool) × State :=
  let kept : Option L1Line :=
    if v.pilot || wide || !l1Hits v s (va57 va) width (right == rW) then none else (s.l1Key v.core v.asid (va57 va)).map s.l1Line
  match kept with
  | some l =>
    if l.rights &&& right == right then
      (.ok ({ asid := v.asid, part := v.grid.part, vpage := l.va / 128, size := 7, pa := l.pa, rights := l.rights, mt := l.mt, ipa := 0, ipaSize := 7 }, true), s)
    else (.error (9, va), s)
  | none => let (r, s) := s.translate (cacheOf v.core) v.asid va right; (r.map fun e => (e, false), s)

/-- One lane's access, translated, or found in the L1. -/
structure LaneAcc where
  lane : Nat
  va : Word64
  pa : Nat
  unit : AccUnit
  rights : BitVec 3
  hit : Bool := false
deriving Repr

/-- The unit that performs an access (R111, R116, R121, R146): a .nol1 access that misses is performed at the home slice (Table 6.2). -/
def unitOf (v : View) (s : State) (va : Word64) (mt : BitVec 2) (wide : Bool) (h : Hint) (width : Nat) (store : Bool) : AccUnit :=
  if v.pilot || wide || mt == 1 then .slice
  else if h == .nol1 && !l1Hits v s (va57 va) width store then .slice
  else .l1

/-- Resolve the lanes' addresses: the accesses, and the causes of the lanes that fault (R72, R115). -/
def resolve (v : View) (sp : Space) (wide : Bool) (h : Hint) (right : BitVec 3) (width : Nat) (remote : Bool) (ea : Nat → Except (Nat × Word64) Word64) :
    List Nat → State → (List LaneAcc × List (Nat × Nat × Word64)) × State
  | [], s => (([], []), s)
  | l :: ls, s =>
    match ea l with
    | .error (c, t) =>
      let ((as, cs), s) := resolve v sp wide h right width remote ea ls s
      ((as, (l, c, t) :: cs), s)
    | .ok va =>
      if sp == .s then
        let ((as, cs), s) := resolve v sp wide h right width remote ea ls s
        (({ lane := l, va := va, pa := v.team.scratchBase + va.toNat, unit := .scratch, rights := 7 } :: as, cs), s)
      else if remote then
        let ((as, cs), s) := resolve v sp wide h right width remote ea ls s
        (({ lane := l, va := va, pa := 0, unit := .l1, rights := 7 } :: as, cs), s)
      else
        match accessEntry v va right wide width s with
        | (.error (c, t), s) =>
          let ((as, cs), s) := resolve v sp wide h right width remote ea ls s
          ((as, (l, c, t) :: cs), s)
        | (.ok (e, hit), s) =>
          let acc : LaneAcc := { lane := l, va := va, pa := e.paOf (va57 va), unit := unitOf v s va e.mt wide h width (right == rW), rights := e.rights, hit := hit }
          let ((as, cs), s) := resolve v sp wide h right width remote ea ls s
          ((acc :: as, cs), s)

/-! ### Requests in flight -/

/-- The number of words of a request. -/
def Req.count (r : Req) : Nat := if r.width = 8 then 2 else 1
/-- The address of word i, in the unit's own terms. -/
def Req.wordAt (r : Req) (i : Nat) : Nat := r.addr / 4 * 4 + 4 * i
/-- Whether every event of a request has been performed. -/
def Req.performed (r : Req) : Bool := r.done
/-- Whether a request writes. -/
def Req.writes (r : Req) : Bool := r.kind != .load
/-- Whether a request reads for its strand. -/
def Req.reads (r : Req) : Bool := match r.kind with | .load | .atom _ | .red _ => true | .store => false
/-- Whether a request returns a value. -/
def Req.returns (r : Req) : Bool := match r.kind with | .load | .atom _ => true | _ => false
/-- Whether a request's words come from the leader of its core pair (R301). -/
def State.trailing (s : State) (r : Req) : Bool :=
  r.fwd.isSome && (match (s.ex.teams.find (r.dest.strand / 2048)).bind (·.pair) with | some (b, _) => !b | none => false)

/-- Whether two requests of one strand touch the same word. -/
def sameWord (a b : Req) : Bool :=
  ((a.unit == .scratch) == (b.unit == .scratch)) && decide (a.va / 4 < b.va / 4 + b.count) && decide (b.va / 4 < a.va / 4 + a.count)

/-- Whether a request must wait for an earlier one of its strand (R88, R114, R118, R235): an acquire, any access before a
release, which each write after a release fence is (R236), an access of the same word unless both are reads with the earlier at a home slice and this one in the L1, or an earlier
scratchpad access. -/
def waitsFor (r e : Req) : Bool :=
  e.acq || r.rel || r.fenced || (r.unit == .scratch && e.unit == .scratch)
    || (sameWord r e && !(r.kind == .load && e.kind == .load && r.unit == .l1 && e.unit == .slice))

/-- Whether a lane's write must wait for that of a lower lane of the same instruction: lanes write one word in ascending slot (R119),
and one unit performs the lanes of an atomic one at a time in ascending slot (R121). -/
def State.laneOrder (s : State) (r e : Req) : Bool :=
  e.dest.isn == r.dest.isn && e.core == r.core && e.unit == r.unit && r.writes && e.writes
    && match r.unit with
      | .scratch => true
      | .l1 => r.kind != .store || sameWord r e
      | .slice => if r.kind == .store then decide (r.addr / 4 < e.addr / 4 + e.count) && decide (e.addr / 4 < r.addr / 4 + r.count)
          else s.homeSlice r.addr == s.homeSlice e.addr

/-- Whether a QLD that issued earlier has still to read a lane's word that a request reads (R146). -/
def State.behindQld (s : State) (id : Nat) (r : Req) : Bool :=
  s.ex.qlds.any fun e => decide (e.1 < id) && e.2.gk == r.dest.gk && !e.2.got.has r.dest.lane
    && (match e.2.pas.find r.dest.lane with
      | some pa => r.addr / 4 ≤ pa / 4 && decide (pa / 4 < r.addr / 4 + r.count)
      | none => false)

/-! ### The words of the engines' accesses (R233) -/

/-- A range of words that an engine reads or writes: in the scratchpad allocation or in the virtual address space. -/
structure Span where
  scratch : Bool
  writes : Bool
  word : Nat
  count : Nat
deriving DecidableEq, Repr

/-- Whether a span and a range of words of a space meet. -/
def Span.meets (p : Span) (scratch : Bool) (word count : Nat) : Bool :=
  p.scratch == scratch && decide (word < p.word + p.count) && decide (p.word < word + count)

/-- The words of a copy request. -/
def CopyReq.total (r : CopyReq) : Nat := r.words * r.rows * r.planes

/-- The strided and packed addresses of word n (R93). -/
def CopyReq.sides (r : CopyReq) (n : Nat) : Nat × Nat :=
  let w := n % r.words
  let row := n / r.words % r.rows
  let pl := n / (r.words * r.rows)
  (((r.strided + pl * r.pstride + row * r.rstride + 4 * w : Int) % 2 ^ 64).toNat, (r.packed + 4 * n) % 2 ^ 64)

/-- The words that have not moved yet. -/
def CopyReq.unmoved (r : CopyReq) : List Nat := (List.range r.total).filter fun n => !r.moved.has n

/-- What a copy request has still to read, and all that it writes: a written global word is in order once the request is complete and the
L1's copies of it are gone (R100). -/
def CopyReq.spans (r : CopyReq) : List Span :=
  let at_ (scratch writes : Bool) (a : Nat) : Span :=
    { scratch := scratch, writes := writes, word := (if scratch then a else va57 (BitVec.ofNat 64 a)) / 4, count := 1 }
  let reads := r.unmoved.map fun n => match r.form with | .sg => at_ true false (r.sides n).2 | _ => at_ false false (r.sides n).1
  let writes := (List.range r.total).map fun n => match r.form with
    | .gs => at_ true true (r.sides n).2 | .sg => at_ false true (r.sides n).1 | .gg => at_ false true (r.sides n).2
  reads ++ writes

/-- The bits of an element as memory holds it (R206): of a slot's format, or a word moved as bits. -/
def elemBits (ty : OpType) (slot : Word) : Nat := if ty == .slot then slotBits slot else 32

/-- The address or offset of a byte of a row. -/
def TileDesc.rowAt (d : TileDesc) (i off : Nat) : Nat := ((d.base + i * d.stride + off : Int) % (if d.scratch then 2 ^ 32 else 2 ^ 64)).toNat

/-- The kind of an MMA (Table 11.4). -/
inductive MKind where
  | tapered | integer | half
deriving DecidableEq, Repr

/-- The kind and chunk size of two slot formats; none where ILLEGAL_OPERAND is raised. -/
def mmaKind (fa fb : Nat) : Option (MKind × Nat) :=
  if fa = 3 ∧ fb = 3 then some (.tapered, 32)
  else if fa = 4 ∧ fb = 4 then some (.tapered, 48)
  else if (fa = 5 ∨ fa = 6) ∧ (fb = 5 ∨ fb = 6) then some (.integer, 32)
  else if (fa = 1 ∧ fb = 1) ∨ (fa = 2 ∧ fb = 2) then some (.half, 8)
  else none

/-- The words that a chunk of a slot's format takes in a row. -/
def chunkWords (slot : Word) (chunk : Nat) : Nat := chunk * slotBits slot / 32

/-- The rows of an instruction's active lanes, with their lanes (R204). -/
def MInstr.rows (i : MInstr) : List (Nat × Nat) :=
  i.strands.flatMap fun e => if i.four then (List.range 4).map fun r => (4 * e.1 + r, e.1) else [(2 * e.1, e.1), (2 * e.1 + 1, e.1)]

/-- A span of words of a row, from byte off on. -/
def TileDesc.span (d : TileDesc) (writes : Bool) (off words row : Nat) : Span :=
  let a := d.rowAt row off
  { scratch := d.scratch, writes := writes, word := (if d.scratch then a else va57 (BitVec.ofNat 64 a)) / 4, count := words }

/-- What a matrix instruction has still to read or write of memory for one of its strands (R207, R214, R233). -/
def MInstr.spans (i : MInstr) (strand : Nat) : List Span :=
  let own := (i.rows.filter fun r => i.strands.find r.2 == some strand).map (·.1)
  match i.op with
  | .mload a ty slot => own.map (a.span false 0 (2 * elemBits ty slot))
  | .mstore a ty slot => own.map (a.span true 0 (2 * elemBits ty slot))
  | .mma a b sa sb k =>
    match mmaKind (slotFmt sa) (slotFmt sb) with
    | none => []
    | some (_, c) =>
      let j := i.chunks + (if i.fetched.isSome then 1 else 0)
      let side (d : TileDesc) (slot : Word) : Nat → Span := d.span false (4 * chunkWords slot c * j) (chunkWords slot c * (k / c - j))
      if k / c ≤ j then [] else own.map (side a sa) ++ (List.range 64).map (side b sb)
  | _ => []

/-- Whether an engine's access must come before a request of its strand (R235): before a release, and to the same word unless both
are reads, the engine's at a home slice and this one in an L1. -/
def Req.after (r : Req) (ps : List Span) : Bool :=
  if r.rel || r.fenced then !ps.isEmpty
  else ps.any fun p => p.meets (r.unit == .scratch) (r.va / 4) r.count && !(r.kind == .load && r.unit == .l1 && !p.writes)

/-- Whether a request stands behind copies of its strand, or behind accesses that the matrix unit has still to make for it (R233, R235). -/
def State.behindEngines (s : State) (id : Nat) (r : Req) : Bool :=
  (s.ex.copies.any fun e => decide (e.1 < id) && e.2.uid == r.dest.uid && !e.2.failed && r.after e.2.spans)
    || s.ex.mq.any fun e => e.2.any fun i => decide (i.isn < id) && i.strands.any (fun x => x.2 == r.dest.strand) && r.after (i.spans r.dest.strand)

/-- Whether something that a strand issued before must be performed before an engine's accesses of spans for it: a fence, an acquire, a release
that writes its core's words back (R100), and an access of one of their words, by the strand, or for it by the copy engine or the matrix unit (R88, R233,
R235); before the writes of an instruction that comes after a release fence (fenced), every earlier access (R236). -/
def State.heldFor (s : State) (id strand uid : Nat) (fenced : Bool) (ps : List Span) : Bool :=
  let meets (p : Span) : Bool := ps.any fun q => q.meets p.scratch p.word p.count
  (s.ex.fences.any fun e => decide (e.1 < id) && e.2.strands.contains strand)
    || (s.ex.reqs.any fun e => decide (e.1 < id) && e.2.dest.uid == uid && !e.2.performed
          && (fenced || e.2.acq || (e.2.rel && e.2.wide) || ps.any fun p => p.meets (e.2.unit == .scratch) (e.2.va / 4) e.2.count))
    || (s.ex.copies.any fun e => decide (e.1 < id) && e.2.uid == uid && !e.2.failed && (fenced || e.2.spans.any meets))
    || (s.ex.mq.any fun e => e.2.any fun i => decide (i.isn < id) && (i.spans strand).any fun p => fenced || meets p)

/-- Whether the engines have still to make accesses of a strand that come before a fence (R233, R241, log 43): copies and matrix instructions
that it issued earlier, of which an acquire waits for the reads alone. -/
def State.enginesBefore (s : State) (id : Nat) (rel : Bool) (k : Nat) : Bool :=
  (s.ex.copies.any fun e => decide (e.1 < id) && e.2.strand == k && !e.2.failed && (rel || !e.2.unmoved.isEmpty))
    || s.ex.mq.any fun e => e.2.any fun i => decide (i.isn < id) && (i.spans k).any fun p => rel || !p.writes

/-- Whether a load has been cancelled by a halt, or an access stopped in a context fault, to be reissued on resume (R295). -/
def State.cancelled (s : State) (r : Req) : Bool :=
  r.failed || r.kind == .load && ((s.ex.teams.find (r.dest.strand / 2048)).any (·.saved) || (s.org.ctxs.find r.asid).any fun c => c.halted && c.interrupt)

/-- Whether another access of the core stands between the read and the write of a sub-word store to the word (R82). -/
def State.betweenMerge (s : State) (id : Nat) (r : Req) : Bool :=
  s.ex.reqs.any fun e => e.1 != id && e.2.core == r.core && e.2.sub && e.2.unit == .slice && !e.2.done && e.2.got.any (·.isSome)
    && r.unit != .scratch && decide (r.addr / 4 ≤ e.2.addr / 4) && decide (e.2.addr / 4 < r.addr / 4 + r.count)

/-- Whether a request may not be performed yet. -/
def State.reqBlocked (s : State) (id : Nat) (r : Req) : Bool :=
  s.cancelled r || s.behindQld id r || s.behindEngines id r || s.betweenMerge id r ||
  (s.ex.reqs.any fun e => decide (e.1 < id) && !e.2.performed && ((e.2.dest.uid == r.dest.uid && waitsFor r e.2) || s.laneOrder r e.2))
    || (r.writes && s.ex.fences.any fun e => decide (e.1 < id) && e.2.rel && e.2.strands.contains r.dest.strand)

/-- Change a request. -/
def State.modReq (s : State) (id : Nat) (f : Req → Req) : State := s.modEx fun x => { x with reqs := x.reqs.modify id f }
/-- Remove a request. -/
def State.dropReq (s : State) (id : Nat) : State := s.modEx fun x => { x with reqs := x.reqs.del id }

/-- A translation entry for a request's own line. -/
def Req.entry (r : Req) : TEntry :=
  { asid := r.asid, part := 0, vpage := r.va / 128, size := 7, pa := r.addr / 128 * 128, rights := r.rights, mt := 0, ipa := 0, ipaSize := 7 }

/-- The way that holds a request's line, its errors judged; allocated with F = 0 where it is absent (R107), and fetched again where an
uncorrectable error has made a miss of it (R63). -/
def State.reqLine (s : State) (r : Req) : Nat × State :=
  match s.l1Key r.core r.asid r.va with
  | some k =>
    let s := s.l1Judge k (l1Units r.va r.width)
    if s.mem.l1d.has k then (k, s.l1Touch k r.hint)
    else let (k, s) := s.l1Alloc r.core r.asid r.va r.entry r.hint; (k, s.l1FillAt k r.entry 3)
  | none => s.l1Alloc r.core r.asid r.va r.entry r.hint

/-- The way that holds a request's words, filled where they miss (R106). -/
def State.reqFilled (s : State) (r : Req) : Nat × State :=
  let (k, s) := s.reqLine r
  if s.l1Hit r.core r.asid r.va r.width then (k, s) else (k, s.l1FillAt k r.entry)

/-- Whether a request is the pilot's, which never uses the L1 (R146). -/
def Req.pilot (r : Req) : Bool := isPilot r.dest.gk

/-- A word at its home slice for a request: a dirty copy of the issuing core's L1 goes there first (R116), but for the pilot's. -/
def State.reqSliceRead (s : State) (r : Req) (i : Nat) : TWord × State :=
  let s := if r.pilot then s else s.l1WriteBackWord r.core r.asid (r.va / 4 * 4 + 4 * i)
  s.sliceRead (r.wordAt i) r.asid

/-- Write a word at its home slice for a request; a line that is present takes it as a clean word (R116). -/
def State.reqSliceWrite (s : State) (r : Req) (i : Nat) (t : TWord) : State :=
  let s := s.l1WriteBackWord r.core r.asid (r.va / 4 * 4 + 4 * i)
  (s.sliceWrite (r.wordAt i) r.asid t).l1Update r.core r.asid (r.va / 4 * 4 + 4 * i) t

/-- What performing an access answers: a cause with the index of its word, or nothing. -/
abbrev Perform := Option (Nat × Nat) × State

/-- The old words of a request at its unit. -/
def State.reqOld (s : State) (r : Req) : List TWord × State :=
  match r.unit with
  | .scratch =>
    let s := s.scratchJudge r.core (r.wordAt 0) r.asid
    ((List.range r.count).map fun i => s.scratchRead r.core (r.wordAt i), s)
  | .l1 =>
    let (k, s) := s.reqFilled r
    ((List.range r.count).map fun i => s.l1Word k (r.va / 4 * 4 + 4 * i), s)
  | .slice =>
    let (a, s) := s.reqSliceRead r 0
    if r.count = 2 then let (b, s) := s.reqSliceRead r 1; ([a, b], s) else ([a], s)

/-- A write after a release FENCE at .dev or wider is a release (R236): the words that are dirty in its core's L1 as it is performed go to their home
slices before it does. In the L1 it is kept with them; at a home slice it comes after their eviction. -/
def State.owe (s : State) (r : Req) : State :=
  match r.owed, r.unit with
  | true, .l1 =>
    let dirty := ((s.l1Lines r.core r.asid).map s.l1Line).filter fun l => l.dirty != 0
    let one (i : Nat) : Owed := { grid := ((s.ex.teams.find (r.dest.strand / 2048)).map (·.grid)).getD 0, core := r.core, asid := r.asid,
                                  va := r.va / 4 * 4 + 4 * i, before := dirty.map (·.va) }
    s.modMem fun m => { m with owed := m.owed ++ (List.range r.count).map one }
  | true, .slice => if r.pilot then s else s.l1Empty r.core r.asid
  | _, _ => s

/-- Write the words of a request at its unit. -/
def State.reqWrite (s : State) (r : Req) (ws : List Word) : State :=
  (ws.zipIdx).foldl (fun s e =>
    let t := TWord.fresh e.1
    match r.unit with
    | .scratch => s.scratchStore r.core (r.wordAt e.2) t r.asid
    | .l1 =>
      match s.l1Key r.core r.asid r.va with
      | some k => s.l1Store k (r.va / 4 * 4 + 4 * e.2) t
      | none => s
    | .slice => s.reqSliceWrite r e.2 t) (s.owe r)

/-- The word that a sub-word store merges into (R82, R107), its line's errors judged; a line without the word is not filled. -/
def State.reqMergeWord (s : State) (r : Req) : TWord × State :=
  match r.unit with
  | .scratch => s.scratchFetch r.core (r.wordAt 0) r.asid
  | .slice => s.reqSliceRead r 0
  | .l1 =>
    match s.l1Key r.core r.asid r.va with
    | some _ =>
      let (k, s) := s.reqLine r
      let l := s.l1Line k
      if l.filled || l.isDirty (r.va % 128 / 4) then (s.l1Word k r.va, s) else s.sliceRead (r.wordAt 0) r.asid
    | none => s.sliceRead (r.wordAt 0) r.asid

/-- What a release at .dev or wider does before its access is performed (R114). -/
def State.reqRelease (s : State) (r : Req) : State := if r.rel && r.wide then s.l1WriteBackAll r.core r.asid else s
/-- What an acquire at .dev or wider does once its access has been performed (R112, R114). -/
def State.reqAcquire (s : State) (r : Req) : State := if r.acq && r.wide then s.l1Sweep r.core r.asid else s

/-- Perform a store (R119): all of it, or, at a home slice, word i of a 64-bit one. A sub-word store at a home slice is first a read and then
a write of the whole word, so that another core's write between them is lost (R82). -/
def State.performStore (s : State) (id : Nat) (r : Req) (i : Nat) : Perform :=
  let s := s.reqRelease r
  let merged (t : TWord) : Word := mergeWord t.data (r.data.getD 0 0) r.addr r.width
  if r.width < 4 then
    match r.unit, r.got.getD 0 none with
    | .slice, some t => (none, (s.reqWrite r [merged t]).modReq id fun r => { r with done := true })
    | _, _ =>
      let (t, s) := s.reqMergeWord r
      match t.judge, r.unit with
      | some c, _ => (some (c, 0), s)
      | none, .slice => (none, s.modReq id fun r => { r with got := [some t] })
      | none, u =>
        let s := if u == .l1 then (s.reqLine r).2 else s
        (none, (s.reqWrite r [merged t]).modReq id fun r => { r with done := true })
  else if r.unit == .slice then
    let s := (s.owe r).reqSliceWrite r i (TWord.fresh (r.data.getD i 0))
    let got := r.got.set i (some {})
    (none, s.modReq id fun r => { r with got := got, done := got.all (·.isSome) })
  else
    let s := if r.unit == .l1 then (s.reqLine r).2 else s
    (none, (s.reqWrite r r.data).modReq id fun r => { r with done := true })

/-- The remote window in which a request's home slice lies: a peer module's (R347). -/
def State.reqWindow (s : State) (r : Req) : Option RWindow := if r.unit == .slice then s.remoteAt (r.wordAt 0) else none

/-- The peer's home slice performs an atomic or a RED (R347); the words that it answers are free values (log 25). -/
def State.remoteAtomic (s : State) (w : RWindow) (r : Req) (op : AtomOp) : List TWord × State :=
  let s := s.sendPeer w.port (.ask (.atomic (w.peer + (r.wordAt 0 - w.base)) op r.ty r.data r.returns))
  (List.range r.count).foldl (fun a _ => (a.1 ++ [a.2.peerWord.1], a.2.peerWord.2)) ([], s)

/-- Perform an atomic (R83, R121): all its words at once, at a peer's home slice where it lies in a remote window. -/
def State.performAtomic (s : State) (id : Nat) (r : Req) (op : AtomOp) : Perform :=
  let s := s.reqRelease r
  match s.reqWindow r with
  | some w =>
    let (old, s) := s.remoteAtomic w r op
    (none, ((s.reqAcquire r).setIrrevocable (r.dest.strand / 2048)).modReq id fun r => { r with got := old.map some, done := true })
  | none =>
  let (old, s) := s.reqOld r
  match judgeWords old with
  | some (c, i) => (some (c, i), s)
  | none =>
    let s := match atomResult op r.ty (old.map (·.data)) r.data with
      | some ws => s.reqWrite r ws
      | none => s
    (none, ((s.reqAcquire r).setIrrevocable (r.dest.strand / 2048)).modReq id fun r => { r with got := old.map some, done := true })

/-- Set a strand's reservation (R270). -/
def State.reserve (s : State) (d : Dest) (x : Option Reservation) : State :=
  if x.isNone then s else s.modStrand d.strand fun t => if t.uid == d.uid then { t with reservation := x } else t

/-- Perform a load (R118): all of it, or, at a home slice, word i of a 64-bit one. Its words are judged when they return. -/
def State.performLoad (s : State) (id : Nat) (r : Req) (i : Nat) : State :=
  if r.unit == .slice then
    let (t, s) := s.reqSliceRead r i
    let seen := if !r.wide then none else if r.seen.isSome then r.seen else
      some { line := r.addr / 64, seq := AMap.get 0 s.mem.wseq (r.addr / 64) }
    let got := r.got.set i (some t)
    let all := got.all (·.isSome)
    ((if all then s.reqAcquire r else s).reserve r.dest seen).modReq id fun r => { r with got := got, done := all, seen := seen }
  else
    let (old, s) := s.reqOld r
    (s.reqAcquire r).modReq id fun r => { r with got := old.map some, done := true }

/-- Perform a request, or one word of it. -/
def State.performReq (s : State) (id : Nat) (r : Req) (i : Nat) : Perform :=
  match r.kind with
  | .load => (none, s.performLoad id r i)
  | .store => s.performStore id r i
  | .atom op | .red op => s.performAtomic id r op

/-- The view of the group that a request belongs to, at the request's PC; its strand may have left that group. -/
def State.lateView (s : State) (r : Req) : Option View :=
  let k := r.dest.strand / 2048
  match s.ex.teams.find k with
  | none => none
  | some t =>
    let g := match s.ex.groups.find r.dest.gk with
      | some g => if g.gid == r.dest.gid then g else { team := k }
      | none => { team := k }
    match s.org.grids.find t.grid with
    | none => none
    | some gr =>
      (s.org.ctxs.find gr.asid).map fun c =>
        { gk := r.dest.gk, core := r.core, grp := g, idx := 0, split := { pc := r.pc, mask := 1#32 <<< r.dest.lane },
          teamKey := k, team := t, grid := gr, asid := gr.asid, ctx := c }

/-- Where a consumed word stands, for the error record (R299): its block, or its byte in the team's allocation. -/
def wordAddr (r : Req) (i : Nat) : Nat := if r.unit == .scratch then r.va / 4 * 4 + 4 * i else r.wordAt i / 256 * 256

/-- An access fails after its instruction has issued, with a cause, its %tval and the place of a consumed word: a rollback drops the access; in a context
fault it stays, with the data that it took from registers or from a queue (R149 step 5), to be made again on resume. So does one that fails once its
context's stop records are written, which raises its cause then (log 15). -/
def State.failLate (s : State) (id : Nat) (r : Req) (cause : Nat) (tval : Word64) (addr : Nat) : State :=
  match s.lateView r with
  | none => s.dropReq id
  | some v =>
    let f : Fail := { cause := cause, tval := tval, lanes := 1#32 <<< r.dest.lane, lcause := [(r.dest.lane, cause)], epc := some r.pc, addr := addr }
    let again (s : State) : State := s.modReq id fun r => { r with got := r.got.map fun _ => none, done := false, failed := true }
    if v.ctx.halted && v.ctx.interrupt then again s
    else raise v f false (if willRollback v f then s.dropReq id else again s)

/-- A lane consumes a bad word after its instruction has issued (R81, R298). -/
def State.raiseLate (s : State) (id : Nat) (r : Req) (cause i : Nat) : State :=
  let at_ := r.va / 4 * 4 + 4 * i
  s.failLate id r cause (if r.unit == .scratch then BitVec.ofNat 64 at_ else sx57 at_) (wordAddr r i)

/-- A read finds at their home slices what its words' order puts before it (R236). -/
def State.paySeen (s : State) (r : Req) : State :=
  match r.reads, r.unit with
  | true, .slice => s.payFrom (r.wordAt 0) r.count
  | true, .l1 => s.payFrom (r.addr / 128 * 128) 32
  | _, _ => s

/-- Perform a request at its unit and take its failure, if any. -/
def State.takeReq (s : State) (id : Nat) (r : Req) (i : Nat) : State :=
  match (s.paySeen r).performReq id r i with
  | (some (c, k), s) => s.raiseLate id r c k
  | (none, s) =>
    match s.ex.reqs.find id with
    | some r => if r.done && !r.returns then s.dropReq id else s
    | none => s

/-- The right that a request needs (R72). -/
def Req.right (r : Req) : BitVec 3 := match r.kind with | .load => rRD | .store => rW | _ => rRW

/-- Whether a request's words hit its core's L1 (R106, R107). -/
def State.reqHits (s : State) (r : Req) : Bool :=
  if r.kind == .store then (s.l1Key r.core r.asid r.va).isSome else s.l1Hit r.core r.asid r.va r.width

/-- Where a request that has no translation of its own goes as it is performed (R68, R73): it hits the L1, under the rights kept with its line, or it goes to the
L2, where it is translated and finds its unit (R110, R111, R116). A line that an uncorrectable error makes a miss of is fetched again (R63). -/
def State.route (s : State) (r : Req) : Except (Nat × Word64) Req × State :=
  let direct := r.wide || r.pilot
  let had := if direct then none else s.l1Key r.core r.asid r.va
  let s := match had with | some k => s.l1Judge k (l1Units r.va r.width) | none => s
  match if direct || !s.reqHits r then none else s.l1Key r.core r.asid r.va with
  | some k =>
    let l := s.l1Line k
    if l.rights &&& r.right == r.right then (.ok { r with unit := .l1, addr := l.pa + r.va % 128, rights := l.rights }, s) else (.error (9, sx57 r.va), s)
  | none =>
    match s.translate (cacheOf r.core) r.asid (sx57 r.va) r.right with
    | (.error e, s) => (.error e, s)
    | (.ok e, s) =>
      let r := { r with hit := false, unit := if direct || e.mt == 1 || r.hint == .nol1 then .slice else .l1, addr := e.paOf r.va, rights := e.rights }
      if r.unit == .l1 && had.any fun k => !s.mem.l1d.has k then
        let (k, s) := (s.payFrom (r.addr / 128 * 128) 32).l1Alloc r.core r.asid r.va e r.hint
        (.ok r, s.l1FillAt k e 3)
      else (.ok r, s)

/-- Perform a request, or one word of it, and take its failure, if any. One that leaves the L1 for a home slice is performed there later. -/
def State.runReq (s : State) (id : Nat) (r : Req) (i : Nat) : State :=
  if !r.hit || r.unit == .scratch then s.takeReq id r i else
  match (s.paySeen r).route r with
  | (.error (c, t), s) => s.failLate id r c t 0
  | (.ok q, s) =>
    let s := s.modReq id fun _ => q
    if q.unit == r.unit then s.takeReq id q i else s

/-- Whether a request waits only for its turn at its core's own units. -/
def Req.localWrite (r : Req) : Bool := r.writes && r.unit != .slice && !r.done

/-- Whether a write waits only to be performed at its core's own L1 or scratchpad. -/
def State.mayPerform (s : State) (id : Nat) (r : Req) : Bool := r.localWrite && !s.trailing r && !s.reqBlocked id r

/-- Perform the waiting local writes of some kind that nothing holds back, in issue order. -/
def State.settleIf (s : State) (which : Req → Bool) : State :=
  (s.ex.reqs.map (·.1)).foldl (fun s id =>
    match s.ex.reqs.find id with
    | some r => if which r && s.mayPerform id r then s.runReq id r 0 else s
    | none => s) s

/-- Perform the waiting writes of the scratchpads that nothing holds back (log 10); a write of an L1 is performed at a moment of its own (log 9). -/
def State.settle (s : State) : State := s.settleIf fun r => r.unit == .scratch

/-- Perform a write at its core's own L1 (R107, R119, R121), where it may be. -/
def State.performLocal (s : State) (id : Nat) : State :=
  match s.ex.reqs.find id with
  | some r => if s.mayPerform id r then s.runReq id r 0 else s
  | none => s

end Sys2Proof.Machine
end

