-- ==== Sys2Proof/Machine/MemOps.lean ====
section
/-! DEFINITION. LD, ST, ATOM, RED, PREF, CWB and CINV (R113 to R127). -/

namespace Sys2Proof

/-- A scope of .dev or wider. -/
def Scope.wide (c : Scope) : Bool := match c with | .dev | .part | .sys => true | _ => false
/-- An order with a release. -/
def Order.releases (o : Order) : Bool := match o with | .rel | .ar => true | _ => false
/-- An order with an acquire. -/
def Order.acquires (o : Order) : Bool := match o with | .acq | .ar => true | _ => false

end Sys2Proof

namespace Sys2Proof.Machine

/-- Count a clamped .sys of guest code, saturating (R232). -/
def clampSys (v : View) (sc : Scope) (act : List Nat) (s : State) : State :=
  if sc == .sys && !act.isEmpty && v.sup = 0 then
    s.modCtx v.asid fun c => { c with clamps := if c.clamps == 0xFFFFFFFF then c.clamps else c.clamps + 1 }
  else s

/-- The signature's content for accesses (R302). -/
def accContent (sp : Space) (w : Nat) (data : Nat → List Word) (as : List LaneAcc) : List Nat :=
  as.flatMap fun a => (match sp with | .g => 0 | .s => 1 | .f => 2) :: w :: a.va.toNat :: (data a.lane).map (·.toNat)

/-- A word as its core's own unit would read it now, for an access that merges or is an atomic; the storage errors that it meets are judged. -/
def wordNow (v : View) (a : LaneAcc) (i : Nat) (s : State) : TWord × State :=
  let pa := a.pa / 4 * 4 + 4 * i
  if a.unit == .scratch then s.scratchFetch v.core pa v.asid
  else
    let va := va57 a.va / 4 * 4 + 4 * i
    let s := match s.l1Key v.core v.asid va with | some k => s.l1Judge k (l1Units va 4) | none => s
    match s.l1Key v.core v.asid va with
    | some k => if (s.l1Line k).filled || (s.l1Line k).isDirty (va % 128 / 4) then (s.l1Word k va, s) else s.sliceRead pa v.asid
    | none => s.sliceRead pa v.asid

/-- The failing words that local sub-word stores and REDs would meet now, so that they raise precisely (R82, R83), and the state in which the reads leave the
memory. An ATOM checks its words as it is performed: its destination is empty then (R81). -/
def badNow (v : View) (w : Nat) : List LaneAcc → State → List (Nat × Nat × Word64) × State
  | [], s => ([], s)
  | a :: as, s =>
    if a.unit == .slice then badNow v w as s else
    let (ts, s) := (List.range (if w = 8 then 2 else 1)).foldl (fun r i => let (t, s) := wordNow v a i r.2; (r.1 ++ [t], s)) (([] : List TWord), s)
    let (cs, s) := badNow v w as s
    ((match judgeWords ts with | some e => [(a.lane, e.1, BitVec.ofNat 64 (a.va.toNat / 4 * 4 + 4 * e.2))] | none => []) ++ cs, s)

/-- Raise the delivered cause of some lanes' words in a state, with the place of a consumed word (R299). -/
def checkAt (sp : Space) (as : List LaneAcc) (r : List (Nat × Nat × Word64) × State) : Except Stop Unit :=
  match pickCause r.1 with
  | none => .ok ()
  | some f =>
    match r.1.find? (fun c => c.2.1 == f.cause), rollbackCause f.cause with
    | some (l, _, _), true =>
      let pa := ((as.find? fun a => a.lane == l).map (·.pa)).getD 0
      .error (.failIn r.2 { f with addr := if sp == .s then f.tval.toNat else pa / 256 * 256 })
    | _, _ => .error (.failIn r.2 f)

/-- Whether an earlier access or fence of a lane's strand holds its next one back. -/
def State.strandHeld (s : State) (v : View) (l : Nat) (writes : Bool) : Bool :=
  let uid := (s.strandAt (v.key l)).uid
  s.ex.reqs.any (fun e => e.2.dest.uid == uid && !e.2.done) || (writes && s.ex.fences.any fun e => e.2.rel && e.2.strands.contains (v.key l))

/-- One memory instruction's accesses. -/
structure MemUse where
  g : Guard
  ty : OpType
  space : Space
  scope : Scope
  order : Order
  hint : Hint := .normal
  a : Src
  off : Word
  kind : AccKind
  b : Option Use := none
  words : Nat := 0
  d : Option Reg := none

/-- The words that a lane's data operand gives: the register, its pair, or for a 64-bit cas two pairs. -/
def laneData (v : View) (s : State) (m : MemUse) (l : Nat) : List Word :=
  match m.b with
  | none => []
  | some u =>
    if isQueue u.reg then (srcElems v s l u).map (·.val)
    else (List.range m.words).map fun i => (readElem v s l (u.reg + i)).val

/-- Whether the data operand's further registers fail the static checks or hold a bar to issue: a cas names its new value after the
compare value (R120). -/
def dataUses (m : MemUse) : List Use :=
  match m.b with
  | none => []
  | some u => if m.words = 4 then [u, { reg := u.reg + 2, ea := u.ea, pair := true }] else [u]

/-- The key under which a run keeps what a scratchpad load read (R242): its PC, which a run issues once, lane, offset and width. -/
def Req.keptKey (r : Req) : Nat := ((r.pc.toNat * 32 + r.dest.lane) * 2 ^ 32 + r.va) * 16 + r.width

/-- A load of the scratchpad that a rollback of the run's speculation has not undone takes the words that it read then (R242). -/
def Req.again (r : Req) (v : View) : Req :=
  match r.kind, r.unit, v.grp.run.kept.find r.keptKey with
  | .load, .scratch, some ws => { r with got := ws.map some, done := true }
  | _, _, _ => r

/-- Create the requests of the lanes in ascending slot. -/
def issueReqs (v : View) (m : MemUse) (act : List Nat) (data : Nat → List Word) (isn : Nat) : List LaneAcc → State → State
  | [], s => s
  | a :: as, s =>
    let (id, s) := s.fresh
    let w := accWidth m.ty
    let remote := m.space != .s && (v.leads || v.trails) && (match m.kind with | .load | .atom _ => true | _ => false)
    let r : Req :=
      { core := v.core, asid := v.asid, kind := m.kind, unit := a.unit, ty := m.ty, addr := a.pa, va := if m.space == .s then a.va.toNat else va57 a.va,
        width := w, data := data a.lane, hint := m.hint, rel := m.order.releases, acq := m.order.acquires, wide := m.scope.wide,
        dest := destOf v s act isn a.lane (m.d.getD 0) m.ty.wide, got := List.replicate (if w = 8 then 2 else 1) none,
        fwd := if remote then some (fwdKey v s a.lane) else none, rights := a.rights, pc := v.split.pc, sub := decide (w < 4),
        fenced := m.kind != .load && (s.strandAt (v.key a.lane)).fenced, owed := m.kind != .load && (s.strandAt (v.key a.lane)).released, hit := a.hit }
    let r := r.again v
    let s := s.modEx fun x => { x with reqs := x.reqs.put id r }
    issueReqs v m act data isn as (if remote then bumpFwd v [a.lane] s else s)

/-- Record the line of a speculative load with the words that it reads, those that are not dirty apart from those that are (R242): of one that must wait for
an earlier access, all its words as not dirty. -/
def State.recordLine (s : State) (gk : Nat) (r : Req) (waits : Bool) : State :=
  let dirty (i : Nat) : Bool := !waits && match s.l1Key r.core r.asid r.va with | some k => (s.l1Line k).isDirty i | none => false
  let bits := ((List.range r.count).map fun i => r.va % 128 / 4 + i).map fun i => if dirty i then 32 + i else i
  s.modEx fun x => { x with specs := x.specs.modify gk fun p =>
    { p with lines := p.lines.put (r.va / 128) (bits.foldl (fun m i => m ||| 2 ^ i) (AMap.get 0 p.lines (r.va / 128))) } }

/-- A speculating split's loads are performed as they issue where nothing holds them back: the L1 lines that they read are recorded, and so is what
they read of the scratchpad, which is never undone (R242). -/
def speculate (v : View) (first : Nat) (s : State) : State :=
  if !s.ex.specs.has v.gk then s else
  (s.ex.reqs.filter fun e => first ≤ e.1).foldl (fun s e =>
    let (id, r) := e
    let waits := s.reqBlocked id r
    let s := if r.unit == .l1 then s.recordLine v.gk r waits else s
    let s := if waits || r.done then s else s.runReq id r 0
    match r.unit, s.ex.reqs.find id with
    | .scratch, some q => s.modEx fun x => { x with specs := x.specs.modify v.gk fun p => { p with kept := p.kept.put r.keptKey (q.got.map (·.getD {})) } }
    | _, _ => s) s

/-- A memory instruction: operands, poison, addresses, translation and checks for every lane; then one request for each (R113 to R123). -/
def memory (m : MemUse) (v : View) (s : State) : Body := do
  let au := addrUse m.space m.a
  let w := accWidth m.ty
  let writes := m.kind != .load
  let srcs := au :: dataUses m
  let dsts := match m.d with | some d => [(d, m.ty.wide)] | none => []
  let misnamed : Bool := match m.b with
    | some u => (m.words = 4 && u.reg % 4 != 0) || (m.kind == .atom .cas && isQueue u.reg)
    | none => false
  let remote := v.trails && m.space != .s
  let forwards : Bool := match m.kind with | .load | .atom _ => true | _ => false
  let right := match m.kind with | .load => rRD | .store => rW | _ => rRW
  let reads (ls : List Nat) : (List LaneAcc × List (Nat × Nat × Word64)) × State :=
    resolve v m.space m.scope.wide m.hint right w remote (fun l => effAddr v s l m.space m.a m.off w writes) ls s
  let (act, cs) ← prologue v s m.g srcs dsts (badAddress m.space m.a || misnamed) (own := fun ls => poisonCauses v s ls srcs ++ (reads ls).1.2)
    (shown := if m.space == .f then dataUses m else srcs)
  if act.isEmpty then return popQueues v srcs (match m.d with | some d => flagDest v d m.ty.wide s | none => s)
  let ((as, es), s1) := reads act
  checkCauses (cs ++ poisonCauses v s act srcs ++ es)
  let s := s1
  let data := laneData v s m
  let early := (match m.kind with | .store => decide (w < 4) | .red _ => true | _ => false) && !remote
  let here := as.filter fun a => !s.strandHeld v a.lane writes
  if early then checkAt m.space as (badNow v w here s)
  if m.order.releases && releaseHeld v s then throw .stall
  if forwards && v.leads && m.space != .s && 1024 ≤ s.fwdCount v.pairKey then throw .stall
  let s ← match m.kind with
    | .load => lanePairCompare v 1 s
    | .store => signAccess v (accContent m.space w data as) s
    | _ => signIrrevocable v (accContent m.space w data as) s
  let s := clampSys v m.scope act s
  let first := s.nextId
  let keep : Bool := !remote || forwards
  let s1 := if keep then issueReqs v m act data s.nextId as s else s
  let s := match m.d with
    | some d => markEmpty v act d m.ty.wide (flagT v d.toNat s1)
    | none => s1
  return popQueues v srcs (speculate v first s)

/-- Once a memory instruction has issued, what nothing holds back in the scratchpads is performed (log 10). -/
def settled (r : Result) : Result := match r with | .next t => .next t.settle | r => r

/-- LD (R118). -/
def execLd (m : FMem) (d : Reg) (s : State) : Result := settled <| runBody s
  (memory { g := m.g, ty := m.ty, space := m.space, scope := m.scope, order := m.order, hint := m.hint, a := m.a, off := m.off,
            kind := .load, d := some d })

/-- ST (R119). -/
def execSt (m : FMem) (b : Src) (s : State) : Result := settled <| runBody s
  (memory { g := m.g, ty := m.ty, space := m.space, scope := m.scope, order := m.order, hint := m.hint, a := m.a, off := m.off,
            kind := .store, b := some (b.use m.ty.wide), words := if m.ty.wide then 2 else 1 })

/-- The data operand of an atomic: cas names the compare value and then the new value (R120). -/
def atomData (m : FAtom) : Use × Nat :=
  if m.op == .cas then (if m.ty.wide then (m.b.use true, 4) else (m.b.use true, 2))
  else if m.ty.wide then (m.b.use true, 2) else (m.b.use, 1)

/-- ATOM (R120 to R123). -/
def execAtom (m : FAtom) (d : Reg) (s : State) : Result := settled <| runBody s
  (memory { g := m.g, ty := m.ty, space := m.space, scope := m.scope, order := m.order, a := m.a, off := m.off, kind := .atom m.op,
            b := some (atomData m).1, words := (atomData m).2, d := some d })

/-- RED returns nothing (R120). -/
def execRed (m : FAtom) (s : State) : Result := settled <| runBody s
  (memory { g := m.g, ty := m.ty, space := m.space, scope := m.scope, order := m.order, a := m.a, off := m.off, kind := .red m.op,
            b := some (atomData m).1, words := (atomData m).2 })

/-! ### PREF, CWB, CINV -/

/-- The lanes that a PREF drops, since they would fault: a bad guard predicate, a temporary never written, an address operand that is empty and
traps, or that is poisoned or bad (R124; that these too are dropped is DEDUCED from 'for any reason'). -/
def prefDrops (v : View) (s : State) (g : Guard) (u : Use) (l : Nat) : Bool :=
  (guardCauses v s g).any (fun c => c.1 == l) || unwrittenTemp v u || (u.ea && srcEmpty v s l u) || srcPoison v s l u
    || (readsOf [l] [u]).any (fun k => (readElem v s k.1 k.2).err == 2) || !(sourceCauses v s [l] [u] []).isEmpty

/-- PREF (R124): a lane that would fault is dropped; the translation and the fill go on by themselves. A line that is present with F = 1 is
left alone, and one that is present with F = 0 takes the hint's bits (Table 6.2). DESIGN CHOICE (log 65): an injected lane-pair mismatch raises
REDUNDANCY_MISMATCH here too, as R117 says of every memory instruction: it is the comparison that fails then and no fault that the PREF would meet. -/
def execPref (g : Guard) (space : Space) (hint : Hint) (a : Src) (off : Word) (s : State) : Result := runBody s fun v s => do
  let u := addrUse space a
  if badAddress space a || badOperands v [u] [] then throw (failAll 3 0 v.lanes)
  let act := (activeLanes v s g).filter fun l => !prefDrops v s g u l
  if isQueue u.reg && !u.ea && (queueHead v s u.reg).isNone || act.any (fun l => srcEmpty v s l u) then throw .stall
  let _ ← registerErrors v s act [u] []
  let s ← if act.isEmpty then .ok s else lanePairCompare v 1 s
  let one (s : State) (l : Nat) : State :=
    match effAddr v s l space a off 1 false with
    | .error _ => s
    | .ok va =>
      let have_ : Bool := match s.l1Key v.core v.asid (va57 va) with | some k => (s.l1Line k).filled | none => false
      if have_ then s else
      let (id, s) := s.fresh
      let w : Walk := { cache := cacheOf v.core, asid := v.asid, va := va57 va, right := rRD, core := v.core, toL1 := hint != .nol1, hint := hint, pref := true }
      s.modMem fun m => { m with walks := m.walks.put id w }
  return popQueues v [u] (act.foldl one s)

/-- The lanes' ranges of CWB and CINV: first address and count (R125). DESIGN CHOICE (log 65): a start address that is not canonical, which R125 does not check,
counts by its 57 low bits, in which the lines are named, and so does the rest of its range, across bit 56 too. -/
def rangesOf (x : FRange) (v : View) (s : State) (act : List Nat) : List (Nat × Nat) :=
  act.map fun l => (va57 ((valR v s l x.a true).1 + x.off.signExtend 64), (lo (valR v s l x.b false).1).toNat)

/-- The keys of the lines that ranges overlap; a count of 0 names no line. -/
def linesIn (v : View) (s : State) (rs : List (Nat × Nat)) : List Nat :=
  (rs.flatMap fun r => if r.2 = 0 then [] else s.l1Overlap v.core v.asid r.1 r.2).eraseDups

/-- CWB (R126), behind the writes that its lanes made before: the dirty words are performed at their home slices; the split issues again when CWB_COMPLETE has come.
DESIGN CHOICE (log 65): a poisoned length raises POISON as a poisoned address does, in CINV too; R117 names the address alone. -/
def execCwb (x : FRange) (s : State) : Result := runBody s fun v s => do
  let srcs := [x.a.use true, x.b.use]
  let (act, cs) ← prologue v s x.g srcs [] (badAddress .g x.a) (own := fun ls => poisonCauses v s ls srcs)
  checkCauses (cs ++ poisonCauses v s act srcs)
  if act.isEmpty then return popQueues v srcs s
  if act.any fun l => s.ex.reqs.any fun e => e.2.dest.strand == v.key l && e.2.localWrite then throw .stall
  let s ← lanePairCompare v 1 s
  let t := (linesIn v s (rangesOf x v s act)).foldl State.l1WriteBack s
  return popQueues v srcs (t.modGroup v.gk fun g => { g with block := some .cwb })

/-- CINV (R127): the sweep of R112 over ranges; a fill in flight of a line in them installs nothing. -/
def execCinv (x : FRange) (s : State) : Result := runBody s fun v s => do
  let srcs := [x.a.use true, x.b.use]
  let (act, cs) ← prologue v s x.g srcs [] (badAddress .g x.a) (own := fun ls => poisonCauses v s ls srcs)
  checkCauses (cs ++ poisonCauses v s act srcs)
  if act.isEmpty then return popQueues v srcs s
  let s ← lanePairCompare v 1 s
  let rs := rangesOf x v s act
  let inside (va : Nat) : Bool := rs.any fun r => decide (0 < r.2) && decide (va < r.1 + r.2) && decide (r.1 < va + 128)
  return popQueues v srcs ((s.l1SweepKeys (linesIn v s rs)).dropFills v.core v.asid inside)

end Sys2Proof.Machine
end

