-- ==== Sys2Proof/Machine/Copy.lean ====
section
/-! DEFINITION. The copy engine: COPY, batches, SEAL, the batch waits and CSTAT (R89 to R104), and the moving of one word. -/

namespace Sys2Proof.Machine

/-! ### COPY -/

/-- A lane's shape descriptor (Table 5.2). -/
structure Shape where
  dims : Nat
  reserved : Nat
  len : Nat
  planes : Nat
  rows : Nat
  rstride : Int
  pstride : Int

/-- The four descriptor registers of a lane. -/
def shapeOf (v : View) (s : State) (l c : Nat) : Shape :=
  let w (i : Nat) : Word := (readElem v s l (c + i)).val
  { dims := ((w 0).extractLsb' 30 2).toNat, reserved := ((w 0).extractLsb' 24 6).toNat, len := ((w 0).extractLsb' 0 24).toNat,
    planes := ((w 1).extractLsb' 16 16).toNat + 1, rows := ((w 1).extractLsb' 0 16).toNat + 1,
    rstride := (w 2).toInt, pstride := (w 3).toInt }

/-- Check 3 of R92. -/
def Shape.illegal (h : Shape) : Bool :=
  h.dims == 0 || h.reserved != 0 || h.len % 4 != 0 || (h.planes != 1 && h.dims != 3) || (h.rows != 1 && h.dims == 1)
    || decide (2 ^ 24 < h.len * h.rows * h.planes)

/-- Check 4 of R92: MISALIGNED with its %tval. DESIGN CHOICE (log 65): a stride that is no multiple of 4 is checked as the rule says even where
there is one row or one plane, which it misaligns not: %tval is then where the second would stand. -/
def misalignedCopy (f : CopyForm) (a b : Nat) (h : Shape) : Option Word64 :=
  if a % 4 != 0 then some (BitVec.ofNat 64 a)
  else if b % 4 != 0 then some (BitVec.ofNat 64 b)
  else if h.rstride % 4 != 0 then some (BitVec.ofInt 64 (a + h.rstride))
  else if h.pstride % 4 != 0 then some (BitVec.ofInt 64 (a + h.pstride))
  else match f with | .gs | .sg | .gg => none

/-- Check 5 of R92: PERMISSION with the first offset beyond the allocation. -/
def beyondScratch (v : View) (f : CopyForm) (b : Nat) (h : Shape) : Option Word64 :=
  if f == .gg then none
  else if v.scratch < b + h.len * h.rows * h.planes then some (BitVec.ofNat 64 (Nat.max b v.scratch)) else none

/-- The lanes of a view's group that hold a live strand. -/
def View.live (v : View) : List Nat := v.grp.remap.map (·.1)

/-- The requests outstanding in a core's copy engine (R89): those that have failed among them, whose last word is never written (R102), and those of a saved team
that still run; its .gs requests have been cancelled. -/
def State.copiesOf (s : State) (core : Nat) : List (Nat × CopyReq) :=
  s.ex.copies.filter fun e => e.2.core == core && (e.2.form != .gs || !(s.ex.teams.find e.2.team).any (·.saved))

/-- The checks of R92 in its own order, in some lanes of a COPY. -/
def copyCauses (v : View) (s : State) (form : CopyForm) (a b c : Src) (ls : List Nat) : List (Nat × Nat × Word64) :=
  let gg := form == .gg
  let c0 := c.reg.toNat
  let sh (l : Nat) : Shape := shapeOf v s l c0
  let av (l : Nat) : Nat := (valR v s l a true).1.toNat
  let bv (l : Nat) : Nat := (valR v s l b gg).1.toNat
  let order : List Nat := [a.reg.toNat, a.reg.toNat + 1] ++ (if gg then [b.reg.toNat, b.reg.toNat + 1] else [b.reg.toNat]) ++ (List.range 4).map (c0 + ·)
  let some_ := ls.filter fun l => (sh l).len != 0
  firstCauses [
    ls.filterMap fun l => ((if (sh l).len = 0 then [c0] else order).find? fun r => (readElem v s l r).poison).map fun r => (l, 5, BitVec.ofNat 64 r),
    (some_.filter fun l => (sh l).illegal).map fun l => (l, 3, 0),
    some_.filterMap fun l => (misalignedCopy form (av l) (bv l) (sh l)).map fun t => (l, 6, t),
    some_.filterMap fun l => (beyondScratch v form (bv l) (sh l)).map fun t => (l, 9, t)]

/-- COPY (R90 to R94). R92 orders its own checks. The causes of operands that it does not name (a register left uncorrectable, a popped
element as B that fails its check, a display register beyond the level) come after them: DESIGN CHOICE (log 65). -/
def execCopy (g : Guard) (form : CopyForm) (a b c : Src) (s : State) : Result := runBody s fun v s => do
  let gg := form == .gg
  let c0 := c.reg.toNat
  let quad : List Use := (List.range 4).map fun i => { reg := c0 + i, ea := c.ea }
  let srcs := [a.use true, b.use gg] ++ quad
  let partial_ : Bool := !(v.live.all (activeLanes v s g).contains)
  let (act, cs) ← prologue v s g srcs [] (c0 % 4 != 0 || decide (188 < c0) || isQueue a.reg.toNat) (own := copyCauses v s form a b c)
    (fixed := fun ls => if partial_ then ls.map fun l => (l, 3, 0) else [])
  if partial_ then throw (failAll 3 0 v.lanes)
  let sh (l : Nat) : Shape := shapeOf v s l c0
  let av (l : Nat) : Nat := (valR v s l a true).1.toNat
  let bv (l : Nat) : Nat := (valR v s l b gg).1.toNat
  let some_ := act.filter fun l => (sh l).len != 0
  checkCauses (copyCauses v s form a b c act)
  checkCauses cs
  let local_ := form == .gs
  let mine := if v.trails && !local_ then [] else some_
  if 64 < (s.copiesOf v.core).length + mine.length then throw .stall
  let content := some_.flatMap fun l => [av l, bv l, (sh l).len, (sh l).rows, (sh l).planes, (BitVec.ofInt 64 (sh l).rstride).toNat, (BitVec.ofInt 64 (sh l).pstride).toNat]
  let s ← if local_ then lanePairCompare v 1 s else signAccess v content s
  let one (s : State) (l : Nat) : State :=
    let (id, s) := s.fresh
    let h := sh l
    let r : CopyReq :=
      { core := v.core, team := v.teamKey, strand := v.key l, uid := (s.strandAt (v.key l)).uid, lane := l, pilot := v.pilot, form := form, dims := h.dims,
        fenced := (s.strandAt (v.key l)).fenced, owed := (s.strandAt (v.key l)).released,
        strided := av l, packed := bv l, words := h.len / 4, rows := h.rows, planes := h.planes, rstride := h.rstride, pstride := h.pstride }
    s.modEx fun x => { x with copies := x.copies.put id r }
  return popQueues v srcs (mine.foldl one s)

/-! ### The words of a request (R93) -/

/-- The view of a team as an engine sees it, for a cause that the engine raises. -/
def State.engineView (s : State) (k gk : Nat) (pc : Word64) (mask : Lanes) : Option View :=
  match s.ex.teams.find k with
  | none => none
  | some t =>
    let g := match s.ex.groups.find gk with
      | some g => if g.team == k then g else { team := k }
      | none => { team := k }
    match s.org.grids.find t.grid with
    | none => none
    | some gr =>
      (s.org.ctxs.find gr.asid).map fun c =>
        { gk := gk, core := t.core, grp := g, idx := 0, split := { pc := pc, mask := mask }, teamKey := k, team := t, grid := gr,
          asid := gr.asid, ctx := c }

/-- COPY_FAULT (R102), with the group that holds the strand. A request that fails once its context's stop records are written fails again when the
context has resumed (log 15). -/
def State.copyFault (s : State) (id : Nat) (r : CopyReq) (tval : Word64) : State :=
  let holds (e : Nat × Group) : Bool := e.2.team == r.team && e.2.remap.any fun x => strandKey r.team x.2 == r.strand
  let gk := ((s.ex.groups.find? holds).map (·.1)).getD (r.core * 256 + 255)
  match s.engineView r.team gk 0 (1#32 <<< r.lane) with
  | none => s.modEx fun x => { x with copies := x.copies.modify id fun r => { r with failed := true } }
  | some v =>
    if v.ctx.halted && v.ctx.interrupt then s.modEx fun x => { x with copies := x.copies.modify id fun r => { r with late := true } } else
    raiseContext v { cause := 17, tval := tval, lcause := [(r.lane, 17)] } 0 1
      (s.modEx fun x => { x with copies := x.copies.modify id fun r => { r with failed := true } })

/-- A word of a request is written at a home slice: after a release FENCE at .dev or wider it is a release (R236). -/
def State.copyPut (s : State) (r : CopyReq) (pa asid : Nat) (w : TWord) : State := (if r.owed then s.l1Empty r.core asid else s).sliceWrite pa asid w

/-- Move word n of a request, data, code and mark together; a failing translation raises COPY_FAULT. -/
def State.copyWord (s : State) (id : Nat) (r : CopyReq) (n : Nat) : State :=
  match s.ex.teams.find r.team with
  | none => s
  | some t =>
    let asid := match s.org.grids.find t.grid with | some g => g.asid | none => 0
    let (st, pk) := r.sides n
    let cache := cacheOf t.core
    let ok (s : State) : State := s.modEx fun x => { x with copies := x.copies.modify id fun r => { r with moved := r.moved.put n true } }
    match r.form with
    | .gs =>
      match s.translate cache asid (BitVec.ofNat 64 st) rRD with
      | (.error (_, tv), s) => s.copyFault id r tv
      | (.ok e, s) =>
        let pa := e.paOf (va57 (BitVec.ofNat 64 st))
        let (w, s) := (s.payAt pa).sliceRead pa asid
        ok (s.scratchStore t.core (t.scratchBase + pk) w asid)
    | .sg =>
      match s.translate cache asid (BitVec.ofNat 64 st) rW with
      | (.error (_, tv), s) => s.copyFault id r tv
      | (.ok e, s) =>
        let (w, s) := if t.saved then (AMap.get {} t.save.scratch (scratchKey t.core (t.scratchBase + pk)), s) else s.scratchFetch t.core (t.scratchBase + pk) asid
        ok (s.copyPut r (e.paOf (va57 (BitVec.ofNat 64 st))) asid w)
    | .gg =>
      match s.translate cache asid (BitVec.ofNat 64 st) rRD with
      | (.error (_, tv), s) => s.copyFault id r tv
      | (.ok e, s) =>
        match s.translate cache asid (BitVec.ofNat 64 pk) rW with
        | (.error (_, tv), s) => s.copyFault id r tv
        | (.ok d, s) =>
          let pa := e.paOf (va57 (BitVec.ofNat 64 st))
          let (w, s) := (s.payAt pa).sliceRead pa asid
          ok (s.copyPut r (d.paOf (va57 (BitVec.ofNat 64 pk))) asid w)

/-- Whether a request's engine goes on: a .gs request stops with its context and while its team is saved; the others run to
completion (R103). -/
def State.copyRuns (s : State) (r : CopyReq) : Bool :=
  match s.ex.teams.find r.team with
  | none => false
  | some t => r.form != .gs || (!t.saved && match (s.org.grids.find t.grid).bind fun g => s.org.ctxs.find g.asid with
      | some c => !(c.halted && c.interrupt)
      | none => false)

/-- Whether something earlier of its strand must be performed before a request's words move (R88, R100, R235); a QLD's reads of its pilot lane
come first too (R146). -/
def State.copyHeld (s : State) (id : Nat) (r : CopyReq) : Bool :=
  let ps := r.spans
  let meets (scratch : Bool) (word n : Nat) : Bool := ps.any fun p => p.meets scratch word n
  s.heldFor id r.strand r.uid r.fenced ps
    || (r.pilot && s.ex.qlds.any fun e => decide (e.1 < id) && e.2.team == r.team && !e.2.got.has r.lane
          && match e.2.vas.find r.lane with | some va => meets false (va / 4) 1 | none => false)

/-- Whether a request may move words now: not failed, nor late, its engine going on and holding it among its 64 (R89: where reissued requests are more, the
later wait to enter), and nothing earlier of its strand in its way. -/
def State.copyReady (s : State) (id : Nat) (r : CopyReq) : Bool :=
  !r.failed && !r.late && !r.cancelled && s.copyRuns r && decide ((s.copiesOf r.core).findIdx (·.1 == id) < 64) && !s.copyHeld id r

/-! ### Batches -/

/-- The requests of a strand's batch that are not complete. -/
def State.openIn (s : State) (uid : Nat) (n : Word) : Bool :=
  s.ex.copies.any fun e => e.2.uid == uid && e.2.batch == .sealed n

/-- C advances while the next sealed batch is complete (R95); at most eight are open. -/
def State.advanceBatches (s : State) (k : Nat) : Nat → State
  | 0 => s
  | f + 1 =>
    let t := s.strandAt k
    if t.completeNo == t.sealedNo || s.openIn t.uid (t.completeNo + 1) then s
    else (s.modStrand k fun t => { t with completeNo := t.completeNo + 1 }).advanceBatches k f

/-- Whether batch n counts as complete (R95). -/
def Strand.complete (t : Strand) (n : Word) : Bool := decide ((t.completeNo - n).toNat < 2 ^ 31)
/-- Whether batch n is not yet sealed (R97). -/
def Strand.future (t : Strand) (n : Word) : Bool := 1 ≤ (n - t.sealedNo).toNat && decide ((n - t.sealedNo).toNat < 2 ^ 31)
/-- Whether a batch's status is no longer kept (R99). -/
def Strand.forgotten (t : Strand) (n : Word) : Bool := decide (2 ^ 31 - 8 < (t.sealedNo - n).toNat) && !t.future n
/-- A kept batch. -/
def Strand.batch (t : Strand) (n : Word) : Option Batch := if t.future n || t.forgotten n then none else t.batches.find? fun b => b.num == n
/-- The promise of a batch; 0 for an unsealed or forgotten one (R99). -/
def Strand.promise (t : Strand) (n : Word) : Word64 := match t.batch n with | some b => b.promise | none => 0

/-- The unsigned maximum. -/
def maxW (a b : Word64) : Word64 := if a.toNat < b.toNat then b else a

/-- %clock as a lane's SEAL takes it for a promise: in a replay, where the machine's clock is not the one that the log was recorded under, the last clock
value or wait end that the strand has taken from the log. DESIGN CHOICE (log 14): R312 gives a replay no other clock. -/
def sealClock (v : View) (s : State) (l : Nat) : Word64 :=
  let c := (s.org.ctxs.find v.asid).getD v.ctx
  let mine (r : VRecord) : Bool := r.grid == v.grid.num && r.team == v.team.num && some r.rank == v.rank l && r.kind ≤ 1 && decide (r.pos < (s.strandAt (v.key l)).vpos)
  let later (a : Option VRecord) (r : VRecord) : Option VRecord := match a with | some b => if b.pos < r.pos then some r else a | none => some r
  match if c.vmode == 2 then (c.vrecords.filter mine).foldl later none else none with
  | some r => r.value
  | none => BitVec.ofNat 64 s.dev.clock

/-- SEAL (R95). -/
def execSeal (x : FD) (s : State) : Result := runBody s fun v s => do
  let (act, _) ← prologue v s x.g [] [(x.d, false)] (decide (200 ≤ x.d.toNat))
  if act.any fun l => let t := s.strandAt (v.key l); decide (8 ≤ (t.sealedNo - t.completeNo).toNat) then throw .stall
  let one (s : State) (l : Nat) : State :=
    let k := v.key l
    let (i, s) := s.free
    let t := s.strandAt k
    let n := t.sealedNo + 1
    let b : Batch := { num := n, promise := maxW (t.promise t.sealedNo) (sealClock v s l + Config.estimate i),
                       reissued := s.ex.copies.any fun e => e.2.uid == t.uid && e.2.batch == .unsealed && e.2.reissued }
    let s := s.modStrand k fun t => { t with sealedNo := n, batches := b :: t.batches }
    let s := s.modEx fun x => { x with copies := x.copies.map fun e =>
      (e.1, if e.2.uid == t.uid && e.2.batch == .unsealed then { e.2 with batch := .sealed n } else e.2) }
    s.advanceBatches k 8
  let s := act.foldl one s
  return writeDest v act x.d (fun l => ([(s.strandAt (v.key l)).sealedNo], false)) s

/-- Arm a batch wait (R97). -/
def armWait (x : FS) (sleep : Bool) (v : View) (s : State) : Body := do
  let n (l : Nat) : Word := lo (valR v s l x.a false).1
  let own (ls : List Nat) : List (Nat × Nat × Word64) :=
    poisonCauses v s ls [x.a.use] ++ (ls.filter fun l => !srcPoison v s l x.a.use && (s.strandAt (v.key l)).future (n l)).map fun l => (l, 3, 0)
  let (act, cs) ← prologue v s x.g [x.a.use] [] (own := own) (fixed := fun ls => if v.grp.run.bwait.isSome then ls.map fun l => (l, 3, 0) else [])
  if v.grp.run.bwait.isSome then throw (failAll 3 0 v.lanes)
  checkCauses (cs ++ own act)
  let ws : List BatchWait := act.map fun l => { lane := l, num := n l, sleep := sleep }
  return popQueues v [x.a.use] (s.modGroup v.gk fun g => { g with run := { g.run with bwait := some ws } })

/-- CWAIT (R97). -/
def execCwait (x : FS) (s : State) : Result := runBody s (armWait x false)
/-- SLEEPTO (R97). -/
def execSleepto (x : FS) (s : State) : Result := runBody s (armWait x true)

/-- The status word of a batch (R99). -/
def Strand.status (t : Strand) (n : Word) : Word :=
  (if t.forgotten n || t.complete n then 1 else 0)
    + (match t.batch n with | some b => if b.reissued then 2 else 0 | none => 0) + (if t.future n then 4 else 0)

/-- CSTAT (R99). -/
def execCstat (x : FDS) (wide : Bool) (s : State) : Result := runBody s fun v s => do
  let (act, cs) ← prologue v s x.g [x.a.use] [(x.d, wide)] (own := fun ls => poisonCauses v s ls [x.a.use])
  checkCauses (cs ++ poisonCauses v s act [x.a.use])
  let n (l : Nat) : Word := lo (valR v s l x.a false).1
  let val (l : Nat) : List Word :=
    let t := s.strandAt (v.key l)
    if wide then twoWords (t.promise (n l)) else [t.status (n l)]
  return popQueues v [x.a.use] (writeDest v act x.d (fun l => (val l, false)) s)

/-- The last word of a request is written (R93, R100): the clean lines of its words go from the L1 of the core that issued it, it leaves the
engine, and its batch may complete. -/
def State.copyDone (s : State) (id : Nat) (r : CopyReq) : State :=
  let asid := match (s.ex.teams.find r.team).bind (fun t => s.org.grids.find t.grid) with | some g => g.asid | none => 0
  let ends (n : Nat) : Option Nat := match r.form with | .gs => none | .sg => some (r.sides n).1 | .gg => some (r.sides n).2
  let s := ((List.range r.total).filterMap ends).foldl (fun s a => s.l1DropClean r.core asid (va57 (BitVec.ofNat 64 a))) s
  (s.modEx fun x => { x with copies := x.copies.del id }).advanceBatches r.strand 8

end Sys2Proof.Machine
end

