-- ==== Sys2Proof/Machine/Pilot.lean ====
section
/-! DEFINITION. The pilot engine and the operand queues: QLD, PGO, PSTOP, QSTAT (R143 to R156). -/

namespace Sys2Proof.Machine

/-! ### QLD -/

/-- The entries of a queue that are pushed or reserved (R150), those that a speculating group has popped and may put back among them (R242). -/
def State.queueUse (s : State) (k : Nat) (t : Team) (set_ q : Nat) : Nat :=
  (AMap.get [] t.queues (set_ * 16 + q)).length + (s.ex.qlds.filter fun e => e.2.team == k && e.2.set_ == set_ && e.2.q == q).length
    + (s.ex.specs.flatMap fun e => if e.2.grp.team == k then e.2.pops.filter (·.1 == set_ * 16 + q) else []).length

/-- A QLD that must wait stalls the engine for its own group only (R150): the run stands where it is, and the engine is free for others. -/
def stalledQld (v : View) (s : State) (f : Group → Group) : Stop := .hold ((s.modGroup v.gk fun g => f g.pause).endRun v.gk)

/-- The copy requests of a pilot group that are still to complete. -/
def State.pilotCopies (s : State) (k : Nat) : Bool := s.ex.copies.any fun e => e.2.team == k && e.2.pilot

/-- QLD (R150): its addresses are translated and its entry reserved as it issues; a stall on a full queue is recorded for QSTAT. -/
def execQld (m : FMem) (q : BitVec 4) (b : Src) (s : State) : Result := runBody s fun v s => do
  let au := addrUse m.space m.a
  let srcs := [au, b.use]
  let setOf (l : Nat) : Nat := (lo (valR v s l b false).1).toNat
  let badSet (act : List Nat) : List (Nat × Nat × Word64) := match act.getLast? with
    | some h => if v.grid.hdr.capacity / 32 ≤ setOf h then act.map fun l => (l, 3, BitVec.ofNat 64 (setOf h)) else []
    | none => []
  let reads (ls : List Nat) : (List LaneAcc × List (Nat × Nat × Word64)) × State :=
    resolve v m.space false m.hint rRD 4 false (fun l => effAddr v s l m.space m.a m.off 4 false) ls s
  let own (ls : List Nat) : List (Nat × Nat × Word64) :=
    poisonCauses v s ls [au] ++ if ls.getLast? == (activeLanes v s m.g).getLast? then poisonCauses v s ls.getLast?.toList [b.use] ++ badSet ls else []
  let (act, cs) ← prologue v s m.g srcs [] (badAddress m.space m.a || decide (192 ≤ b.reg.toNat))
    (own := fun ls => own ls ++ (reads ls).1.2) (shown := if m.space == .f then [b.use] else srcs)
  match act.getLast? with
  | none => return s
  | some h =>
    let set_ := setOf h
    let ((as, es), s) := reads act
    checkCauses (cs ++ own act ++ es)
    if s.pilotCopies v.teamKey then throw (stalledQld v s fun g => { g with copyWait := true })
    if 8 ≤ s.queueUse v.teamKey v.team set_ q.toNat then throw (stalledQld v s fun g => { g with copyWait := false, fullWait := some (set_ * 16 + q.toNat) })
    let (id, s) := s.fresh
    let op : QldOp := { core := v.core, gk := v.gk, team := v.teamKey, q := q.toNat, set_ := set_, lanes := lanesOf act,
                        pas := as.foldl (fun p a => p.put a.lane a.pa) [], vas := as.foldl (fun p a => p.put a.lane (va57 a.va)) [] }
    return (s.modGroup v.gk fun g => { g with fullWait := none, copyWait := false }).modEx fun x => { x with qlds := x.qlds.put id op }

/-- Whether a pilot group's QLD would still wait (R150). -/
def State.qldStalls (s : State) (g : Group) : Bool :=
  (g.copyWait && s.pilotCopies g.team) || match g.fullWait, s.ex.teams.find g.team with
    | some n, some t => decide (8 ≤ s.queueUse g.team t (n / 16) (n % 16))
    | _, _ => false

/-- The word that a lane's element of a QLD holds: a faulty word travels marked (R150). -/
def qldWord (t : TWord) : TWord := { data := t.data, code := dcc t.data, mark := t.mark || t.code != dcc t.data }

/-- The lanes of a QLD whose words may be read now: program order holds for one word (R146). -/
def State.qldLanes (s : State) (id : Nat) (op : QldOp) : List Nat :=
  (lanesIn op.lanes).filter fun l => !op.got.has l && match op.pas.find l with
    | none => false
    | some pa =>
      !(s.ex.qlds.any fun e => decide (e.1 < id) && e.2.gk == op.gk && !e.2.got.has l && (e.2.pas.find l).map (· / 4) == some (pa / 4))
        && !(s.ex.reqs.any fun e => decide (e.1 < id) && e.2.dest.gk == op.gk && e.2.dest.lane == l && !e.2.performed
              && e.2.addr / 4 ≤ pa / 4 && decide (pa / 4 < e.2.addr / 4 + e.2.count))

/-- Read one lane's word of a QLD at its home slice. -/
def State.qldRead (s : State) (id : Nat) (op : QldOp) (l : Nat) : State :=
  let asid := match (s.ex.teams.find op.team).bind (fun t => s.org.grids.find t.grid) with | some g => g.asid | none => 0
  let (t, s) := s.sliceRead ((op.pas.find l).getD 0) asid
  s.modEx fun x => { x with qlds := x.qlds.modify id fun o => { o with got := o.got.put l (qldWord t) } }

/-- Whether a QLD's entry may be pushed: every word read, and no earlier QLD of its queue still to push. -/
def State.qldReady (s : State) (id : Nat) (op : QldOp) : Bool :=
  (lanesIn op.lanes).all op.got.has
    && !(s.ex.qlds.any fun e => decide (e.1 < id) && e.2.team == op.team && e.2.q == op.q && e.2.set_ == op.set_)

/-- Push a QLD's entry as the newest of its queue. -/
def State.qldPush (s : State) (id : Nat) (op : QldOp) : State :=
  let e : QEntry := { words := op.got, clk := s.dev.clock }
  let key := op.set_ * 16 + op.q
  (s.modEx fun x => { x with qlds := x.qlds.del id }).modTeam op.team fun t =>
    { t with queues := t.queues.put key (AMap.get [] t.queues key ++ [e]) }

/-! ### The pilot group -/

/-- The key of a team's live pilot group. -/
def State.pilotOf (s : State) (k : Nat) : Option Nat := (s.ex.groups.find? fun e => isPilot e.1 && e.2.team == k).map (·.1)

/-- Start a team's pilot group at a PC (R143, R144, R152): lane l's x1 is l and its x2 the argument. -/
def State.startPilot (s : State) (k core : Nat) (pc : Word64) (arg : Nat → Word) (entry : Bool := false) : State :=
  let j := (s.freePilot core).getD 15
  let (id, s) := s.freshes 32
  let strand (l : Nat) : Strand := { uid := id + l, x := AMap.set {} (AMap.set {} [] 1 { val := BitVec.ofNat 32 l }) 2 { val := arg l } }
  let grp : Group := { gid := id, team := k, age := s.dev.clock, remap := (List.range 32).map (fun l => (l, 1024 + l)),
                       splits := [{ pc := pc, mask := 0xFFFFFFFF, st := .ready, entry := entry }], run := freshRun id }
  (s.modEx fun x => { x with
    groups := x.groups.put (core * 256 + 128 + j) grp
    strands := (List.range 32).foldl (fun m l => m.put (strandKey k (1024 + l)) (strand l)) x.strands }).modTeam k fun t =>
      { t with pilotEnded := false }

/-- The pilot group ends (R153, R263): its lanes and its place in the engine go. -/
def State.endPilot (s : State) (k gk : Nat) : State :=
  ((s.endRun gk).modEx fun x => { x with
    groups := x.groups.del gk
    strands := x.strands.filter fun e => !(e.1 / 2048 == k && 1024 ≤ e.1 % 2048) }).modTeam k fun t => { t with pilotEnded := true }

/-- Empty every queue of every set of a team. -/
def State.flushQueues (s : State) (k : Nat) : State := s.modTeam k fun t => { t with queues := [] }

/-- Whether the strands of some lanes have accesses at home slices, or write-backs of releases, still to be performed (R152). -/
def State.unsettled (s : State) (v : View) (act : List Nat) : Bool :=
  act.any fun l =>
    let k := v.key l
    s.ex.reqs.any (fun e => e.2.dest.strand == k && !e.2.performed && e.2.unit == .slice)
      || s.ex.fences.any fun e => e.2.rel && e.2.strands.contains k

/-- PGO (R152). -/
def execPgo (g : Guard) (a b : Src) (s : State) : Result := runBody s fun v s => do
  let srcs := [a.use true, b.use]
  let dead := v.grid.hdr.pilotent == 0 || (s.pilotOf v.teamKey).isSome
  let pcAt (l : Nat) : Word64 := (valR v s l a true).1
  let targets (h : Option Nat) (act : List Nat) : List (Nat × Nat × Word64) := match h with
    | some h => match s.badTarget v.core v.asid v.team (pcAt h) with
      | some (c, t) => act.map fun l => (l, c, t)
      | none => []
    | none => []
  let dead_ (act : List Nat) : List (Nat × Nat × Word64) := if dead then act.map fun l => (l, 3, 0) else []
  let aims (act : List Nat) : List (Nat × Nat × Word64) :=
    if (poisonCauses v s act.getLast?.toList [a.use true]).isEmpty then targets act.getLast? act else []
  let (act, cs) ← atEntry (fun _ => (activeLanes v s g).getLast?.map pcAt) (prologue v s g srcs [] (decide (192 ≤ b.reg.toNat))
    (own := fun ls => poisonCauses v s ls srcs ++ if ls.getLast? == (activeLanes v s g).getLast? then aims ls else []) (fixed := dead_))
  match act.getLast? with
  | none => throw (failAll 3 0 v.lanes)
  | some h =>
      checkTargets (cs ++ poisonCauses v s act srcs ++ dead_ act) (aims act) fun _ => pcAt h
      let pc := pcAt h
      if s.unsettled v act then throw .stall
      return s.startPilot v.teamKey v.core pc fun l => if act.contains l then lo (valR v s l b false).1 else 0

/-- PSTOP (R153): the split waits for PILOT_STOP_COMPLETE; with no pilot group live only the flush happens. -/
def execPstop (g : Guard) (flush : Bool) (s : State) : Result := runBody s fun v s => do
  let (act, _) ← prologue v s g [] []
  if act.isEmpty then return s
  match s.pilotOf v.teamKey with
  | some _ => return s.modGroup v.gk fun g => { g with block := some (.pstop flush) }
  | none => return if flush then s.flushQueues v.teamKey else s

/-- The pilot status word (Table 8.1). -/
def State.pilotStatus (s : State) (k : Nat) : Word :=
  match (s.pilotOf k).bind s.ex.groups.find with
  | none => 0
  | some g =>
    let base : Nat := 1
    match g.fullWait with
    | none => BitVec.ofNat 32 base
    | some n => BitVec.ofNat 32 (base + 2 + n % 16 * 4 + n / 16 * 64)

/-- QSTAT (R154). -/
def execQstat (x : FDS) (wide : Bool) (s : State) : Result := runBody s fun v s => do
  let set_ (l : Nat) : Nat := (lo (valR v s l x.a false).1).toNat
  let own (ls : List Nat) : List (Nat × Nat × Word64) :=
    poisonCauses v s ls [x.a.use] ++ (ls.filter fun l => wide && decide (v.grid.hdr.capacity / 32 ≤ set_ l)).map fun l => (l, 3, 0)
  let (act, cs) ← prologue v s x.g [x.a.use] [(x.d, wide)] (own := own)
  checkCauses (cs ++ own act)
  let counts (l : Nat) : Word64 :=
    (List.range 16).foldl (fun w n => w ||| (BitVec.ofNat 64 (AMap.get [] v.team.queues (set_ l * 16 + n)).length <<< (4 * n))) 0
  let val (l : Nat) : List Word := if wide then twoWords (counts l) else [s.pilotStatus v.teamKey]
  return popQueues v [x.a.use] (writeDest v act x.d (fun l => (val l, false)) s)

/-- Whether a pilot group may not issue: it is being stopped by itself or by a group of its team (R153). -/
def State.pilotStopping (s : State) (k : Nat) : Bool :=
  s.ex.groups.any fun e => e.2.team == k && match e.2.block with | some (.pstop _) => true | _ => false

/-- Whether the pilot's issued work is complete (R153). -/
def State.pilotQuiet (s : State) (gk : Nat) : Bool :=
  !(s.ex.qlds.any fun e => e.2.gk == gk) && !(s.ex.reqs.any fun e => e.2.dest.gk == gk) && !(s.ex.longs.any fun e => e.2.dest.gk == gk)

/-- PILOT_STOP_COMPLETE (R153): group is the one that waits, or the pilot group itself once its team's last group has retired. -/
def execPilotStopComplete (core group : Nat) (s : State) : Result :=
  let gk := core * 256 + group
  match s.ex.groups.find gk with
  | none => .fault .notDue
  | some g =>
    match g.block with
    | some (.pstop flush) =>
      let quiet := match s.pilotOf g.team with | some p => s.pilotQuiet p | none => true
      if !quiet then .fault .notDue else
      let s := match s.pilotOf g.team with | some p => s.endPilot g.team p | none => s
      let s := if flush then s.flushQueues g.team else s
      .next (s.modGroup gk fun g => { g with block := none }).idle
    | _ => .fault .notDue

/-- QLD_PUSH (R150). -/
def execQldPush (core id : Nat) (s : State) : Result :=
  match s.ex.qlds.find id with
  | none => .fault .notDue
  | some op => if op.core == core && s.qldReady id op then .next (s.qldPush id op).idle else .fault .notDue

/-- Whether every live strand of a team has arrived at the barrier, when its pilot group stops (R155). -/
def State.allArrived (s : State) (k : Nat) : Bool :=
  let mine := s.ex.strands.filter fun e => e.1 / 2048 == k && e.1 % 2048 < 1024
  !mine.isEmpty && mine.all fun e => e.2.arrived

end Sys2Proof.Machine
end

