-- ==== Sys2Proof/Decode.lean ====
section
/-! DEFINITION. Decoding (R21 to R49 and each instruction's own table), total on any word and rejecting by name, and the
encoder written from the same tables. -/

namespace Sys2Proof

/-! ### The fields of a word (Table 2.3) -/

/-- The fields of Table 2.3. -/
structure Fields where
  imm : BitVec 32 := 0
  mod : BitVec 5 := 0
  fslot : BitVec 3 := 0
  ty : BitVec 4 := 0
  r51 : Bool := false
  eac : Bool := false
  eab : Bool := false
  eaa : Bool := false
  c : BitVec 8 := 0
  b : BitVec 8 := 0
  a : BitVec 8 := 0
  d : BitVec 8 := 0
  immf : Bool := false
  gen : Bool := false
  gsense : Bool := false
  gpred : BitVec 4 := 0
  opc : BitVec 9 := 0
deriving DecidableEq, Repr

/-- The fields of a native word (Table 2.3). -/
def unpack (w : IWord) : Fields where
  imm := w.extractLsb' 64 32
  mod := w.extractLsb' 59 5
  fslot := w.extractLsb' 56 3
  ty := w.extractLsb' 52 4
  r51 := w.getLsbD 51
  eac := w.getLsbD 50
  eab := w.getLsbD 49
  eaa := w.getLsbD 48
  c := w.extractLsb' 40 8
  b := w.extractLsb' 32 8
  a := w.extractLsb' 24 8
  d := w.extractLsb' 16 8
  immf := w.getLsbD 15
  gen := w.getLsbD 14
  gsense := w.getLsbD 13
  gpred := w.extractLsb' 9 4
  opc := w.extractLsb' 0 9

/-- One bit of a word. -/
def bit (b : Bool) : BitVec 1 := if b then 1 else 0

/-- The native word of the fields (Table 2.3). -/
def pack (f : Fields) : IWord :=
  f.imm ++ f.mod ++ f.fslot ++ f.ty ++ bit f.r51 ++ bit f.eac ++ bit f.eab ++ bit f.eaa ++ f.c ++ f.b ++ f.a ++ f.d
    ++ bit f.immf ++ bit f.gen ++ bit f.gsense ++ f.gpred ++ f.opc

/-- The fields of a DPF instruction (Table 19.5): a 7-bit operand u names u below 64 and u + 128 from there (R335). -/
def dpfOperand (u : BitVec 7) : BitVec 8 := if u.toNat < 64 then u.setWidth 8 else u.setWidth 8 + 128

/-- The fields of a DPF instruction's syllables; S1[15] takes the place of bit 51 (R335). -/
def dpfFields (s0 s1 s2 : Word) : Fields where
  imm := if s0.getLsbD 30 then s2 else 0
  mod := s1.extractLsb' 26 5
  fslot := s1.extractLsb' 23 3
  ty := s1.extractLsb' 19 4
  r51 := s1.getLsbD 15
  eac := s1.getLsbD 18
  eab := s1.getLsbD 17
  eaa := s1.getLsbD 16
  c := s1.extractLsb' 0 8
  b := dpfOperand (s1.extractLsb' 8 7)
  a := dpfOperand (s0.extractLsb' 0 7)
  d := dpfOperand (s0.extractLsb' 7 7)
  immf := s0.getLsbD 14
  gen := s0.getLsbD 15
  gsense := s0.getLsbD 16
  gpred := s0.extractLsb' 17 4
  opc := s0.extractLsb' 21 9

/-! ### Decoding sub-fields -/

/-- TYPE (Table 2.5); value 15 is caught before this is used. -/
def typeOf (v : BitVec 4) : OpType :=
  match v.toNat with
  | 0 => .s32 | 1 => .z32 | 2 => .s64 | 3 => .z64 | 4 => .f32 | 5 => .f64 | 6 => .f16 | 7 => .bf16
  | 8 => .f16x2 | 9 => .bf16x2 | 10 => .s8 | 11 => .z8 | 12 => .s16 | 13 => .z16 | _ => .slot

/-- A type field that an instruction accepting p rejects (R35). -/
def badType (v : BitVec 4) (p : OpType → Bool) : Bool := v == 15 || !p (typeOf v)

/-- MOD[61:59] as a rounding (R36). -/
def roundOf (m : BitVec 5) : Rounding :=
  match (m.extractLsb' 0 3).toNat with
  | 0 => .rn | 1 => .rz | 2 => .rd | 3 => .ru | 4 => .rna | _ => .rdyn

/-- The code of a rounding. -/
def Rounding.code : Rounding → BitVec 3
  | .rn => 0 | .rz => 1 | .rd => 2 | .ru => 3 | .rna => 4 | .rdyn => 5

/-- MOD of a rounding instruction: values 6 and 7, MOD[63], and .sat where it is not taken (R36). -/
def badRound (m : BitVec 5) (sat : Bool) : Bool :=
  decide (5 < (m.extractLsb' 0 3).toNat) || m.getLsbD 4 || (m.getLsbD 3 && !sat)

/-- MOD as a compare condition (Table 2.6). -/
def condOf (m : BitVec 5) : Cond :=
  match m.toNat with
  | 0 => .eq | 1 => .ne | 2 => .lt | 3 => .le | 4 => .gt | 5 => .ge | 6 => .num | 7 => .nan
  | 8 => .equ | 9 => .neu | 10 => .ltu | 11 => .leu | 12 => .gtu | _ => .geu

/-- The value of a condition (Table 2.6). -/
def Cond.code : Cond → BitVec 5
  | .eq => 0 | .ne => 1 | .lt => 2 | .le => 3 | .gt => 4 | .ge => 5 | .num => 6 | .nan => 7
  | .equ => 8 | .neu => 9 | .ltu => 10 | .leu => 11 | .gtu => 12 | .geu => 13

/-- MOD[60:59] as a space (Table 2.7); 3 is illegal. -/
def spaceOf (m : BitVec 5) : Space :=
  match (m.extractLsb' 0 2).toNat with | 0 => .g | 1 => .s | _ => .f

/-- The value of a space. -/
def Space.code : Space → BitVec 2 | .g => 0 | .s => 1 | .f => 2

/-- C[2:0] as a scope (Table 2.7); 6 and 7 are illegal. -/
def scopeOf (c : BitVec 8) : Scope :=
  match (c.extractLsb' 0 3).toNat with
  | 0 => .plain | 1 => .grp | 2 => .core | 3 => .dev | 4 => .part | _ => .sys

/-- The value of a scope. -/
def Scope.code : Scope → BitVec 3 | .plain => 0 | .grp => 1 | .core => 2 | .dev => 3 | .part => 4 | .sys => 5

/-- C[4:3] as an order (Table 2.7). -/
def orderOf (c : BitVec 8) : Order :=
  match (c.extractLsb' 3 2).toNat with | 0 => .plain | 1 => .acq | 2 => .rel | _ => .ar

/-- The value of an order. -/
def Order.code : Order → BitVec 2 | .plain => 0 | .acq => 1 | .rel => 2 | .ar => 3

/-- C[6:5] as a cache hint (Table 2.7). -/
def hintOf (c : BitVec 8) : Hint :=
  match (c.extractLsb' 5 2).toNat with | 0 => .normal | 1 => .stream | 2 => .keep | _ => .nol1

/-- The value of a hint. -/
def Hint.code : Hint → BitVec 2 | .normal => 0 | .stream => 1 | .keep => 2 | .nol1 => 3

/-- MOD[63:61] as an atomic operation (Table 2.7). -/
def atomOf (m : BitVec 5) : AtomOp :=
  match (m.extractLsb' 2 3).toNat with
  | 0 => .add | 1 => .min | 2 => .max | 3 => .and | 4 => .or | 5 => .xor | 6 => .exch | _ => .cas

/-- The value of an atomic operation. -/
def AtomOp.code : AtomOp → BitVec 3
  | .add => 0 | .min => 1 | .max => 2 | .and => 3 | .or => 4 | .xor => 5 | .exch => 6 | .cas => 7

/-- C[2:0] as an operation of REDL and SCANL (Table 10.9). -/
def redOf (c : BitVec 8) : RedOp :=
  match (c.extractLsb' 0 3).toNat with
  | 0 => .add | 1 => .min | 2 => .max | 3 => .and | 4 => .or | _ => .xor

/-- The value of an operation. -/
def RedOp.code : RedOp → BitVec 3 | .add => 0 | .min => 1 | .max => 2 | .and => 3 | .or => 4 | .xor => 5

/-- MOD[60:59] as a mode of SHFL (R195). -/
def shflOf (m : BitVec 5) : ShflMode :=
  match (m.extractLsb' 0 2).toNat with | 0 => .at | 1 => .back | 2 => .fwd | _ => .flip

/-- The value of a mode of SHFL. -/
def ShflMode.code : ShflMode → BitVec 2 | .at => 0 | .back => 1 | .fwd => 2 | .flip => 3

/-- MOD[60:59] as a mode of POLL (R197). -/
def pollOf (m : BitVec 5) : PollMode :=
  match (m.extractLsb' 0 2).toNat with | 0 => .every | 1 => .some | 2 => .same | _ => .mask

/-- The value of a mode of POLL. -/
def PollMode.code : PollMode → BitVec 2 | .every => 0 | .some => 1 | .same => 2 | .mask => 3

/-- MOD[60:59] as a kind of PCLR and PTST (R191); 3 is illegal. -/
def poisonOf (m : BitVec 5) : PoisonKind :=
  match (m.extractLsb' 0 2).toNat with | 0 => .reg | 1 => .pair | _ => .pred

/-- The value of a kind. -/
def PoisonKind.code : PoisonKind → BitVec 2 | .reg => 0 | .pair => 1 | .pred => 2

/-- MOD[60:59] as a form of COPY (R90); 3 is illegal. -/
def copyOf (m : BitVec 5) : CopyForm :=
  match (m.extractLsb' 0 2).toNat with | 0 => .gs | 1 => .sg | _ => .gg

/-- The value of a form. -/
def CopyForm.code : CopyForm → BitVec 2 | .gs => 0 | .sg => 1 | .gg => 2

/-! ### Decoding -/

/-- The engine an instruction is decoded for (R47). -/
inductive Engine where
  | core | pilot | helm
deriving DecidableEq, Repr

/-- Why a word is rejected: the checks 4 to 11 of Table 2.10. -/
inductive Reject where
  | opcode | engine | reserved | immf | type | mod | csub | guard
deriving DecidableEq, Repr

/-- The reason code of a check (Table 2.10). -/
def Reject.reason : Reject → Nat
  | .opcode => 1 | .engine => 9 | .reserved => 5 | .immf => 0xB | .type => 2 | .mod => 3 | .csub => 4 | .guard => 0xA

/-- What the checks 5 to 11 find in a word of an assigned opcode, and the instruction when none fails. -/
structure Plan where
  engine : Bool := false
  reserved : Bool := false
  immf : Bool := false
  type : Bool := false
  mod : Bool := false
  csub : Bool := false
  guard : Bool := false
  i : Instr

/-- The guard fields (R32). -/
def Fields.guard (f : Fields) : Guard := if f.gen then .when f.gpred f.gsense else .always
/-- Source a. -/
def Fields.sa (f : Fields) : Src := ⟨f.a, f.eaa⟩
/-- Source b as a register. -/
def Fields.sb (f : Fields) : Src := ⟨f.b, f.eab⟩
/-- Source c. -/
def Fields.sc (f : Fields) : Src := ⟨f.c, f.eac⟩
/-- Operand b (R33). -/
def Fields.ob (f : Fields) : SrcB := if f.immf then .imm f.imm else .reg f.sb
/-- The type. -/
def Fields.t (f : Fields) : OpType := typeOf f.ty
/-- The rounding. -/
def Fields.rm (f : Fields) : Rounding := roundOf f.mod
/-- .sat. -/
def Fields.sat (f : Fields) : Bool := f.mod.getLsbD 3
/-- The fields of a one-source shape. -/
def Fields.fa (f : Fields) : FA := ⟨f.guard, f.t, f.d, f.sa⟩
/-- The fields of a two-source shape. -/
def Fields.fab (f : Fields) : FAB := ⟨f.guard, f.t, f.d, f.sa, f.ob⟩
/-- The fields of a three-source shape. -/
def Fields.fabc (f : Fields) : FABC := ⟨f.guard, f.t, f.d, f.sa, f.ob, f.sc⟩
/-- The fields of a rounding shape of one source. -/
def Fields.far (f : Fields) : FAR := ⟨f.guard, f.t, f.d, f.sa, f.rm⟩
/-- The fields of a rounding shape of two sources. -/
def Fields.fabr (f : Fields) : FABR := ⟨f.guard, f.t, f.d, f.sa, f.ob, f.rm, f.sat⟩
/-- The optional predicate P of R193. -/
def Fields.p (f : Fields) : Option (BitVec 4) := if f.c.getLsbD 4 then some (f.c.extractLsb' 0 4) else none
/-- The fields of a cross-lane move. -/
def Fields.fx (f : Fields) : FX := ⟨f.guard, f.t, f.d, f.sa, f.ob, f.p⟩
/-- The fields of REDL and SCANL. -/
def Fields.fred (f : Fields) : FRed := ⟨f.guard, f.t, f.d, f.sa, redOf f.c, f.rm⟩
/-- A destination and a source. -/
def Fields.fds (f : Fields) : FDS := ⟨f.guard, f.d, f.sa⟩
/-- The await entries (R43). -/
def Fields.aw (f : Fields) : Await := ⟨f.a, f.b, f.c, f.imm.extractLsb' 24 8⟩
/-- IMM[19:0]. -/
def Fields.tgt (f : Fields) : BitVec 20 := f.imm.extractLsb' 0 20
/-- The fields of a memory access. -/
def Fields.mem (f : Fields) : FMem := ⟨f.guard, f.t, spaceOf f.mod, scopeOf f.c, orderOf f.c, hintOf f.c, f.sa, f.imm⟩
/-- The fields of an atomic access. -/
def Fields.atm (f : Fields) : FAtom := ⟨f.guard, f.t, spaceOf f.mod, atomOf f.mod, scopeOf f.c, orderOf f.c, f.sa, f.sb, f.imm⟩
/-- High bits of an 8-bit field that names a predicate. -/
def hi4 (v : BitVec 8) : Bool := v.extractLsb' 4 4 != 0
/-- High bits of an 8-bit field that names a tile. -/
def hi5 (v : BitVec 8) : Bool := v.extractLsb' 3 5 != 0

/-- Class 0 of two operands and an optional immediate (Table 10.2). -/
def planAB (f : Fields) (i : FAB → Instr) (ok : OpType → Bool := OpType.i32) : Plan :=
  { type := badType f.ty ok, mod := f.mod != 0, i := i f.fab }
/-- Class 0 and 1 of one source. -/
def planA (f : Fields) (i : FA → Instr) (ok : OpType → Bool := OpType.i32) : Plan :=
  { immf := f.immf, type := badType f.ty ok, mod := f.mod != 0, i := i f.fa }
/-- Three sources. -/
def planABC (f : Fields) (i : FABC → Instr) (ok : OpType → Bool := OpType.i32) : Plan :=
  { type := badType f.ty ok, mod := f.mod != 0, i := i f.fabc }
/-- A rounding instruction of two sources (Table 10.5). -/
def planABR (f : Fields) (i : FABR → Instr) (ok : OpType → Bool) (sat : Bool) : Plan :=
  { type := badType f.ty ok, mod := badRound f.mod sat, i := i f.fabr }
/-- A rounding instruction of one source. -/
def planAR (f : Fields) (i : FAR → Instr) (ok : OpType → Bool) : Plan :=
  { immf := f.immf, type := badType f.ty ok, mod := badRound f.mod false, i := i f.far }
/-- A cross-lane move (Table 10.8). -/
def planX (f : Fields) (i : FX → Instr) (mod : Bool) : Plan :=
  { reserved := f.c.extractLsb' 5 3 != 0, type := badType f.ty OpType.w3264, mod := mod, i := i f.fx }
/-- REDL and SCANL: rnd for .f32 add, else MOD is zero (R193). -/
def planRed (f : Fields) (res : Bool) (i : Instr) : Plan :=
  { reserved := res, immf := f.immf, type := badType f.ty OpType.red,
    mod := badRound f.mod false || (f.mod != 0 && !(f.t == .f32 && redOf f.c == .add)),
    csub := decide (5 < (f.c.extractLsb' 0 3).toNat) || !(redOf f.c).accepts f.t, i := i }
/-- The C sub-fields of a memory instruction (R38, R114), and the pilot's restriction (R146). -/
def badC (e : Engine) (f : Fields) (orders : List Order) : Bool :=
  decide (5 < (f.c.extractLsb' 0 3).toNat) || !orders.contains (orderOf f.c)
    || !scopeOrderOk (spaceOf f.mod) (scopeOf f.c) (orderOf f.c) || (e == .pilot && f.c.extractLsb' 0 5 != 0)
/-- MOD[60:59] = 3, or a space the instruction does not take (R38). -/
def badSpace (f : Fields) (no : Space → Bool) : Bool := f.mod.extractLsb' 0 2 == 3 || no (spaceOf f.mod)
/-- A trailer's reserved fields: IMMF, IMM[23:20], and IMM[19:0] where it is unused (R43, R258). -/
def planT (f : Fields) (tgtUsed : Bool) (res : Bool) (i : Instr) : Plan :=
  { reserved := f.imm.extractLsb' 20 4 != 0 || (!tgtUsed && f.tgt != 0) || res, immf := f.immf, i := i }
/-- A trailer that must be unguarded (R45). -/
def planU (f : Fields) (i : Instr) : Plan := { planT f false false i with guard := f.gen }
/-- An array instruction: IMMF, MOD[63:60], and MOD[59] where it names no option (R229). -/
def planS (f : Fields) (opt : Bool) (i : Instr) : Plan :=
  { immf := f.immf, mod := f.mod.extractLsb' 1 4 != 0 || (!opt && f.mod.getLsbD 0), i := i }
/-- A matrix instruction (R211). -/
def planM (f : Fields) (tile c0 : Bool) (i : Instr) : Plan :=
  { reserved := tile && hi5 f.d, immf := f.immf, mod := f.mod != 0, csub := c0 && f.c != 0, i := i }
/-- An engine instruction with no field of MOD. -/
def planE (f : Fields) (i : Instr) : Plan := { immf := f.immf, i := i }

/-- Class 0 (Table 10.2). -/
def plan0 (f : Fields) : Option Plan :=
  match f.opc.toNat with
  | 0x001 => some { i := .nop }
  | 0x002 => some { type := badType f.ty OpType.plain, mod := f.mod != 0, i := .mov ⟨f.guard, f.t, f.d, f.ob⟩ }
  | 0x003 => some { planAB f (fun x => .sel x (f.c.extractLsb' 0 4)) OpType.plain with reserved := hi4 f.c }
  | 0x004 => some (planAB f .add)
  | 0x005 => some (planAB f .sub)
  | 0x006 => some (planAB f .adds)
  | 0x007 => some (planA f .neg)
  | 0x008 => some (planAB f .mul)
  | 0x009 => some (planAB f .mulh)
  | 0x00A => some (planABC f .mad)
  | 0x00B => some { planABC f (.dot4 · f.sat) (OpType.within · 10 11) with mod := f.mod.extractLsb' 0 3 != 0 || f.mod.getLsbD 4 }
  | 0x00C => some (planAB f .div)
  | 0x00D => some (planAB f .rem)
  | 0x00E => some (planAB f .min)
  | 0x00F => some (planAB f .max)
  | 0x010 => some (planA f .abs (· == .s32))
  | 0x011 => some (planAB f .and)
  | 0x012 => some (planAB f .or)
  | 0x013 => some (planAB f .xor)
  | 0x014 => some (planAB f .andn)
  | 0x015 => some (planA f .not)
  | 0x016 => some (planAB f .shl)
  | 0x017 => some (planAB f .shr)
  | 0x018 => some (planAB f .sar)
  | 0x019 => some (planAB f .rol)
  | 0x01A => some (planAB f .bfx)
  | 0x01B => some (planABC f .bfi)
  | 0x01C => some (planA f .popc)
  | 0x01D => some (planA f .clz)
  | 0x01E => some (planA f .ctz)
  | 0x01F => some (planA f .brev)
  | 0x020 => some (planAB f .add64 (OpType.within · 2 3))
  | 0x021 => some (planAB f .sub64 (OpType.within · 2 3))
  | 0x022 => some { planAB f (.lea · f.mod) with mod := false }
  | 0x023 => some { reserved := hi4 f.d, type := badType f.ty (OpType.within · 0 3), mod := decide (5 < f.mod.toNat),
                    i := .isetp ⟨f.guard, f.t, f.d.extractLsb' 0 4, f.sa, f.ob, condOf f.mod⟩ }
  | 0x024 => some (planABC f .bsel (· == .z32))
  | _ => none

/-- Class 1 (Table 10.5, R191). -/
def plan1 (f : Fields) : Option Plan :=
  match f.opc.toNat with
  | 0x040 => some (planABR f .fadd OpType.fp true)
  | 0x041 => some (planABR f .fsub OpType.fp true)
  | 0x042 => some (planABR f .fmul OpType.fp true)
  | 0x043 => some (planABR f (.ffma · f.sc) OpType.fp true)
  | 0x044 => some (planAB f .fmin OpType.fp)
  | 0x045 => some (planAB f .fmax OpType.fp)
  | 0x046 => some (planAB f .fminm OpType.fp)
  | 0x047 => some (planAB f .fmaxm OpType.fp)
  | 0x048 => some (planA f .fabs OpType.fp)
  | 0x049 => some (planA f .fneg OpType.fp)
  | 0x04A => some { reserved := hi4 f.d, type := badType f.ty OpType.fp1, mod := decide (13 < f.mod.toNat),
                    i := .fsetp ⟨f.guard, f.t, f.d.extractLsb' 0 4, f.sa, f.ob, condOf f.mod⟩ }
  | 0x04B => some (planA f .fclass OpType.fp1)
  | 0x04C => some (planAR f .frnd OpType.fp1)
  | 0x04D => some (planABR f .fscale OpType.fp1 true)
  | 0x04E => some (planABR f .fdiv OpType.fp1 false)
  | 0x04F => some (planAR f .fsqrt OpType.fp1)
  | 0x050 => some (planAR f .frcp OpType.fp1)
  | 0x051 => some (planAR f .frsq OpType.fp1)
  | 0x052 => some (planA f .fexp2 OpType.trans)
  | 0x053 => some (planA f .flog2 OpType.trans)
  | 0x054 => some (planA f .fsin OpType.trans)
  | 0x055 => some (planA f .fcos OpType.trans)
  | 0x056 => some (planA f .ftanh OpType.trans)
  | 0x057 => some { reserved := poisonOf f.mod == .pred && f.mod.extractLsb' 0 2 != 3 && hi4 f.d, immf := f.immf,
                    mod := f.mod.extractLsb' 0 2 == 3 || f.mod.extractLsb' 2 3 != 0, i := .pclr f.guard (poisonOf f.mod) f.d }
  | 0x058 => some { reserved := hi4 f.d || (poisonOf f.mod == .pred && f.mod.extractLsb' 0 2 != 3 && hi4 f.a), immf := f.immf,
                    mod := f.mod.extractLsb' 0 2 == 3 || f.mod.extractLsb' 2 3 != 0,
                    i := .ptst f.guard (poisonOf f.mod) (f.d.extractLsb' 0 4)
                      (if poisonOf f.mod == .pred then ⟨f.a, false⟩ else f.sa) }
  | _ => none

/-- Class 2 (R170 to R173). -/
def plan2 (f : Fields) : Option Plan :=
  let sty := f.c.extractLsb' 0 4
  match f.opc.toNat with
  | 0x080 => some { reserved := hi4 f.c, immf := f.immf,
                    type := badType f.ty (!·.packed) || badType sty (!·.packed) || (f.ty == 14 && sty == 14),
                    mod := badRound f.mod true || (f.ty == 14 && f.mod != 0),
                    i := .cvt f.far (typeOf sty) f.sat (if f.t == .slot || typeOf sty == .slot then f.fslot else 0) }
  | 0x081 => some { immf := f.immf, type := badType f.ty (· == .slot), mod := f.mod.extractLsb' 1 4 != 0,
                    i := .tfpk f.guard f.fslot (f.mod.getLsbD 0) f.d f.sa f.sb f.sc }
  | 0x082 => some { immf := f.immf, type := badType f.ty (· == .slot), mod := f.mod.extractLsb' 1 4 != 0,
                    i := .tfunpk f.guard f.fslot (f.mod.getLsbD 0) f.d f.sa }
  | 0x083 => some (planABR f .pack2 OpType.packed true)
  | 0x084 => some { immf := f.immf, type := badType f.ty (· == .slot), i := .slotq f.guard f.fslot f.d }
  | _ => none

/-- Class 3 (Table 10.8, R134, R135). -/
def plan3 (f : Fields) : Option Plan :=
  let pd := f.d.extractLsb' 0 4
  match f.opc.toNat with
  | 0x0C0 => some (planX f (.shfl · (shflOf f.mod)) (f.mod.extractLsb' 2 3 != 0))
  | 0x0C1 => some (planX f .shflr (f.mod != 0))
  | 0x0C2 => some (planX f .xput (f.mod != 0))
  | 0x0C3 => some { reserved := hi4 f.a || (pollOf f.mod != .mask && hi4 f.d), immf := f.immf,
                    mod := f.mod.extractLsb' 2 3 != 0, i := .poll f.guard (pollOf f.mod) f.d (f.a.extractLsb' 0 4) }
  | 0x0C4 => some (planRed f (hi5 f.c) (.redl f.fred))
  | 0x0C5 => some (planRed f (hi4 f.c) (.scanl f.fred (f.c.getLsbD 3)))
  | 0x0C6 => some { reserved := f.c.extractLsb' 6 2 != 0, immf := f.immf, type := badType f.ty OpType.w3264, mod := f.mod != 0,
                    i := .kin f.fa f.p (f.c.getLsbD 4 && f.c.getLsbD 5) }
  | 0x0C7 => some { reserved := hi4 f.a || hi4 f.b || hi4 f.c || hi4 f.d || f.imm.extractLsb' 8 24 != 0, immf := f.immf,
                    mod := f.mod != 0,
                    i := .plop f.guard pd (f.a.extractLsb' 0 4) (f.b.extractLsb' 0 4) (f.c.extractLsb' 0 4) (f.imm.extractLsb' 0 8) }
  | 0x0C8 => some { immf := f.immf, mod := f.mod != 0, i := .pget ⟨f.guard, f.d⟩ }
  | 0x0C9 => some { reserved := f.imm.extractLsb' 16 16 != 0, immf := f.immf, mod := f.mod != 0,
                    i := .pput ⟨f.guard, f.sa⟩ (f.imm.extractLsb' 0 16) }
  | 0x0CA => some { reserved := f.imm.extractLsb' 8 24 != 0 || !specialOk (f.imm.extractLsb' 0 8), immf := f.immf,
                    i := .movs ⟨f.guard, f.d⟩ (f.imm.extractLsb' 0 8) }
  | 0x0CB => some { reserved := f.imm.extractLsb' 8 24 != 0 || !specialOk (f.imm.extractLsb' 0 8), immf := f.immf,
                    i := .movsw ⟨f.guard, f.sa⟩ (f.imm.extractLsb' 0 8) }
  | _ => none

/-- Class 4 (Tables 6.4 to 6.7, R142, R150). -/
def plan4 (e : Engine) (f : Fields) : Option Plan :=
  let c7 := f.c.getLsbD 7
  match f.opc.toNat with
  | 0x100 => some { reserved := c7, immf := f.immf, type := badType f.ty OpType.plain,
                    mod := badSpace f (fun s => e == .pilot && s == .s), csub := badC e f [.plain, .acq], i := .ld f.mem f.d }
  | 0x101 => some { engine := e == .pilot, reserved := c7, immf := f.immf, type := badType f.ty OpType.plain,
                    mod := badSpace f (fun _ => false), csub := badC e f [.plain, .rel], i := .st f.mem f.sb }
  | 0x102 => some { engine := e == .pilot, reserved := c7, immf := f.immf, type := badType f.ty (atomOf f.mod).accepts,
                    mod := badSpace f (fun _ => false), csub := badC e f [.plain, .acq, .rel, .ar], i := .atom f.atm f.d }
  | 0x103 => some { engine := e == .pilot, reserved := c7, immf := f.immf, type := badType f.ty (atomOf f.mod).accepts,
                    mod := badSpace f (fun _ => false) || atomOf f.mod == .exch || atomOf f.mod == .cas,
                    csub := badC e f [.plain, .rel], i := .red f.atm }
  | 0x104 => some { engine := e == .pilot, reserved := c7, immf := f.immf, mod := badSpace f (· == .s),
                    csub := f.c.extractLsb' 0 5 != 0, i := .pref f.guard (spaceOf f.mod) (hintOf f.c) f.sa f.imm }
  | 0x105 => some { engine := e == .pilot, reserved := c7, immf := f.immf, mod := f.mod.extractLsb' 0 2 != 2, csub := f.c != 0,
                    i := .faddr f.fds f.imm }
  | 0x106 => some { engine := e == .pilot, reserved := c7, immf := f.immf, mod := f.mod.extractLsb' 0 2 != 0,
                    csub := f.c.extractLsb' 0 5 != 0, i := .cwb ⟨f.guard, f.sa, f.sb, f.imm⟩ }
  | 0x107 => some { engine := e == .pilot, reserved := c7, immf := f.immf, mod := f.mod.extractLsb' 0 2 != 0,
                    csub := f.c.extractLsb' 0 5 != 0, i := .cinv ⟨f.guard, f.sa, f.sb, f.imm⟩ }
  | 0x108 => some { engine := e != .pilot, reserved := c7 || hi4 f.d, immf := f.immf, type := badType f.ty OpType.word4,
                    mod := badSpace f (· == .s) || f.mod.extractLsb' 2 3 != 0, csub := f.c.extractLsb' 0 5 != 0,
                    i := .qld f.mem (f.d.extractLsb' 0 4) f.sb }
  | _ => none

/-- Class 5 (R90, R95, R97, R99, R152 to R154, Table 12.4). -/
def plan5 (e : Engine) (f : Fields) : Option Plan :=
  let opt := f.mod.getLsbD 0
  let np (p : Plan) : Option Plan := some { p with engine := e == .pilot }
  match f.opc.toNat with
  | 0x140 => some { immf := f.immf, mod := f.mod.extractLsb' 0 2 == 3 || f.mod.extractLsb' 2 3 != 0,
                    i := .copy f.guard (copyOf f.mod) f.sa f.sb f.sc }
  | 0x141 => np (planE f (.seal ⟨f.guard, f.d⟩))
  | 0x142 => np (planE f (.cwait ⟨f.guard, f.sa⟩))
  | 0x143 => np (planE f (.sleepto ⟨f.guard, f.sa⟩))
  | 0x144 => np { planE f (.cstat f.fds (f.t == .z64)) with type := badType f.ty OpType.status }
  | 0x148 => np (planE f (.pgo f.guard f.sa f.sb))
  | 0x149 => np { planE f (.pstop f.guard opt) with mod := f.mod.extractLsb' 1 4 != 0 }
  | 0x14A => np { planE f (.qstat f.fds (f.t == .z64)) with type := badType f.ty OpType.status }
  | 0x150 => np (planS f false (.sabind ⟨f.guard, f.d⟩))
  | 0x151 => np (planS f false (.safree f.guard))
  | 0x152 => np (planS f true (.saload f.guard f.sa (if opt then none else some (f.sb, f.sc))))
  | 0x153 => np (planS f true (.saseed ⟨f.guard, f.sa⟩ opt))
  | 0x154 => np (planS f true (.saclamp f.guard f.sa f.sb (if opt then some f.sc else none)))
  | 0x155 => np (planS f true (.sasweep f.guard opt f.d f.sa f.sb))
  | 0x156 => np (planS f false (.saread f.fds))
  | 0x157 => np (planS f true (.sacnt f.fds opt))
  | 0x158 => np { planS f false (.sastat ⟨f.guard, f.d⟩ (f.t == .z64)) with type := badType f.ty OpType.status }
  | _ => none

/-- Class 6 (Table 11.6). -/
def plan6 (e : Engine) (f : Fields) : Option Plan :=
  let tile := f.d.extractLsb' 0 3
  let ft : FTile := ⟨f.guard, tile, f.t, if f.t == .slot then f.fslot else 0, f.sa⟩
  let np (p : Plan) : Option Plan := some { p with engine := e == .pilot }
  match f.opc.toNat with
  | 0x180 => np { planM f true false (.mma f.guard tile f.fslot (f.imm.extractLsb' 0 3) f.sa f.sb f.sc) with
                  reserved := hi5 f.d || f.imm.extractLsb' 3 29 != 0, type := badType f.ty (· == .slot) }
  | 0x181 => np (planM f true false (.mzero f.guard tile))
  | 0x182 => np { planM f true true (.mload ft) with type := badType f.ty OpType.tile }
  | 0x183 => np { planM f true true (.mstore ft) with type := badType f.ty OpType.tile }
  | 0x184 => np (planM f true false (.mmov f.guard tile f.sa f.b))
  | 0x185 => np { planM f false false (.mpin f.guard f.fslot f.sa f.sc) with type := badType f.ty (· == .slot) }
  | 0x186 => np { planM f false false (.munpin f.guard f.fslot f.sa f.sc) with type := badType f.ty (· == .slot) }
  | 0x187 => np (planM f true false (.mrel f.guard tile))
  | 0x188 => some { planM f true false (.msave f.guard tile f.sa f.sb) with engine := e != .helm }
  | 0x189 => some { planM f true false (.mrest f.guard tile f.sa f.sb) with engine := e != .helm }
  | _ => none

/-- The kinds of TLBINV (R75). -/
def tlbOf (f : Fields) : TlbKind :=
  match (f.mod.extractLsb' 0 3).toNat with
  | 0 => .va f.sa f.sb f.sc | 1 => .asid f.sc | 2 => .ipa f.sa f.sb f.sc | 3 => .part f.sc | _ => .all

/-- Class 7 (R258, R264, R273, R275, R240, R292, R293, R326, R338, R75, Table 18.5). -/
def plan7 (e : Engine) (f : Fields) : Option Plan :=
  let t : FTr := ⟨f.guard, f.aw⟩
  let tt : FTrT := ⟨f.guard, f.tgt, f.aw⟩
  let td : FTrD := ⟨f.guard, f.d, f.aw⟩
  let tdt : FTrDT := ⟨f.guard, f.d, f.tgt, f.aw⟩
  let np (p : Plan) : Option Plan := some { p with engine := e == .pilot }
  match f.opc.toNat with
  | 0x1C0 => some (planT f false false (.trail t))
  | 0x1C1 => some (planT f true false (.br tt))
  | 0x1C2 => np (planT f false false (.brx td))
  | 0x1C3 => np (planT f true false (.call tt))
  | 0x1C4 => np (planT f false false (.callx td))
  | 0x1C5 => np (planT f false false (.ret t))
  | 0x1C6 => np (planT f true false (.reform tt))
  | 0x1C7 => some (planU f (.exit f.aw))
  | 0x1C8 => some (planT f true false (.lend tt))
  | 0x1C9 => np (planT f true (hi4 f.d) (.joinw f.guard (f.d.extractLsb' 0 4) f.tgt f.aw))
  | 0x1CA => np (planU f (.bar f.aw))
  | 0x1CB => np (planT f true false (.mwait tdt))
  | 0x1CC => np (planU f (.rte f.aw))
  | 0x1CD => np (planT f false false (.sleep td))
  | 0x1CE => np (planT f true false (.gwait tdt))
  | 0x1D0 => some { reserved := f.imm.extractLsb' 20 12 != 0, immf := f.immf, i := .loop f.guard f.sa f.tgt }
  | 0x1D1 => np { reserved := f.imm.extractLsb' 20 12 != 0, immf := f.immf, i := .spawn f.guard f.d f.sa f.tgt }
  | 0x1D2 => np { immf := f.immf, i := .launch f.fds }
  | 0x1D3 => np { reserved := f.c.extractLsb' 5 3 != 0, immf := f.immf,
                  csub := decide (5 < (f.c.extractLsb' 0 3).toNat) || f.c.extractLsb' 0 3 == 0 || f.c.extractLsb' 3 2 == 0,
                  i := .fence f.guard (scopeOf f.c) (orderOf f.c) }
  | 0x1D4 => np { immf := f.immf, i := .trap f.guard f.imm }
  | 0x1D5 => np { reserved := f.imm.extractLsb' 11 21 != 0 || (f.mod.getLsbD 0 && f.imm.extractLsb' 5 6 != 0), immf := f.immf,
                  mod := f.mod.extractLsb' 1 4 != 0,
                  i := .swi f.guard (f.mod.getLsbD 0) (f.imm.extractLsb' 0 5) (f.imm.extractLsb' 5 6) }
  | 0x1D6 => np { reserved := f.imm.extractLsb' 4 28 != 0, immf := f.immf, i := .featq f.guard f.d (f.imm.extractLsb' 0 4) }
  | 0x1D7 => np { immf := f.immf, mod := f.mod.extractLsb' 1 4 != 0,
                  i := .icinv f.guard (if f.mod.getLsbD 0 then .all else .range f.sa f.sb) }
  | 0x1D8 => some { engine := e != .helm, immf := f.immf,
                    mod := decide (4 < (f.mod.extractLsb' 0 3).toNat) || f.mod.extractLsb' 3 2 != 0, i := .tlbinv f.guard (tlbOf f) }
  | 0x1D9 => np { immf := f.immf, mod := f.mod.extractLsb' 1 4 != 0, i := .gsig f.guard (f.mod.getLsbD 0) f.sa f.sb }
  | 0x1DB => np { immf := f.immf, mod := f.mod != 0, i := .gread f.fds }
  | _ => none

/-- The plan of an assigned opcode (R46, Table 2.9); the pilot executes class 0, LD, QLD, COPY, LOOP, LEND, TRAIL, BR and
EXIT only (R47). -/
def planOf (e : Engine) (f : Fields) : Option Plan :=
  let np (p : Option Plan) : Option Plan := p.map fun q => { q with engine := e == .pilot }
  match (f.opc.extractLsb' 6 3).toNat with
  | 0 => plan0 f
  | 1 => np (plan1 f)
  | 2 => np (plan2 f)
  | 3 => np (plan3 f)
  | 4 => plan4 e f
  | 5 => plan5 e f
  | 6 => plan6 e f
  | _ => plan7 e f

/-- The first failing check of Table 2.10 (4 to 11), or the instruction. -/
def decodeFields (e : Engine) (f : Fields) : Except Reject Instr :=
  match planOf e f with
  | none => .error .opcode
  | some p =>
    if p.engine then .error .engine
    else if f.r51 || p.reserved then .error .reserved
    else if p.immf then .error .immf
    else if p.type then .error .type
    else if p.mod then .error .mod
    else if p.csub then .error .csub
    else if p.guard then .error .guard
    else .ok p.i

/-- Decode a native word (R29, R49). -/
def decode (e : Engine) (w : IWord) : Except Reject Instr := decodeFields e (unpack w)

/-- Decode a DPF instruction (R335): none where a syllable's marker bit is wrong (reason 0x0C). -/
def decodeDpf (e : Engine) (s0 s1 s2 : Word) : Option (Except Reject Instr) :=
  if !s0.getLsbD 31 || s1.getLsbD 31 then none else some (decodeFields e (dpfFields s0 s1 s2))

/-- R47: the engine on which a native instruction is decoded by decodeTableWord: QLD in the pilot, MSAVE, MREST and TLBINV
on a Helm core, any other instruction on a compute core. -/
def engineFor (w : IWord) : Engine :=
  match (w.extractLsb' 0 9).toNat with
  | 0x108 => .pilot
  | 0x188 | 0x189 | 0x1D8 => .helm
  | _ => .core

/-- The instruction that the decoder reads from an instruction whose bits are w: the first word is bits [31:0] of the slot
(R21), and bits beyond nbits are zero. -/
def decodeTableWord (nbits w : Nat) : Option Instr :=
  let iw : IWord := BitVec.ofNat 96 (w % 2 ^ nbits)
  match decode (engineFor iw) iw with
  | .ok i => some i
  | .error _ => none

/-! ### Encoding -/

/-- The guard fields of an instruction. -/
def Fields.withGuard (f : Fields) : Guard → Fields
  | .always => f
  | .when p s => { f with gen := true, gpred := p, gsense := s }

/-- Source a. -/
def Fields.withA (f : Fields) (s : Src) : Fields := { f with a := s.reg, eaa := s.ea }
/-- Source b. -/
def Fields.withSB (f : Fields) (s : Src) : Fields := { f with b := s.reg, eab := s.ea }
/-- Source c. -/
def Fields.withC (f : Fields) (s : Src) : Fields := { f with c := s.reg, eac := s.ea }
/-- Operand b. -/
def Fields.withB (f : Fields) : SrcB → Fields
  | .reg s => f.withSB s
  | .imm v => { f with imm := v, immf := true }
/-- The await entries, with IMM[23:0] below the fourth. -/
def Fields.withAw (f : Fields) (w : Await) (low : BitVec 24) : Fields :=
  { f with a := w.a, b := w.b, c := w.c, imm := w.d ++ low }

/-- Opcode and one source. -/
def encA (o : BitVec 9) (x : FA) (m : BitVec 5 := 0) : Fields :=
  (({ opc := o, ty := x.ty.code, d := x.d, mod := m } : Fields).withGuard x.g).withA x.a
/-- Opcode and two sources. -/
def encAB (o : BitVec 9) (x : FAB) (m : BitVec 5 := 0) : Fields :=
  ((({ opc := o, ty := x.ty.code, d := x.d, mod := m } : Fields).withGuard x.g).withA x.a).withB x.b
/-- Opcode and three sources. -/
def encABC (o : BitVec 9) (x : FABC) (m : BitVec 5 := 0) : Fields :=
  (((({ opc := o, ty := x.ty.code, d := x.d, mod := m } : Fields).withGuard x.g).withA x.a).withB x.b).withC x.c
/-- MOD of a rounding instruction (R36). -/
def modR (r : Rounding) (sat : Bool) : BitVec 5 := bit false ++ bit sat ++ r.code
/-- A rounding instruction of two sources. -/
def encABR (o : BitVec 9) (x : FABR) : Fields :=
  ((({ opc := o, ty := x.ty.code, d := x.d, mod := modR x.rm x.sat } : Fields).withGuard x.g).withA x.a).withB x.b
/-- A rounding instruction of one source. -/
def encAR (o : BitVec 9) (x : FAR) : Fields :=
  (({ opc := o, ty := x.ty.code, d := x.d, mod := modR x.rm false } : Fields).withGuard x.g).withA x.a
/-- A compare. -/
def encCmp (o : BitVec 9) (x : FCmp) : Fields :=
  ((({ opc := o, ty := x.ty.code, d := x.p.setWidth 8, mod := x.cond.code } : Fields).withGuard x.g).withA x.a).withB x.b
/-- C of an optional predicate. -/
def encP (p : Option (BitVec 4)) (top : BitVec 3) : BitVec 8 :=
  match p with
  | some n => top ++ bit true ++ n
  | none => top ++ bit false ++ (0 : BitVec 4)
/-- A cross-lane move. -/
def encX (o : BitVec 9) (x : FX) (m : BitVec 5 := 0) : Fields :=
  ((({ opc := o, ty := x.ty.code, d := x.d, mod := m, c := encP x.p 0 } : Fields).withGuard x.g).withA x.a).withB x.b
/-- REDL and SCANL. -/
def encRed (o : BitVec 9) (x : FRed) (excl : Bool) : Fields :=
  (({ opc := o, ty := x.ty.code, d := x.d, mod := modR x.rm false,
      c := (0 : BitVec 4) ++ bit excl ++ x.op.code } : Fields).withGuard x.g).withA x.a
/-- C of a memory access. -/
def encC (sc : Scope) (o : Order) (h : Hint) : BitVec 8 := bit false ++ h.code ++ o.code ++ sc.code
/-- A memory access. -/
def encMem (op : BitVec 9) (m : FMem) : Fields :=
  (({ opc := op, ty := m.ty.code, mod := (0 : BitVec 3) ++ m.space.code, c := encC m.scope m.order m.hint, imm := m.off } :
    Fields).withGuard m.g).withA m.a
/-- An atomic access. -/
def encAtom (op : BitVec 9) (m : FAtom) : Fields :=
  ((({ opc := op, ty := m.ty.code, mod := m.op.code ++ m.space.code, c := encC m.scope m.order .normal, imm := m.off } :
    Fields).withGuard m.g).withA m.a).withSB m.b
/-- Opcode, guard and a destination. -/
def encD (o : BitVec 9) (g : Guard) (d : Reg) : Fields := ({ opc := o, d := d } : Fields).withGuard g
/-- A destination and a source. -/
def encDS (o : BitVec 9) (x : FDS) : Fields := (encD o x.g x.d).withA x.a
/-- A trailer. -/
def encT (o : BitVec 9) (g : Guard) (aw : Await) (tgt : BitVec 20) (d : Reg) : Fields :=
  ((encD o g d).withAw aw ((0 : BitVec 4) ++ tgt))
/-- MOD[59] as an option. -/
def opt59 (b : Bool) : BitVec 5 := (0 : BitVec 4) ++ bit b

/-- The fields of a native instruction; none for an event, which has no encoding. -/
def encodeFields : Instr → Option Fields
  | .nop => some { opc := 0x001 }
  | .mov x => some ((({ opc := 0x002, ty := x.ty.code, d := x.d } : Fields).withGuard x.g).withB x.b)
  | .sel x p => some { encAB 0x003 x with c := p.setWidth 8 }
  | .add x => some (encAB 0x004 x) | .sub x => some (encAB 0x005 x) | .adds x => some (encAB 0x006 x)
  | .neg x => some (encA 0x007 x)
  | .mul x => some (encAB 0x008 x) | .mulh x => some (encAB 0x009 x)
  | .mad x => some (encABC 0x00A x)
  | .dot4 x sat => some (encABC 0x00B x (bit false ++ bit sat ++ (0 : BitVec 3)))
  | .div x => some (encAB 0x00C x) | .rem x => some (encAB 0x00D x)
  | .min x => some (encAB 0x00E x) | .max x => some (encAB 0x00F x)
  | .abs x => some (encA 0x010 x)
  | .and x => some (encAB 0x011 x) | .or x => some (encAB 0x012 x) | .xor x => some (encAB 0x013 x) | .andn x => some (encAB 0x014 x)
  | .not x => some (encA 0x015 x)
  | .shl x => some (encAB 0x016 x) | .shr x => some (encAB 0x017 x) | .sar x => some (encAB 0x018 x) | .rol x => some (encAB 0x019 x)
  | .bfx x => some (encAB 0x01A x) | .bfi x => some (encABC 0x01B x)
  | .popc x => some (encA 0x01C x) | .clz x => some (encA 0x01D x) | .ctz x => some (encA 0x01E x) | .brev x => some (encA 0x01F x)
  | .add64 x => some (encAB 0x020 x) | .sub64 x => some (encAB 0x021 x)
  | .lea x sh => some (encAB 0x022 x sh)
  | .isetp x => some (encCmp 0x023 x)
  | .bsel x => some (encABC 0x024 x)
  | .fadd x => some (encABR 0x040 x) | .fsub x => some (encABR 0x041 x) | .fmul x => some (encABR 0x042 x)
  | .ffma x c => some ((encABR 0x043 x).withC c)
  | .fmin x => some (encAB 0x044 x) | .fmax x => some (encAB 0x045 x) | .fminm x => some (encAB 0x046 x) | .fmaxm x => some (encAB 0x047 x)
  | .fabs x => some (encA 0x048 x) | .fneg x => some (encA 0x049 x)
  | .fsetp x => some (encCmp 0x04A x)
  | .fclass x => some (encA 0x04B x)
  | .frnd x => some (encAR 0x04C x)
  | .fscale x => some (encABR 0x04D x)
  | .fdiv x => some (encABR 0x04E x)
  | .fsqrt x => some (encAR 0x04F x) | .frcp x => some (encAR 0x050 x) | .frsq x => some (encAR 0x051 x)
  | .fexp2 x => some (encA 0x052 x) | .flog2 x => some (encA 0x053 x) | .fsin x => some (encA 0x054 x)
  | .fcos x => some (encA 0x055 x) | .ftanh x => some (encA 0x056 x)
  | .pclr g k d => some { encD 0x057 g d with mod := (0 : BitVec 3) ++ k.code }
  | .ptst g k p a => some ({ encD 0x058 g (p.setWidth 8) with mod := (0 : BitVec 3) ++ k.code }.withA a)
  | .cvt x sty sat slot => some { encAR 0x080 x with mod := modR x.rm sat, c := sty.code.setWidth 8, fslot := slot }
  | .tfpk g slot hi d a b c =>
    some ((({ encD 0x081 g d with ty := 14, fslot := slot, mod := opt59 hi }.withA a).withSB b).withC c)
  | .tfunpk g slot hi d a => some ({ encD 0x082 g d with ty := 14, fslot := slot, mod := opt59 hi }.withA a)
  | .pack2 x => some (encABR 0x083 x)
  | .slotq g slot d => some { encD 0x084 g d with ty := 14, fslot := slot }
  | .shfl x m => some (encX 0x0C0 x ((0 : BitVec 3) ++ m.code))
  | .shflr x => some (encX 0x0C1 x) | .xput x => some (encX 0x0C2 x)
  | .poll g m d p => some { encD 0x0C3 g d with mod := (0 : BitVec 3) ++ m.code, a := p.setWidth 8 }
  | .redl x => some (encRed 0x0C4 x false) | .scanl x excl => some (encRed 0x0C5 x excl)
  | .kin x p leader => some { encA 0x0C6 x with c := encP p ((0 : BitVec 2) ++ bit leader) }
  | .plop g d a b c table =>
    some { encD 0x0C7 g (d.setWidth 8) with a := a.setWidth 8, b := b.setWidth 8, c := c.setWidth 8, imm := table.setWidth 32 }
  | .pget x => some (encD 0x0C8 x.g x.d)
  | .pput x mask => some ({ encD 0x0C9 x.g 0 with imm := mask.setWidth 32 }.withA x.a)
  | .movs x n => some { encD 0x0CA x.g x.d with imm := n.setWidth 32 }
  | .movsw x n => some ({ encD 0x0CB x.g 0 with imm := n.setWidth 32 }.withA x.a)
  | .ld m d => some { encMem 0x100 m with d := d }
  | .st m b => some ((encMem 0x101 m).withSB b)
  | .atom m d => some { encAtom 0x102 m with d := d }
  | .red m => some (encAtom 0x103 m)
  | .pref g sp h a off =>
    some ({ encD 0x104 g 0 with mod := (0 : BitVec 3) ++ sp.code, c := encC .plain .plain h, imm := off }.withA a)
  | .faddr x off => some { encDS 0x105 x with mod := 2, imm := off }
  | .cwb x => some (({ encD 0x106 x.g 0 with imm := x.off }.withA x.a).withSB x.b)
  | .cinv x => some (({ encD 0x107 x.g 0 with imm := x.off }.withA x.a).withSB x.b)
  | .qld m q b => some { (encMem 0x108 m).withSB b with d := q.setWidth 8 }
  | .copy g form a b c => some ((({ encD 0x140 g 0 with mod := (0 : BitVec 3) ++ form.code }.withA a).withSB b).withC c)
  | .seal x => some (encD 0x141 x.g x.d)
  | .cwait x => some ((encD 0x142 x.g 0).withA x.a)
  | .sleepto x => some ((encD 0x143 x.g 0).withA x.a)
  | .cstat x wide => some { encDS 0x144 x with ty := if wide then 3 else 1 }
  | .pgo g a b => some (((encD 0x148 g 0).withA a).withSB b)
  | .pstop g flush => some { encD 0x149 g 0 with mod := opt59 flush }
  | .qstat x wide => some { encDS 0x14A x with ty := if wide then 3 else 1 }
  | .sabind x => some (encD 0x150 x.g x.d)
  | .safree g => some (encD 0x151 g 0)
  | .saload g a cells =>
    match cells with
    | some (b, c) => some ((((encD 0x152 g 0).withA a).withSB b).withC c)
    | none => some ({ encD 0x152 g 0 with mod := 1 }.withA a)
  | .saseed x ent => some ({ encD 0x153 x.g 0 with mod := opt59 ent }.withA x.a)
  | .saclamp g a b c =>
    match c with
    | some c => some ((({ encD 0x154 g 0 with mod := 1 }.withA a).withSB b).withC c)
    | none => some (((encD 0x154 g 0).withA a).withSB b)
  | .sasweep g cnt d a b => some (({ encD 0x155 g d with mod := opt59 cnt }.withA a).withSB b)
  | .saread x => some (encDS 0x156 x)
  | .sacnt x clr => some { encDS 0x157 x with mod := opt59 clr }
  | .sastat x wide => some { encD 0x158 x.g x.d with ty := if wide then 3 else 1 }
  | .mma g tile sa sb a b c =>
    some ((({ encD 0x180 g (tile.setWidth 8) with ty := 14, fslot := sa, imm := sb.setWidth 32 }.withA a).withSB b).withC c)
  | .mzero g tile => some (encD 0x181 g (tile.setWidth 8))
  | .mload x => some ({ encD 0x182 x.g (x.tile.setWidth 8) with ty := x.ty.code, fslot := x.slot }.withA x.a)
  | .mstore x => some ({ encD 0x183 x.g (x.tile.setWidth 8) with ty := x.ty.code, fslot := x.slot }.withA x.a)
  | .mmov g tile a b => some ({ encD 0x184 g (tile.setWidth 8) with b := b }.withA a)
  | .mpin g slot a c => some (({ encD 0x185 g 0 with ty := 14, fslot := slot }.withA a).withC c)
  | .munpin g slot a c => some (({ encD 0x186 g 0 with ty := 14, fslot := slot }.withA a).withC c)
  | .mrel g tile => some (encD 0x187 g (tile.setWidth 8))
  | .msave g tile a b => some (((encD 0x188 g (tile.setWidth 8)).withA a).withSB b)
  | .mrest g tile a b => some (((encD 0x189 g (tile.setWidth 8)).withA a).withSB b)
  | .trail x => some (encT 0x1C0 x.g x.aw 0 0)
  | .br x => some (encT 0x1C1 x.g x.aw x.tgt 0)
  | .brx x => some (encT 0x1C2 x.g x.aw 0 x.d)
  | .call x => some (encT 0x1C3 x.g x.aw x.tgt 0)
  | .callx x => some (encT 0x1C4 x.g x.aw 0 x.d)
  | .ret x => some (encT 0x1C5 x.g x.aw 0 0)
  | .reform x => some (encT 0x1C6 x.g x.aw x.tgt 0)
  | .exit aw => some (encT 0x1C7 .always aw 0 0)
  | .lend x => some (encT 0x1C8 x.g x.aw x.tgt 0)
  | .joinw g p tmo aw => some (encT 0x1C9 g aw tmo (p.setWidth 8))
  | .bar aw => some (encT 0x1CA .always aw 0 0)
  | .mwait x => some (encT 0x1CB x.g x.aw x.tmo x.d)
  | .rte aw => some (encT 0x1CC .always aw 0 0)
  | .sleep x => some (encT 0x1CD x.g x.aw 0 x.d)
  | .gwait x => some (encT 0x1CE x.g x.aw x.tmo x.d)
  | .loop g a tgt => some ({ encD 0x1D0 g 0 with imm := tgt.setWidth 32 }.withA a)
  | .spawn g d a tgt => some ({ encD 0x1D1 g d with imm := tgt.setWidth 32 }.withA a)
  | .launch x => some (encDS 0x1D2 x)
  | .fence g sc o => some { encD 0x1D3 g 0 with c := encC sc o .normal }
  | .trap g imm => some { encD 0x1D4 g 0 with imm := imm }
  | .swi g helm b q => some { encD 0x1D5 g 0 with mod := opt59 helm, imm := (0 : BitVec 21) ++ q ++ b }
  | .featq g d k => some { encD 0x1D6 g d with imm := k.setWidth 32 }
  | .icinv g k =>
    match k with
    | .range a b => some (((encD 0x1D7 g 0).withA a).withSB b)
    | .all => some { encD 0x1D7 g 0 with mod := 1 }
  | .tlbinv g k =>
    match k with
    | .va a b c => some ((((encD 0x1D8 g 0).withA a).withSB b).withC c)
    | .asid c => some ({ encD 0x1D8 g 0 with mod := 1 }.withC c)
    | .ipa a b c => some ((({ encD 0x1D8 g 0 with mod := 2 }.withA a).withSB b).withC c)
    | .part c => some ({ encD 0x1D8 g 0 with mod := 3 }.withC c)
    | .all => some { encD 0x1D8 g 0 with mod := 4 }
  | .gsig g set a b => some (({ encD 0x1D9 g 0 with mod := opt59 set }.withA a).withSB b)
  | .gread x => some (encDS 0x1DB x)
  | _ => none

/-- The word of a native instruction. -/
def encode (i : Instr) : Option IWord := (encodeFields i).map pack

/-- R47: an engine on which a native instruction is permitted. -/
def engineOf : Instr → Engine
  | .qld .. => .pilot
  | .msave .. | .mrest .. | .tlbinv .. => .helm
  | _ => .core

end Sys2Proof
end

