-- ==== Sys2Proof/Machine/Fetch.lean ====
section
/-! DEFINITION. Fetching and checking an instruction for the split that issues (R21 to R28, R39, R49, R333 to R336), the
L1 instruction cache's fills (R27, R334), and the placing of one word for the host's question. -/

namespace Sys2Proof.Machine

/-- Whether an instruction is a trailer (Table 2.1). -/
def isTrailer (i : Instr) : Bool :=
  match i with
  | .trail _ | .br _ | .brx _ | .call _ | .callx _ | .ret _ | .lend _ | .reform _ | .exit _ | .joinw .. | .bar _ | .mwait _ | .sleep _ | .gwait _ | .rte _ => true
  | _ => false

/-- What the front end finds for the issuing split: an instruction, a wait for a line, the next valid slot where the PC's own slot
is not valid (R24), or a cause. -/
inductive Fetched where
  | instr (i : Instr)
  | wait
  | skip (pc : Word64)
  | bad (f : Fail)

/-- The engine that a view's code runs on (R47). -/
def View.eng (v : View) : Engine := if v.pilot then .pilot else if v.core < 640 then .core else .helm

/-- A line that has passed its check: one that a fill delivers to this run alone (R334), or a resident one. -/
def State.goodLine (s : State) (v : View) (line : Word64) : Option (List TWord) :=
  match v.grp.run.late.find? fun l => l.va == line.toNat with
  | some l => some l.words
  | none => match s.iline v.core v.asid line with
    | some l => if l.refetch then none else some l.words
    | none => none

/-- A syllable of a line's words. -/
def syllableOf (ws : List TWord) (va : Word64) : TWord := ws.getD (va.toNat % 64 / 4) {}

/-- The syllable at a VA, if its line is resident and it carries no mark (R27, R335). -/
def State.syllable (s : State) (v : View) (va : Word64) : Option TWord :=
  (s.goodLine v (lineVa va)).bind fun ws => if (syllableOf ws va).mark then none else some (syllableOf ws va)

/-- Whether a DPF syllable lies outside its segment (R333). -/
def dpfOutside (t : Team) (va : Word64) : Bool :=
  match t.seg with
  | none => true
  | some d => decide (va.toNat < d.textbase.toNat) || decide (d.count ≤ (va.toNat - d.textbase.toNat) / 4)

/-- ILLEGAL_INSTRUCTION with a reason code (Table 2.10), for every lane of the split. -/
def illegal (v : View) (reason : Nat) : Fail :=
  { cause := 1, tval := BitVec.ofNat 64 reason, lanes := v.split.mask, lcause := v.lanes.map fun l => (l, 1) }

/-- Checks 4 to 12 of Table 2.10 on a decoded word: the 25th instruction of a run is refused whatever it is (R39). -/
def checkRun (v : View) (d : Except Reject Instr) : Fetched :=
  match d with
  | .error r => .bad (illegal v r.reason)
  | .ok i => if 24 ≤ v.grp.run.count then .bad (illegal v 8) else .instr i

/-- Fetch for native code (R21 to R28). -/
def State.fetchNative (s : State) (v : View) : Fetched :=
  let pc := v.split.pc
  if !pcForm pc then .bad (illegal v 7) else
  if nativeOutside v.team (lineVa pc) then .bad { cause := 8, tval := lineVa pc, lanes := v.split.mask, lcause := v.lanes.map fun l => (l, 8) } else
  match s.goodLine v (lineVa pc) with
  | none => .wait
  | some ws =>
    if lineIllegal ws then .bad (illegal v 6)
    else if slotValid ws (slotNo pc) then checkRun v (decode v.eng (slotWord ws (slotNo pc)))
    else .skip (s.seqPc v.core v.asid v.team pc)

/-- Fetch for DPF code (R335, R336); outside its syllables %tval is the VA of the line that would be fetched (R333). -/
def State.fetchDpf (s : State) (v : View) : Fetched :=
  let pc := v.split.pc
  let out (va : Word64) : Fetched := .bad { cause := 8, tval := lineVa va, lanes := v.split.mask, lcause := v.lanes.map fun l => (l, 8) }
  if pc.extractLsb' 0 2 != 0 then .bad (illegal v 7)
  else if dpfOutside v.team pc then out pc else
  match s.syllable v pc with
  | none => .wait
  | some s0 =>
    if dpfOutside v.team (pc + 4) then out (pc + 4) else
    match s.syllable v (pc + 4) with
    | none => .wait
    | some s1 =>
      let go (s2 : Word) : Fetched :=
        match decodeDpf v.eng s0.data s1.data s2 with
        | none => .bad (illegal v 0x0C)
        | some d => checkRun v d
      if s0.data.getLsbD 30 && s0.data.getLsbD 31 then
        if dpfOutside v.team (pc + 8) then out (pc + 8) else
        match s.syllable v (pc + 8) with
        | none => .wait
        | some s2 => go s2.data
      else go 0

/-- Fetch for the issuing split. -/
def State.fetch (s : State) (v : View) : Fetched := if v.team.inNative then s.fetchNative v else s.fetchDpf v

/-- Where the instruction at a split's PC is read from: its slot, or its syllables; a third is read only where S0 asks for it. -/
def wantedAt (v : View) : List Word64 := if v.team.inNative then [v.split.pc] else [v.split.pc, v.split.pc + 4, v.split.pc + 8]

/-- The lines that the instruction at a split's PC is read from. -/
def wantedLines (v : View) : List Word64 := ((wantedAt v).map lineVa).eraseDups

/-- Whether the front end has what it wants at an address: a native line that passed, or a syllable without a mark. -/
def State.hasCode (s : State) (v : View) (va : Word64) : Bool :=
  if v.team.inNative then (s.goodLine v (lineVa va)).isSome else (s.syllable v va).isSome

/-- The first wanted line that is missing, and whether it waits for its refetch. -/
def State.missingLine (s : State) (v : View) : Option (Word64 × Bool) :=
  match s.fetch v with
  | .wait => ((wantedAt v).find? fun a => !s.hasCode v a).map fun a => (lineVa a, (s.iline v.core v.asid (lineVa a)).isSome)
  | _ => none

/-- The issuing split of a slot: its group key. -/
def State.slotGroup (s : State) (core slot : Nat) : Option Nat := (s.ex.runs.find (core * 8 + slot)).map fun n => core * 256 + n

/-- An instruction line as SoftError.addr names it. -/
def ilineKey (core asid va : Nat) : Nat := (core * 4096 + asid) * 2 ^ 64 + va

/-- Put a line into a core's L1 instruction cache of 64 KiB; the line that leaves is a free choice (log 8). -/
def State.ilinePut (s : State) (core : Nat) (l : ILine) : State :=
  let ls := (AMap.get [] s.mem.l1i core).filter fun x => !(x.asid == l.asid && x.va == l.va)
  let (ls, s) := if ls.length < 1024 then (ls, s) else
    let (k, s) := s.free
    (ls.eraseIdx (Config.pick k % ls.length), s)
  s.modMem fun m => { m.clearError 4 (ilineKey core l.asid l.va) with l1i := m.l1i.put core (ls ++ [l]) }

/-- Remove a line. -/
def State.ilineDrop (s : State) (core asid : Nat) (line : Word64) : State :=
  s.modMem fun m => { m with l1i := m.l1i.modify core fun ls => ls.filter fun x => !(x.asid == asid && x.va == line.toNat) }

/-! ### Placing one word -/

/-- The words of a line that holds one valid slot j, with the parities of R22. -/
def oneSlotLine (w : IWord) (j : Nat) : List TWord :=
  let ws := (List.range 15).map fun i => if i / 3 = j then TWord.fresh (w.extractLsb' (32 * (i % 3)) 32) else TWord.fresh 0
  let par := parityOf 96 fun i => w.getLsbD i
  let lw : Word := (1#32 <<< j) ||| (1#32 <<< (9 + j)) ||| (if par then 1#32 <<< (26 + j) else 0)
  let lw := if parityOf 31 (fun i => lw.getLsbD i) then lw ||| (1#32 <<< 31) else lw
  ws ++ [TWord.fresh lw]

/-- The executor and slot on which a word of an engine is placed. -/
def placeOn (e : Engine) : Nat × Nat :=
  match e with
  | .core => (0, 0)
  | .pilot => (0, 4)
  | .helm => (640, 0)

/-- The PC at which a loaded program's single instruction stands (log 23). -/
def placePc : Word64 := 0x10000

/-- The kernel of a loaded program (log 23): 192 registers per strand, level 7, no trap entry. -/
def placeHeader : KHeader := { execent := placePc, regs := 192, level := 7, capacity := 32, scratchb := 65536 }

/-- A machine with one team of 32 strands running on an executor's slot, where none runs there (log 23). -/
def State.placeTeam (s : State) (e : Engine) : State :=
  let (core, slot) := placeOn e
  let gk := core * 256 + (if slot = 4 then 128 else 0)
  let k := s.nextId
  let base := if slot = 4 then 1024 else 0
  let ctx : Ctx := { part := 0, num := 0 }
  let grid : Grid := { num := 1, asid := 4095, part := 0, queue := 0, record := 0, khdr := 0, hdr := placeHeader, teams := 1,
                       strands := 32, slots := [], cword := 0, dispatched := 1 }
  let team : Team := { grid := k, num := 0, core := core, sup := if core < 640 then 0 else 2, ready := true }
  let grp : Group := { gid := k, team := k, remap := (List.range 32).map (fun l => (l, base + l)),
                       splits := [{ pc := placePc, mask := 0xFFFFFFFF, st := .running }], run := freshRun k }
  let strands := (List.range 32).map fun l => (strandKey k (base + l), ({ uid := k + l } : Strand))
  let part := (s.org.parts.find 0).getD {}
  { s with
    nextId := s.nextId + 32
    org := { s.org with parts := s.org.parts.put 0 part, ctxs := s.org.ctxs.put 4095 ctx, grids := s.org.grids.put k grid }
    ex := { s.ex with teams := s.ex.teams.put k team, groups := s.ex.groups.put gk grp,
                      strands := strands.foldl (fun m x => m.put x.1 x.2) s.ex.strands,
                      runs := s.ex.runs.put (core * 8 + slot) (gk % 256) } }

/-- Store a word where an executing split fetches its next instruction. -/
def State.placeWord (s : State) (e : Engine) (w : IWord) : State :=
  let (core, slot) := placeOn e
  let seen : Option View := match s.slotGroup core slot with
    | some gk => ({ s with cur := some gk } : State).view
    | none => none
  let s := if seen.isSome then s else s.placeTeam e
  let gk := (s.slotGroup core slot).getD 0
  match ({ s with cur := some gk } : State).view with
  | none => s
  | some v =>
    let pc := if pcForm v.split.pc then v.split.pc else placePc
    let line : ILine := { asid := v.asid, va := (lineVa pc).toNat, words := oneSlotLine w (slotNo pc) }
    let s := s.modGroup gk fun g => { g.modSplit v.idx (fun sp => { sp with pc := pc }) with run := { g.run with count := 0 } }
    let s := s.modTeam v.teamKey fun t => { t with inNative := true }
    { s.ilinePut core line with turn := .issue core slot }

end Sys2Proof.Machine
end

