-- ==== Sys2Proof/Machine/Transc.lean ====
section
/-! DEFINITION. The transcendental functions (R190) by fixed-point series of 512 fraction bits: the value, which is never exact but
in the special cases, is rounded with a sticky bit below it (log 18). -/

namespace Sys2Proof.Machine

/-- The floor of (π ÷ 2) × 2^640 (log 18). -/
def halfPi640 : Nat := 0x1921fb54442d18469898cc51701b839a252049c1114cf98e804177d4c76273644a29410f31c6809bbdf2a33679a748636605614dbe4be286e9fc26adadaa3848bc90b6aecc4bcfd8de89885d34c6fdad6
/-- The floor of ln 2 × 2^512 (log 18). -/
def ln2Fix : Nat := 0xb17217f7d1cf79abc9e3b39803f2f6af40f343267298b62d8a0d175b8baafa2be7b876206debac98559552fb4afa1b10ed2eae35c138214427573b291169b825
/-- 1 in fixed point. -/
def oneFix : Nat := 2 ^ 512

/-- The sum of a series from term t of index k on: t, then each next term by a multiplier and a divisor of its index. -/
def expSeries (x : Nat) : Nat → Nat → Nat → Nat
  | 0, _, _ => 0
  | n + 1, k, t => t + expSeries x n (k + 1) (t * x / oneFix / (k + 1))

/-- e^x for x in [0, ln 2). -/
def expFix (x : Nat) : Nat := expSeries x 110 0 oneFix

/-- The alternating series of sine and cosine: term t of index k, then −t x² ÷ ((k + 1)(k + 2)). -/
def trigSeries (x2 : Nat) : Nat → Nat → Int → Int
  | 0, _, _ => 0
  | n + 1, k, t => t + trigSeries x2 n (k + 2) (-(t * x2 / oneFix / ((k + 1) * (k + 2) : Nat)))

/-- sin x for x in [0, π ÷ 2]. -/
def sinFix (x : Nat) : Int := trigSeries (x * x / oneFix) 64 1 x
/-- cos x for x in [0, π ÷ 2]. -/
def cosFix (x : Nat) : Int := trigSeries (x * x / oneFix) 64 0 oneFix

/-- The series of atanh: power p = z^k, index k. -/
def atanhSeries (z2 : Nat) : Nat → Nat → Nat → Nat
  | 0, _, _ => 0
  | n + 1, k, p => p / k + atanhSeries z2 n (k + 2) (p * z2 / oneFix)

/-- ln y for y in [1, 2], as 2 atanh((y − 1) ÷ (y + 1)). -/
def lnFix (y : Nat) : Nat :=
  let z := (y - oneFix) * oneFix / (y + oneFix)
  2 * atanhSeries (z * z / oneFix) 170 1 z

/-- A finite magnitude in fixed point: m × 2^(e + 512). -/
def toFix (m : Nat) (e : Int) : Nat := if 0 ≤ e + 512 then m * 2 ^ (e + 512).toNat else m / 2 ^ (-(e + 512)).toNat

/-- Round an inexact fixed-point value: a sticky bit stands below it. -/
def FFmt.ofFix (f : FFmt) (s : Bool) (v : Nat) (scale : Int) : FRes := f.round .rn s (2 * v + 1) (scale - 513)

/-- 2^a (R190). -/
def FFmt.exp2 (f : FFmt) (a : Nat) : FRes :=
  match f.nanOf [a] with
  | some r => r
  | none =>
    match f.num a with
    | .inf s => (if s then 0 else f.inf, 0)
    | .fin s m e =>
      if m = 0 then (f.one, 0)
      else if 12 < e + (Nat.log2 m : Int) then
        if s then f.round .rn false 1 (-5000) else f.round .rn false 1 5000
      else
        let x := toFix m e
        let n := x / oneFix
        let fr := x % oneFix
        if fr = 0 then f.round .rn false 1 (if s then -(n : Int) else n)
        else if s then f.ofFix false (expFix ((oneFix - fr) * ln2Fix / oneFix)) (-(n : Int) - 1)
        else f.ofFix false (expFix (fr * ln2Fix / oneFix)) n

/-- log2 a (R190). -/
def FFmt.log2 (f : FFmt) (a : Nat) : FRes :=
  match f.nanOf [a] with
  | some r => r
  | none =>
    match f.num a with
    | .inf s => if s then (f.qnan, fNV) else (f.inf, 0)
    | .fin s m e =>
      if m = 0 then (f.signed true f.inf, fDZ)
      else if s then (f.qnan, fNV)
      else
        let l := Nat.log2 m
        let k : Int := e + l
        if m = 2 ^ l then f.round .rn (decide (k < 0)) k.natAbs 0
        else
          let v : Int := k * oneFix + (lnFix (toFix m (-(l : Int))) * oneFix / ln2Fix : Nat)
          f.ofFix (decide (v < 0)) v.natAbs 0

/-- sin a or cos a, the argument reduced exactly by π ÷ 2 (R190). -/
def FFmt.trig (f : FFmt) (cosine : Bool) (a : Nat) : FRes :=
  match f.nanOf [a] with
  | some r => r
  | none =>
    match f.num a with
    | .inf _ => (f.qnan, fNV)
    | .fin s m e =>
      if m = 0 then (if cosine then f.one else a, 0)
      else
        let x := m * 2 ^ (e + 640).toNat
        let q := x / halfPi640 + (if cosine then 1 else 0)
        let r := x % halfPi640 / 2 ^ 128
        let v : Int := if q % 2 = 0 then sinFix r else cosFix r
        let neg : Bool := (decide (2 ≤ q % 4)) != (s && !cosine)
        f.ofFix neg v.natAbs 0

/-- tanh a (R190), as (1 − u) ÷ (1 + u) with u = e^(−2a). -/
def FFmt.tanh (f : FFmt) (a : Nat) : FRes :=
  match f.nanOf [a] with
  | some r => r
  | none =>
    match f.num a with
    | .inf s => (f.signed s f.one, 0)
    | .fin s m e =>
      if m = 0 then (a, 0)
      else if 7 < e + (Nat.log2 m : Int) then f.ofFix s (oneFix - 1) 0
      else
        let y := 2 * toFix m e
        let n := y / ln2Fix
        let u := oneFix * oneFix / expFix (y % ln2Fix) / 2 ^ n
        f.ofFix s ((oneFix - u) * oneFix / (oneFix + u)) 0

end Sys2Proof.Machine
end

