-- ==== Sys2Proof/Machine/FloatOps.lean ====
section
/-! DEFINITION. The floating-point instructions, class 1 (R183 to R191). -/

namespace Sys2Proof.Machine

/-- The rounding that an instruction uses in a lane: .rdyn takes %fmode.RM (R161). -/
def laneRm (v : View) (s : State) (l : Nat) (rm : Rounding) : Rounding :=
  match rm with
  | .rdyn =>
    match ((s.strandAt (v.key l)).fmode.extractLsb' 0 3).toNat with
    | 1 => .rz | 2 => .rd | 3 => .ru | 4 => .rna | _ => .rn
  | r => r

/-- The elements of an operand: two for a packed type (R183), the low one first. -/
def elemsOf (t : OpType) (x : Word64) : List Nat :=
  if t.packed then [x.toNat % 2 ^ 16, x.toNat / 2 ^ 16 % 2 ^ 16] else [x.toNat % 2 ^ (fmtOf t).width]

/-- The value of results per element, with all their exceptions. -/
def joinElems (rs : List FRes) : Word64 × BitVec 5 :=
  match rs with
  | [a] => (BitVec.ofNat 64 a.1, a.2)
  | [a, b] => (BitVec.ofNat 64 (a.1 + b.1 * 2 ^ 16), a.2 ||| b.2)
  | _ => (0, 0)

/-- A lane's result of one operand per element. -/
def map1 (t : OpType) (f : FFmt → Nat → FRes) (a : Word64 × Bool) : LaneOut :=
  let r := joinElems ((elemsOf t a.1).map (f (fmtOf t)))
  { val := r.1, poison := a.2, flags := r.2 }

/-- A lane's result of two operands per element. -/
def map2 (t : OpType) (f : FFmt → Nat → Nat → FRes) (a b : Word64 × Bool) : LaneOut :=
  let r := joinElems (List.zipWith (f (fmtOf t)) (elemsOf t a.1) (elemsOf t b.1))
  { val := r.1, poison := a.2 || b.2, flags := r.2 }

/-- A lane's result of three operands per element. -/
def map3 (t : OpType) (f : FFmt → Nat → Nat → Nat → FRes) (a b c : Word64 × Bool) : LaneOut :=
  let es := List.zipWith (fun x (y : Nat × Nat) => f (fmtOf t) x y.1 y.2) (elemsOf t a.1) ((elemsOf t b.1).zip (elemsOf t c.1))
  let r := joinElems es
  { val := r.1, poison := a.2 || b.2 || c.2, flags := r.2 }

/-- .sat after the exceptions (R184). -/
def satRes (f : FFmt) (sat : Bool) (r : FRes) : FRes := if sat then (f.sat r.1, r.2) else r

/-- Two sources with a rounding and .sat. -/
def fp2 (x : FABR) (op : FFmt → Rounding → Nat → Nat → FRes) (v : View) (s : State) : Body :=
  computeAtIssue x.g (x.a.use x.ty.wide :: x.b.uses x.ty.wide) x.d x.ty.wide (fun v s _ l =>
    let rm := laneRm v s l x.rm
    map2 x.ty (fun f a b => satRes f x.sat (op f rm a b)) (valR v s l x.a x.ty.wide) (valB v s l x.ty x.b x.ty.wide)) (v := v) (s := s)

/-- Two sources without rounding. -/
def fpCmp2 (x : FAB) (op : FFmt → Nat → Nat → FRes) (v : View) (s : State) : Body :=
  computeAtIssue x.g (x.a.use x.ty.wide :: x.b.uses x.ty.wide) x.d x.ty.wide (fun v s _ l =>
    map2 x.ty op (valR v s l x.a x.ty.wide) (valB v s l x.ty x.b x.ty.wide)) (v := v) (s := s)

/-- One source without rounding. -/
def fp1 (x : FA) (op : FFmt → Nat → FRes) (v : View) (s : State) : Body :=
  computeAtIssue x.g [x.a.use x.ty.wide] x.d x.ty.wide (fun v s _ l => map1 x.ty op (valR v s l x.a x.ty.wide)) (v := v) (s := s)

/-- One source with a rounding, long-latency. -/
def fpLater (x : FAR) (op : FFmt → Rounding → Nat → FRes) (v : View) (s : State) : Body :=
  computeLater x.g [x.a.use x.ty.wide] x.d x.ty.wide (fun v s _ l =>
    let rm := laneRm v s l x.rm
    map1 x.ty (fun f a => op f rm a) (valR v s l x.a x.ty.wide)) v s

/-- A transcendental function, long-latency (R190). -/
def fpTrans (x : FA) (op : FFmt → Nat → FRes) (v : View) (s : State) : Body :=
  computeLater x.g [x.a.use] x.d false (fun v s _ l => map1 x.ty op (valR v s l x.a false)) v s

/-- FADD. -/
def execFadd (x : FABR) (s : State) : Result := runBody s (fp2 x FFmt.add)
/-- FSUB. -/
def execFsub (x : FABR) (s : State) : Result := runBody s (fp2 x FFmt.sub)
/-- FMUL. -/
def execFmul (x : FABR) (s : State) : Result := runBody s (fp2 x FFmt.mul)
/-- FFMA rounds once. -/
def execFfma (x : FABR) (c : Src) (s : State) : Result := runBody s fun v s =>
  computeAtIssue x.g (x.a.use x.ty.wide :: x.b.uses x.ty.wide ++ [c.use x.ty.wide]) x.d x.ty.wide (fun v s _ l =>
    let rm := laneRm v s l x.rm
    map3 x.ty (fun f a b c => satRes f x.sat (f.fma rm a b c)) (valR v s l x.a x.ty.wide) (valB v s l x.ty x.b x.ty.wide)
      (valR v s l c x.ty.wide)) (v := v) (s := s)
/-- FMIN. -/
def execFmin (x : FAB) (s : State) : Result := runBody s (fpCmp2 x fun f => f.minMax false)
/-- FMAX. -/
def execFmax (x : FAB) (s : State) : Result := runBody s (fpCmp2 x fun f => f.minMax true)
/-- FMINM. -/
def execFminm (x : FAB) (s : State) : Result := runBody s (fpCmp2 x fun f => f.minMaxM false)
/-- FMAXM. -/
def execFmaxm (x : FAB) (s : State) : Result := runBody s (fpCmp2 x fun f => f.minMaxM true)
/-- FABS clears the sign bit and changes nothing else (R186). -/
def execFabs (x : FA) (s : State) : Result := runBody s (fp1 x fun f a => (f.mag a, 0))
/-- FNEG inverts the sign bit and changes nothing else (R186). -/
def execFneg (x : FA) (s : State) : Result := runBody s (fp1 x fun f a => (f.negate a, 0))
/-- FSETP (R187). -/
def execFsetp (x : FCmp) (s : State) : Result := runBody s fun v s =>
  computePred x.g (x.a.use x.ty.wide :: x.b.uses x.ty.wide) x.p (fun v s _ l =>
    let a := valR v s l x.a x.ty.wide
    let b := valB v s l x.ty x.b x.ty.wide
    let el (y : Word64) : Nat := y.toNat % 2 ^ (fmtOf x.ty).width
    let r := (fmtOf x.ty).cond x.cond (el a.1) (el b.1)
    (r.1, { poison := a.2 || b.2, flags := r.2 })) v s
/-- FCLASS writes one register whatever the source's width (R186). -/
def execFclass (x : FA) (s : State) : Result := runBody s fun v s =>
  computeAtIssue x.g [x.a.use x.ty.wide] x.d false (fun v s _ l =>
    let a := valR v s l x.a x.ty.wide
    { val := 1#64 <<< (fmtOf x.ty).classOf (a.1.toNat % 2 ^ (fmtOf x.ty).width), poison := a.2 }) (v := v) (s := s)
/-- FRND (R188). -/
def execFrnd (x : FAR) (s : State) : Result := runBody s fun v s =>
  computeAtIssue x.g [x.a.use x.ty.wide] x.d x.ty.wide (fun v s _ l =>
    let rm := laneRm v s l x.rm
    map1 x.ty (fun f a => f.rnd rm a) (valR v s l x.a x.ty.wide)) (v := v) (s := s)
/-- FSCALE reads b as a 32-bit signed integer (R183, R188). -/
def execFscale (x : FABR) (s : State) : Result := runBody s fun v s =>
  computeAtIssue x.g (x.a.use x.ty.wide :: x.b.uses) x.d x.ty.wide (fun v s _ l =>
    let rm := laneRm v s l x.rm
    let b := valB v s l .s32 x.b false
    let r := map1 x.ty (fun f a => satRes f x.sat (f.scale rm a (lo b.1).toInt)) (valR v s l x.a x.ty.wide)
    { r with poison := r.poison || b.2 }) (v := v) (s := s)
/-- FDIV, long-latency (R189). -/
def execFdiv (x : FABR) (s : State) : Result := runBody s fun v s =>
  computeLater x.g (x.a.use x.ty.wide :: x.b.uses x.ty.wide) x.d x.ty.wide (fun v s _ l =>
    let rm := laneRm v s l x.rm
    map2 x.ty (fun f a b => f.div rm a b) (valR v s l x.a x.ty.wide) (valB v s l x.ty x.b x.ty.wide)) v s
/-- FSQRT. -/
def execFsqrt (x : FAR) (s : State) : Result := runBody s (fpLater x FFmt.sqrt)
/-- FRCP. -/
def execFrcp (x : FAR) (s : State) : Result := runBody s (fpLater x FFmt.rcp)
/-- FRSQ. -/
def execFrsq (x : FAR) (s : State) : Result := runBody s (fpLater x FFmt.rsq)
/-- FEXP2. -/
def execFexp2 (x : FA) (s : State) : Result := runBody s (fpTrans x FFmt.exp2)
/-- FLOG2. -/
def execFlog2 (x : FA) (s : State) : Result := runBody s (fpTrans x FFmt.log2)
/-- FSIN. -/
def execFsin (x : FA) (s : State) : Result := runBody s (fpTrans x fun f => f.trig false)
/-- FCOS. -/
def execFcos (x : FA) (s : State) : Result := runBody s (fpTrans x fun f => f.trig true)
/-- FTANH. -/
def execFtanh (x : FA) (s : State) : Result := runBody s (fpTrans x FFmt.tanh)

/-- The registers that a poison operand names. -/
def poisonRegs (k : PoisonKind) (r : Reg) : List Nat := if k == .pair then [r.toNat, r.toNat + 1] else [r.toNat]

/-- PCLR clears poison; value and full/empty bits stay (R191). -/
def execPclr (g : Guard) (k : PoisonKind) (d : Reg) (s : State) : Result := runBody s fun v s => do
  let (act, cs) ← prologue v s g [] (if k == .pred then [] else [(d, k == .pair)]) (preds := if k == .pred then [d.setWidth 4] else [])
  checkCauses cs
  if k == .pred then
    return act.foldl (fun s l => s.modStrand (v.key l) fun t => { t with pp := setBit t.pp (d.toNat % 16) false }) s
  else
    return (poisonRegs k d).foldl (fun s r => writeReg v act r (fun l => { readElem v s l r with poison := false }) s) s

/-- PTST writes an operand's poison to a predicate and raises no POISON (R191). -/
def execPtst (g : Guard) (k : PoisonKind) (p : BitVec 4) (a : Src) (s : State) : Result := runBody s fun v s => do
  let other : Bool := k != .pred && ((200 ≤ a.reg.toNat && a.reg.toNat < 216) || 248 ≤ a.reg.toNat)
  let (act, cs) ← prologue v s g (if k == .pred then [] else [a.use (k == .pair)]) [] other (preds := if k == .pred then [a.reg.setWidth 4] else [])
  checkCauses cs
  let one (l : Nat) : Bool :=
    if k == .pred then (readPred v s l (a.reg.setWidth 4)).2 else (poisonRegs k a.reg).any fun r => (readElem v s l r).poison
  return writePred v act p (fun l => (one l, false)) s

end Sys2Proof.Machine
end

