-- ==== Sys2Proof/Machine/Integer.lean ====
section
/-! DEFINITION. The integer and address instructions, class 0 (R48, R178 to R182). -/

namespace Sys2Proof.Machine

/-! ### Results of Table 10.3 on words -/

/-- The integer of a word, signed or not. -/
def intOf (signed : Bool) (w : Word) : Int := if signed then w.toInt else w.toNat
/-- An integer clamped to a range. -/
def clampInt (lo hi x : Int) : Int := if x < lo then lo else if hi < x then hi else x
/-- An integer clamped to the range of .s32 or .z32. -/
def clamp32 (signed : Bool) (x : Int) : Word :=
  if signed then BitVec.ofInt 32 (clampInt (-2 ^ 31) (2 ^ 31 - 1) x) else BitVec.ofInt 32 (clampInt 0 (2 ^ 32 - 1) x)
/-- ADDS. -/
def alAdds (sg : Bool) (a b : Word) : Word := clamp32 sg (intOf sg a + intOf sg b)
/-- MULH: the floor of the product over 2^32. -/
def alMulh (sg : Bool) (a b : Word) : Word := BitVec.ofInt 32 ((intOf sg a * intOf sg b) / 2 ^ 32)
/-- MIN. -/
def alMin (sg : Bool) (a b : Word) : Word := if intOf sg b < intOf sg a then b else a
/-- MAX. -/
def alMax (sg : Bool) (a b : Word) : Word := if intOf sg a < intOf sg b then b else a
/-- SHL. -/
def alShl (a b : Word) : Word := if 32 ≤ b.toNat then 0 else a <<< b.toNat
/-- SHR. -/
def alShr (a b : Word) : Word := if 32 ≤ b.toNat then 0 else a >>> b.toNat
/-- SAR. -/
def alSar (a b : Word) : Word := a.sshiftRight (Nat.min 31 b.toNat)
/-- ROL. -/
def alRol (a b : Word) : Word := a.rotateLeft (b.toNat % 32)
/-- The field position and length of R181. -/
def fieldOf (b : Word) : Nat × Nat := ((b.extractLsb' 0 8).toNat, Nat.min 32 (b.extractLsb' 8 8).toNat)
/-- BFX (R181). -/
def alBfx (sg : Bool) (a b : Word) : Word :=
  let (pos, len) := fieldOf b
  let bit (i : Nat) : Bool := if i < 32 then a.getLsbD i else sg && a.getLsbD 31
  if len = 0 then 0
  else wordBits fun i => if i < len then bit (pos + i) else sg && bit (pos + len - 1)
/-- BFI (R181). -/
def alBfi (a b c : Word) : Word :=
  let (pos, len) := fieldOf b
  let n := Nat.min len (32 - pos)
  wordBits fun i => if pos ≤ i && i < pos + n then a.getLsbD (i - pos) else c.getLsbD i
/-- The number of ones of a word. -/
def alPopc (a : Word) : Word := BitVec.ofNat 32 ((List.range 32).foldl (fun n i => if a.getLsbD i then n + 1 else n) 0)
/-- Leading zeros. -/
def alClz (a : Word) : Word := BitVec.ofNat 32 (((List.range 32).find? fun i => a.getLsbD (31 - i)).getD 32)
/-- Trailing zeros. -/
def alCtz (a : Word) : Word := BitVec.ofNat 32 (((List.range 32).find? fun i => a.getLsbD i).getD 32)
/-- Bit reversal. -/
def alBrev (a : Word) : Word := wordBits fun i => a.getLsbD (31 - i)
/-- Byte i of a word. -/
def byteOf (w : Word) (i : Nat) : BitVec 8 := w.extractLsb' (8 * i) 8
/-- DOT4 before its reduction. -/
def dot4Sum (sg : Bool) (a b c : Word) : Int :=
  let e (w : Word) (i : Nat) : Int := if sg then (byteOf w i).toInt else (byteOf w i).toNat
  (List.range 4).foldl (fun t i => t + e a i * e b i) (intOf sg c)
/-- DOT4. -/
def alDot4 (sg sat : Bool) (a b c : Word) : Word :=
  let t := dot4Sum sg a b c
  if sat then clamp32 sg t else BitVec.ofInt 32 t
/-- One byte of BSEL (R182). -/
def bselByte (a b c : Word) (i : Nat) : BitVec 8 :=
  let sel := byteOf b i
  let k := (sel.extractLsb' 0 3).toNat
  let y := if k < 4 then byteOf a k else byteOf c (k - 4)
  match (sel.extractLsb' 3 2).toNat with
  | 0 => y
  | 1 => 0x00
  | 2 => 0xFF
  | _ => if y.getLsbD 7 then 0xFF else 0x00
/-- BSEL. -/
def alBsel (a b c : Word) : Word := bselByte a b c 3 ++ bselByte a b c 2 ++ bselByte a b c 1 ++ bselByte a b c 0
/-- DIV and REM with their exception (R180). -/
def alDiv (sg : Bool) (a b : Word) : Word × BitVec 5 :=
  if b = 0 then (0xFFFFFFFF, fDZ)
  else if sg && a == 0x80000000 && b == 0xFFFFFFFF then (0x80000000, fOF)
  else (BitVec.ofInt 32 ((intOf sg a).tdiv (intOf sg b)), 0)
/-- REM with its exception (R180). -/
def alRem (sg : Bool) (a b : Word) : Word × BitVec 5 :=
  if b = 0 then (a, fDZ)
  else if sg && a == 0x80000000 && b == 0xFFFFFFFF then (0, fOF)
  else (BitVec.ofInt 32 ((intOf sg a).tmod (intOf sg b)), 0)
/-- The conditions 0 to 5 of Table 2.6 on integers. -/
def condInt (c : Cond) (a b : Int) : Bool :=
  match c with
  | .eq => a == b
  | .ne => a != b
  | .lt => decide (a < b)
  | .le => decide (a ≤ b)
  | .gt => decide (b < a)
  | .ge => decide (b ≤ a)
  | _ => false

/-! ### The operand shapes -/

/-- A word and a poison as a lane's result. -/
def wordOut (w : Word) (p : Bool) : LaneOut := { val := w.setWidth 64, poison := p }

/-- Sources a and b of 32 bits. -/
def alu2 (x : FAB) (f : Bool → Word → Word → Word) (v : View) (s : State) : Body :=
  computeAtIssue x.g (x.a.use :: x.b.uses) x.d false (fun v s _ l =>
    let a := valR v s l x.a false
    let b := valB v s l x.ty x.b false
    wordOut (f x.ty.signed (lo a.1) (lo b.1)) (a.2 || b.2)) (v := v) (s := s)

/-- Source a of 32 bits. -/
def alu1 (x : FA) (f : Word → Word) (v : View) (s : State) : Body :=
  computeAtIssue x.g [x.a.use] x.d false (fun v s _ l =>
    let a := valR v s l x.a false
    wordOut (f (lo a.1)) a.2) (v := v) (s := s)

/-- Sources a, b and c of 32 bits. -/
def alu3 (x : FABC) (f : Bool → Word → Word → Word → Word) (v : View) (s : State) : Body :=
  computeAtIssue x.g (x.a.use :: x.b.uses ++ [x.c.use]) x.d false (fun v s _ l =>
    let a := valR v s l x.a false
    let b := valB v s l x.ty x.b false
    let c := valR v s l x.c false
    wordOut (f x.ty.signed (lo a.1) (lo b.1) (lo c.1)) (a.2 || b.2 || c.2)) (v := v) (s := s)

/-- Sources a and b of 64 bits. -/
def alu64 (x : FAB) (f : Word64 → Word64 → Word64) (v : View) (s : State) : Body :=
  computeAtIssue x.g (x.a.use true :: x.b.uses true) x.d true (fun v s _ l =>
    let a := valR v s l x.a true
    let b := valB v s l x.ty x.b true
    { val := f a.1 b.1, poison := a.2 || b.2 }) (v := v) (s := s)

/-- A division, long-latency (R177, R180). -/
def aluDiv (x : FAB) (f : Bool → Word → Word → Word × BitVec 5) (v : View) (s : State) : Body :=
  computeLater x.g (x.a.use :: x.b.uses) x.d false (fun v s _ l =>
    let a := valR v s l x.a false
    let b := valB v s l x.ty x.b false
    let r := f x.ty.signed (lo a.1) (lo b.1)
    { val := r.1.setWidth 64, poison := a.2 || b.2, flags := r.2 }) v s

/-! ### The instructions -/

/-- NOP does nothing and counts as one instruction of its run (R48). -/
def execNop (s : State) : Result := runBody s fun _ s => .ok s

/-- MOV (R179). -/
def execMov (x : FB) (s : State) : Result := runBody s fun v s =>
  computeAtIssue x.g (x.b.uses x.ty.wide) x.d x.ty.wide (fun v s _ l =>
    let b := valB v s l x.ty x.b x.ty.wide
    { val := fillOf x.ty b.1, poison := b.2 }) (v := v) (s := s)

/-- SEL: the unselected source's poison is ignored (R176, R179). -/
def execSel (x : FAB) (p : BitVec 4) (s : State) : Result := runBody s fun v s =>
  computeAtIssue x.g (x.a.use x.ty.wide :: x.b.uses x.ty.wide) x.d x.ty.wide (fun v s _ l =>
    let q := readPred v s l p
    let r := if q.1 then valR v s l x.a x.ty.wide else valB v s l x.ty x.b x.ty.wide
    { val := fillOf x.ty r.1, poison := q.2 || r.2 }) (preds := [p]) (v := v) (s := s)

/-- ADD. -/
def execAdd (x : FAB) (s : State) : Result := runBody s (alu2 x fun _ a b => a + b)
/-- SUB. -/
def execSub (x : FAB) (s : State) : Result := runBody s (alu2 x fun _ a b => a - b)
/-- ADDS. -/
def execAdds (x : FAB) (s : State) : Result := runBody s (alu2 x alAdds)
/-- NEG. -/
def execNeg (x : FA) (s : State) : Result := runBody s (alu1 x fun a => -a)
/-- MUL. -/
def execMul (x : FAB) (s : State) : Result := runBody s (alu2 x fun _ a b => a * b)
/-- MULH. -/
def execMulh (x : FAB) (s : State) : Result := runBody s (alu2 x alMulh)
/-- MAD. -/
def execMad (x : FABC) (s : State) : Result := runBody s (alu3 x fun _ a b c => a * b + c)
/-- DOT4: c is read as .s32 or .z32. -/
def execDot4 (x : FABC) (sat : Bool) (s : State) : Result := runBody s fun v s =>
  computeAtIssue x.g (x.a.use :: x.b.uses ++ [x.c.use]) x.d false (fun v s _ l =>
    let a := valR v s l x.a false
    let b := valB v s l x.ty x.b false
    let c := valR v s l x.c false
    wordOut (alDot4 x.ty.signed sat (lo a.1) (lo b.1) (lo c.1)) (a.2 || b.2 || c.2)) (v := v) (s := s)
/-- DIV. -/
def execDiv (x : FAB) (s : State) : Result := runBody s (aluDiv x alDiv)
/-- REM. -/
def execRem (x : FAB) (s : State) : Result := runBody s (aluDiv x alRem)
/-- MIN. -/
def execMin (x : FAB) (s : State) : Result := runBody s (alu2 x alMin)
/-- MAX. -/
def execMax (x : FAB) (s : State) : Result := runBody s (alu2 x alMax)
/-- ABS. -/
def execAbs (x : FA) (s : State) : Result := runBody s (alu1 x fun a => if a.getLsbD 31 then -a else a)
/-- AND. -/
def execAnd (x : FAB) (s : State) : Result := runBody s (alu2 x fun _ a b => a &&& b)
/-- OR. -/
def execOr (x : FAB) (s : State) : Result := runBody s (alu2 x fun _ a b => a ||| b)
/-- XOR. -/
def execXor (x : FAB) (s : State) : Result := runBody s (alu2 x fun _ a b => a ^^^ b)
/-- ANDN. -/
def execAndn (x : FAB) (s : State) : Result := runBody s (alu2 x fun _ a b => a &&& ~~~b)
/-- NOT. -/
def execNot (x : FA) (s : State) : Result := runBody s (alu1 x fun a => ~~~a)
/-- SHL. -/
def execShl (x : FAB) (s : State) : Result := runBody s (alu2 x fun _ => alShl)
/-- SHR. -/
def execShr (x : FAB) (s : State) : Result := runBody s (alu2 x fun _ => alShr)
/-- SAR. -/
def execSar (x : FAB) (s : State) : Result := runBody s (alu2 x fun _ => alSar)
/-- ROL. -/
def execRol (x : FAB) (s : State) : Result := runBody s (alu2 x fun _ => alRol)
/-- BFX. -/
def execBfx (x : FAB) (s : State) : Result := runBody s (alu2 x alBfx)
/-- BFI. -/
def execBfi (x : FABC) (s : State) : Result := runBody s (alu3 x fun _ => alBfi)
/-- POPC. -/
def execPopc (x : FA) (s : State) : Result := runBody s (alu1 x alPopc)
/-- CLZ. -/
def execClz (x : FA) (s : State) : Result := runBody s (alu1 x alClz)
/-- CTZ. -/
def execCtz (x : FA) (s : State) : Result := runBody s (alu1 x alCtz)
/-- BREV. -/
def execBrev (x : FA) (s : State) : Result := runBody s (alu1 x alBrev)
/-- ADD64. -/
def execAdd64 (x : FAB) (s : State) : Result := runBody s (alu64 x fun a b => a + b)
/-- SUB64. -/
def execSub64 (x : FAB) (s : State) : Result := runBody s (alu64 x fun a b => a - b)
/-- LEA: ext(b) shifted left and added to the pair a (R179). -/
def execLea (x : FAB) (sh : BitVec 5) (s : State) : Result := runBody s fun v s =>
  computeAtIssue x.g (x.a.use true :: x.b.uses) x.d true (fun v s _ l =>
    let a := valR v s l x.a true
    let b := valB v s l x.ty x.b false
    let e := if x.ty.signed then (lo b.1).signExtend 64 else (lo b.1).setWidth 64
    { val := a.1 + e <<< sh.toNat, poison := a.2 || b.2 }) (v := v) (s := s)
/-- ISETP (R37, R179). -/
def execIsetp (x : FCmp) (s : State) : Result := runBody s fun v s =>
  computePred x.g (x.a.use x.ty.wide :: x.b.uses x.ty.wide) x.p (fun v s _ l =>
    let a := valR v s l x.a x.ty.wide
    let b := valB v s l x.ty x.b x.ty.wide
    let int (y : Word64) : Int :=
      match x.ty with
      | .s64 => y.toInt
      | .z64 => y.toNat
      | .s32 => (lo y).toInt
      | _ => (lo y).toNat
    (condInt x.cond (int a.1) (int b.1), { poison := a.2 || b.2 })) v s
/-- BSEL. -/
def execBsel (x : FABC) (s : State) : Result := runBody s (alu3 x fun _ => alBsel)

end Sys2Proof.Machine
end

