-- ==== Sys2Proof/Machine/Convert.lean ====
section
/-! DEFINITION. The conversion instructions, class 2 (R170 to R174). -/

namespace Sys2Proof.Machine

/-- The descriptor of a format slot, as the grid holds it. -/
def View.slot (v : View) (n : BitVec 3) : Word := v.grid.slots.getD n.toNat 0

/-- The range of an integer type. -/
def intRange (t : OpType) : Int × Int :=
  match t with
  | .s8 => (-128, 127)
  | .z8 => (0, 255)
  | .s16 => (-2 ^ 15, 2 ^ 15 - 1)
  | .z16 => (0, 2 ^ 16 - 1)
  | .s32 => (-2 ^ 31, 2 ^ 31 - 1)
  | .s64 => (-2 ^ 63, 2 ^ 63 - 1)
  | .z64 => (0, 2 ^ 64 - 1)
  | _ => (0, 2 ^ 32 - 1)

/-- The integer of a source of an integer type. -/
def intSource (t : OpType) (x : Word64) : Int :=
  match t with
  | .s8 => (x.extractLsb' 0 8).toInt
  | .z8 => (x.extractLsb' 0 8).toNat
  | .s16 => (x.extractLsb' 0 16).toInt
  | .z16 => (x.extractLsb' 0 16).toNat
  | .s32 => (lo x).toInt
  | .s64 => x.toInt
  | .z64 => x.toNat
  | _ => (lo x).toNat

/-- Whether a type is an integer type. -/
def isInt (t : OpType) : Bool :=
  match t with
  | .s8 | .z8 | .s16 | .z16 | .s32 | .z32 | .s64 | .z64 => true
  | _ => false

/-- The value of a source of CVT (R157, R167). -/
def cvtSource (t : OpType) (slot : Word) (x : Word64) : CVal :=
  if t == .slot then slotValue slot x.toNat
  else if isInt t then intVal (intSource t x)
  else (fmtOf t).value (x.toNat % 2 ^ (fmtOf t).width)

/-- CVT's result and exceptions (R170). -/
def cvtResult (dst src : OpType) (slot : Word) (rm : Rounding) (sat : Bool) (x : Word64) : Word64 × BitVec 5 :=
  let v := cvtSource src slot x
  if dst == .slot then let r := slotEncode slot v; (BitVec.ofNat 64 r.1, r.2)
  else if isInt dst then
    let (lo, hi) := intRange dst
    if isInt src then
      let i := intSource src x
      (fillOf dst (BitVec.ofInt 64 (if sat then clampInt lo hi i else i)), 0)
    else let r := toRange rm sat lo hi v; (fillOf dst (BitVec.ofInt 64 r.1), r.2)
  else let f := fmtOf dst; let r := satRes f sat (f.ofVal rm v); (BitVec.ofNat 64 r.1, r.2)

/-- CVT. -/
def execCvt (x : FAR) (sty : OpType) (sat : Bool) (slot : BitVec 3) (s : State) : Result := runBody s fun v s =>
  computeAtIssue x.g [x.a.use sty.wide] x.d x.ty.wide (fun v s _ l =>
    let a := valR v s l x.a sty.wide
    let r := cvtResult x.ty sty (v.slot slot) (laneRm v s l x.rm) sat a.1
    { val := r.1, poison := a.2, flags := r.2 }) (v := v) (s := s)

/-- Whether a slot's format is one that TFPK and TFUNPK refuse (R171). -/
def slotNarrow (d : Word) : Bool := 3 ≤ slotFmt d

/-- The instruction of a conversion that a slot's format refuses: ILLEGAL_OPERAND with the slot's number (R171). -/
def needNarrow (v : View) (g : Guard) (srcs : List Use) (d : Reg) (pair : Bool) (slot : BitVec 3) (s : State) : Except Stop Unit := do
  if slotNarrow (v.slot slot) then return ()
  let refuse (ls : List Nat) : List (Nat × Nat × Word64) := ls.map fun l => (l, 3, slot.setWidth 64)
  let (act, cs) ← prologue v s g srcs [(d, pair)] (fixed := refuse)
  checkCauses (cs ++ refuse act)

/-- TFPK. -/
def execTfpk (g : Guard) (slot : BitVec 3) (hi : Bool) (d : Reg) (a b c : Src) (s : State) : Result := runBody s fun v s => do
  let srcs := [a.use, b.use, c.use]
  needNarrow v g srcs d false slot s
  computeAtIssue g srcs d false (fun v s _ l =>
    let enc (x : Word64 × Bool) : FRes := slotEncode (v.slot slot) (fmt32.value (lo x.1).toNat)
    let xa := valR v s l a false
    let xb := valR v s l b false
    let xc := valR v s l c false
    let c0 := enc xa
    let c1 := enc xb
    let half : BitVec 16 := BitVec.ofNat 8 c1.1 ++ BitVec.ofNat 8 c0.1
    let w : Word := if hi then half ++ (lo xc.1).extractLsb' 0 16 else (lo xc.1).extractLsb' 16 16 ++ half
    { val := w.setWidth 64, poison := xa.2 || xb.2 || xc.2, flags := c0.2 ||| c1.2 }) (v := v) (s := s)

/-- TFUNPK. -/
def execTfunpk (g : Guard) (slot : BitVec 3) (hi : Bool) (d : Reg) (a : Src) (s : State) : Result := runBody s fun v s => do
  needNarrow v g [a.use] d true slot s
  computeAtIssue g [a.use] d true (fun v s _ l =>
    let xa := valR v s l a false
    let one (j : Nat) : FRes :=
      fmt32.ofVal .rn (slotValue (v.slot slot) ((lo xa.1).extractLsb' ((if hi then 16 else 0) + 8 * j) 8).toNat)
    let c0 := one 0
    let c1 := one 1
    { val := (BitVec.ofNat 32 c1.1) ++ (BitVec.ofNat 32 c0.1), poison := xa.2, flags := c0.2 ||| c1.2 }) (v := v) (s := s)

/-- PACK2 rounds and saturates each element as CVT does (R172). -/
def execPack2 (x : FABR) (s : State) : Result := runBody s fun v s =>
  computeAtIssue x.g (x.a.use :: x.b.uses) x.d false (fun v s _ l =>
    let a := valR v s l x.a false
    let b := valB v s l .f32 x.b false
    let f := fmtOf x.ty
    let rm := laneRm v s l x.rm
    let one (y : Word64) : FRes := satRes f x.sat (f.ofVal rm (fmt32.value (lo y).toNat))
    let r := joinElems [one a.1, one b.1]
    { val := r.1, poison := a.2 || b.2, flags := r.2 }) (v := v) (s := s)

/-- SLOTQ (R173). -/
def execSlotq (g : Guard) (slot : BitVec 3) (d : Reg) (s : State) : Result := runBody s fun v s =>
  computeAtIssue g [] d false (fun v _ _ _ => { val := (v.slot slot).setWidth 64 }) (v := v) (s := s)

end Sys2Proof.Machine
end

