-- ==== Sys2Proof/Machine/Sampler.lean ====
section
/-! DEFINITION. The sampling array: its nine instructions, the order in which they are performed, and a colour phase of a sweep
(R219 to R230). -/

namespace Sys2Proof.Machine

/-! ### The array of a team -/

/-- The cluster of a view's core. -/
def View.cluster (v : View) : Nat := v.core / 16
/-- A cluster's array. -/
def State.array (s : State) (cl : Nat) : Sampler := (s.ex.arrays.find cl).getD {}
/-- Change a cluster's array. -/
def State.setArray (s : State) (cl : Nat) (a : Sampler) : State := s.modEx fun x => { x with arrays := x.arrays.put cl a }
/-- Whether the issuing team holds its cluster's array. -/
def State.holdsArray (s : State) (v : View) : Bool := (s.array v.cluster).bound == some (tagOf s v.team)
/-- SAMPLER_BUSY for the lanes of a team that does not hold the array (R221); a trailer's instructions are not performed (R228). -/
def busyCauses (v : View) (s : State) (act : List Nat) : List (Nat × Nat × Word64) :=
  if v.trails || s.holdsArray v then [] else act.map fun l => (l, 19, BitVec.ofNat 64 v.cluster)
/-- A cell. -/
def Sampler.cell (a : Sampler) (i : Nat) : SCell := AMap.get {} a.cells i
/-- Change a cell. -/
def Sampler.setCell (a : Sampler) (i : Nat) (c : SCell) : Sampler := { a with cells := AMap.set {} a.cells i c }

/-! ### Performing array instructions (R225) -/

/-- SACLAMP's effect of one lane: word index, clamp bitmap, spin bitmap. -/
def Sampler.clampWord (a : Sampler) (x : Nat × Word × Option Word) : Sampler :=
  (List.range 32).foldl (fun a j =>
    let i := 32 * x.1 + j
    let c := a.cell i
    let c := { c with clamp := x.2.1.getLsbD j }
    let c := match x.2.2 with
      | some w => if x.2.1.getLsbD j then { c with spin := w.getLsbD j } else c
      | none => c
    a.setCell i c) a

/-- The packed spins of word w (R230). -/
def Sampler.spins (a : Sampler) (w : Nat) : Word := wordBits fun j => (a.cell (32 * w + j)).spin

/-- The cells that an instruction reads. -/
def SOp.cells (o : SOp) : List Nat :=
  match o with
  | .read idx => idx.flatMap fun e => (List.range 32).map fun j => 32 * e.2 + j
  | .cnt idx _ => idx.map (·.2)
  | _ => []

/-- Perform an instruction that is not a sweep: the array afterwards and each lane's result. -/
def Sampler.perform (a : Sampler) (o : SOp) : Sampler × (Nat → Word) :=
  match o with
  | .seed v ent => ({ a with seed := v, sc := 0, entropy := ent }, fun _ => 0)
  | .clamp items => (items.foldl Sampler.clampWord a, fun _ => 0)
  | .sweep _ _ _ => (a, fun _ => a.sc)
  | .read idx => (a, fun l => a.spins (AMap.get 0 idx l))
  | .cnt idx clr =>
    (if clr then idx.foldl (fun a e => a.setCell e.2 { a.cell e.2 with counter := 0 }) a else a,
     fun l => (a.cell (AMap.get 0 idx l)).counter.setWidth 32)

/-- Results on their way to their destinations (R177). -/
def State.sendResults (s : State) (core : Nat) (ds : List (Dest × Option Nat)) (val : Nat → Word) : State :=
  ds.foldl (fun s d =>
    let (id, s) := s.fresh
    s.modEx fun x => { x with longs := x.longs.put id { core := core, dest := d.1, vals := [val d.1.lane], poison := false, fwd := d.2 } }) s

/-- The cells and chart entries that reads find in error are judged (R219): corrected, and each logged; the first that stays is answered. -/
def State.arrayErrors (s : State) (cl core asid : Nat) (reads : List Nat) : Option Nat × State :=
  let hit := ((s.mem.errors.filter fun e => e.level == 9 && e.addr / 32768 == cl).map fun e => e.addr % 32768).eraseDups.filter reads.contains
  hit.foldl (fun r i =>
    let (bad, s) := r.2.judge 9 (cl * 32768 + i) [0] (s.coreRecord 9 core i asid 0)
    (if bad then r.1.or (some i) else r.1, s)) (none, s)

/-- A cause that the array raises for an instruction in flight. -/
def State.arrayFault (s : State) (i : SInstr) (cause : Nat) (tval : Word64) : State :=
  match s.engineView i.team i.gk i.pc (lanesOf (i.dests.map fun d => d.1.lane)) with
  | none => s
  | some v =>
    let f : Fail := { cause := cause, tval := tval }
    if willRollback v f then s.rollback v f else raiseContext v f i.pc 4 s

/-- Perform the instructions at the head of an array's queue up to a sweep with colour phases to run, while their context runs. One that finds an
uncorrectable error stays at the head: a rollback drops it, and after a context fault it is performed again on resume. -/
def State.drainArray (s : State) (cl : Nat) : Nat → State
  | 0 => s
  | n + 1 =>
    let a := s.array cl
    match a.queue with
    | [] => s
    | i :: rest =>
      match i.op, s.engineView i.team i.gk i.pc 0 with
      | .sweep _ (_ + 1) _, _ | _, none => s
      | op, some v =>
        if v.ctx.halted || v.team.saved then s else
        let (bad, s) := s.arrayErrors cl v.core v.asid op.cells
        match bad with
        | some e => s.arrayFault i 12 (BitVec.ofNat 64 e)
        | none =>
          let (a, val) := a.perform op
          let next := match rest with | j :: _ => (match j.op with | .sweep _ c _ => c | _ => 0) | [] => 0
          ((s.setArray cl { a with queue := rest, remain := next, colour := 0 }).sendResults v.core i.dests val).drainArray cl n

/-- Perform what stands at the heads of the arrays' queues. -/
def State.drainArrays (s : State) : State := s.ex.arrays.foldl (fun s e => s.drainArray e.1 e.2.queue.length) s

/-- Put an instruction into the array's queue, and perform it if nothing is before it. -/
def State.enqueueArray (s : State) (cl : Nat) (i : SInstr) : State :=
  let a := s.array cl
  let first := a.queue.isEmpty
  let count := match i.op with | .sweep _ c _ => c | _ => 0
  let a := { a with queue := a.queue ++ [i], remain := if first then count else a.remain, colour := if first then 0 else a.colour }
  let s := s.setArray cl a
  if first then s.drainArray cl 1 else s

/-! ### A colour phase (R222, R223) -/

/-- The replay draw (R223). -/
def replayDraw (seed sc : Word) (i c : Nat) : Nat :=
  let x := seed ^^^ (BitVec.ofNat 32 i * 0x9E3779B9#32) ^^^ (sc * 0x85EBCA6B#32) ^^^ (BitVec.ofNat 32 c * 0xC2B2AE35#32)
  let x := (x ^^^ (x >>> 16)) * 0x7FEB352D#32
  let x := (x ^^^ (x >>> 15)) * 0x846CA68B#32
  let x := x ^^^ (x >>> 16)
  (x >>> 16).toNat

/-- A cell's field F, in units of 2^-8. -/
def Sampler.field (a : Sampler) (c : SCell) : Int :=
  c.nbrs.foldl (fun f n => f + 16 * n.2.toInt * (if (a.cell n.1.toNat).spin then 1 else -1)) c.bias.toInt

/-- The chart entry of a field at an inverse temperature. -/
def chartIndex (beta : BitVec 16) (f : Int) : Nat :=
  let idx := beta.toInt * f / 2 ^ 13 + 2048
  if idx < 0 then 0 else if 4095 < idx then 4095 else idx.toNat

/-- The cells that a colour phase updates. -/
def Sampler.phaseCells (a : Sampler) : List Nat :=
  (List.range 16384).filter fun i => (a.cell i).colour.toNat == a.colour && !(a.cell i).clamp

/-- The draw of one cell: replayed from the seed, or the noise source, recorded or replayed by the voyage log (R311, R312). None
where the log diverges. -/
def State.drawFor (s : State) (asid : Nat) (g : Grid) (t : Team) (a : Sampler) (i : Nat) : Option (Nat × State) :=
  if !a.entropy then some (replayDraw a.seed a.sc i a.colour, s) else
  let (k, s) := s.free
  let u := (Config.entropy k).toNat
  let pos := AMap.get 0 t.draws i
  match s.org.ctxs.find asid with
  | none => some (u, s)
  | some c =>
    match c.vmode with
    | 1 => some (u, s.vappend asid 5 g.num t.num i pos (BitVec.ofNat 64 u))
    | 2 => match c.vfind true g.num t.num i pos with
      | some r => some (r.value.toNat % 65536, s)
      | none => none
    | _ => some (u, s)

/-- The draws of some cells of a phase. -/
def State.phaseDraws (s : State) (asid : Nat) (g : Grid) (t : Team) (a : Sampler) : List Nat → Option (AMap Nat × State)
  | [] => some (a.drawn, s)
  | i :: is =>
    match s.drawFor asid g t a i with
    | none => none
    | some (u, s) => (s.phaseDraws asid g t a is).map fun r => (r.1.put i u, r.2)

/-- Write the spins of a phase, computed together from the spins at its start (R222). -/
def Sampler.phase (a : Sampler) (beta : BitVec 16) (cells : List Nat) (us : AMap Nat) : Sampler :=
  let spin (i : Nat) : Bool := decide (AMap.get 0 us i < (AMap.get 0 a.chart (chartIndex beta (a.field (a.cell i)))).toNat)
  (cells.map fun i => (i, spin i)).foldl (fun a b => a.setCell b.1 { a.cell b.1 with spin := b.2 }) { a with drawn := [] }

/-- Count the spins that are 1, saturating. -/
def Sampler.count (a : Sampler) : Sampler :=
  (List.range 16384).foldl (fun a i =>
    let c := a.cell i
    if c.spin && c.counter != 0xFFFF then a.setCell i { c with counter := c.counter + 1 } else a) a

/-- How many of n draws the voyage log has room for (R311). -/
def Ctx.drawRoom (c : Ctx) (a : Sampler) (n : Nat) : Nat :=
  if !a.entropy || c.vmode != 1 then n else ((List.range (n + 1)).filter c.vroom).getLast?.getD 0

/-- The end of a colour phase (R222): the next colour, or the end of the sweep, or of the instruction, whose result goes out. -/
def State.endPhase (s : State) (cl : Nat) (i : SInstr) (core : Nat) (cnt : Bool) (a : Sampler) : State :=
  if a.colour < a.ncolm1.toNat then s.setArray cl { a with colour := a.colour + 1 }
  else
    let a := if cnt then a.count else a
    let a := { a with sc := a.sc + 1, remain := a.remain - 1, colour := 0 }
    if a.remain != 0 then s.setArray cl a
    else
      let rest := a.queue.tail
      let next := match rest with | j :: _ => (match j.op with | .sweep _ c _ => c | _ => 0) | [] => 0
      ((s.setArray cl { a with queue := rest, remain := next }).sendResults core i.dests fun _ => a.sc).drainArray cl rest.length

/-- SWEEP_COLOUR_PHASE (R222, R227): due while a sweep is at the head of the array's queue and its context runs. The phase draws as many of its
cells as the voyage log has room for, and updates them all together once every one is drawn. -/
def execSweepColourPhase (cluster : Nat) (s : State) : Result :=
  let a := s.array cluster
  match a.queue with
  | [] => .fault .notDue
  | i :: _ =>
    match i.op, s.engineView i.team i.gk i.pc 0 with
    | .sweep beta _ cnt, some v =>
      let cells := a.phaseCells
      let todo := cells.filter fun i => !a.drawn.has i
      let n := v.ctx.drawRoom a todo.length
      if a.remain == 0 || v.ctx.halted || v.team.saved || (n == 0 && !todo.isEmpty) then .fault .notDue else
      let reads := List.range 16384 ++ cells.map fun i => 16384 + chartIndex beta (a.field (a.cell i))
      let (bad, s) := s.arrayErrors cluster v.core v.asid reads
      match bad with
      | some e => .next (s.arrayFault i 12 (BitVec.ofNat 64 e)).idle
      | none =>
        match s.phaseDraws v.asid v.grid v.team a (todo.take n) with
        | none => .next (s.arrayFault i 0 0).idle
        | some (us, s) =>
          let s := if a.entropy && v.ctx.vmode != 0 then s.modTeam i.team fun t => { t with draws := (todo.take n).foldl (fun d i => AMap.set 0 d i (AMap.get 0 d i + 1)) t.draws } else s
          let s := s.setIrrevocable i.team
          if n < todo.length then .next (s.setArray cluster { a with drawn := us }).idle
          else .next (s.endPhase cluster i v.core cnt (a.phase beta cells us)).idle
    | _, _ => .fault .notDue

/-! ### The instructions (R229, R230) -/

/-- The signature's content of an array instruction (R228). -/
def arrayContent (v : View) (s : State) (act : List Nat) (srcs : List Use) : List Nat :=
  act.flatMap fun l => srcs.flatMap fun u => (srcElems v s l u).map fun e => e.val.toNat

/-- The destinations of an instruction with their forwarding keys. -/
def arrayDests (v : View) (s : State) (act : List Nat) (d : Reg) : List (Dest × Option Nat) :=
  act.map fun l => (destOf v s act s.nextId l d false, if v.leads || v.trails then some (fwdKey v s l) else none)

/-- Queue an array instruction with a destination or none: the leader's array performs it; a trailer waits for what the leader forwards. -/
def queueArray (v : View) (act : List Nat) (d : Option Reg) (op : SOp) (s : State) : State :=
  let isn := s.nextId
  let ds := match d with | some d => arrayDests v s act d | none => []
  let s := match d with
    | some d => markEmpty v act d false (flagT v d.toNat (if v.leads || v.trails then bumpFwd v act s else s))
    | none => s
  let s : State := { s with nextId := isn + 1 }
  if v.trails then s.sendResults v.core ds fun _ => 0
  else s.enqueueArray v.cluster { team := v.teamKey, gk := v.gk, pc := v.split.pc, dests := ds, op := op }

/-- Whether the leader's forwarding queue is full (R374). -/
def fwdFull (v : View) (s : State) : Bool := v.leads && decide (1024 ≤ s.fwdCount v.pairKey)

/-- The elements of a cluster's array that a test selects are written anew: their errors are gone (R221). -/
def State.mendArray (s : State) (cl : Nat) (p : Nat → Bool) : State :=
  s.modMem fun m => { m with errors := m.errors.filter fun e => !(e.level == 9 && e.addr / 32768 == cl && p (e.addr % 32768)) }

/-- SABIND (R230): its status is an input (R311), full at once; behind the array's work of its own team it changes nothing. -/
def execSabind (x : FD) (s : State) : Result := runBody s fun v s => do
  let (act, _) ← prologue v s x.g [] [(x.d, false)]
  if act.isEmpty then return flagDest v x.d false s
  let s ← if v.grp.run.inputs.isSome then .ok s else signAccess v [] s
  let a := s.array v.cluster
  let tag := tagOf s v.team
  let ok := a.bound == none || a.bound == some tag
  let isn := s.nextId
  let s := if !v.trails && a.bound == none then (s.mendArray v.cluster fun _ => true).setArray v.cluster { bound := some tag } else s
  let (val, s) ← takeInput v 3 isn act (fun _ => if ok then 1 else 0) s
  return writeDest v act x.d (fun l => ([lo (val l)], false)) s

/-- SAFREE (R221, R230): it waits for the array's instructions; by a team that does not hold the array it does nothing. -/
def execSafree (g : Guard) (s : State) : Result := runBody s fun v s => do
  let (act, _) ← prologue v s g [] []
  if act.isEmpty then return s
  let holds := !v.trails && s.holdsArray v
  if holds && !(s.array v.cluster).queue.isEmpty then throw .stall
  let s ← signAccess v [] s
  return if holds then (s.mendArray v.cluster fun _ => true).setArray v.cluster {} else s

/-- Whether word i of a cell record breaks Table 12.2. -/
def badRecordWord (i : Nat) (w : Word) : Bool :=
  if i = 0 then w.extractLsb' 14 2 != 0 || w.extractLsb' 2 3 != 0 || decide (32 < (w.extractLsb' 8 6).toNat) else w.extractLsb' 14 10 != 0

/-- The cell of a record (Table 12.2), its counter cleared. -/
def recordCell (ws : List Word) : SCell :=
  let h := ws.getD 0 0
  { spin := h.getLsbD 0, clamp := h.getLsbD 1, colour := h.extractLsb' 5 3, bias := h.extractLsb' 16 16,
    nbrs := ((ws.drop 1).take (h.extractLsb' 8 6).toNat).map fun w => (w.extractLsb' 0 14, w.extractLsb' 24 8) }

/-- Record k of the words of a SALOAD.cells. -/
def recordAt (ts : List TWord) (k : Nat) : List TWord := (ts.drop (33 * k)).take 33

/-- Install records from a cell on. -/
def Sampler.installCells (a : Sampler) (first count : Nat) (ts : List TWord) : Sampler :=
  (List.range count).foldl (fun a k => a.setCell (first + k) (recordCell ((recordAt ts k).map (·.data)))) a

/-- Install a chart image (Table 12.3). -/
def Sampler.installChart (a : Sampler) (ts : List TWord) : Sampler :=
  let p (i : Nat) : BitVec 16 := ((ts.getD (1 + i / 2) {}).data.extractLsb' (16 * (i % 2)) 16)
  { a with loaded := true, ncolm1 := (ts.getD 0 {}).data.extractLsb' 0 3,
           chart := (List.range 4096).foldl (fun m i => AMap.set 0 m i (p i)) a.chart }

/-- Read n words at a VA for a strand, each by itself (R236): where it could not be translated, the cause. -/
def State.readEach (s : State) (cache asid : Nat) (va : Word64) : Nat → List (Except (Nat × Word64) TWord) × State
  | 0 => ([], s)
  | n + 1 =>
    match s.translate cache asid va rRD with
    | (.error e, s) => let (rs, s) := s.readEach cache asid (va + 4) n; (.error e :: rs, s)
    | (.ok e, s) =>
      let pa := e.paOf (va57 va)
      let (w, s) := (s.payAt pa).sliceRead pa asid
      let (rs, s) := s.readEach cache asid (va + 4) n
      (.ok w :: rs, s)

/-- What the words of a SALOAD raise, the lowest-numbered cause first (R49, R230): a word that breaks its table, one that cannot be translated, one
that is marked or fails its code; of each cause the first word that meets it. -/
def loadCauses (cells : Bool) (first : Nat) (va : Word64) (rs : List (Except (Nat × Word64) TWord)) : List (Nat × Word64) :=
  (rs.zipIdx).filterMap fun (r, i) => match r with
    | .error e => some e
    | .ok t =>
      let illegal : Bool := if cells then badRecordWord (i % 33) t.data else i == 0 && t.data.extractLsb' 3 29 != 0
      match t.judge with
      | some c => some (c, va + BitVec.ofNat 64 (4 * i))
      | none => if illegal then some (3, if cells then BitVec.ofNat 64 (first + i / 33) else 0) else none

/-- The least of some causes, the first where they tie. -/
def leastCause : List (Nat × Word64) → Option (Nat × Word64)
  | [] => none
  | c :: r => some (r.foldl (fun b x => if x.1 < b.1 then x else b) c)

/-- Whether a strand's earlier accesses hold back reads that SALOAD makes for it: an acquire, a write-back, an access of a word that it reads
(R225, R235). -/
def State.loadHeld (s : State) (v : View) (va words l : Nat) : Bool :=
  let ps : List Span := [{ scratch := false, writes := false, word := va / 4, count := words }]
  let st := s.strandAt (v.key l)
  s.heldFor s.nextId (v.key l) st.uid false ps

/-- SALOAD (R230): every word is read at its home slice and checked, in one step, before anything is installed; it waits for the
array's instructions, so that its causes are precise, and for the accesses of its strands that come before its reads. -/
def execSaload (g : Guard) (a : Src) (cells : Option (Src × Src)) (s : State) : Result := runBody s fun v s => do
  let srcs := [a.use true] ++ (match cells with | some (b, c) => [b.use, c.use] | none => [])
  let h := (activeLanes v s g).getLast?.getD 0
  let va := (valR v s h a true).1
  let first := match cells with | some (b, _) => (lo (valR v s h b false).1).toNat | none => 0
  let count := match cells with | some (_, c) => (lo (valR v s h c false).1).toNat | none => 0
  let own (ls : List Nat) : List (Nat × Nat × Word64) :=
    let all (c : Nat) (t : Word64) : List (Nat × Nat × Word64) := ls.map fun l => (l, c, t)
    poisonCauses v s ls srcs ++ if ls.contains h && !(srcs.any (srcPoison v s h)) then
      (if cells.isSome && decide (16384 < first + count) then all 3 0 else []) ++ (if va.toNat % 4 != 0 then all 6 va else []) else []
  let (act, cs) ← prologue v s g srcs [] (own := own) (fixed := busyCauses v s)
  if act.isEmpty then return popQueues v srcs s
  else
    checkCauses (cs ++ own act ++ busyCauses v s act)
    if !v.trails && !(s.array v.cluster).queue.isEmpty then throw .stall
    if v.trails then return popQueues v srcs (← signAccess v (arrayContent v s act srcs) s)
    let words := if cells.isSome then 33 * count else 2049
    if act.any (s.loadHeld v (va57 va) words) then throw .stall
    let (rs, s) := s.readEach (cacheOf v.core) v.asid va words
    match leastCause (loadCauses cells.isSome first va rs) with
    | some (c, t) =>
      let pa := if rollbackCause c then (match (s.translate (cacheOf v.core) v.asid t rRD).1 with | .ok e => e.paOf (va57 t) | .error _ => 0) else 0
      throw (.failIn s { cause := c, tval := t, lanes := lanesOf act, lcause := act.map (fun l => (l, c)), addr := pa / 256 * 256 })
    | none =>
      let s ← signAccess v (arrayContent v s act srcs) s
      let arr := s.array v.cluster
      let s := s.mendArray v.cluster fun i => if cells.isSome then decide (first ≤ i) && decide (i < first + count) else decide (16384 ≤ i)
      let ts := rs.map fun r => match r with | .ok t => t | .error _ => {}
      return popQueues v srcs (s.setArray v.cluster (if cells.isSome then arr.installCells first count ts else arr.installChart ts))

/-- SASEED (R230). -/
def execSaseed (x : FS) (ent : Bool) (s : State) : Result := runBody s fun v s => do
  let srcs := [x.a.use]
  let (act, cs) ← prologue v s x.g srcs [] (own := fun ls => poisonCauses v s ls srcs) (fixed := busyCauses v s)
  match act.getLast? with
  | none => return popQueues v srcs s
  | some h =>
    checkCauses (cs ++ poisonCauses v s act srcs ++ busyCauses v s act)
    let seed := lo (valR v s h x.a false).1
    let t ← signAccess v (arrayContent v s act srcs) s
    return popQueues v srcs (queueArray v act none (.seed seed ent) t)

/-- SACLAMP (R230). -/
def execSaclamp (g : Guard) (a b : Src) (c : Option Src) (s : State) : Result := runBody s fun v s => do
  let srcs := [a.use, b.use] ++ (match c with | some c => [c.use] | none => [])
  let (act, cs) ← prologue v s g srcs [] (own := fun ls => poisonCauses v s ls srcs) (fixed := busyCauses v s)
  if act.isEmpty then return popQueues v srcs s
  checkCauses (cs ++ poisonCauses v s act srcs ++ busyCauses v s act)
  let w (l : Nat) (x : Src) : Word := lo (valR v s l x false).1
  let items := act.map fun l => ((w l a).toNat % 512, w l b, c.map (w l))
  let t ← signAccess v (arrayContent v s act srcs) s
  return popQueues v srcs (queueArray v act none (.clamp items) t)

/-- SASWEEP (R222, R227, R230): irrevocable, from its first colour phase on, where its count is 1 or more. -/
def execSasweep (g : Guard) (cnt : Bool) (d : Reg) (a b : Src) (s : State) : Result := runBody s fun v s => do
  let srcs := [a.use, b.use]
  let h := (activeLanes v s g).getLast?.getD 0
  let count := (lo (valR v s h b false).1).toNat
  let beta := (lo (valR v s h a false).1).extractLsb' 0 16
  let chartless := !v.trails && s.holdsArray v && !(s.array v.cluster).loaded
  let fixed (ls : List Nat) : List (Nat × Nat × Word64) := (if chartless then ls.map fun l => (l, 3, 0) else []) ++ busyCauses v s ls
  let own (ls : List Nat) : List (Nat × Nat × Word64) :=
    poisonCauses v s ls srcs ++ if ls.contains h && !srcPoison v s h b.use && decide (65535 < count) then ls.map fun l => (l, 3, 0) else []
  let (act, cs) ← prologue v s g srcs [(d, false)] (own := own) (fixed := fixed)
  if act.isEmpty then return popQueues v srcs (flagDest v d false s)
  else
    checkCauses (cs ++ own act ++ fixed act)
    if fwdFull v s then throw .stall
    let content := arrayContent v s act srcs
    let t ← if count = 0 then signAccess v content s else signIrrevocable v content s
    return popQueues v srcs (queueArray v act (some d) (.sweep beta count cnt) t)

/-- SAREAD and SACNT: the lanes' indexes, the operation. With nothing before it, one is performed as it issues, and an uncorrectable error in a
cell that it reads is precise (R219, R288). -/
def arrayRead (x : FDS) (bits : Nat) (op : AMap Nat → SOp) (v : View) (s : State) : Body := do
  let srcs := [x.a.use]
  let (act, cs) ← prologue v s x.g srcs [(x.d, false)] (own := fun ls => poisonCauses v s ls srcs) (fixed := busyCauses v s)
  if act.isEmpty then return popQueues v srcs (flagDest v x.d false s)
  checkCauses (cs ++ poisonCauses v s act srcs ++ busyCauses v s act)
  if fwdFull v s then throw .stall
  let idx := act.foldl (fun m l => AMap.put m l ((lo (valR v s l x.a false).1).toNat % 2 ^ bits)) ([] : AMap Nat)
  let (bad, s) := if v.trails || !(s.array v.cluster).queue.isEmpty then (none, s) else s.arrayErrors v.cluster v.core v.asid (op idx).cells
  if let some e := bad then throw (.failIn s { cause := 12, tval := BitVec.ofNat 64 e, lanes := lanesOf act, lcause := act.map fun l => (l, 12) })
  let t ← signAccess v (arrayContent v s act srcs) s
  return popQueues v srcs (queueArray v act (some x.d) (op idx) t)

/-- SAREAD (R230). -/
def execSaread (x : FDS) (s : State) : Result := runBody s (arrayRead x 9 .read)
/-- SACNT (R230). -/
def execSacnt (x : FDS) (clr : Bool) (s : State) : Result := runBody s (arrayRead x 14 fun idx => .cnt idx clr)

/-- Table 12.5. -/
def arrayStatus (v : View) (s : State) : Word :=
  let a := s.array v.cluster
  let bit (b : Bool) (n : Nat) : Word := if b then 1#32 <<< n else 0
  let held := bit a.bound.isSome 22
  if s.holdsArray v then
    held ||| bit true 23 ||| bit a.loaded 21 ||| bit a.entropy 20 ||| (a.ncolm1.setWidth 32 <<< 17) ||| bit (!a.queue.isEmpty) 16
      ||| BitVec.ofNat 32 (a.remain % 65536)
  else held

/-- SASTAT (R225, R230): performed at issue, between the array's instructions. -/
def execSastat (x : FD) (wide : Bool) (s : State) : Result := runBody s fun v s => do
  let (act, _) ← prologue v s x.g [] [(x.d, wide)]
  if act.isEmpty then return flagDest v x.d wide s
  checkCauses (if wide then busyCauses v s act else [])
  let s ← lanePairCompare v 1 s
  let a := s.array v.cluster
  let own : List Word := if wide then [a.sc, a.seed] else [arrayStatus v s]
  let (got, s) ← forward v act s.nextId (fun _ => own) s
  return writeDest v act x.d (fun l => (got l, false)) s

end Sys2Proof.Machine
end

