-- ==== Sys2Proof/Machine/Matrix.lean ====
section
/-! DEFINITION. The matrix unit, the tile fetch unit and the accumulator tiles (R201 to R218, R366, R367). -/

namespace Sys2Proof.Machine

/-! ### Tiles -/

/-- The key of a core's tile. -/
def tileKey (core n : Nat) : Nat := core * 8 + n
/-- A core's tile. -/
def State.tileAt (s : State) (core n : Nat) : Tile := (s.ex.tiles.find (tileKey core n)).getD {}
/-- Change a core's tile. -/
def State.setTile (s : State) (core n : Nat) (t : Tile) : State := s.modEx fun x => { x with tiles := x.tiles.put (tileKey core n) t }
/-- A tile's element. -/
def Tile.elem (t : Tile) (i n : Nat) : Word := AMap.get 0 t.elems (i * 64 + n)
/-- Write a tile's element. -/
def Tile.setElem (t : Tile) (i n : Nat) (w : Word) : Tile := { t with elems := AMap.set 0 t.elems (i * 64 + n) w }

/-- The elements that some rows hold. -/
def inRows (rows : List Nat) (e : Nat) : Bool := rows.contains (e / 64)

/-- The elements of a tile that a read finds in error are judged (R132): corrected, and each logged; the array index of the first that stays is
answered, n * 4096 + row * 64 + column in the core's accumulators. -/
def State.tileErrors (s : State) (core n asid : Nat) (reads : Nat → Bool) : Option Nat × State :=
  let hit := ((s.mem.errors.filter fun e => e.level == 7 && e.addr == tileKey core n).map (·.part)).eraseDups.filter reads
  hit.foldl (fun r p =>
    let (bad, s) := r.2.judge 7 (tileKey core n) [p] (s.coreRecord 7 core (n * 4096 + p) asid 0)
    (if bad then r.1.or (some (n * 4096 + p)) else r.1, s)) (none, s)

/-- Elements of a tile are written: their errors go. -/
def State.tileMend (s : State) (core n : Nat) (writes : Nat → Bool) : State :=
  s.modMem fun m => { m with errors := m.errors.filter fun e => !(e.level == 7 && e.addr == tileKey core n && writes e.part) }

/-- The UNCORRECTABLE of an accumulator element (R132, R299). -/
def elementFail (s : State) (index : Nat) : Fail := { cause := 12, tval := Config.freeWord s.freeCount, place := some (7, index) }

/-- What a matrix instruction asks of its tile. -/
inductive TileUse where
  | claim | use | release
deriving DecidableEq, Repr

/-- The outcome of the checks of Table 11.1. -/
inductive TileCheck where
  | proceed | claim | block | nothing
  | cause (c : Nat) (tval : Word64)
deriving DecidableEq, Repr

/-- Table 11.1. -/
def State.checkTile (s : State) (k : Nat) (t : Team) (n : Nat) (u : TileUse) : TileCheck :=
  let owner := TileCheck.cause 16 (BitVec.ofNat 64 (8 * t.core + n))
  let tile := s.tileAt t.core n
  if t.tmask.getLsbD n then (if tile.tag == some (tagOf s t) then .proceed else owner)
  else match tile.tag with
    | none => match u with | .claim => .claim | .use => .cause 3 0 | .release => .nothing
    | some g =>
      let here := s.ex.teams.any fun e => e.1 != k && e.2.core == t.core && !e.2.saved && tagOf s e.2 == g
      if g.asid == (tagOf s t).asid && here then (match u with | .claim => .block | _ => .cause 3 0) else owner

/-- Claim a FREE tile for a team (R202). -/
def State.claimTile (s : State) (k : Nat) (t : Team) (n : Nat) : State :=
  ((s.tileMend t.core n fun _ => true).setTile t.core n { tag := some (tagOf s t) }).modTeam k fun t => { t with tmask := t.tmask ||| (1#8 <<< n) }

/-- Make a team's tile FREE. -/
def State.releaseTile (s : State) (k : Nat) (t : Team) (n : Nat) : State :=
  (s.setTile t.core n {}).modTeam k fun t => { t with tmask := t.tmask &&& ~~~(1#8 <<< n) }

/-! ### Instructions in flight -/

/-- Whether a matrix instruction may go on: its team resident and its context running. -/
def State.matrixLive (s : State) (i : MInstr) : Bool :=
  match s.ex.teams.find i.team with
  | none => false
  | some t => !t.saved && match (s.org.grids.find t.grid).bind (fun g => s.org.ctxs.find g.asid) with
    | some c => !c.halted
    | none => false

/-- A core's matrix instructions in issue order. -/
def State.matrixQueue (s : State) (core : Nat) : List MInstr := AMap.get [] s.ex.mq core
/-- The instructions that occupy a core's unit. -/
def State.matrixInFlight (s : State) (core : Nat) : List MInstr := (s.matrixQueue core).filter s.matrixLive
/-- The instruction that the unit performs next. -/
def State.matrixHead (s : State) (core : Nat) : Option MInstr := (s.matrixInFlight core).head?
/-- Change an instruction in flight, found by its number. -/
def State.modMatrix (s : State) (core isn : Nat) (f : MInstr → MInstr) : State :=
  s.modEx fun x => { x with mq := x.mq.modify core fun q => q.map fun i => if i.isn == isn then f i else i }
/-- Remove an instruction. -/
def State.popMatrix (s : State) (core isn : Nat) : State :=
  s.modEx fun x => { x with mq := x.mq.modify core fun q => q.filter fun i => i.isn != isn }

/-- Whether an instruction's accesses must wait for earlier ones of its strands (R207, R233, R235): an acquire, the same word, and for
MSTORE a release fence, after which all earlier ones come first (R236). -/
def State.matrixHeld (s : State) (i : MInstr) : Bool :=
  i.strands.any fun x =>
    let ps := i.spans x.2
    let writes : Bool := match i.op with | .mstore .. => true | _ => false
    let all := writes && i.fenced.contains x.2
    (s.ex.reqs.any fun e => decide (e.1 < i.isn) && e.2.dest.strand == x.2 && !e.2.performed
        && (all || e.2.acq || ps.any fun p => p.meets (e.2.unit == .scratch) (e.2.va / 4) e.2.count))
      || (s.ex.copies.any fun e => decide (e.1 < i.isn) && e.2.strand == x.2 && !e.2.failed
        && (all || e.2.spans.any fun q => ps.any fun p => p.meets q.scratch q.word q.count))
      || (writes && s.ex.fences.any fun e => decide (e.1 < i.isn) && e.2.rel && e.2.strands.contains x.2)

/-- A cause that the unit raises for an instruction in flight (R218). -/
def State.matrixFault (s : State) (i : MInstr) (f : Fail) : State :=
  match s.engineView i.team i.gk i.pc (lanesOf (i.strands.map (·.1))) with
  | none => s
  | some v => if willRollback v f then s.rollback v f else raiseContext v f i.pc 3 s

/-! ### Tile rows in memory -/

/-- Read n words of a row from byte off on: at the home slices with the RD right, or in the team's scratchpad. A failing word: cause,
%tval, and its place for the error record. -/
def State.readRow (s : State) (t : Team) (asid : Nat) (d : TileDesc) (i off : Nat) : Nat → Except Fail (List (TWord × Option Nat)) × State
  | 0 => (.ok [], s)
  | n + 1 =>
    let a := d.rowAt i off
    let next (w : TWord) (blk : Option Nat) (place : Nat) (s : State) : Except Fail (List (TWord × Option Nat)) × State :=
      match w.judge with
      | some c => (.error { cause := c, tval := BitVec.ofNat 64 a, addr := place }, s)
      | none =>
        match s.readRow t asid d i (off + 4) n with
        | (.error f, s) => (.error f, s)
        | (.ok r, s) => (.ok ((w, blk) :: r), s)
    if d.scratch then
      let (w, s) := s.scratchFetch t.core (t.scratchBase + a) asid
      next w none a s
    else
      match s.translate (cacheOf t.core) asid (BitVec.ofNat 64 a) rRD with
      | (.error (c, tv), s) => (.error { cause := c, tval := tv }, s)
      | (.ok e, s) =>
        let pa := e.paOf (va57 (BitVec.ofNat 64 a))
        let (w, s) := (s.payAt pa).sliceRead pa asid
        next w (some (pa / 256)) (pa / 256 * 256) s

/-- Read rows: the words of each, and the L2 blocks they came from. -/
def State.readRows (s : State) (t : Team) (asid : Nat) (d : TileDesc) (off n : Nat) : List Nat → Except Fail (AMap TWord × List Nat) × State
  | [] => (.ok ([], []), s)
  | i :: is =>
    match s.readRow t asid d i off n with
    | (.error f, s) => (.error f, s)
    | (.ok ws, s) =>
      match s.readRows t asid d off n is with
      | (.error f, s) => (.error f, s)
      | (.ok (m, bs), s) =>
        (.ok ((ws.zipIdx).foldl (fun m e => AMap.put m (i * 64 + e.2) e.1.1) m, ws.filterMap (·.2) ++ bs), s)

/-- The words of row i as one number, its first word lowest. -/
def rowNumber (m : AMap TWord) (i n : Nat) : Nat :=
  (List.range n).foldl (fun x w => x + (AMap.get {} m (i * 64 + w)).data.toNat * 2 ^ (32 * w)) 0

/-- Element j of a number of codes of b bits (R158). -/
def codeAt (x b j : Nat) : Nat := x / 2 ^ (b * j) % 2 ^ b

/-! ### Chunk arithmetic (R208 to R210) -/

/-- A product's outcome: a NaN, an infinity, or a finite value. -/
inductive Prod where
  | nan
  | inf (s : Bool)
  | fin (v : Int) (e : Int)
deriving DecidableEq, Repr

/-- The exact product of two decoded elements. -/
def product (a b : CVal) : Prod :=
  match a, b with
  | .num x, .num y => match mulNum x y with
    | none => .nan
    | some (.inf s) => .inf s
    | some (.fin s m e) => .fin (if s then -(m : Int) else m) e
  | _, _ => .nan

/-- v × 2^e in units of 2^q, q ≤ e. -/
def inUnits (v e q : Int) : Int := v * 2 ^ (e - q).toNat

/-- The floor of v × 2^e in units of 2^q. -/
def floorUnits (v e q : Int) : Int := if q ≤ e then inUnits v e q else Int.fdiv v (2 ^ (q - e).toNat)

/-- The exact sum of finite products: value and exponent. -/
def exactSum (ps : List (Int × Int)) : Int × Int :=
  match ps with
  | [] => (0, 0)
  | p :: r =>
    let q := r.foldl (fun q x => min q x.2) p.2
    (ps.foldl (fun n x => n + inUnits x.1 x.2 q) 0, q)

/-- chunk_sum of kind half (R210). -/
def halfSum (ps : List (Int × Int)) : Int × Int :=
  match ps.filter (fun p => p.1 != 0) with
  | [] => (0, 0)
  | p :: r =>
    let top (x : Int × Int) : Int := x.2 + (Nat.log2 x.1.natAbs : Int)
    let q := r.foldl (fun m x => max m (top x)) (top p) - 51
    ((p :: r).foldl (fun n x => n + floorUnits x.1 x.2 q) 0, q)

/-- One element after a chunk (R209). -/
def addChunk (kind : MKind) (scale : Int) (acc : Word) (as bs : List CVal) : Word :=
  let ps := List.zipWith product as bs
  let fins := ps.filterMap fun p => match p with | .fin v e => some (v, e) | _ => none
  let nan : Word := 0x7FC00000
  if kind == .integer then BitVec.ofInt 32 (acc.toInt + inUnits (exactSum fins).1 (exactSum fins).2 0)
  else
    let pos := ps.contains (.inf false)
    let neg := ps.contains (.inf true)
    if ps.contains .nan || (pos && neg) || fmt32.isNaN acc.toNat then nan
    else match fmt32.num acc.toNat with
      | .inf s => if (pos && s) || (neg && !s) then nan else acc
      | .fin s m e =>
        if pos then 0x7F800000 else if neg then 0xFF800000
        else
          let (v, q) := if kind == .half then halfSum fins else exactSum fins
          let (n, q) := exactSum [(v, q + scale), (if s then -(m : Int) else m, e)]
          if n = 0 then 0 else BitVec.ofNat 32 (fmt32.round .rn (decide (n < 0)) n.natAbs q).1

/-- The decoded elements of a row of a chunk. -/
def chunkRow (m : AMap TWord) (slot : Word) (chunk i : Nat) : List CVal :=
  let x := rowNumber m i (chunkWords slot chunk)
  (List.range chunk).map fun t => slotCode slot (codeAt x (slotBits slot) t)

/-- A tile after a chunk, in the rows given. -/
def Tile.addChunk (t : Tile) (kind : MKind) (chunk : Nat) (slotA slotB : Word) (ma mb : AMap TWord) (rows : List Nat) : Tile :=
  let scale := slotScale slotA + slotScale slotB
  let cols := (List.range 64).map fun n => (n, chunkRow mb slotB chunk n)
  rows.foldl (fun t i =>
    let as := chunkRow ma slotA chunk i
    cols.foldl (fun t c => t.setElem i c.1 (Sys2Proof.Machine.addChunk kind scale (t.elem i c.1) as c.2)) t) t

/-! ### MLOAD, MSTORE, MMOV, MZERO as the unit performs them -/

/-- The element that MLOAD makes of a code, with its flags (R214). -/
def loadElem (ty : OpType) (slot : Word) (c : Nat) : Word × BitVec 5 :=
  if ty != .slot then (BitVec.ofNat 32 c, 0)
  else if 5 ≤ slotFmt slot then
    (match slotCode slot c with | .num (.fin s m _) => if s then -(BitVec.ofNat 32 m) else BitVec.ofNat 32 m | _ => 0, 0)
  else let r := fmt32.ofVal .rn (slotValue slot c); (BitVec.ofNat 32 r.1, r.2)

/-- The code that MSTORE makes of an element, with its flags (R214). -/
def storeElem (ty : OpType) (slot : Word) (w : Word) : Nat × BitVec 5 :=
  if ty != .slot then (w.toNat, 0)
  else let r := slotEncode slot (if 5 ≤ slotFmt slot then intVal w.toInt else fmt32.value w.toNat)
    (r.1 % 2 ^ slotBits slot, r.2)

/-- Set the %fmode flags of a row owner's strand. -/
def flagOwner (i : MInstr) (lane : Nat) (f : BitVec 5) (s : State) : State :=
  match i.strands.find lane with
  | some k => if f == 0 then s else s.modStrand k fun t => { t with fmode := t.fmode ||| (f.setWidth 32 <<< 8) }
  | none => s

/-- MLOAD: the whole of it, once its words have been read. -/
def State.doLoad (s : State) (t : Team) (i : MInstr) (ty : OpType) (slot : Word) (m : AMap TWord) : State :=
  let b := elemBits ty slot
  i.rows.foldl (fun s r =>
    let x := rowNumber m r.1 (64 * b / 32)
    let es := (List.range 64).map fun n => loadElem ty slot (codeAt x b n)
    let tile := (es.zipIdx).foldl (fun tl e => Tile.setElem tl r.1 e.2 e.1.1) (s.tileAt t.core i.tile)
    flagOwner i r.2 (es.foldl (fun f e => f ||| e.2) 0) (s.setTile t.core i.tile tile)) s

/-- A row of a tile as MSTORE's words, with its flags. -/
def storeRow (tile : Tile) (ty : OpType) (slot : Word) (r : Nat) : List Word × BitVec 5 :=
  let b := elemBits ty slot
  let es := (List.range 64).map fun n => storeElem ty slot (tile.elem r n)
  let x := (es.zipIdx).foldl (fun x e => x + e.1.1 * 2 ^ (b * e.2)) 0
  ((List.range (64 * b / 32)).map fun w => BitVec.ofNat 32 (codeAt x 32 w), es.foldl (fun f e => f ||| e.2) 0)

/-- Write words of MSTORE: scratchpad words, or global words at their home slices as R116 gives. All are translated first. -/
def State.storeWords (s : State) (t : Team) (asid : Nat) (scratch : Bool) : List (Nat × Word) → Except Fail (List (Nat × Nat × Word)) × State
  | [] => (.ok [], s)
  | (a, w) :: r =>
    if scratch then
      match s.storeWords t asid scratch r with
      | (.ok l, s) => (.ok ((a, t.scratchBase + a, w) :: l), s)
      | x => x
    else
      match s.translate (cacheOf t.core) asid (BitVec.ofNat 64 a) rW with
      | (.error (c, tv), s) => (.error { cause := c, tval := tv }, s)
      | (.ok e, s) =>
        match s.storeWords t asid scratch r with
        | (.ok l, s) => (.ok ((va57 (BitVec.ofNat 64 a), e.paOf (va57 (BitVec.ofNat 64 a)), w) :: l), s)
        | x => x

/-- Perform the resolved words of MSTORE. -/
def State.putWords (s : State) (t : Team) (asid : Nat) (scratch : Bool) (ws : List (Nat × Nat × Word)) : State :=
  ws.foldl (fun s e =>
    let w := TWord.fresh e.2.2
    if scratch then s.scratchStore t.core e.2.1 w asid
    else ((s.l1WriteBackWord t.core asid e.1).sliceWrite e.2.1 asid w).l1Update t.core asid e.1 w) s

/-- Perform an instruction that is no MMA: none where it cannot be performed now. One that faults stays in the queue: a rollback drops it, and after
a context fault it is performed again on resume (R218). -/
def State.performMatrix (s : State) (core : Nat) (i : MInstr) (v : View) : Option State :=
  let t := v.team
  let done (s : State) : State := s.popMatrix core i.isn
  match i.op with
  | .mma .. => none
  | .mzero =>
    let tile := i.rows.foldl (fun tl r => (List.range 64).foldl (fun tl n => Tile.setElem tl r.1 n 0) tl) (s.tileAt core i.tile)
    some (done ((s.tileMend core i.tile (inRows (i.rows.map (·.1)))).setTile core i.tile tile))
  | .mload a ty slot =>
    if s.matrixHeld i then none else
    match s.readRows t v.asid a 0 (64 * elemBits ty slot / 32) (i.rows.map (·.1)) with
    | (.error f, s) => some (s.matrixFault i f)
    | (.ok (m, _), s) => some (done ((s.tileMend core i.tile (inRows (i.rows.map (·.1)))).doLoad t i ty slot m))
  | .mstore a ty slot =>
    if s.matrixHeld i then none else
    match s.tileErrors core i.tile v.asid (inRows (i.rows.map (·.1))) with
    | (some e, s) => some (s.matrixFault i (elementFail s e)).free.2
    | (none, s) =>
    let tile := s.tileAt core i.tile
    let rows := i.rows.map fun r => (r, storeRow tile ty slot r.1)
    let ws := rows.flatMap fun r => (r.2.1.zipIdx).map fun w => (a.rowAt r.1.1 (4 * w.2), w.1)
    match s.storeWords t v.asid a.scratch ws with
    | (.error f, s) => some (s.matrixFault i f)
    | (.ok l, s) =>
      match signAccess { v with grid := { v.grid with hdr := { v.grid.hdr with prot := 0 } } } (ws.flatMap fun w => [w.1, w.2.toNat]) s with
      | .error _ => none
      | .ok s =>
        let s := rows.foldl (fun s r => flagOwner i r.1.2 r.2.2 s) s
        let s := if a.scratch || i.owed.isEmpty then s else s.l1Empty t.core v.asid
        some (done (if v.trails && !a.scratch then s else s.putWords t v.asid a.scratch l))
  | .mmov sel dests =>
    let place (l : Nat) : Nat :=
      let x := AMap.get 0 sel l
      (if i.four then 4 * l + x / 64 % 4 else 2 * l + x / 64 % 2) * 64 + x % 64
    match s.tileErrors core i.tile v.asid (dests.map fun d => place d.lane).contains with
    | (some e, s) => some (s.matrixFault i (elementFail s e)).free.2
    | (none, s) =>
      some (done (s.sendResults core (dests.map fun d => (d, none)) fun l => (s.tileAt core i.tile).elem (place l / 64) (place l % 64)))

/-- The chunks of an MMA. -/
def MOp.chunkCount (o : MOp) : Nat :=
  match o with
  | .mma _ _ sa sb k => (match mmaKind (slotFmt sa) (slotFmt sb) with | some (_, c) => k / c | none => 0)
  | _ => 0

/-- Perform the instructions at the head of a core's queue up to an MMA with chunks to add, or one that cannot be performed now. -/
def State.drainMatrix (s : State) (core : Nat) : Nat → State
  | 0 => s
  | n + 1 =>
    match s.matrixHead core with
    | none => s
    | some i =>
      if i.check then s else
      match i.op, s.engineView i.team i.gk i.pc 0 with
      | .mma .., _ => if i.op.chunkCount ≤ i.chunks then (s.popMatrix core i.isn).drainMatrix core n else s
      | _, some v =>
        match s.performMatrix core i v with
        | some t => t.drainMatrix core n
        | none => s
      | _, none => s

/-- MMA_CHUNK_FETCH (R207): the next chunk's words arrive and are checked; an instruction that a fault or a resume left at the head
is taken up again after the check of R366. -/
def execMmaChunkFetch (core : Nat) (s : State) : Result :=
  match s.matrixHead core with
  | none => .fault .notDue
  | some i =>
    match s.engineView i.team i.gk i.pc 0 with
    | none => .fault .notDue
    | some v =>
      if i.check then
        match s.checkTile i.team v.team i.tile .use with
        | .cause c t => .next (s.matrixFault i { cause := c, tval := t }).idle
        | _ => .next ((s.modMatrix core i.isn fun i => { i with check := false }).drainMatrix core 4).idle
      else match i.op with
        | .mma a b sa sb _ =>
          if i.fetched.isSome || i.op.chunkCount ≤ i.chunks || s.matrixHeld i then .fault .notDue else
          match mmaKind (slotFmt sa) (slotFmt sb) with
          | none => .fault .notDue
          | some (_, c) =>
            let na := chunkWords sa c
            let nb := chunkWords sb c
            match s.readRows v.team v.asid a (4 * na * i.chunks) na (i.rows.map (·.1)) with
            | (.error f, s) => .next (s.matrixFault i f).idle
            | (.ok (ma, ba), s) =>
              match s.readRows v.team v.asid b (4 * nb * i.chunks) nb (List.range 64) with
              | (.error f, s) => .next (s.matrixFault i f).idle
              | (.ok (mb, bb), s) =>
                .next (s.modMatrix core i.isn fun i => { i with fetched := some (ma, mb), blocks := s.pinnable (ba ++ bb).eraseDups }).idle
        | _ =>
          match s.performMatrix core i v with
          | some t => .next (t.drainMatrix core 4).idle
          | none => .fault .notDue

/-- MMA_CHUNK_ADD (R209): the fetched chunk is summed and rounded into the rows of the active lanes. -/
def execMmaChunkAdd (core : Nat) (s : State) : Result :=
  match s.matrixHead core with
  | none => .fault .notDue
  | some i =>
    match i.op, i.fetched, s.engineView i.team i.gk i.pc 0 with
    | .mma _ _ sa sb _, some (ma, mb), some v =>
      match mmaKind (slotFmt sa) (slotFmt sb) with
      | none => .fault .notDue
      | some (kind, c) =>
        match s.tileErrors core i.tile v.asid (inRows (i.rows.map (·.1))) with
        | (some e, s) => .next (s.matrixFault i (elementFail s e)).free.2.idle
        | (none, s) =>
        let s := s.setTile core i.tile ((s.tileAt core i.tile).addChunk kind c sa sb ma mb (i.rows.map (·.1)))
        let s := s.modMatrix core i.isn fun i => { i with fetched := none, blocks := [], chunks := i.chunks + 1 }
        .next (s.drainMatrix core 5).idle
    | _, _, _ => .fault .notDue

/-- TILE_CLAIM_UNBLOCK (R203): the tile that a claim waits for no longer blocks it, and the instruction issues again. -/
def execTileClaimUnblock (core group : Nat) (s : State) : Result :=
  let gk := core * 256 + group
  match s.ex.groups.find gk with
  | none => .fault .notDue
  | some g =>
    match g.block, s.ex.teams.find g.team with
    | some (.claim n), some t =>
      if s.checkTile g.team t n .claim == .block then .fault .notDue
      else .next (s.modGroup gk fun g => { g with block := none }).idle
    | _, _ => .fault .notDue

/-! ### Issue -/

/-- The uses of a descriptor's four registers (R205). -/
def descUses (a : Src) : List Use := (List.range 4).map fun i => { reg := a.reg.toNat + i, ea := a.ea }
/-- R205: a descriptor register number that fails under R31. -/
def badDesc (a : Src) : Bool := a.reg.toNat % 4 != 0 || decide (188 < a.reg.toNat)

/-- The descriptor that a lane holds (Table 11.2). -/
def descOf (v : View) (s : State) (l : Nat) (a : Src) : TileDesc :=
  let w (i : Nat) : Word := (readElem v s l (a.reg.toNat + i)).val
  let spc := (w 3).getLsbD 0
  { base := if spc then (w 0).toNat else (w 1 ++ w 0).toNat, stride := (w 2).toInt, scratch := spc }

/-- R205: values that differ between the active lanes, or a reserved bit set; poison. -/
def descCauses (v : View) (s : State) (act : List Nat) (ds : List Src) (srcs : List Use) : List (Nat × Nat × Word64) :=
  let vals (l : Nat) : List Word := srcs.map fun u => srcW v s l u
  let first := vals (act.headD 0)
  let odd := act.any (fun l => vals l != first)
    || ds.any fun d => act.any fun l => (readElem v s l (d.reg.toNat + 3)).val.extractLsb' 1 31 != 0
  (if odd then act.map fun l => (l, 3, 0) else []) ++ poisonCauses v s act srcs

/-- R206 for the 64 rows of n bytes that a descriptor covers; a row that leaves the allocation gives the offset where its range starts. -/
def rangeCauses (v : View) (act : List Nat) (d : TileDesc) (n : Nat) : List (Nat × Nat × Word64) :=
  let all (c : Nat) (t : Nat) : List (Nat × Nat × Word64) := act.map fun l => (l, c, BitVec.ofNat 64 t)
  if d.base % 4 != 0 then all 6 d.base
  else if d.stride % 4 != 0 then all 6 (d.rowAt 1 0)
  else if !d.scratch then (if canonical (BitVec.ofNat 64 d.base) then [] else all 8 d.base)
  else if n = 0 then []
  else
    let start (i : Nat) : Int := d.base + i * d.stride
    match (List.range 64).find? (fun i => start i < 0 || (v.scratch : Int) < start i + n) with
    | some i => all 9 (d.rowAt i 0)
    | none => []

/-- The rows of some lanes of a view (R204). -/
def rowsOf (v : View) (act : List Nat) : List Nat :=
  act.flatMap fun l => if v.lanePair then (List.range 4).map fun r => 4 * l + r else [2 * l, 2 * l + 1]

/-- The cause of the tile check (R203), in lanes that it stops. -/
def tileCauses (v : View) (s : State) (tile : BitVec 3) (u : TileUse) (act : List Nat) : List (Nat × Nat × Word64) :=
  match s.checkTile v.teamKey v.team tile.toNat u with
  | .cause k t => act.map fun l => (l, k, t)
  | _ => []

/-- The shape of MMA, MZERO, MLOAD, MSTORE and MMOV: a claim that must wait, then the causes of its checks, then the claim and a
place among the unit's four (R201). -/
def matrixIssue (tile : BitVec 3) (u : TileUse) (srcs : List Use) (act : List Nat) (cs : List (Nat × Nat × Word64)) (compares : Nat)
    (own : State → Except Stop (MOp × State)) (v : View) (s : State) : Body := do
  let n := tile.toNat
  let c := s.checkTile v.teamKey v.team n u
  if c == .block then throw (.hold (s.modGroup v.gk fun g => { g with block := some (.claim n) }))
  checkCauses cs
  if 4 ≤ (s.matrixInFlight v.core).length then throw .stall
  let (op, s) ← own s
  let s ← lanePairCompare v compares s
  let s := if c == .claim then s.claimTile v.teamKey v.team n else s
  let (isn, s) := s.fresh
  let i : MInstr := { team := v.teamKey, gk := v.gk, pc := v.split.pc, isn := isn, tile := n,
                      strands := act.foldl (fun m l => AMap.put m l (v.key l)) [], four := v.lanePair, op := op,
                      fenced := (act.map v.key).filter fun k => (s.strandAt k).fenced, owed := (act.map v.key).filter fun k => (s.strandAt k).released }
  let first := (s.matrixInFlight v.core).isEmpty
  let s := s.modEx fun x => { x with mq := x.mq.put v.core (AMap.get [] x.mq v.core ++ [i]) }
  return popQueues v srcs (if first then s.drainMatrix v.core 1 else s)

/-- What an MMA's operands are in a lane: its descriptors and k. -/
def mmaOperands (v : View) (s : State) (l : Nat) (a b c : Src) : TileDesc × TileDesc × Nat :=
  (descOf v s l a, descOf v s l b, (lo (valR v s l c false).1).toNat)

/-- The checks of R208, with the A slot's index or k. -/
def chunkCauses (act : List Nat) (slotA : BitVec 3) (sa sb : Word) (k : Nat) : List (Nat × Nat × Word64) :=
  match mmaKind (slotFmt sa) (slotFmt sb) with
  | none => act.map fun l => (l, 3, slotA.setWidth 64)
  | some (_, ch) => if k % ch != 0 || 256 < k then act.map fun l => (l, 3, BitVec.ofNat 64 k) else []

/-- MMA (R212), whose checks come in an order of their own. -/
def execMma (g : Guard) (tile : BitVec 3) (slotA slotB : BitVec 3) (a b c : Src) (s : State) : Result := runBody s fun v s => do
  let srcs := descUses a ++ descUses b ++ [c.use]
  let sa := v.slot slotA
  let sb := v.slot slotB
  let own (ls : List Nat) : List (Nat × Nat × Word64) :=
    let (da, db, k) := mmaOperands v s (ls.headD 0) a b c
    let n := k * slotBits sa / 8
    firstCauses [tileCauses v s tile .use ls, descCauses v s ls [a, b] srcs, chunkCauses ls slotA sa sb k, rangeCauses v ls da n ++ rangeCauses v ls db n]
  let (act, cs) ← prologue v s g srcs [] (badDesc a || badDesc b) (own := own)
  if act.isEmpty then return popQueues v srcs s
  let (da, db, k) := mmaOperands v s (act.headD 0) a b c
  matrixIssue tile .use srcs act (cs ++ own act) (rowsOf v act).length (fun s => .ok (.mma da db sa sb k, s)) v s

/-- MZERO (R213). -/
def execMzero (g : Guard) (tile : BitVec 3) (s : State) : Result := runBody s fun v s => do
  let (act, _) ← prologue v s g [] [] (fixed := tileCauses v s tile .claim)
  if act.isEmpty then return s
  matrixIssue tile .claim [] act (tileCauses v s tile .claim act) (rowsOf v act).length (fun s => .ok (.mzero, s)) v s

/-- MLOAD and MSTORE (R214). -/
def tileMove (x : FTile) (u : TileUse) (op : TileDesc → OpType → Word → MOp) (v : View) (s : State) : Body := do
  let srcs := descUses x.a
  let slot := v.slot x.slot
  let own (ls : List Nat) : List (Nat × Nat × Word64) :=
    let ds := descCauses v s ls [x.a] srcs
    ds ++ if ds.isEmpty then rangeCauses v ls (descOf v s (ls.headD 0) x.a) (64 * elemBits x.ty slot / 8) else []
  let (act, cs) ← prologue v s x.g srcs [] (badDesc x.a) (own := own) (fixed := tileCauses v s x.tile u)
  if act.isEmpty then return popQueues v srcs s
  matrixIssue x.tile u srcs act (cs ++ tileCauses v s x.tile u act ++ own act) (if u == .claim then (rowsOf v act).length else 1)
    (fun s => .ok (op (descOf v s (act.headD 0) x.a) x.ty slot, s)) v s

/-- MLOAD (R214). -/
def execMload (x : FTile) (s : State) : Result := runBody s (tileMove x .claim .mload)
/-- MSTORE (R214). -/
def execMstore (x : FTile) (s : State) : Result := runBody s (tileMove x .use .mstore)

/-- MMOV (R215): B names the destination. -/
def execMmov (g : Guard) (tile : BitVec 3) (a : Src) (b : Reg) (s : State) : Result := runBody s fun v s => do
  let srcs := [a.use]
  let (act, cs) ← prologue v s g srcs [(b, false)] (fixed := tileCauses v s tile .use)
  if act.isEmpty then return popQueues v srcs (flagDest v b false s)
  matrixIssue tile .use srcs act (cs ++ tileCauses v s tile .use act) 0 (v := v) (s := s) fun s =>
    let sel := act.foldl (fun m l => AMap.put m l (lo (valR v s l a false).1).toNat) ([] : AMap Nat)
    let ds := act.map fun l => destOf v s act s.nextId l b false
    let t : State := { s with nextId := s.nextId + 1 }
    .ok (.mmov sel ds, markEmpty v act b false (flagT v b.toNat t))

/-- MREL (R213): it waits for the tile's earlier instructions, and then the tile is FREE. -/
def execMrel (g : Guard) (tile : BitVec 3) (s : State) : Result := runBody s fun v s => do
  let (act, _) ← prologue v s g [] [] (fixed := tileCauses v s tile .release)
  if act.isEmpty then return s
  match s.checkTile v.teamKey v.team tile.toNat .release with
  | .cause k t => throw (failAll k t act)
  | .proceed =>
    if (s.matrixInFlight v.core).any fun i => i.tile == tile.toNat then throw .stall
    return s.releaseTile v.teamKey v.team tile.toNat
  | _ => return s

/-! ### MPIN and MUNPIN (R216) -/

/-- Bring a block into the L2 and pin it by the newest entry of a core's table, unless eight other ways of its set are pinned; a block that another
entry pins is pinned by both. -/
def State.pinBlock (core asid : Nat) (s : State) (b : Nat) : State :=
  let s := s.l2Ensure b asid
  if s.pinRoom [] b then
    s.modEx fun x => { x with pins := x.pins.modify core fun q => q.modify (q.length - 1) fun p => { p with blocks := p.blocks ++ [b] } }
  else s

/-- The L2 blocks of the rows that a pin describes; none where a translation fails. -/
def State.pinAddrs (s : State) (v : View) : List Nat → Option (List Nat) × State
  | [] => (some [], s)
  | a :: as =>
    match s.translate (cacheOf v.core) v.asid (BitVec.ofNat 64 a) rRD with
    | (.error _, s) => (none, s)
    | (.ok e, s) =>
      match s.pinAddrs v as with
      | (some r, s) => (some (e.paOf (va57 (BitVec.ofNat 64 a)) / 256 :: r), s)
      | (none, s) => (none, s)

/-- The addresses of the blocks that n bytes of a row touch. -/
def TileDesc.blockAddrs (d : TileDesc) (i n : Nat) : List Nat :=
  let a := d.rowAt i 0
  if n = 0 then [] else (List.range ((a % 256 + n + 255) / 256)).map fun j => (a / 256 + j) * 256

/-- A pin's operands, where it would not fault. -/
def pinOf (v : View) (s : State) (act : List Nat) (slot : BitVec 3) (a c : Src) : Option (TileDesc × Nat × Word) :=
  let d := descOf v s (act.headD 0) a
  let k := (lo (valR v s (act.headD 0) c false).1).toNat
  let bad := !(descCauses v s act [a] (descUses a ++ [c.use])).isEmpty || !(rangeCauses v act d 0).isEmpty || d.scratch
  if bad then none else some (d, k, v.slot slot)

/-- MPIN. -/
def execMpin (g : Guard) (slot : BitVec 3) (a c : Src) (s : State) : Result := runBody s fun v s => do
  let srcs := descUses a ++ [c.use]
  let (act, _) ← prologue v s g srcs [] (badDesc a)
  let t := popQueues v srcs s
  if act.isEmpty then return t
  match pinOf v s act slot a c with
  | none => return t
  | some (d, k, w) =>
    if 16 ≤ (AMap.get [] t.ex.pins v.core).length then return t
    let n := (k * slotBits w + 7) / 8
    match t.pinAddrs v ((List.range 64).flatMap fun i => d.blockAddrs i n) with
    | (none, _) => return t
    | (some bs, t) =>
      let p : Pin := { team := v.teamKey, desc := d, k := k, slot := w, blocks := [] }
      let t := t.modEx fun x => { x with pins := x.pins.put v.core (AMap.get [] x.pins v.core ++ [p]) }
      return bs.eraseDups.foldl (State.pinBlock v.core v.asid) t

/-- MUNPIN. -/
def execMunpin (g : Guard) (slot : BitVec 3) (a c : Src) (s : State) : Result := runBody s fun v s => do
  let srcs := descUses a ++ [c.use]
  let (act, _) ← prologue v s g srcs [] (badDesc a)
  let t := popQueues v srcs s
  if act.isEmpty then return t
  match pinOf v s act slot a c with
  | none => return t
  | some (d, k, w) =>
    let q := AMap.get [] t.ex.pins v.core
    match q.find? (fun p => p.desc == d && p.k == k && p.slot == w) with
    | some p => return t.modEx fun x => { x with pins := x.pins.put v.core (q.erase p) }
    | none => return t

/-! ### MSAVE and MREST (R217) -/

/-- The checks that MSAVE and MREST share: privilege, and the core that the highest active lane names. -/
def moveTile (g : Guard) (a b : Src) (act' : View → State → List Nat → Nat → Word64 → Body) (v : View) (s : State) : Body := do
  let srcs := [a.use true, b.use]
  if v.sup = 0 then throw (failAll 2 0 v.lanes)
  let h := (activeLanes v s g).getLast?.getD 0
  let core := (lo (valR v s h b false).1).toNat
  let va := (valR v s h a true).1
  let reach := v.sup = 2 || ((s.partOf v).clusters ++ (s.partOf v).shared).contains (core / 16)
  let own (ls : List Nat) : List (Nat × Nat × Word64) :=
    poisonCauses v s ls srcs ++ if ls.contains h && !(srcs.any (srcPoison v s h)) then
      (if 639 < core || !reach then ls.map fun l => (l, 9, Config.freeWord s.freeCount) else [])
        ++ (if va.toNat % 64 != 0 then ls.map fun l => (l, 6, va) else []) else []
  let (act, cs) ← prologue v s g srcs [] (own := own)
  if act.isEmpty then return popQueues v srcs s
  else
    checkCauses (cs ++ own act)
    let s ← act' v s act core va
    return popQueues v srcs s

/-- The words of a tile's image. -/
def tileImage (t : Tile) : List Word :=
  match t.tag with
  | none => List.replicate 16 0
  | some g =>
    [0x80000000#32 ||| BitVec.ofNat 32 (g.asid % 4096), BitVec.ofNat 32 g.grid, BitVec.ofNat 32 g.team] ++ List.replicate 13 0
      ++ (List.range 64).flatMap fun i => (List.range 64).map fun n => t.elem i n

/-- MSAVE. -/
def execMsave (g : Guard) (tile : BitVec 3) (a b : Src) (s : State) : Result := runBody s
  (moveTile g a b fun v s act core va => do
    let n := tile.toNat
    if (s.matrixInFlight core).any fun i => i.tile == n then throw .stall
    match s.tileErrors core n v.asid fun _ => (s.tileAt core n).tag.isSome with
    | (some e, s) => throw (.failIn s { elementFail s e with lanes := lanesOf act, lcause := act.map (fun l => (l, 12)) })
    | (none, s) =>
      match s.writeVa (cacheOf v.core) v.asid va ((tileImage (s.tileAt core n)).map TWord.fresh) with
      | (.error (c, t), _) => throw (failAll c t act)
      | (.ok _, s) => return s.setTile core n {})

/-- A tile that its team owned at its last barrier and that was in an image then is what a rollback restores once it is in a tile again; in place of the
image of a tile that a rollback has not been able to restore, what it would have restored is put there (R218, log 49). -/
def State.keepImage (s : State) (key : Nat) (tile : Tile) : State :=
  let late (t : Team) : Option (Nat × Tile) := if s.ownsTile t key tile then t.lateTiles.find? fun c => c.1 % 8 == key % 8 else none
  let wants (t : Team) : Bool := s.ownsTile t key tile && t.cp.tmask.getLsbD (key % 8) && !(t.cp.tiles.any fun c => c.1 % 8 == key % 8)
  let keep (t : Team) : Team := match late t with
    | some c => { t with lateTiles := t.lateTiles.del c.1 }
    | none => if wants t then { t with cp := { t.cp with tiles := t.cp.tiles.put key tile } } else t
  let back := s.ex.teams.findSome? fun e => late e.2
  s.modEx fun x => { x with
    tiles := match back with | some c => x.tiles.put key c.2 | none => x.tiles
    teams := x.teams.map fun e => (e.1, keep e.2) }

/-- MREST. -/
def execMrest (g : Guard) (tile : BitVec 3) (a b : Src) (s : State) : Result := runBody s
  (moveTile g a b fun v s act core va => do
    let n := tile.toNat
    if (s.matrixInFlight core).any fun i => i.tile == n then throw .stall
    match s.readVa (cacheOf v.core) v.asid va rRD 4112 with
    | (.error (c, t), s) => throw (.failIn s { cause := c, tval := t, lanes := lanesOf act, lcause := act.map (fun l => (l, c)) })
    | (.ok ts, s) =>
      match judgeWords ts with
      | some (c, i) =>
        let wva := va + BitVec.ofNat 64 (4 * i)
        let pa := match (s.translate (cacheOf v.core) v.asid wva rRD).1 with | .ok e => e.paOf (va57 wva) | .error _ => 0
        throw (.failIn s { cause := c, tval := wva, lanes := lanesOf act, lcause := act.map (fun l => (l, c)), addr := pa / 256 * 256 })
      | none =>
        let w (i : Nat) : Word := (ts.getD i {}).data
        let s := s.tileMend core n fun _ => true
        if !(w 0).getLsbD 31 then return s.setTile core n {}
        let tag : Tag := { asid := ((w 0).extractLsb' 0 12).toNat, grid := (w 1).toNat, team := (w 2).toNat }
        let elems := (List.range 4096).foldl (fun m k => AMap.set 0 m k (w (16 + k))) ([] : AMap Word)
        let tile : Tile := { tag := some tag, elems := elems }
        return (s.setTile core n tile).keepImage (tileKey core n) tile)

end Sys2Proof.Machine
end

