-- ==== Sys2Proof/Machine/Trailers.lean ====
section
/-! DEFINITION. Trailers: dividing and merging splits (R247, R249), await sets (R44), branches, calls, loops, REFORM, EXIT, JOINW,
BAR, MWAIT, SLEEP and RTE (R258 to R272, R291), LOOP (R264). -/

namespace Sys2Proof.Machine

/-! ### Splits -/

/-- The registers that an await set names. -/
def awaitRegs (aw : Await) : List Reg := ([aw.a, aw.b, aw.c, aw.d].filter (· != 0)).eraseDups

/-- R44: an entry that names a d register, or a register that the strand does not have. -/
def badAwait (v : View) (aw : Await) : Bool := (awaitRegs aw).any fun r => 248 ≤ r.toNat || badOperand v r.toNat false false

/-- Whether a named register is full in a lane; a q entry when its queue holds an entry. -/
def awaitFull (v : View) (s : State) (l : Nat) (r : Reg) : Bool :=
  if isQueue r.toNat then !(AMap.get [] v.team.queues (queueKey v r.toNat)).isEmpty else (readElem v s l r.toNat).full

/-- Whether a lane's await entries are full and its batch waits have ended (R44, R97). -/
def laneFull (v : View) (s : State) (sp : Split) (l : Nat) : Bool :=
  (sp.awaits.all fun a => !a.1.getLsbD l || a.2.all (awaitFull v s l)) && sp.bw.all fun w => w.lane != l || w.ended

/-- Whether a split's await set is full in every lane, those of the handler's run before it among them (R44, R291). -/
def splitFull (v : View) (s : State) (sp : Split) : Bool :=
  sp.awaits.all (fun a => (lanesIn a.1).all fun l => a.2.all (awaitFull v s l)) && sp.bw.all (·.ended)

/-- Whether a split may merge: in Awaiting or Ready at a run boundary (R249); one whose CWAIT or SLEEPTO goes on is Parked (R248). -/
def Split.mergeable (sp : Split) : Bool := (sp.st == .awaiting || sp.st == .ready) && sp.bw.all (·.ended) && sp.cont.isNone

/-- Whether two splits merge: at the same next PC, or parked at one BAR. -/
def mergesWith (a b : Split) : Bool :=
  a.pc == b.pc && ((a.mergeable && b.mergeable) || (a.st == .parked .bar && b.st == .parked .bar))

/-- Merge the splits of a group that hold some lanes, which have just been placed, with the others, oldest first: the merged split takes the older
one's place (R249). Splits of other lanes do not merge with one another. -/
def mergeSplits (placed : Lanes) (l : List Split) : List Split :=
  let hot (sp : Split) : Bool := l.any fun n => n.mask &&& placed != 0 && mergesWith n sp
  l.foldl (fun acc sp =>
    match if hot sp then acc.findIdx? (fun a => mergesWith a sp) else none with
    | some i => acc.modify i fun a =>
        { a with mask := a.mask ||| sp.mask, entry := a.entry || sp.entry, awaits := a.awaits ++ sp.awaits, bw := a.bw ++ sp.bw, st := if a.st == .parked .bar then a.st else .awaiting }
    | none => acc ++ [sp]) []

/-- A part into which a trailer's split resolves; `fall` marks the fall-through split: the lanes whose guard failed (R247), and those that leave a
loop at its LEND (R265). -/
structure Part where
  pc : Word64
  mask : Lanes
  st : SplitState := .awaiting
  fall : Bool := false

/-- Parts with one PC and state joined. -/
def joinParts (ps : List Part) : List Part :=
  ps.foldl (fun acc p =>
    match acc.findIdx? (fun a => a.pc == p.pc && a.st == p.st) with
    | some i => acc.modify i fun a => { a with mask := a.mask ||| p.mask, fall := a.fall || p.fall }
    | none => acc ++ [p]) []

/-- Insert a part by ascending PC. -/
def insertPart (p : Part) : List Part → List Part
  | [] => [p]
  | q :: r => if p.pc.toNat < q.pc.toNat then p :: q :: r else q :: insertPart p r

/-- The order of R247: the fall-through split first; the others by ascending PC. -/
def orderParts (ps : List Part) : List Part :=
  ps.filter (·.fall) ++ (ps.filter fun p => !p.fall).foldl (fun acc p => insertPart p acc) []

/-- A trailer ends its run (R40, R41): the split divides into its parts, each with the await set and the batch waits of its lanes,
and the parts merge with the group's other splits. -/
def finishRun (v : View) (aw : Await) (ps : List Part) (s : State) : State :=
  let (id, s) := s.fresh
  let regs := awaitRegs aw
  let ws := v.grp.run.bwait.getD []
  let mk (p : Part) : Split :=
    { pc := p.pc, mask := p.mask, st := p.st, awaits := if regs.isEmpty then [] else [(p.mask, regs)],
      bw := ws.filter fun w => p.mask.getLsbD w.lane }
  let new := (orderParts ((joinParts ps).filter fun p => p.mask != 0)).map mk
  (s.modGroup v.gk fun g =>
    { g with splits := mergeSplits v.split.mask (g.splits.take v.idx ++ new ++ g.splits.drop (v.idx + 1)), run := freshRun id }).endRun v.gk

/-! ### JOINW's release (R266) -/

/-- Whether a split is parked in JOINW at a PC. -/
def joinsAt (pc : Word64) (sp : Split) : Bool := match sp.st with | .parked (.joinw q _ _ _) => q == pc | _ => false

/-- The PC at which every split of a group that holds a live strand and is not filing is parked in JOINW. -/
def joinedAt (g : Group) : Option Word64 :=
  let own := g.splits.foldl (fun m sp => m ||| sp.mask) 0
  let others : Bool := match g.saved with | some sv => sv.splits.any fun sp => sp.mask &&& ~~~own != 0 | none => false
  let live := g.splits.filter fun sp => match sp.st with | .filing _ => false | _ => true
  match live with
  | [] => none
  | sp :: _ => match sp.st with
    | .parked (.joinw pc _ _ _) =>
      if !others && live.all (joinsAt pc) then some pc else none
    | _ => none

/-- The inputs of the end of a split's JOINW, an outcome for every lane unless they are being taken already. -/
def Split.joinTook (sp : Split) (outcome : Bool) : List (Nat × Word64 × Bool) :=
  if sp.took.isEmpty then (lanesIn sp.mask).map fun l => (l, if outcome then 1 else 0, false) else sp.took

/-- Take the inputs of the ends of a group's JOINWs at a PC, as far as the log has room (R311); a divergence halts the context (R312). -/
def State.takeJoin (s : State) (gk : Nat) (outcome : Bool) : List Nat → State
  | [] => s
  | i :: r =>
    match s.viewOf gk i with
    | none => s.takeJoin gk outcome r
    | some v =>
      match logInputs v 1 (v.split.joinTook outcome) s with
      | .ok (m, s) => (s.modGroup gk fun g => g.modSplit i fun sp => { sp with took := m }).takeJoin gk outcome r
      | .error (.fail f) => raiseContext v f v.split.pc v.engine s
      | .error _ => s

/-- The splits parked in JOINW at a PC leave together with an outcome, which is an input of each lane (R311), and merge; they stay while the log has no room
for some lane's. -/
def State.releaseJoin (s : State) (gk : Nat) (pc : Word64) (outcome : Bool) : State :=
  match s.ex.groups.find gk with
  | none => s
  | some g =>
    let outcome := ((g.splits.find? fun sp => joinsAt pc sp && !sp.took.isEmpty).map fun sp => sp.took.any fun e => e.2.1 != 0).getD outcome
    let idxs := (List.range g.splits.length).filter fun i => (g.splits[i]?).any (joinsAt pc)
    let left := (g.splits.filter (joinsAt pc)).foldl (fun m sp => m ||| sp.mask) 0
    let s := s.takeJoin gk outcome idxs
    let ready : Bool := match s.ex.groups.find gk with
      | some g => g.splits.all fun sp => !joinsAt pc sp || (!sp.took.isEmpty && allTaken sp.took)
      | none => false
    if !ready then s else
    let one (s : State) (i : Nat) : State :=
      match s.viewOf gk i with
      | none => s
      | some v =>
        match v.split.st with
        | .parked (.joinw _ p _ _) =>
          let s := writePred v v.lanes p (fun l => (takenAt v.split.took l != 0, false)) s
          let next := s.seqPc v.core v.asid v.team pc
          s.modGroup gk fun g => g.modSplit i fun sp => { sp with pc := next, st := .awaiting, took := [] }
        | _ => s
    (idxs.foldl one s).modGroup gk fun g => { g with splits := mergeSplits left g.splits }

/-- What the log says of a replayed JOINW of some lanes (R312): whether it ended with its outcome, where it holds it. -/
def State.joinLogged (s : State) (v : View) : Option Bool :=
  if !s.replays v then none else
  v.lanes.findSome? fun l =>
    ((s.ctxNow v).vfind false v.grid.num v.team.num ((v.rank l).getD 0) (s.strandAt (v.key l)).vpos).map fun r => r.value != 0

/-- The PC at which a group's JOINWs end now, with the outcome: some of their inputs are being taken; every split has arrived; or the log replays a
timeout. -/
def State.joinEnd (s : State) (gk : Nat) (g : Group) : Option (Word64 × Bool) :=
  let at_ (p : Nat → Split → Bool) : Option Word64 := (g.splits.zipIdx).findSome? fun e => match e.1.st with
    | .parked (.joinw pc _ _ _) => if p e.2 e.1 then some pc else none
    | _ => none
  match at_ fun _ sp => !sp.took.isEmpty with
  | some pc => some (pc, true)
  | none => match joinedAt g with
    | some pc => some (pc, true)
    | none => (at_ fun i _ => ((s.viewOf gk i).bind s.joinLogged) == some false).map fun pc => (pc, false)

/-- Let a group's JOINWs end. -/
def State.settleJoin (s : State) (gk : Nat) : State :=
  match s.ex.groups.find gk with
  | none => s
  | some g => match s.joinEnd gk g with
    | some (pc, o) => s.releaseJoin gk pc o
    | none => s

/-! ### The shape of a trailer -/

/-- The skipping lanes leave for their skip targets as an ordinary split (R264). -/
def skipParts (v : View) : List Part :=
  (v.grp.run.skip.filter fun e => v.split.mask.getLsbD e.1).map fun e => { pc := e.2, mask := 1#32 <<< e.1 }

/-- A trailer: its own operand, its guard, the checks that its body makes of the active lanes, and the parts they go to. Lanes
whose guard fails continue in sequential order (R45). -/
def trailer (g : Guard) (aw : Await) (ops : List Use) (body : View → List Nat → Word64 → State → Except Stop (List Part × State))
    (v : View) (s : State) : Body := do
  let seq := s.seqPc v.core v.asid v.team v.split.pc
  let fails (ls : List Nat) : Option Fail := if ls.isEmpty then none else
    match body v ls seq s with | .error (.fail f) | .error (.failIn _ f) => some f | _ => none
  let own (ls : List Nat) : List (Nat × Nat × Word64) := match fails ls with
    | some f => f.lcause.map fun e => (e.1, e.2, f.tval)
    | none => []
  let (act, cs) ← atEntry (fun l => (fails [l]).bind (·.epc)) (prologue v s g ops [] (badAwait v aw) (own := own))
  checkCauses cs
  let (ps, s) ← if act.isEmpty then (.ok ([], s) : Except Stop (List Part × State)) else body v act seq s
  let s ← lanePairCompare v 1 s
  let rest := lanesOf ((liveLanes v).filter fun l => !act.contains l)
  return (finishRun v aw (({ pc := seq, mask := rest, fall := rest != 0 } : Part) :: skipParts v ++ ps) s).settleJoin v.gk

/-- Each active lane to its own next PC. -/
def partsTo (act : List Nat) (pc : Nat → Word64) : List Part := act.map fun l => { pc := pc l, mask := 1#32 <<< l }

/-- The lane's pair operand D. -/
def pairAt (v : View) (s : State) (d : Reg) (l : Nat) : Word64 := srcW64 v s l { reg := d.toNat, pair := true }
/-- The use of a trailer's pair operand (R43: it always blocks while it is empty). -/
def pairUse (d : Reg) : List Use := [{ reg := d.toNat, pair := true }]

/-! ### Branches, calls, returns (R260) -/

/-- TRAIL. -/
def execTrail (x : FTr) (s : State) : Result := runTrailer s (trailer x.g x.aw [] fun _ act seq s => .ok (partsTo act fun _ => seq, s))

/-- BR. -/
def execBr (x : FTrT) (s : State) : Result := runTrailer s (trailer x.g x.aw [] fun v act _ s => do
  let t := directTarget v.team v.split.pc x.tgt
  checkTargets [] (targetCauses v s act fun _ => t) fun _ => t
  return (partsTo act fun _ => t, s))

/-- BRX: the target is checked whatever the pair's poison, and the lowest-numbered cause is delivered. -/
def execBrx (x : FTrD) (s : State) : Result := runTrailer s (trailer x.g x.aw (pairUse x.d) fun v act _ s => do
  checkTargets (poisonCauses v s act (pairUse x.d)) (targetCauses v s act (pairAt v s x.d)) (pairAt v s x.d)
  return (partsTo act (pairAt v s x.d), s))

/-- The lanes that CALL cannot push in: ILLEGAL_OPERAND with the depth. -/
def fullStacks (v : View) (s : State) (act : List Nat) : List (Nat × Nat × Word64) :=
  (act.filter fun l => 64 ≤ (s.strandAt (v.key l)).rets.length).map fun l => (l, 3, 64)

/-- Push a return PC in each active lane. -/
def pushReturns (v : View) (act : List Nat) (pc : Word64) (s : State) : State :=
  act.foldl (fun s l => s.modStrand (v.key l) fun t => { t with rets := pc :: t.rets }) s

/-- CALL. -/
def execCall (x : FTrT) (s : State) : Result := runTrailer s (trailer x.g x.aw [] fun v act seq s => do
  let t := directTarget v.team v.split.pc x.tgt
  checkTargets (fullStacks v s act) (targetCauses v s act fun _ => t) fun _ => t
  return (partsTo act fun _ => t, pushReturns v act seq s))

/-- CALLX: a poisoned pair in any lane comes before the full stacks, R260's own order. -/
def execCallx (x : FTrD) (s : State) : Result := runTrailer s (trailer x.g x.aw (pairUse x.d) fun v act seq s => do
  let ps := poisonCauses v s act (pairUse x.d)
  checkTargets ps (targetCauses v s act (pairAt v s x.d)) (pairAt v s x.d) (fullStacks v s act)
  return (partsTo act (pairAt v s x.d), pushReturns v act seq s))

/-- RET. -/
def execRet (x : FTr) (s : State) : Result := runTrailer s (trailer x.g x.aw [] fun v act _ s => do
  let rets (l : Nat) : List Word64 := (s.strandAt (v.key l)).rets
  checkTargets ((act.filter fun l => (rets l).isEmpty).map fun l => (l, 3, 0))
    (targetCauses v s (act.filter fun l => !(rets l).isEmpty) fun l => (rets l).headD 0) fun l => (rets l).headD 0
  return (partsTo act fun l => (rets l).headD 0, act.foldl (fun s l => s.modStrand (v.key l) fun t => { t with rets := t.rets.tail }) s))

/-- REFORM (R262). -/
def execReform (x : FTrT) (s : State) : Result := runTrailer s (trailer x.g x.aw [] fun v act _ s => do
  let t := directTarget v.team v.split.pc x.tgt
  checkTargets [] (targetCauses v s act fun _ => t) fun _ => t
  return ([{ pc := t, mask := lanesOf act, st := .filing t }], s))

/-- EXIT (R263): each strand ends when its own await set is full. -/
def execExit (aw : Await) (s : State) : Result := runTrailer s (trailer .always aw [] fun v act _ s =>
  .ok ([{ pc := v.split.pc, mask := lanesOf act, st := .exiting }], s))

/-! ### Loops -/

/-- LOOP (R264). -/
def execLoop (g : Guard) (a : Src) (tgt : BitVec 20) (s : State) : Result := runBody s fun v s => do
  let srcs := [a.use]
  let t := directTarget v.team v.split.pc tgt
  let n (l : Nat) : Word := lo (valR v s l a false).1
  let deep (act : List Nat) : List (Nat × Nat × Word64) :=
    (act.filter fun l => !srcPoison v s l a.use && n l != 0 && 4 ≤ (s.strandAt (v.key l)).loops.length).map fun l => (l, 3, 4)
  let own (ls : List Nat) : List (Nat × Nat × Word64) := poisonCauses v s ls srcs ++ deep ls
  let (act, cs) ← atEntry (fun _ => some t) (prologue v s g srcs [] (own := own) (fixed := fun ls => targetCauses v s ls fun _ => t))
  if act.isEmpty then return popQueues v srcs s
  checkTargets (cs ++ own act) (targetCauses v s act fun _ => t) fun _ => t
  let run := act.filter fun l => n l != 0
  let start := s.seqPc v.core v.asid v.team v.split.pc
  let s := run.foldl (fun s l => s.modStrand (v.key l) fun st => { st with loops := { count := n l, start := start } :: st.loops }) s
  let skips := (act.filter fun l => n l == 0).map fun l => (l, t)
  return popQueues v srcs (s.modGroup v.gk fun g => { g with run := { g.run with skip := g.run.skip ++ skips } })

/-- LEND (R265). -/
def execLend (x : FTrT) (s : State) : Result := runTrailer s (trailer x.g x.aw [] fun v act seq s => do
  let t := directTarget v.team v.split.pc x.tgt
  let loops (l : Nat) : List LoopEntry := (s.strandAt (v.key l)).loops
  let again (l : Nat) : Bool := match loops l with | e :: _ => e.count - 1 != 0 | [] => false
  let bad (l : Nat) : Bool := match loops l with | e :: _ => e.start != t | [] => true
  checkTargets ((act.filter bad).map fun l => (l, 3, BitVec.ofNat 64 (loops l).length))
    (targetCauses v s (act.filter fun l => again l && !bad l) (fun _ => t)) fun _ => t
  let step (s : State) (l : Nat) : State := s.modStrand (v.key l) fun st =>
    { st with loops := match st.loops with
        | e :: r => if e.count - 1 != 0 then { e with count := e.count - 1 } :: r else r
        | [] => [] }
  return ({ pc := seq, mask := 0, fall := true } :: partsTo act fun l => if again l then t else seq, act.foldl step s))

/-! ### Waits -/

/-- JOINW (R266): the split parks at the JOINW's own PC; the timer is that of the first split to park there. -/
def execJoinw (g : Guard) (p : BitVec 4) (tmo : BitVec 20) (aw : Await) (s : State) : Result := runTrailer s
  (trailer g aw [] fun v act _ s => do
    let pc := v.split.pc
    let first := v.grp.splits.findSome? fun sp => match sp.st with
      | .parked (.joinw q _ d _) => if q == pc then some d else none
      | _ => none
    let d : Option Nat := match first with
      | some d => d
      | none => if tmo == 0 then none else some (s.dev.clock + tmo.toNat)
    return ([{ pc := pc, mask := lanesOf act, st := .parked (.joinw pc p d tmo.toNat) }], s))

/-- BAR (R267): the split arrives when every lane's await set is full. -/
def execBar (aw : Await) (s : State) : Result := runTrailer s (trailer .always aw [] fun _ act seq s =>
  .ok ([{ pc := seq, mask := lanesOf act, st := .arriving }], s))

/-- MWAIT (R270): each lane's line is translated as it issues; a lane whose translation fails monitors none. -/
def execMwait (x : FTrDT) (s : State) : Result := runTrailer s (trailer x.g x.aw (pairUse x.d) fun v act seq s => do
  let va (l : Nat) : Word64 := pairAt v s x.d l
  checkCauses (poisonCauses v s act (pairUse x.d) ++ (act.filter fun l => !canonical (va l)).map fun l => (l, 8, va l))
  let order := s.nextId
  let one (r : List LaneWait × State) (l : Nat) : List LaneWait × State :=
    let (tr, s) := r.2.translate (cacheOf v.core) v.asid (va l) rRD
    let line := match tr with | .ok e => some (e.paOf (va57 (va l)) / 64) | .error _ => none
    let seqNo := match line, (s.strandAt (v.key l)).reservation with
      | some n, some rs => if rs.line == n then rs.seq else AMap.get 0 s.mem.wseq n
      | some n, none => AMap.get 0 s.mem.wseq n
      | none, _ => 0
    let w : LaneWait := { lane := l, line := line, seq := seqNo, deadline := if x.tmo == 0 then none else some (s.dev.clock + x.tmo.toNat), order := order }
    (r.1 ++ [w], s)
  let (ws, s) := act.foldl one ([], s)
  return ([{ pc := seq, mask := lanesOf act, st := .parked (.mwait ws) }], s))

/-- SLEEP (R271). -/
def execSleep (x : FTrD) (s : State) : Result := runTrailer s (trailer x.g x.aw (pairUse x.d) fun v act seq s => do
  checkCauses (poisonCauses v s act (pairUse x.d))
  return ([{ pc := seq, mask := lanesOf act, st := .parked (.sleep (act.map fun l => (l, pairAt v s x.d l))) }], s))

/-! ### RTE -/

/-- Whether an %epc names a valid slot, or in DPF code a PC of the segment (R291). -/
def validPc (v : View) (s : State) (pc : Word64) : Bool :=
  if v.team.inNative then
    pcForm pc && (match s.peekLine v.core v.asid v.team (lineVa pc) with | .ok ws => slotValid ws (slotNo pc) | .error _ => true)
  else pc.extractLsb' 0 2 == 0 && !dpfOutside v.team pc

/-- RTE (R291): its await set and its run's batch waits hold the split that continues, which merges with another at its PC as after any trailer (R249). -/
def execRte (aw : Await) (s : State) : Result := runTrailer s fun v s => do
  let (_, _) ← prologue v s .always [] [] (badAwait v aw || !v.grp.hm)
  if v.grp.causebits == 0 && !validPc v s v.grp.epc then throw (failAll 1 7 v.lanes)
  let s ← lanePairCompare v 1 s
  let (id, s) := s.fresh
  let regs := awaitRegs aw
  let own := v.split.mask
  let ws := v.grp.run.bwait.getD []
  let hold (sp : Split) : Split :=
    { sp with st := match sp.st with | .filing t => .filing t | _ => .awaiting, awaits := sp.awaits ++ (if regs.isEmpty then [] else [(own, regs)]), bw := sp.bw ++ ws }
  let at_ : Nat := if v.grp.causebits != 0 then 0 else match v.grp.saved with | some sv => sv.idx | none => 0
  let skip := (v.grp.saved.map fun sv => ((sv.splits.take sv.idx).filter fun sp => sp.mask == 0).length).getD 0
  let back (g : Group) : Group := (returnFrom v id g).modSplit (at_ - skip) hold
  return (s.modGroup v.gk fun g => { back g with splits := mergeSplits (((back g).splits[at_ - skip]?.map (·.mask)).getD 0) (back g).splits }).endRun v.gk

end Sys2Proof.Machine
end

