-- ==== Sys2Proof/Machine/Grids.lean ====
section
/-! DEFINITION. Launch records and kernel headers (R274, R331, R332), the acceptance of grids (R244, R275, R277), frame counts
(R137, R139), and how strands are filed and groups formed, folded and retired (R244 to R256). -/

namespace Sys2Proof.Machine

/-! ### Launch records and kernel headers -/

/-- The number whose bits are those of words, the first lowest (R9). -/
def natOf (ws : List Word) : Nat := (ws.zipIdx).foldl (fun n e => n + e.1.toNat * 2 ^ (32 * e.2)) 0
/-- Bits [hi:lo] of a number. -/
def bits (n lo hi : Nat) : Nat := n / 2 ^ lo % 2 ^ (hi + 1 - lo)

/-- A launch record (Table 15.5). -/
structure LaunchRecord where
  khdr : Word64
  teams : Nat
  strands : Nat
  queue : Nat
  cword : Word64
  slots : List Word
deriving Repr

/-- The fields of a record's 16 words. -/
def parseRecord (ws : List Word) : LaunchRecord :=
  let n := natOf ws
  { khdr := BitVec.ofNat 64 (bits n 0 63), teams := bits n 64 95, strands := bits n 96 111, queue := bits n 112 117,
    cword := BitVec.ofNat 64 (bits n 128 191), slots := ws.drop 8 }

/-- The lowest bit of the lowest bad field of a record (R275). -/
def badRecordField (ws : List Word) : Option Nat :=
  let n := natOf ws
  if bits n 0 63 % 64 != 0 then some 0
  else if bits n 64 95 == 0 then some 64
  else if bits n 118 127 != 0 then some 118
  else if bits n 128 191 % 4 != 0 then some 128
  else if bits n 192 255 != 0 then some 192
  else none

/-- The lowest bad format slot of a record (R166). -/
def badSlot (slots : List Word) : Option Nat :=
  slots.findIdx? fun w => 7 ≤ (w.extractLsb' 0 4).toNat || w.extractLsb' 17 15 != 0

/-- The fields of a kernel header's 32 words (Table 19.3). -/
def parseHeader (ws : List Word) : KHeader :=
  let n := natOf ws
  { prefetch := (List.range 8).map fun j => BitVec.ofNat 16 (bits n (896 + 16 * j) (911 + 16 * j))
    segdesc := BitVec.ofNat 64 (bits n 832 895)
    trapent := BitVec.ofNat 64 (bits n 768 831)
    pilotent := BitVec.ofNat 64 (bits n 704 767)
    execent := BitVec.ofNat 64 (bits n 640 703)
    frameb := bits n 608 639
    scratchb := bits n 576 607
    proof := bits n 548 559
    capacity := bits n 537 547
    regs := bits n 529 536
    level := bits n 526 528
    prot := bits n 524 525
    pmask := BitVec.ofNat 3 (bits n 521 523)
    misgrp := bits n 520 520 == 1
    noxlate := bits n 519 519 == 1
    form := bits n 514 515 }

/-- Whether an entry PC is not a PC of the header's form (R23, R332, R336). -/
def badEntry (form : Nat) (pc : Word64) : Bool := pc != 0 && (if form == 1 then pc.extractLsb' 0 2 != 0 else !pcForm pc)

/-- The lowest bit of the lowest bad field of a kernel header (R332). -/
def badHeader (ws : List Word) : Option Nat :=
  let n := natOf ws
  let h := parseHeader ws
  if bits n 0 513 != 0 then some 0
  else if 2 ≤ h.form then some 514
  else if bits n 516 518 != 0 then some 516
  else if h.prot == 3 then some 524
  else if h.regs < 16 || 192 < h.regs || h.regs % 8 != 0 || decide (524288 < h.capacity * h.regs * 4) || (h.form == 1 && decide (64 < h.regs)) then some 529
  else if h.capacity < 32 || 1024 < h.capacity || h.capacity % 32 != 0 then some 537
  else if bits n 560 575 != 0 then some 560
  else if 393216 < h.scratchb then some 576
  else if h.frameb < 64 || 2 ^ 29 < h.frameb then some 608
  else if badEntry h.form h.execent then some 640
  else if badEntry h.form h.pilotent then some 704
  else if badEntry h.form h.trapent then some 768
  else if h.form == 1 && h.segdesc == 0 then some 832
  else none

/-- A failing check: cause, %tval, and the block of a consumed word. -/
abbrev CheckFail := Nat × Word64 × Nat

/-- Read n words at their home slices, each checked (R81, R275); a core writes back its own dirty copy of each first (R116). -/
def State.readChecked (s : State) (cache : Nat) (wb : Option Nat) (asid : Nat) (va : Word64) : Nat → Except CheckFail (List Word) × State
  | 0 => (.ok [], s)
  | n + 1 =>
    match s.translate cache asid va rRD with
    | (.error (c, t), s) => (.error (c, t, 0), s)
    | (.ok e, s) =>
      let s := match wb with | some core => s.l1WriteBackWord core asid (va57 va) | none => s
      let pa := e.paOf (va57 va)
      let (t, s) := s.sliceRead pa asid
      match t.judge with
      | some c => (.error (c, va, pa / 256 * 256), s)
      | none =>
        match s.readChecked cache wb asid (va + 4) n with
        | (.error f, s) => (.error f, s)
        | (.ok r, s) => (.ok (t.data :: r), s)

/-- The checks of R275 on a record at a VA: for a LAUNCH from a level, or for a submission, which must declare level 0 (R277). -/
def State.checkLaunch (s : State) (cache : Nat) (wb : Option Nat) (asid : Nat) (level : Option Nat) (va : Word64) :
    Except CheckFail (LaunchRecord × KHeader) × State :=
  if va.toNat % 64 != 0 then (.error (6, va, 0), s) else
  match s.readChecked cache wb asid va 16 with
  | (.error f, s) => (.error f, s)
  | (.ok ws, s) =>
    let r := parseRecord ws
    match badRecordField ws, badSlot r.slots with
    | some b, _ => (.error (3, BitVec.ofNat 64 (256 + b), 0), s)
    | none, some j => (.error (3, BitVec.ofNat 64 j, 0), s)
    | none, none =>
      match s.readChecked cache wb asid r.khdr 32 with
      | (.error f, s) => (.error f, s)
      | (.ok hs, s) =>
        let h := parseHeader hs
        match badHeader hs with
        | some b => (.error (3, BitVec.ofNat 64 (1024 + b), 0), s)
        | none =>
          let lvlOk := match level with | some p => decide (1 ≤ h.level) && decide (h.level ≤ p + 1) | none => h.level == 0
          if !lvlOk then (.error (7, BitVec.ofNat 64 (h.level * 2 ^ 29), 0), s)
          else if r.strands == 0 || decide (h.capacity < r.strands) then (.error (3, BitVec.ofNat 64 (256 + 96), 0), s)
          else (.ok (r, h), s)

/-! ### Frames (R136 to R139) -/

/-- The key of the frame of a partition at a base. -/
def frameKey (part base : Nat) : Nat := part * 2 ^ 64 + base + 1

/-- Refresh the reference count in a frame's header (R137); a page that cannot be written leaves the copy as it was. -/
def State.writeRefs (s : State) (key : Nat) : State :=
  match s.org.frames.find key with
  | none => s
  | some f => (s.writeVa dieCache f.asid (BitVec.ofNat 64 (f.base + 8)) [TWord.fresh (BitVec.ofNat 32 f.refs)]).2

/-- Add a reference to a frame. -/
def State.addRef (s : State) (key : Nat) : State :=
  (s.modOrg fun o => { o with frames := o.frames.modify key fun f => { f with refs := f.refs + 1 } }).writeRefs key

/-- Drop a reference to a frame; at zero it is released, and its discard begins (R139, R377). -/
def State.dropRef (s : State) (key : Nat) : State :=
  (s.modOrg fun o => { o with frames := o.frames.modify key fun f => { f with refs := f.refs - 1, discarding := f.refs ≤ 1 } }).writeRefs key

/-! ### Accepting a grid -/

/-- The live %grid numbers of a context. -/
def State.gridNums (s : State) (asid : Nat) : List Nat := (s.org.grids.filter fun e => e.2.asid == asid).map (·.2.num)

/-- A %grid that no live grid of the context holds: the scheduler's choice, moved on to a free number (R244, log 32). -/
def State.chooseGrid (s : State) (asid : Nat) : Nat × State :=
  let (k, s) := s.free
  let live := s.gridNums asid
  let c := Config.gridNumber k
  let at_ (i : Nat) : Nat := (c + i) % (2 ^ 32 - 1) + 1
  (at_ (((List.range (live.length + 1)).find? fun i => !live.contains (at_ i)).getD 0), s)

/-- A partition's queue. -/
def State.lqueue (s : State) (part q : Nat) : LQueue := match s.org.parts.find part with | some p => AMap.get {} p.qs q | none => {}
/-- Change a partition's queue. -/
def State.modQueue (s : State) (part q : Nat) (f : LQueue → LQueue) : State :=
  s.modPart part fun p => { p with qs := p.qs.put q (f (AMap.get {} p.qs q)) }
/-- Whether a queue is full (R277). -/
def LQueue.full (q : LQueue) : Bool := decide (q.depthm1.toNat + 1 ≤ q.grids.length)
/-- Record an error in a queue's control block (Table 16.1). -/
def State.queueError (s : State) (part q : Nat) (err : BitVec 3) (addr : Word64) : State :=
  s.modQueue part q fun l => { l with err := err, errAddr := addr, errv := true }

/-- Accept a grid into a queue (R275, R277, R378). -/
def State.acceptGrid (s : State) (asid part q : Nat) (va : Word64) (r : LaunchRecord) (h : KHeader) (parent : Nat)
    (display : List Word64) (fsizes : List Nat) : State :=
  let (num, s) := s.chooseGrid asid
  let (key, s) := s.fresh
  let g : Grid := { num := num, asid := asid, part := part, queue := q, record := va, khdr := r.khdr, hdr := h, teams := r.teams,
                    strands := r.strands, slots := r.slots, cword := r.cword, parentFrame := parent, display := display,
                    fsizes := fsizes, accepted := s.dev.clock }
  (s.modOrg fun o => { o with grids := o.grids.put key g }).modQueue part q fun l => { l with grids := l.grids ++ [key] }

/-! ### Group contexts (R246) -/

/-- The group contexts reserved for a team, and the strands that a group or bin holds. -/
def reservedGroups (h : KHeader) : Nat := if h.prot == 1 then (h.capacity + 15) / 16 else (h.capacity + 31) / 32
/-- The slots of a group of a kernel. -/
def groupSlots (h : KHeader) : Nat := if h.prot == 1 then 16 else 32

/-- The header of a team's kernel. -/
def State.headerOf (s : State) (k : Nat) : KHeader :=
  match (s.ex.teams.find k).bind (fun t => s.org.grids.find t.grid) with | some g => g.hdr | none => {}

/-- A team's execute groups. -/
def State.groupsOf (s : State) (k : Nat) : List (Nat × Group) := s.ex.groups.filter fun e => e.2.team == k && !isPilot e.1

/-- The groups of a recorded or present state that stand in contexts of the shared pool. -/
def inPool (gs : List (Nat × Group)) : Nat := (gs.filter fun e => e.2.fromPool && !isPilot e.1).length
/-- The pool contexts that a team keeps from others: those of its groups, or those that a rollback would put back, if they are more (log 66). -/
def State.poolUse (s : State) (k : Nat) (t : Team) : Nat := Nat.max (inPool (s.groupsOf k)) (inPool t.cp.groups)
/-- The pool contexts that a core's teams keep. -/
def State.poolTotal (s : State) (core : Nat) : Nat :=
  ((s.ex.teams.filter fun e => e.2.core == core && !e.2.saved).map fun e => s.poolUse e.1 e.2).foldl (· + ·) 0

/-- A free context for a group of a team: a reserved one, answered as false, else one of the core's pool, answered as true. -/
def State.contextFor (s : State) (core k : Nat) : Option Bool :=
  let gs := s.groupsOf k
  let kept := match s.ex.teams.find k with | some t => inPool t.cp.groups | none => 0
  if (gs.filter fun e => !e.2.fromPool).length < reservedGroups (s.headerOf k) then some false
  else if inPool gs < kept || decide (s.poolTotal core < 32) then some true
  else none

/-- Whether a strand waits at a barrier. -/
def State.hasArrived (s : State) (k rank : Nat) : Bool := (s.strandAt (strandKey k rank)).arrived

/-- Form a converged group of strands at a PC (R245, R252): the lowest free number, slots in order; entry where a transfer of control
enters it there (R25). Strands that a fold brought to a bin together with others stay parked at their barrier (log 66). -/
def State.formGroup (s : State) (core k : Nat) (ranks : List Nat) (pc : Word64) (qset : Nat) (pool entry : Bool) : Nat × State :=
  let n := (s.freeGroup core).getD 127
  let (id, s) := s.fresh
  let slots (arrived : Bool) : List Nat := ((ranks.zipIdx).filter fun e => s.hasArrived k e.1 == arrived).map (·.2)
  let go : Split := { pc := pc, mask := lanesOf (slots false), entry := entry }
  let wait : Split := { pc := pc, mask := lanesOf (slots true), st := .parked .bar }
  let grp : Group := { gid := id, team := k, qset := qset, age := s.dev.clock, fromPool := pool, remap := (ranks.zipIdx).map fun e => (e.2, e.1),
                       splits := if (slots true).isEmpty then [go] else [go, wait], run := freshRun id }
  (core * 256 + n, s.modEx fun x => { x with groups := x.groups.put (core * 256 + n) grp })

/-- When a team's last execute group has retired, its pilot group is stopped as by PSTOP.flush (R153). -/
def State.stopPilotIfLast (s : State) (k : Nat) : State :=
  if (s.groupsOf k).isEmpty && !(s.ex.strands.any fun e => e.1 / 2048 == k && e.1 % 2048 < 1024) then
    match s.pilotOf k with
    | some p => s.modGroup p fun g => { g with block := some (.pstop true) }
    | none => s
  else s

/-- Retire a group (R256). -/
def State.retireGroup (s : State) (gk : Nat) : State :=
  let k := match s.ex.groups.find gk with | some g => g.team | none => 0
  ((s.endRun gk).modEx fun x => { x with groups := x.groups.del gk, specs := x.specs.del gk }).stopPilotIfLast k

/-! ### Proofing bins (R251) -/

/-- The keys of a core's bins. -/
def binKeys (core : Nat) : List Nat := (List.range 32).map fun b => core * 32 + b

/-- Whether a bin may launch before its team's barrier completes: some strand in it has not arrived there (R246). -/
def State.binFree (s : State) (b : Bin) : Bool := b.ranks.any fun r => !s.hasArrived b.team r

/-- The filling bins of a core that may launch. -/
def State.fillingBins (s : State) (core : Nat) : List Nat :=
  (binKeys core).filter fun n => match s.ex.bins.find n with | some b => !b.launching && s.binFree b && s.teamRuns b.team | none => false

/-- Whether a bin of a core has been made to launch for the need of a strand, and has not left yet. -/
def State.binForced (s : State) (core need : Nat) : Bool :=
  (binKeys core).any fun n => match s.ex.bins.find n with | some b => b.forced == some need && s.teamRuns b.team | none => false

/-- Whether a bin can be made to launch for a strand that needs one. -/
def State.canForce (s : State) (core need : Nat) : Bool := !s.binForced core need && !(s.fillingBins core).isEmpty

/-- A strand needs a bin and none is free: the filling bin whose timer started earliest launches at once (R18, R251), one for each strand in need. -/
def State.forceBin (s : State) (core need : Nat) : State :=
  let start (n : Nat) : Nat := match s.ex.bins.find n with | some b => b.started | none => 0
  match s.binForced core need, s.fillingBins core with
  | true, _ | _, [] => s
  | false, n :: r =>
    let n := r.foldl (fun a b => if start b < start a then b else a) n
    s.modEx fun x => { x with bins := x.bins.modify n fun b => { b with launching := true, forced := some need } }

/-- File a strand into a bin keyed by team and PC (R251): none where no bin is free. -/
def State.fileStrand (s : State) (core k rank : Nat) (pc : Word64) (qset : Nat) (folded : Bool) : Option State :=
  let cap := groupSlots (s.headerOf k)
  let hit := (binKeys core).find? fun n => match s.ex.bins.find n with
    | some b => b.team == k && b.pc == pc && !b.launching
    | none => false
  match hit with
  | some n => some (s.modEx fun x => { x with bins := x.bins.modify n fun b =>
      { b with ranks := b.ranks ++ [rank], launching := decide (cap ≤ b.ranks.length + 1), entered := b.entered || !folded } })
  | none =>
    ((binKeys core).find? fun n => !s.ex.bins.has n).map fun n =>
      let b : Bin := { team := k, pc := pc, ranks := [rank], started := s.dev.clock, qset := qset, launching := decide (cap ≤ 1), entered := !folded }
      s.modEx fun x => { x with bins := x.bins.put n b }

/-- File strands in order: those that found a bin, and those that did not. -/
def State.fileStrands (s : State) (core k : Nat) (pc : Word64) (qset : Nat) (folded : Bool) : List Nat → List Nat × State
  | [] => ([], s)
  | r :: rs =>
    match s.fileStrand core k r pc qset folded with
    | some s => s.fileStrands core k pc qset folded rs
    | none => (r :: rs, s)

/-- Whether a group may be folded (R246): one split, arrived at a BAR, waiting only for other strands. -/
def Group.foldable (g : Group) : Bool :=
  g.saved.isNone && match g.splits with
    | [sp] => sp.st == .parked .bar && sp.bw.isEmpty
    | _ => false

/-- Put bins that a rollback or a resume found no room for into free ones. -/
def State.settleBins (s : State) : State :=
  s.ex.teams.foldl (fun s e => if e.2.lateBins.isEmpty || e.2.saved then s else
    e.2.lateBins.foldl (fun s b => s.restoreBin (e.2.core * 32, b)) (s.modTeam e.1 fun t => { t with lateBins := [] })) s

/-- The oldest group of a team that may be folded, with its key. -/
def State.foldable (s : State) (k : Nat) : Option (Nat × Group) :=
  match (s.groupsOf k).filter fun e => e.2.foldable with
  | [] => none
  | c :: r => some (r.foldl (fun a b => if b.2.age < a.2.age then b else a) c)

/-- File the strands of a group to be folded into bins in ascending slot: the ranks that find none. -/
def State.foldInto (s : State) (core k : Nat) (g : Group) : List Nat × State :=
  s.fileStrands core k (match g.splits with | sp :: _ => sp.pc | [] => 0) g.qset true (g.remap.map (·.2))

/-- Fold the oldest group of a team that may be folded: its strands go into bins and it retires. -/
def State.foldGroup (s : State) (core k : Nat) : Option State :=
  (s.foldable k).bind fun (gk, g) =>
    let (left, s) := s.foldInto core k g
    if left.isEmpty then some (s.retireGroup gk) else none

end Sys2Proof.Machine
end

