-- ==== Sys2Proof/Machine/Control.lean ====
section
/-! DEFINITION. SPAWN and LAUNCH (R253, R273 to R275). -/

namespace Sys2Proof.Machine

/-- Whether a write of some lanes must wait for a release fence in flight (R241). -/
def State.releasing (s : State) (v : View) (act : List Nat) : Bool :=
  act.any fun l => s.ex.fences.any fun e => e.2.rel && e.2.strands.contains (v.key l)

/-- Whether some lanes have accesses that are not yet performed. -/
def State.unperformed (s : State) (v : View) (act : List Nat) : Bool :=
  act.any fun l => s.ex.reqs.any fun e => e.2.dest.strand == v.key l && !e.2.performed

/-! ### SPAWN -/

/-- The live strands of a team's execute groups and bins. -/
def State.liveStrands (s : State) (k : Nat) : List Nat := (s.ex.strands.filter fun e => e.1 / 2048 == k && e.1 % 2048 < 1024).map fun e => e.1 % 2048

/-- The lowest rank that no live strand of a team holds (R244). -/
def State.freeRank (s : State) (k : Nat) : Nat := let live := s.liveStrands k; ((List.range 1024).find? fun r => !live.contains r).getD 1023

/-- Create one strand for a lane: its rank and the state; the full mark where the team is full; none where no bin is free. -/
def spawnOne (v : View) (pc : Word64) (arg : Elem) (rank : Nat) (s : State) : Option (Word × State) :=
  if v.grid.hdr.capacity ≤ (s.liveStrands v.teamKey).length then some (0xFFFFFFFF, s)
  else
    let r := s.freeRank v.teamKey
    let (id, s) := s.fresh
    let t : Strand := { uid := id, x := AMap.set {} (AMap.set {} [] 1 { val := arg.val, poison := arg.poison }) 2 { val := BitVec.ofNat 32 rank } }
    let s := s.modEx fun x => { x with strands := x.strands.put (strandKey v.teamKey r) t }
    (s.fileStrand v.core v.teamKey r pc v.grp.qset false).map fun s => (BitVec.ofNat 32 r, s)

/-- The need of a bin for the strand that a SPAWN creates, apart from that of its first lane's own strand. -/
def spawnNeed (v : View) (act : List Nat) : Nat := 2 ^ 40 + v.key (act.headD 0)

/-- The strands of the active lanes, in ascending slot. -/
def spawnAll (v : View) (pc : Word64) (arg : Nat → Elem) : List Nat → State → Option (AMap Word × State)
  | [], s => some ([], s)
  | l :: ls, s =>
    match spawnOne v pc (arg l) ((v.rank l).getD 0) s with
    | none => none
    | some (w, s) => (spawnAll v pc arg ls s).map fun (m, s) => (m.put l w, s)

/-- SPAWN (R273): every event of a lane before it comes before every event of the strand it creates; in a core pair only the leader
creates strands, and the trailer takes the ranks. -/
def execSpawn (g : Guard) (d : Reg) (a : Src) (tgt : BitVec 20) (s : State) : Result := runBody s fun v s => do
  let srcs := [a.use]
  let pc := directTarget v.team v.split.pc tgt
  let (act, cs) ← atEntry (fun _ => some pc) (prologue v s g srcs [(d, false)] (fixed := fun ls => targetCauses v s ls fun _ => pc))
  if act.isEmpty then return popQueues v srcs (flagDest v d false s)
  checkTargets cs (targetCauses v s act fun _ => pc) fun _ => pc
  if s.unperformed v act || s.releasing v act || act.any fun l => s.enginesBefore s.nextId true (v.key l) then throw .stall
  let arg (l : Nat) : Elem := (srcElems v s l a.use).getD 0 {}
  let isn := s.nextId
  let s1 ← signIrrevocable v (act.flatMap fun l => [l, (arg l).val.toNat]) s
  if v.trails then
    let (w, s) ← forward v act isn (fun _ => []) s1
    return popQueues v srcs (writeDest v act d (fun l => ([(w l).getD 0 0], false)) s)
  else
    match spawnAll v pc arg act s1 with
    | none => throw (.hold (s.forceBin v.core (spawnNeed v act)))
    | some (m, s) =>
      let s := if act.any fun l => AMap.get 0 m l != 0xFFFFFFFF then s.setIrrevocable v.teamKey else s
      let (w, s) ← forward v act isn (fun l => [AMap.get 0 m l]) s
      return popQueues v srcs (writeDest v act d (fun l => ([(w l).getD 0 0], false)) s)

/-! ### LAUNCH -/

/-- The checks of R275 for each lane: the records, and the causes of the lanes that fail. -/
def launchChecks (v : View) (va : Nat → Word64) : List Nat → State → (AMap (LaunchRecord × KHeader) × List (Nat × CheckFail)) × State
  | [], s => (([], []), s)
  | l :: ls, s =>
    let (r, s) := s.checkLaunch (cacheOf v.core) (some v.core) v.asid (some v.grid.hdr.level) (va l)
    let ((m, cs), s) := launchChecks v va ls s
    match r with
    | .ok x => ((m.put l x, cs), s)
    | .error f => ((m, (l, f) :: cs), s)

/-- Perform one lane's launch: its status (R275). -/
def launchOne (v : View) (va : Word64) (r : LaunchRecord) (h : KHeader) (s : State) : Word64 × State :=
  let q := s.lqueue v.grid.part r.queue
  if !q.en then (2, s)
  else if q.full then (1, s)
  else
    let base := v.grid.display.getD (h.level - 1) 0
    let parent := frameKey v.grid.part base.toNat
    (0, (s.addRef parent).acceptGrid v.asid v.grid.part r.queue va r h parent (v.grid.display.take h.level) (v.grid.fsizes.take h.level))

/-- Perform the lanes' launches in ascending slot. -/
def launchAll (v : View) (va : Nat → Word64) (m : AMap (LaunchRecord × KHeader)) : List Nat → State → AMap Word64 × State
  | [], s => ([], s)
  | l :: ls, s =>
    match AMap.find m l with
    | none => launchAll v va m ls s
    | some (r, h) =>
      let (w, s) := launchOne v (va l) r h s
      let (ws, s) := launchAll v va m ls s
      (ws.put l w, s)

/-- Whether something that some lanes issued before their LAUNCH must come first: an acquire, and what touches the bytes of their records, the
engines' accesses among it (R235); after a release fence, when the LAUNCH is a release, everything (R236). -/
def State.recordHeld (s : State) (v : View) (act : List Nat) (va : Nat → Word64) : Bool :=
  act.any fun l =>
    let t := s.strandAt (v.key l)
    s.heldFor s.nextId (v.key l) t.uid t.fenced [{ scratch := false, writes := false, word := va57 (va l) / 4, count := 16 }]

/-- The causes of the lanes whose records fail. -/
def launchCauses (fs : List (Nat × CheckFail)) : List (Nat × Nat × Word64) := fs.map fun f => (f.1, f.2.1, f.2.2.1)

/-- LAUNCH (R275): every lane is checked before any record is accepted, and the lowest-numbered cause of all is delivered (R49); the statuses are inputs of
the voyage log, and only the leader of a core pair launches. After a release FENCE at .dev or wider it is a release, behind what its L1 holds dirty (R236). -/
def execLaunch (x : FDS) (s : State) : Result := runBody s fun v s => do
  let srcs := [x.a.use true]
  let va (l : Nat) : Word64 := (valR v s l x.a true).1
  let checks (ls : List Nat) := launchChecks v va (ls.filter fun l => !srcPoison v s l (x.a.use true)) s
  let (act, cs) ← prologue v s x.g srcs [(x.d, false)] 
    (own := fun ls => poisonCauses v s ls srcs ++ if v.trails then [] else launchCauses (checks ls).1.2)
  if act.isEmpty then return flagDest v x.d false s
  if v.grp.run.inputs.isSome then
    let (w, s) ← takeInput v 3 s.nextId act (fun _ => 0) s
    return writeDest v act x.d (fun l => ([lo (w l)], false)) s
  let cs := cs ++ poisonCauses v s act srcs
  if s.releasing v act || s.recordHeld v act va then throw .stall
  let content := act.map fun l => (va l).toNat
  let isn := s.nextId
  if v.trails then
    checkCauses (cs ++ (act.filter fun l => (va l).toNat % 64 != 0).map fun l => (l, 6, va l))
    let s ← signIrrevocable v content s
    let (w, s) ← takeInput v 3 isn act (fun _ => 0) s
    return writeDest v act x.d (fun l => ([lo (w l)], false)) s
  else
    let ((m, fs), s) := checks act
    match pickCause (cs ++ launchCauses fs) with
    | some f =>
      let blk := ((fs.find? fun e => e.2.1 == f.cause).map fun e => e.2.2.2).getD 0
      throw (.failIn s { f with addr := if rollbackCause f.cause then blk else 0 })
    | none =>
      let s ← signIrrevocable v content s
      let s := if act.any fun l => (s.strandAt (v.key l)).released then s.l1Empty v.core v.asid else s
      let (ws, s) := launchAll v va m act s
      let s := if act.any fun l => AMap.get 1 ws l == 0 then s.setIrrevocable v.teamKey else s
      let (w, s) ← takeInput v 3 isn act (fun l => AMap.get 0 ws l) s
      return writeDest v act x.d (fun l => ([lo (w l)], false)) s

end Sys2Proof.Machine
end

