-- ==== Sys2Proof/Machine/Fence.lean ====
section
/-! DEFINITION. FENCE, its completion, and running past an acquire fence (R231, R232, R240 to R243). -/

namespace Sys2Proof.Machine

/-- What a FENCE does at issue (R241): it does not stall; its parts are performed at FENCE_COMPLETE. -/
def fenceBody (g : Guard) (sc : Scope) (o : Order) (v : View) (s : State) : Body := do
  let (act, _) ← prologue v s g [] []
  if act.isEmpty then return s
  let s := clampSys v sc act s
  let s := if o.releases then act.foldl (fun s l => s.modStrand (v.key l) fun t => { t with fenced := true, released := t.released || sc.wide }) s else s
  let (id, s) := s.fresh
  let f : FenceOp := { core := v.core, gk := v.gk, strands := act.map v.key, wide := sc.wide, rel := o.releases, acq := o.acquires,
                       sigs := (s.pairOf v).issuedSigs, pc := v.split.pc }
  return s.modEx fun x => { x with fences := x.fences.put id f }

/-- From an acquire FENCE until it completes, the split speculates; what it goes back to is the state just after the FENCE (R242). -/
def State.speculating (s : State) (id : Nat) : State :=
  match s.ex.fences.find id with
  | none => s
  | some f =>
    match f.acq, s.ex.groups.find f.gk with
    | true, some g =>
      let mask : Lanes := ((g.splits.find? Split.speculates).map (·.mask)).getD 0
      let strands := s.ex.strands.filter fun e => g.remap.any fun r => mask.getLsbD r.1 && strandKey g.team r.2 == e.1
      s.modEx fun x => { x with specs := x.specs.put f.gk { fence := id, grp := g, strands := strands, fencePc := f.pc } }
    | _, _ => s

/-- FENCE (R240 to R242). -/
def execFence (g : Guard) (sc : Scope) (o : Order) (s : State) : Result :=
  match runBody s (fenceBody g sc o) with
  | .next t => .next (if s.ex.fences.has s.nextId then t else t.speculating s.nextId)
  | r => r

/-- The view of a fence's group. -/
def State.fenceView (s : State) (f : FenceOp) : Option View := s.engineView (f.strands.headD 0 / 2048) f.gk f.pc 0

/-- Whether a fence's waits are over (R241, R302): a release waits for every earlier access, an acquire for every earlier read. -/
def State.fenceReady (s : State) (id : Nat) (f : FenceOp) : Bool :=
  let earlier (e : Nat × Req) : Bool := decide (e.1 < id) && f.strands.contains e.2.dest.strand && !e.2.performed && (f.rel || e.2.reads)
  !(s.ex.reqs.any earlier) && !(f.strands.any (s.enginesBefore id f.rel))
    && (!f.rel || match s.fenceView f with | some v => !v.leads || decide (f.sigs ≤ (s.pairOf v).matched) | none => true)

/-- Whether the sweep of an acquire fence takes what a speculation read (R242): a recorded line that it invalidates, or whose F it clears while words that
were not dirty have been read, or are no longer dirty; a line that has left the L1 since counts as taken. -/
def State.sweepTakes (s : State) (core asid : Nat) (p : Spec) : Bool :=
  p.lines.any fun e =>
    match s.l1Key core asid (e.1 * 128) with
    | none => true
    | some k =>
      let d := (s.l1Line k).dirty
      d == 0 || e.2 % 2 ^ 32 != 0 || (BitVec.ofNat 32 (e.2 / 2 ^ 32) &&& ~~~d) != 0

/-- The PC just after a speculating group's FENCE. -/
def Spec.pc (p : Spec) : Word64 := ((p.grp.splits.find? (·.st == .running)).map (·.pc)).getD p.fencePc

/-- A speculation ends as its fence completes (R242): the held writes commit, and a split that is parked at its trailer goes on; where the sweep
took what it read, it goes back to the point just after the FENCE and issues again from there. -/
def State.endSpeculation (s : State) (gk : Nat) (taken : Bool) : State :=
  match s.ex.specs.find gk with
  | none => s
  | some p =>
    if taken then s.unspeculate gk p p.pc { p.grp.run with kept := p.kept }
    else
      let wake (sp : Split) : Split := if sp.st == .parked .fence then { sp with st := .ready } else sp
      (s.modGroup gk fun g => { g with splits := g.splits.map wake }).modEx fun x => { x with specs := x.specs.del gk }

/-- FENCE_COMPLETE (R112, R114, R241, R242): the write-back of a release, which the trailer of a core pair does not make; the sweep of
an acquire; then the speculation ends. -/
def execFenceComplete (core id : Nat) (s : State) : Result :=
  match s.ex.fences.find id with
  | none => .fault .notDue
  | some f =>
    match s.fenceView f with
    | none => .fault .notDue
    | some v =>
      if f.core != core || !s.fenceReady id f then .fault .notDue else
      let s := if f.rel && f.wide && !v.trails then s.l1WriteBackAll core v.asid else s
      let sweeps := f.acq && f.wide
      let taken := sweeps && match s.ex.specs.find f.gk with | some p => s.sweepTakes core v.asid p | none => false
      let s := if sweeps then s.l1Sweep core v.asid else s
      let s := s.modEx fun x => { x with fences := x.fences.del id }
      .next (if f.acq then s.endSpeculation f.gk taken else s).idle

end Sys2Proof.Machine
end

