-- ==== Sys2Proof/Machine/Invalidate.lean ====
section
/-! DEFINITION. TLBINV (R75 to R78), ICINV (R338) and the completions that CWB, TLBINV and ICINV wait for. -/

namespace Sys2Proof.Machine

/-- Two ranges of numbers overlap; an empty one overlaps none. -/
def overlap (a n b m : Nat) : Bool := decide (0 < n) && decide (0 < m) && decide (a < b + m) && decide (b < a + n)

/-! ### TLBINV -/

/-- Whether a lane's TLBINV removes an entry. -/
def TlbSel.hits (k : TlbSel) (e : TEntry) : Bool :=
  match k with
  | .va a lo n => e.asid == a && overlap (e.vpage * 2 ^ e.size) (2 ^ e.size) lo n
  | .asid a => e.asid == a
  | .ipa p lo n => e.part == p && overlap e.ipa (2 ^ e.ipaSize) lo n
  | .part p => e.part == p
  | .all => true

/-- The lines that a lane's TLBINV removes from the L1s, by ASID and the 57 bits of the VA: only .va and .asid do. -/
def TlbSel.hitsLine (k : TlbSel) (asid va size : Nat) : Bool :=
  match k with
  | .va a lo n => asid == a && overlap (va % 2 ^ 57) size lo n
  | .asid a => asid == a
  | _ => false

/-- The sources that a kind uses (R75). -/
def tlbSrcs (k : TlbKind) : List Use :=
  match k with
  | .va a b c | .ipa a b c => [a.use true, b.use, c.use]
  | .asid c | .part c => [c.use]
  | .all => []

/-- What a lane names. -/
def tlbSel (k : TlbKind) (v : View) (s : State) (l : Nat) : TlbSel :=
  let w (x : Src) : Nat := (lo (valR v s l x false).1).toNat
  match k with
  | .va a b c =>
    let start := va57 (valR v s l a true).1 / 4096 * 4096
    .va (w c % 4096) start (Nat.min (4096 * w b) (2 ^ 57 - start))
  | .asid c => .asid (w c % 4096)
  | .ipa a b c =>
    let start := (valR v s l a true).1.toNat % 2 ^ 52 / 4096 * 4096
    .ipa (w c % 256) start (Nat.min (4096 * w b) (2 ^ 52 - start))
  | .part c => .part (w c % 256)
  | .all => .all

/-- Write back and remove the lines that a lane's TLBINV matches in every core's L1 data and instruction caches (R77). -/
def State.tlbLines (s : State) (k : TlbSel) : State :=
  let s := match k with
    | .va a _ _ => s.l1Flush a fun va => k.hitsLine a va 128
    | .asid a => s.l1Flush a fun _ => true
    | _ => s
  let gone (e : Nat × List ILine) : List (Nat × ILine) := (e.2.filter fun l => k.hitsLine l.asid l.va 64).map fun l => (e.1, l)
  (s.mem.l1i.flatMap gone).foldl (fun s e => s.ilineDrop e.1 e.2.asid (BitVec.ofNat 64 e.2.va)) s

/-- Perform one lane's invalidation (R77, R78): a fill that is in flight under a removed translation installs nothing. -/
def State.tlbRemove (s : State) (k : TlbSel) : State :=
  let s := s.modMem fun m => { m with tcache := m.tcache.map fun e => (e.1, e.2.filter fun t => !k.hits t) }
  (s.tlbLines k).modEx fun x => { x with fills := x.fills.map fun e => (e.1, if k.hitsLine e.2.asid e.2.va 128 then { e.2 with installs := false } else e.2) }

/-- Whether a partition's supervisor may name an ASID (R76): its own contexts' and its children's; Smilor any. -/
def State.reaches (s : State) (v : View) (asid : Nat) : Bool :=
  v.sup = 2 || match s.org.ctxs.find asid with
    | some c => c.part == v.grid.part || (v.grid.part % 16 == 0 && c.part / 16 == v.grid.part / 16)
    | none => false

/-- TLBINV (R75 to R78): every lane's invalidation, and the walkers' partial walks are cleared. DESIGN CHOICE (log 65): a poisoned operand raises POISON, as
in ICINV (R338); the spec names no such check here. -/
def execTlbinv (g : Guard) (k : TlbKind) (s : State) : Result := runBody s fun v s => do
  if v.sup = 0 || (v.sup = 1 && match k with | .va .. | .asid _ => false | _ => true) then throw (failAll 2 0 v.lanes)
  let beyond (l : Nat) : Bool := match tlbSel k v s l with
    | .va a _ _ | .asid a => !s.reaches v a
    | _ => false
  let out (ls : List Nat) : List (Nat × Nat × Word64) := (ls.filter beyond).map fun l => (l, 9, Config.freeWord s.freeCount)
  let (act, cs) ← prologue v s g (tlbSrcs k) [] (own := fun ls => poisonCauses v s ls (tlbSrcs k) ++ out ls)
  if act.isEmpty then return popQueues v (tlbSrcs k) s
  checkCauses (cs ++ poisonCauses v s act (tlbSrcs k) ++ out act)
  let sels := act.map (tlbSel k v s)
  let t := (sels.foldl State.tlbRemove s).modMem fun m => { m with partials := [] }
  return popQueues v (tlbSrcs k) (t.modGroup v.gk fun g => { g with block := some (.tlbinv s.nextId sels) })

/-- An ASID may be assigned again once a TLBINV.asid of it has completed (R315). -/
def State.asidsDone (s : State) (sels : List TlbSel) : State :=
  s.modOrg fun o => { o with usedAsids := o.usedAsids.filter fun a => !sels.contains (.asid a) }

/-- TLBINV_COMPLETE (R78): every access that was translated before the TLBINV has been performed, the fills in flight among them, and the lines that these
have brought into an L1 meanwhile are gone. -/
def execTlbinvComplete (core group : Nat) (s : State) : Result :=
  let gk := core * 256 + group
  match (s.ex.groups.find gk).bind (·.block) with
  | some (.tlbinv mark sels) =>
    if s.ex.reqs.any (fun e => decide (e.1 < mark) && e.2.unit != .scratch && !e.2.performed && !s.cancelled e.2)
        || s.ex.qlds.any (fun e => decide (e.1 < mark) && !(lanesIn e.2.lanes).all e.2.got.has)
        || s.ex.fills.any (fun e => decide (e.1 < mark)) then .fault .notDue
    else .next (((sels.foldl State.tlbLines s).asidsDone sels).modGroup gk fun g => { g with block := none }).idle
  | _ => .fault .notDue

/-! ### ICINV -/

/-- The sources of an ICINV. -/
def icSrcs (k : IcKind) : List Use := match k with | .range a b => [a.use true, b.use] | .all => []

/-- A run gets the lines of its core that its fetches asked for and that an invalidation removes (R334). -/
def RunState.keepLines (r : RunState) (ls : List ILine) : RunState := { r with late := r.late ++ ls.filter fun l => l.asked.contains r.id && !l.refetch }

/-- Remove code copies of an ASID that a predicate on their VA range selects (R338): lines, table entries, translations. A fill that the
invalidation meets on its way installs nothing: its line goes to the runs that asked for it alone (R334). -/
def State.codeRemove (s : State) (asid : Nat) (sel : Nat → Nat → Bool) : State :=
  let gone (core : Nat) : List ILine := (AMap.get [] s.mem.l1i core).filter fun l => l.asid == asid && sel l.va 64
  let s := s.modEx fun x => { x with groups := x.groups.map fun e => (e.1, { e.2 with run := e.2.run.keepLines (gone (coreOf e.1)) }) }
  (s.modMem fun m => { m with
    l1i := m.l1i.map fun e => (e.1, e.2.filter fun l => !(l.asid == asid && sel l.va 64))
    lat := m.lat.map fun e => (e.1, e.2.filter fun t => !(t.1 == asid && sel t.2.2.1 64)) }).modOrg fun o =>
      { o with xlates := o.xlates.filter fun x => !(x.asid == asid && sel x.text x.size) }

/-- ICINV (R338): every core acknowledges at once, and the split waits for ICINV_COMPLETE; the trailer of a core pair leaves it to
the leader. -/
def execIcinv (g : Guard) (k : IcKind) (s : State) : Result := runBody s fun v s => do
  let (act, cs) ← prologue v s g (icSrcs k) [] (own := fun ls => poisonCauses v s ls (icSrcs k))
  checkCauses (cs ++ poisonCauses v s act (icSrcs k))
  if act.isEmpty || v.trails then return popQueues v (icSrcs k) s
  let one (t : State) (l : Nat) : State :=
    match k with
    | .all => t.codeRemove v.asid fun _ _ => true
    | .range a b =>
      let n := (lo (valR v s l b false).1).toNat
      t.codeRemove v.asid fun va size => overlap va size (valR v s l a true).1.toNat n
  return popQueues v (icSrcs k) ((act.foldl one s).modGroup v.gk fun g => { g with block := some .icinv })

/-- A group's wait ends. -/
def unblock (core group : Nat) (b : Block) (s : State) : Result :=
  let gk := core * 256 + group
  if (s.ex.groups.find gk).bind (·.block) == some b then .next (s.modGroup gk fun g => { g with block := none }).idle else .fault .notDue

/-- ICINV_COMPLETE (R338). -/
def execIcinvComplete (core group : Nat) (s : State) : Result := unblock core group .icinv s
/-- CWB_COMPLETE (R126): the words that were sent have arrived. -/
def execCwbComplete (core group : Nat) (s : State) : Result := unblock core group .cwb s

end Sys2Proof.Machine
end

