-- ==== Sys2Proof/Machine/Gates.lean ====
section
/-! DEFINITION. Gates (R318 to R325): GSIG, GREAD, GWAIT, the gate units, GWAIT's end and a gate's retirement. -/

namespace Sys2Proof.Machine

/-! ### The gate table -/

/-- The gate index of a handle (R319). -/
def gateIndex (h : Word) : Nat := h.toNat / 65536
/-- A gate's record. -/
def State.gate (s : State) (n : Nat) : Gate := (s.dev.gates.find n).getD {}
/-- Change a gate's record. -/
def State.setGate (s : State) (n : Nat) (g : Gate) : State := s.modDev fun d => { d with gates := d.gates.put n g }
/-- Whether a handle is current (R319). -/
def State.gateCurrent (s : State) (h : Word) : Bool :=
  let g := s.gate (gateIndex h)
  gateIndex h != 0 && g.v && g.gen == h.extractLsb' 0 16
/-- Whether a partition has a right: bit 0 SG, 1 WT, 2 RD of an entry in force that names it (Table 18.4). -/
def Gate.allows (g : Gate) (part right : Nat) : Bool :=
  g.acl.any fun e => e.getLsbD 15 && (e.extractLsb' 8 7).toNat == part && e.getLsbD right

/-- The charge of R320: the record afterwards, and the retry value where the bucket is empty. -/
def Gate.charge (g : Gate) (now : Word64) : Gate × Option Word64 :=
  if g.rate == 0 then (g, none) else
  let k := now.toNat / 1024 - g.lastfill.toNat / 1024
  let t := Nat.min g.burst.toNat (g.tokens.toNat + g.rate.toNat * k)
  if t = 0 then ({ g with tokens := 0, lastfill := now }, some (BitVec.ofNat 64 ((now.toNat / 1024 + 1) * 1024)))
  else ({ g with tokens := BitVec.ofNat 16 (t - 1), lastfill := now }, none)

/-- Send an operation of a group to a gate's unit. -/
def State.sendGate (s : State) (n gk : Nat) (o : GateOp) : State :=
  s.modDev fun d => { d with gops := AMap.put d.gops n (AMap.get [] d.gops n ++ [(gk, o)]) }

/-- Send a GSIG or a GREAD to its unit: its group issues nothing further until the unit has made its checks and its charge (R320, R322, log 41). -/
def State.askGate (s : State) (v : View) (h : Word) (right : Nat) (a : GateAct) : State :=
  (s.sendGate (gateIndex h) v.gk (.ask h v.grid.part right a 0)).modGroup v.gk fun g => { g with block := some .gate }

/-- The cause of a refusal (R320, R322), in the lanes of a mask. -/
def GateAnswer.cause (a : GateAnswer) (h : Word) (m : Lanes) : Option Fail :=
  let stop (c : Nat) (t : Word64) : Option Fail := some { cause := c, tval := t, lanes := m, lcause := (lanesIn m).map fun l => (l, c) }
  match a with
  | .denied => stop 14 (h.setWidth 64)
  | .empty t => stop 15 t
  | _ => none

/-- Take the unit's answer: the state that no longer holds it, or the cause. -/
def takeGate (v : View) (act : List Nat) (h : Word) (a : GateAnswer) (s : State) : Except Stop State :=
  let s := s.modGroup v.gk fun g => { g with gate := none }
  match a.cause h (lanesOf act) with
  | some f => .error (.failIn s f)
  | none => .ok s

/-- Whether a replay holds a gate value that a lane has not taken yet (R312): then the gate is not asked for one. -/
def State.gateLogged (s : State) (v : View) (l : Nat) : Bool :=
  s.replays v && (s.ctxNow v).vrecords.any fun r =>
    r.kind == 4 && r.grid == v.grid.num && r.team == v.team.num && some r.rank == v.rank l && decide ((s.strandAt (v.key l)).vpos ≤ r.pos)

/-! ### GSIG and GREAD -/

/-- GSIG (R323): the release actions of .part come first; then the unit accepts its operation or refuses it, and the strand goes on while an accepted one stands
at the unit. -/
def execGsig (g : Guard) (set : Bool) (a b : Src) (s : State) : Result := runBody s fun v s => do
  let srcs := [a.use, b.use true]
  let (act, cs) ← prologue v s g srcs [] (own := fun ls => poisonCauses v s ls srcs)
  match act.getLast? with
  | none => return popQueues v srcs s
  | some top =>
    checkCauses (cs ++ poisonCauses v s act srcs)
    let h := lo (valR v s top a false).1
    let x := (valR v s top b true).1
    match v.grp.gate with
    | some ans => return popQueues v srcs (← takeGate v act h ans s)
    | none =>
      let before := s.unperformed v act || s.releasing v act || act.any fun l => s.enginesBefore s.nextId true (v.key l)
      if !v.trails && before then throw .stall
      let s ← signIrrevocable v [h.toNat, x.toNat] s
      if v.trails then return popQueues v srcs s
      if releaseHeld v s then throw .stall
      throw (.hold ((s.l1WriteBackAll v.core v.asid).askGate v h 0 (.sig set x)))

/-- The results of a GREAD on their way, an input of the voyage log (R311, R324). -/
def State.sendGread (s : State) (core : Nat) (val : Word64) (ds : List (Dest × Option Nat)) : State :=
  ds.foldl (fun s d =>
    let (id, s) := s.fresh
    s.modEx fun r => { r with longs := r.longs.put id { core := core, dest := d.1, vals := twoWords val, poison := false, fwd := d.2, logged := some 4 } }) s

/-- GREAD (R324): the unit accepts it or refuses it; accepted, it marks its destinations empty, and its read stands at the unit while the strand goes on. In a
core pair the leader reads and forwards, and a replay that holds the value asks no gate. -/
def execGread (x : FDS) (s : State) : Result := runBody s fun v s => do
  let srcs := [x.a.use]
  let (act, cs) ← prologue v s x.g srcs [(x.d, true)] (own := fun ls => poisonCauses v s ls srcs)
  match act.getLast? with
  | none => return popQueues v srcs (flagDest v x.d true s)
  | some top =>
    checkCauses (cs ++ poisonCauses v s act srcs)
    let h := lo (valR v s top x.a false).1
    if v.leads && decide (1024 ≤ s.fwdCount v.pairKey) then throw .stall
    let unasked := v.trails || s.gateLogged v top
    let s ← (match v.grp.gate, unasked with
      | _, true => .ok s
      | none, _ => .error (.hold (s.askGate v h 2 .read))
      | some ans, _ => takeGate v act h ans s : Except Stop State)
    let isn := s.nextId
    let paired := v.leads || v.trails
    let dests := act.map fun l => (destOf v s act isn l x.d true, if paired then some (fwdKey v s l) else none)
    let (_, s) := s.fresh
    let s := markEmpty v act x.d true (flagT v x.d.toNat s)
    let s := if paired then bumpFwd v act s else s
    return popQueues v srcs (if unasked then s.sendGread v.core 0 dests else s.sendGate (gateIndex h) v.gk (.read v.core dests))

/-! ### GWAIT -/

/-- Mark a GWAIT's results empty. -/
def emptyGwait (v : View) (ls : List Nat) (d : Reg) (s : State) : State := markEmpty v ls (d + 1) false (markEmpty v ls (d + 2) true s)

/-- GWAIT (R325): the lanes whose guard fails go on; the others' split asks the gate's unit, which checks, charges and arms it. In a core pair the trailer
waits for what the leader forwards, and a replay that holds the value asks no gate. -/
def execGwait (x : FTrDT) (s : State) : Result := runTrailer s fun v s => do
  let d := x.d.toNat
  if d % 4 != 0 || 192 ≤ d || decide (v.grid.hdr.regs ≤ d + 3) then throw (failAll 3 0 v.lanes)
  let uses : List Use := [{ reg := d }, { reg := d + 2, pair := true }]
  trailer x.g x.aw uses (fun v act seq s => do
    if act.any fun l => !(readElem v s l (d + 1)).full then throw .stall
    checkCauses (poisonCauses v s act uses)
    let top := act.getLast?.getD 0
    let h := (readElem v s top d).val
    let n := srcW64 v s top { reg := d + 2, pair := true }
    if v.trails || s.gateLogged v top then
      return ([{ pc := seq, mask := lanesOf act, st := .parked (.gwait h n none x.tmo.toNat x.d none none) }], emptyGwait v act x.d s)
    else
      let (id, s) := s.fresh
      return ([{ pc := v.split.pc, mask := lanesOf act, st := .parked (.asking id seq h n x.tmo.toNat x.d) }],
        s.sendGate (gateIndex h) v.gk (.ask h v.grid.part 1 (.arm n) id))) v s

/-- Change a GWAIT that waits at a gate and is not decided. -/
def Wait.modGwait (n : Nat) (f : Word64 → Option Word64 → Option Word64 × Option (Word × Word64)) : Wait → Wait
  | .gwait h t dl tm d last none => if gateIndex h == n then let r := f t last; .gwait h t dl tm d r.1 r.2 else .gwait h t dl tm d last none
  | w => w

/-- Change the GWAITs of a group that wait at a gate and are not decided, those of an interrupted split among them. -/
def Group.modGwait (g : Group) (n : Nat) (f : Word64 → Option Word64 → Option Word64 × Option (Word × Word64)) : Group :=
  let one (sp : Split) : Split := match sp.st with
    | .parked w => { sp with st := .parked (w.modGwait n f) }
    | _ => sp
  { g with splits := g.splits.map one, saved := g.saved.map fun sv => { sv with splits := sv.splits.map one } }

/-- Whether a group trails in a core pair. -/
def State.trailsAt (s : State) (g : Group) : Bool := (s.ex.teams.find g.team).any Team.trails

/-- Change the undecided GWAITs at a gate, in the groups of running teams that a predicate selects: one that a halt has interrupted is armed afresh (R325). -/
def State.modGwaits (s : State) (n : Nat) (sel : Nat → Bool) (f : Word64 → Option Word64 → Option Word64 × Option (Word × Word64)) : State :=
  s.modEx fun x => { x with groups := x.groups.map fun e =>
    (e.1, if sel e.1 && !s.trailsAt e.2 && s.teamRuns e.2.team then e.2.modGwait n f else e.2) }

/-- The comparison of R325 against the value read now. -/
def gateCompare (val t : Word64) : Option Word64 × Option (Word × Word64) := (some val, if t.toNat ≤ val.toNat then some (0, val) else none)

/-! ### The gate units (R321) -/

/-- The checks and the charge of a gate's unit (R320, R322): a refusal, or none. -/
def State.chargeGate (s : State) (n : Nat) (h : Word) (part right : Nat) : Option GateAnswer × State :=
  let g := s.gate n
  if !(s.gateCurrent h && g.allows part right) then (some .denied, s) else
  match g.charge (BitVec.ofNat 64 s.dev.clock) with
  | (g, some t) => (some (.empty t), s.setGate n g)
  | (g, none) => (none, s.setGate n g)

/-- What a GSIG writes (R323), after which every armed GWAIT of the groups reads VALUE again (R325). -/
def State.signalGate (s : State) (n : Nat) (set : Bool) (x : Word64) : State :=
  let g := s.gate n
  let val := if set then x else g.value + x
  (s.setGate n { g with value := val }).modGwaits n (fun _ => true) fun th last => match last with
    | some _ => gateCompare val th
    | none => (none, none)

/-- The positions of the operations that may be next at a unit: each group's own go in order. -/
def gateNext (ops : List (Nat × GateOp)) : List Nat :=
  (List.range ops.length).filter fun i => !((ops.take i).any fun o => some o.1 == (ops[i]?).map (·.1))

/-- The key under which a peer's operations reach a gate unit, apart from every group's. -/
def peerKey (port : Nat) : Nat := 2 ^ 40 + port

/-- The splits of a group, those that a trap interrupted after them. -/
def Group.allSplits (g : Group) : List Split := g.splits ++ ((g.saved.map (·.splits)).getD [])
/-- Change a split by its place among them. -/
def Group.modAny (g : Group) (i : Nat) (f : Split → Split) : Group :=
  if i < g.splits.length then g.modSplit i f
  else { g with saved := g.saved.map fun sv => { sv with splits := sv.splits.modify (i - g.splits.length) f } }

/-- The view of a group's split by its place among them. -/
def State.viewAny (s : State) (gk i : Nat) : Option View :=
  (s.ex.groups.find gk).bind fun g => (g.allSplits[i]?).bind fun sp =>
    (s.engineView g.team gk sp.pc sp.mask).map fun v => { v with idx := i, split := sp }

/-- The place of the split whose GWAIT asks under a serial. -/
def Group.askingAt (g : Group) (id : Nat) : Option Nat :=
  g.allSplits.findIdx? fun sp => match sp.st with | .parked (.asking k ..) => k == id | _ => false

/-- The remote window that carries a gate's operations to a peer module (R347). -/
def State.gateWindow (s : State) (n : Nat) : Option RWindow := s.dev.windows.find? fun w => decide (w.gate ≤ n) && decide (n < w.gate + w.gates)

/-- How a peer's unit ends a GWAIT: satisfied, else timed out where it has a limit, else retired (R325). -/
def peerCompare (val th : Word64) (tm : Nat) : Option (Word × Word64) :=
  if th.toNat ≤ val.toNat then some (0, val) else if tm != 0 then some (1, val) else some (2, 0)

/-- The unit's answer to a GWAIT (R325): its split is parked, armed, its results empty, or the instruction has not been performed and raises the cause. A peer's
unit answers when the wait has ended. -/
def State.armGwait (s : State) (gk id : Nat) (refusal : Option GateAnswer) (val : Word64) (peer : Bool) : State :=
  match ((s.ex.groups.find gk).bind (·.askingAt id)).bind fun i => (s.viewAny gk i).map fun v => (i, v) with
  | none => s
  | some (i, v) =>
    match v.split.st with
    | .parked (.asking _ next h th tm d) =>
      match refusal.bind fun a => a.cause h v.split.mask with
      | some f => raise v f false (s.modGroup gk fun g => g.modAny i Split.unasked)
      | none =>
        let dl : Option Nat := if tm = 0 then none else some (s.dev.clock + tm)
        (emptyGwait v v.lanes d s).modGroup gk fun g => g.modAny i fun sp =>
          { sp with pc := next, st := .parked (.gwait h th dl tm d (some val) (if peer then peerCompare val th tm else (gateCompare val th).2)) }
    | _ => s

/-- The unit's answer to a GSIG or GREAD of a group, or to a GWAIT; an accepted GSIG's write is irrevocable (R298) and stands at the unit from then on. -/
def State.answerGroup (s : State) (n gk : Nat) (a : GateAct) (id : Nat) (refusal : Option GateAnswer) (val : Word64) (peer : Bool := false) : State :=
  let tell (ans : GateAnswer) (s : State) : State := s.modGroup gk fun g => { g with block := none, gate := some ans }
  match a, refusal with
  | .arm _, r => s.armGwait gk id r val peer
  | _, some r => tell r s
  | .read, none => tell .accepted s
  | .sig set x, none =>
    match s.ex.groups.find gk with
    | some g => (tell .accepted (s.setIrrevocable g.team)).sendGate n gk (.sig g.team set x)
    | none => s

/-- An operation of a group on a peer's gate goes to the peer's unit (R347); what that unit answers is free (log 25). -/
def State.askPeer (s : State) (w : RWindow) (n gk : Nat) (h : Word) (part right : Nat) (a : GateAct) (id : Nat) : State :=
  let s := s.sendPeer w.port (.ask (.gate (BitVec.ofNat 16 (w.peerGate + (n - w.gate)) ++ h.extractLsb' 0 16) part right a))
  let (k, s) := s.free
  let (j, s) := s.free
  s.answerGroup n gk a id ([none, some .denied, some (.empty (Config.freeWord j))].getD (Config.pick k % 3) none) (Config.freeWord j) true

/-- The unit performs a peer module's operation and answers it over its port (R347): a peer's GWAIT that is not over stays armed at the unit. -/
def State.answerPeer (s : State) (n port : Nat) (a : GateAct) (refusal : Option GateAnswer) : State :=
  let val := (s.gate n).value
  match refusal, a with
  | some r, _ => s.sendPeer port (.gate r)
  | none, .read => s.sendPeer port (.gate (.done val none none))
  | none, .sig set x => let s := s.signalGate n set x; s.sendPeer port (.gate (.done (s.gate n).value none none))
  | none, .arm th =>
    let res := (gateCompare val th).2
    let s := s.sendPeer port (.gate (.done val (some (n, th)) res))
    if res.isSome then s else s.modDev fun d => { d with peerWaits := d.peerWaits ++ [(port, n, th)] }

/-- End the peers' GWAITs at a gate that an outcome decides, and tell them. -/
def State.endPeers (s : State) (n : Nat) (res : Word64 → Option (Word × Word64)) : State :=
  s.dev.peerWaits.foldl (fun s w =>
    match if w.2.1 == n then res w.2.2 else none with
    | some r => (s.sendPeer w.1 (.gate (.done r.2 (some (n, w.2.2)) (some r)))).modDev fun d => { d with peerWaits := d.peerWaits.erase w }
    | none => s) s

/-- GATE_UNIT_OPERATION (R321): the next operation to arrive; the order among groups is free (log 1). After a GSIG every armed GWAIT
reads VALUE again. An operation that a remote window carries is performed at the peer's unit (R347). -/
def execGateUnitOperation (n : Nat) (s : State) : Result :=
  let ops := AMap.get [] s.dev.gops n
  let (k, s1) := s.free
  let cands := gateNext ops
  let i := cands.getD (Config.pick k % cands.length) 0
  match ops[i]? with
  | none => .fault .notDue
  | some (gk, o) =>
    let rest := ops.eraseIdx i
    let t := s1.modDev fun d => { d with gops := if rest.isEmpty then d.gops.del n else AMap.put d.gops n rest }
    let tellPeers (t : State) : State := t.endPeers n fun th => (gateCompare (t.gate n).value th).2
    match o with
    | .ask h part right a id =>
      match if gk < 2 ^ 40 then t.gateWindow n else none with
      | some w => .next (t.askPeer w n gk h part right a id).idle
      | none =>
        let (r, t) := t.chargeGate n h part right
        if gk < 2 ^ 40 then .next (t.answerGroup n gk a id r (t.gate n).value).idle else .next (tellPeers (t.answerPeer n (gk - 2 ^ 40) a r)).idle
    | .sig _ set x => .next (if (t.gateWindow n).isSome then t else tellPeers (t.signalGate n set x)).idle
    | .read core ds =>
      match t.gateWindow n with
      | some _ => let (k, t) := t.free; .next (t.sendGread core (Config.freeWord k) ds).idle
      | none => .next (t.sendGread core (t.gate n).value ds).idle
    | .rearm =>
      .next (t.modGwaits n (· == gk) fun th last => match last with | none => gateCompare (t.gate n).value th | some _ => (last, none)).idle

/-- GWAIT_TIMEOUT (R325): a wait that no read has satisfied ends with status 1 and the value last read. -/
def execGwaitTimeout (core group split : Nat) (s : State) : Result :=
  let gk := core * 256 + group
  match (s.ex.groups.find gk).bind fun g => g.allSplits[split]? with
  | none => .fault .notDue
  | some sp =>
    match sp.st with
    | .parked (.gwait h t (some dl) tm d (some last) none) =>
      if s.dev.clock < dl || !((s.ex.groups.find gk).any fun g => s.teamRuns g.team) then .fault .notDue else
      .next (s.modGroup gk fun g => g.modAny split fun sp =>
        { sp with st := .parked (.gwait h t (some dl) tm d (some last) (some (1, last))) }).idle
    | _ => .fault .notDue

/-- GATE_RETIRE (R319, R325): V clears, GEN rises, and every GWAIT on the gate ends with status 2. -/
def execGateRetire (n : Nat) (s : State) : Result :=
  let g := s.gate n
  if n == 0 || !g.v then .fault .notDue else
  .next (((s.setGate n { g with v := false, gen := g.gen + 1 }).modGwaits n (fun _ => true) fun _ last => (last, some (2, 0))).endPeers n fun _ => some (2, 0)).idle

/-! ### The end of a GWAIT -/

/-- The status that a replayed GWAIT returns with its logged value (R312, R325, log 14): 0 where the value satisfies it; else the timeout's, or, with
value 0 and no limit or no current handle, the retirement's. -/
def replayStatus (s : State) (h : Word) (n : Word64) (limited : Bool) (val : Word64) : Word :=
  if n.toNat ≤ val.toNat then 0 else if val == 0 && (!limited || !s.gateCurrent h) then 2 else 1

/-- A decided GWAIT, or one whose value a replay takes from the log, ends once the lanes' earlier reads are performed, those of the engines for them among
them: the acquire actions of .part, then the results, which the leader of a core pair forwards and its trailer takes (R301, R312, R325). None where it
cannot end yet; where the log has room for some lanes alone, the split keeps what they have taken. -/
def State.endGwait (s : State) (gk i : Nat) : Option State :=
  match s.viewOf gk i with
  | none => none
  | some v =>
    match v.split.st with
    | .parked (.gwait h n _ tm d _ res) =>
      let ls := v.lanes
      let replay := v.ctx.vmode == 2
      if s.ex.specs.has gk || v.ctx.halted || (res.isNone && !v.trails && !replay)
          || ls.any (fun l => s.enginesBefore s.nextId false (v.key l) || s.ex.reqs.any fun e => e.2.dest.strand == v.key l && !e.2.performed && e.2.reads) then none
      else
        let (st, val) := res.getD (0, 0)
        let asked := if v.split.took.isEmpty then ls.map fun l => (l, val, false) else v.split.took
        match if v.trails then .ok ([], s) else logInputs v 4 asked s with
        | .error (.fail f) => some (raiseContext v f v.split.pc v.engine s)
        | .error _ => none
        | .ok (m, s) =>
          if !allTaken m then some (s.modGroup gk fun g => g.modSplit i fun sp => { sp with took := m }) else
          let status (l : Nat) : Word := if replay then replayStatus s h n (tm != 0) (takenAt m l) else st
          match forward v ls s.nextId (fun l => status l :: twoWords (takenAt m l)) s with
          | .error _ => none
          | .ok (w, s) =>
            let s := if v.trails && v.ctx.vmode != 0 then ls.foldl (fun s l => s.countInput (v.key l)) s else s
            let (_, s) := s.fresh
            let s := s.l1Sweep v.core v.asid
            let s := writeDest v ls (d + 1) (fun l => ([(w l).getD 0 0], false)) s
            let s := writeDest v ls (d + 2) (fun l => ([(w l).getD 1 0, (w l).getD 2 0], false)) s
            some (s.modGroup gk fun g => g.modSplit i fun sp => { sp with st := .awaiting, took := [] })
    | _ => none

end Sys2Proof.Machine
end

