-- ==== Sys2Proof/Machine/RunEvents.lean ====
section
/-! DEFINITION. Events of runs and fetch: choosing and starting runs (R39 to R42, R98, R250, R285, R297), await sets (R44, R248, R249,
R263), pilot issue (R144), and the fills of the L1 instruction cache (R27, R333, R334). -/

namespace Sys2Proof.Machine

/-! ### Whether a team's agents go on -/

/-- The stage of a team's context on the ladder of R306. -/
def State.stageOf (s : State) (k : Nat) : Option Stage := (((s.asidOf k).bind s.org.ctxs.find).bind (·.ladder)).map (·.2)

/-- R306 stage 2: a group that is a single split at a run boundary stops. -/
def State.mustStop (s : State) (g : Group) : Bool := s.stageOf g.team == some .reconverge && decide (g.liveSplits ≤ 1)

/-- Whether a group's waits may end and its splits be placed: its team runs and it does not speculate (R242). -/
def State.groupMoves (s : State) (gk : Nat) : Bool :=
  match s.ex.groups.find gk with
  | some g => s.teamRuns g.team && !s.ex.specs.has gk
  | none => false

/-- The execute groups that hold no strand any more retire: in the clk after the one that emptied them (Table 14.4). -/
def State.retireEmpty (s : State) : State :=
  ((s.ex.groups.filter fun e => e.2.remap.isEmpty && !isPilot e.1 && s.teamRuns e.2.team).map (·.1)).foldl State.retireGroup s

/-! ### Starting a run -/

/-- Whether a group may start or continue a run. -/
def State.mayStart (s : State) (e : Nat × Group) : Bool :=
  s.groupMoves e.1 && !s.mustStop e.2 && e.2.splits.all (fun sp => sp.st != .running)
    && (match s.ex.teams.find e.2.team with | some t => t.ready | none => false)

/-- The split that a group runs next (R250): one that continues an interrupted run; else one passed over 64 times; else the oldest
that is ready. -/
def Group.nextSplit (g : Group) : Option Nat :=
  match g.splits.findIdx? fun sp => sp.cont.isSome with
  | some i => if (g.splits[i]?).any (fun sp => sp.st == .ready) then some i else none
  | none =>
    match g.splits.findIdx? fun sp => sp.st == .ready && 64 ≤ sp.passed with
    | some i => some i
    | none => g.splits.findIdx? fun sp => sp.st == .ready

/-- The groups homed on a slot that could start a run. -/
def State.startable (s : State) (core slot : Nat) : List (Nat × Group) :=
  s.ex.groups.filter fun e => coreOf e.1 == core && homeSlot e.1 == slot && !isPilot e.1 && e.2.nextSplit.isSome && s.mayStart e

/-- The older of two groups, the lower number where they tie (R285). -/
def olderOf (a b : Nat × Group) : Nat × Group := if b.2.age < a.2.age then b else a

/-- The oldest group of a list. -/
def oldestOf : List (Nat × Group) → Option (Nat × Group)
  | [] => none
  | e :: r => some (r.foldl olderOf e)

/-- The group that a slot chooses (R285). -/
def State.slotChoice (s : State) (core slot : Nat) : Option (Nat × Group) :=
  let l := s.startable core slot
  match l.filter fun e => 64 ≤ e.2.passed with
  | [] => oldestOf l
  | starved => oldestOf starved

/-- Start or continue the run of a group's split; the younger splits that are ready are passed over. -/
def State.startRun (s : State) (gk i : Nat) : State :=
  let (id, s) := s.fresh
  (s.modGroup gk fun g =>
    let mark (e : Split × Nat) : Split :=
      if e.2 = i then { e.1 with st := .running, awaits := [], bw := [], passed := 0, cont := none, entry := false }
      else if i < e.2 && e.1.st == .ready then { e.1 with passed := e.1.passed + 1 } else e.1
    { g with run := ((g.splits[i]?).bind (·.cont)).getD (freshRun id), splits := (g.splits.zipIdx).map mark, passed := 0 }).modEx fun x =>
      { x with runs := x.runs.put (slotKey gk) (gk % 256) }

/-- The lanes whose SLEEPTO ended with the promise missed (R98). -/
def Split.missed (sp : Split) : List BatchWait := sp.bw.filter (·.missed)

/-- The first split of a group that has missed a promise and whose next run, or filing, is still to come. -/
def Group.missedAt (g : Group) : Option Nat :=
  g.splits.findIdx? fun sp => !sp.missed.isEmpty && sp.cont.isNone && (match sp.st with | .ready | .awaiting | .filing _ => true | _ => false)

/-- PROMISE_MISSED for a split's lanes (R98): what else the split waits for it still waits for. -/
def State.promiseMissed (s : State) (gk i : Nat) : Option State :=
  (s.viewOf gk i).bind fun v =>
    let ms := v.split.missed
    let low := ms.foldl (fun m w => Nat.min m w.lane) 32
    (ms.find? fun w => w.lane == low).map fun w =>
      raise v { cause := 13, tval := w.num.setWidth 64, lanes := lanesOf (ms.map (·.lane)), lcause := ms.map fun w => (w.lane, 13) } false
        (s.modGroup gk fun g => g.modSplit i fun sp =>
          { sp with bw := if sp.st == .ready then [] else sp.bw.filter fun w => !w.missed, awaits := if sp.st == .ready then [] else sp.awaits })

/-- The held trap that is delivered at a group's first run boundary after a resume (R290, R297): the interrupted split is the one that
holds its lanes. -/
def State.deliverHeld (s : State) (v : View) (g : Group) : State :=
  let n := ((List.range 32).find? fun i => g.causebits.getLsbD i).getD 0
  match g.held.find? fun h => h.cause == n with
  | none => s.modGroup v.gk fun g => { g with causebits := g.causebits &&& ~~~(1#32 <<< n) }
  | some h =>
    let (id, s) := s.fresh
    let idx := (g.splits.findIdx? fun sp => sp.mask &&& h.lanes != 0).getD 0
    s.modGroup v.gk fun g => enterHandler v.team n h.epc h.tval h.lanes id
      { g with saved := some { splits := g.splits, idx := idx }, causebits := g.causebits &&& ~~~(1#32 <<< n),
               held := g.held.filter fun h => h.cause != n }

/-- R25: an entry that no trailer reaches (a launch from a bin, the execute, pilot and trap entries) must be a valid target when its first run
begins. The spec gives no %epc for it: DESIGN CHOICE (log 23), the PC being entered. -/
def State.badEntryAt (s : State) (v : View) : Option (Nat × Word64) :=
  if v.split.entry then s.badTarget v.core v.asid v.team v.split.pc else none

/-- What the start of a group's run does: a held trap is delivered first, then PROMISE_MISSED of whichever split of the group has missed a promise (R98),
then the check of an entry; else the run starts. -/
def State.beginRun (s : State) (gk i : Nat) : State :=
  match s.viewOf gk i with
  | none => s
  | some v =>
    if v.grp.causebits != 0 && !v.grp.hm then s.deliverHeld v v.grp
    else
      match v.grp.missedAt.bind (s.promiseMissed gk) with
      | some t => t
      | none =>
        match s.badEntryAt v with
        | some (c, t) => raise v { cause := c, tval := t, lanes := v.split.mask, fetch := true } false s
        | none => s.startRun gk i

/-- RUN_START (R40, R250, R285): an issue slot with no run in progress starts one; the groups it passes over are counted where it does. -/
def execRunStart (core slot : Nat) (s : State) : Result :=
  if 3 < slot || (s.slotGroup core slot).isSome then .fault .notDue else
  match s.slotChoice core slot with
  | none => .fault .notDue
  | some (gk, g) =>
    match g.nextSplit with
    | none => .fault .notDue
    | some i =>
      let others := ((s.startable core slot).filter fun e => e.1 != gk).map (·.1)
      let t := s.beginRun gk i
      let t := if t.slotGroup core slot == some gk then others.foldl (fun t k => t.modGroup k fun g => { g with passed := g.passed + 1 }) t else t
      .next t.idle

/-! ### Pilot issue (R144) -/

/-- Whether a pilot group may issue: it is not being stopped, and R306 stage 2 has not stopped it. -/
def State.pilotMay (s : State) (e : Nat × Group) : Bool :=
  s.teamRuns e.2.team && !s.pilotStopping e.2.team && !s.allArrived e.2.team && s.stageOf e.2.team != some .reconverge
    && (match s.ex.teams.find e.2.team with | some t => t.ready | none => false)

/-- The oldest pilot group of a core whose next run may start. -/
def State.pilotChoice (s : State) (core : Nat) : Option (Nat × Group) :=
  oldestOf (s.ex.groups.filter fun e => coreOf e.1 == core && isPilot e.1 && e.2.nextSplit.isSome && s.mayStart e && s.pilotMay e
    && !s.qldStalls e.2)

/-- PILOT_ISSUE (R144): the engine takes the run in progress, or starts the oldest, and its next instruction issues. -/
def execPilotIssue (core : Nat) (s : State) : Result :=
  let go (s : State) : Result := .next { s.idle with turn := .issue core 4 }
  match s.slotGroup core 4 with
  | some gk =>
    match s.ex.groups.find gk with
    | some g => if s.pilotMay (gk, g) && g.block.isNone then go s else .fault .notDue
    | none => .fault .notDue
  | none =>
    match s.pilotChoice core with
    | none => .fault .notDue
    | some (gk, g) => match g.nextSplit with
      | none => .fault .notDue
      | some i => go (s.beginRun gk i)

/-! ### Await sets -/

/-- Take lanes out of a split. -/
def Split.cut (ls : Lanes) (sp : Split) : Split :=
  { sp with mask := sp.mask &&& ~~~ls, awaits := sp.awaits.map fun a => (a.1 &&& ~~~ls, a.2), bw := sp.bw.filter fun w => !ls.getLsbD w.lane }

/-- Remove lanes from a group's table, splits and held traps, those that an interruption keeps among them (R254, R263). A held trap with no lane left is
not delivered: DEDUCED (log 65), since a slot that is EMPTY is never active. -/
def Group.dropLanes (g : Group) (ls : Lanes) : Group :=
  let held := (g.held.map fun h => ({ h with lanes := h.lanes &&& ~~~ls } : HeldTrap)).filter fun h => h.lanes != 0
  let gone := (g.held.filter fun h => !(held.any fun k => k.cause == h.cause)).foldl (fun (m : Word) h => m ||| (1#32 <<< h.cause)) 0
  { g with remap := g.remap.filter fun e => !ls.getLsbD e.1,
           splits := (g.splits.map (Split.cut ls)).filter fun sp => sp.mask != 0,
           held := held, causebits := g.causebits &&& ~~~gone,
           saved := g.saved.map fun sv => { sv with splits := sv.splits.map (Split.cut ls) } }

/-- A group that has lost lanes retires when none of its slots holds a strand (R256); a pilot group stops (R263); else its JOINW may
be complete. -/
def State.afterDrop (s : State) (gk : Nat) : State :=
  match s.ex.groups.find gk with
  | none => s
  | some g =>
    if g.remap.isEmpty then (if isPilot gk then s.endPilot g.team gk else (s.endRun gk).modEx fun x => { x with specs := x.specs.del gk })
    else s.settleJoin gk

/-- Some lanes' strands exit (R263): a leader's only once no signature is unmatched (R302). -/
def State.exitLanes (s : State) (v : View) (ls : List Nat) : Option State :=
  if releaseHeld v s then none else
  let s := s.modEx fun x => { x with strands := ls.foldl (fun m l => m.del (v.key l)) x.strands }
  some ((s.modGroup v.gk fun g => g.dropLanes (lanesOf ls)).afterDrop v.gk)

/-- AWAIT_SET_SATISFIED (R44, R248, R263, R267): a split whose await set is full becomes ready, or arrives at its barrier; of one that
exits, the lanes whose own sets are full end. -/
def execAwaitSetSatisfied (core group split : Nat) (s : State) : Result :=
  let gk := core * 256 + group
  match s.viewOf gk split with
  | none => .fault .notDue
  | some v =>
    if !s.groupMoves gk then .fault .notDue else
    let sp := v.split
    match sp.st with
    | .awaiting =>
      if !splitFull v s sp then .fault .notDue else
      .next (s.modGroup gk fun g => g.modSplit split fun sp => { sp with st := .ready, bw := sp.missed }).idle
    | .arriving =>
      if !splitFull v s sp then .fault .notDue else
      let s := v.lanes.foldl (fun s l => s.modStrand (v.key l) fun t => { t with arrived := true }) s
      let park (g : Group) : Group := g.modSplit split fun sp => { sp with st := .parked .bar, awaits := [], bw := sp.missed }
      .next (s.modGroup gk fun g => { park g with splits := mergeSplits sp.mask (park g).splits }).idle
    | .exiting =>
      match v.lanes.filter (laneFull v s sp) with
      | [] => .fault .notDue
      | ls => match s.exitLanes v ls with
        | some s => .next s.idle
        | none => .fault .notDue
    | _ => .fault .notDue

/-! ### Fills of the L1 instruction cache -/

/-- The view of an issuing split that misses a line, and whether its resident copy waits for the refetch. -/
def State.missesLine (s : State) (core asid : Nat) (line : Word64) : Option (View × Bool) :=
  (List.range 5).findSome? fun slot =>
    match s.slotGroup core slot with
    | none => none
    | some gk =>
      match (s.ex.groups.find gk).bind Group.runningIdx with
      | none => none
      | some i => match s.viewOf gk i with
        | none => none
        | some v =>
          if v.asid != asid || !s.teamRuns v.teamKey then none
          else match s.missingLine v with
            | some (l, again) => if l == line then some (v, again) else none
            | none => none

/-- What a line read brings for a split: a cause, good words, or a line that fails its check, with the address that its cause reports (R22, R27,
R334, R336). Of DPF text only the syllables that the split fetches are judged, the third where S0 asks for it, in this line or in the one
before. -/
def State.lineVerdict (s : State) (v : View) (line : Word64) (r : LineRead) : Except (Nat × Word64) (List TWord × Option Word64) :=
  match r with
  | .error e => .error e
  | .ok none => .ok ([], some line)
  | .ok (some ws) =>
    let s0 : TWord := if lineVa v.split.pc == line then syllableOf ws v.split.pc else (s.syllable v v.split.pc).getD {}
    let third (a : Word64) : Bool := a != v.split.pc + 8 || (s0.data.getLsbD 30 && s0.data.getLsbD 31)
    .ok (ws, if v.team.inNative then (if lineOk ws then none else some line)
      else (wantedAt v).find? fun a => lineVa a == line && third a && (syllableOf ws a).mark)

/-- A fetch's cause (R25, R49, R287): an UNCORRECTABLE raised by instruction fetch is a context fault. -/
def fetchFault (v : View) (c : Nat) (t : Word64) (s : State) : State :=
  raiseNow v { cause := c, tval := t, lanes := v.split.mask, lcause := v.lanes.map fun l => (l, c), fetch := true } s

/-- The runs of a core whose fetches wait for a line. -/
def State.askers (s : State) (core asid : Nat) (line : Word64) : List Nat :=
  (List.range 5).filterMap fun slot => (s.slotGroup core slot).bind fun gk =>
    match ({ s with cur := some gk } : State).view with
    | some v => if v.asid == asid && (s.missingLine v).any (·.1 == line) then some v.grp.run.id else none
    | none => none

/-- L1_INSTRUCTION_FILL (R27, R334): a missing line arrives; one that fails its check is discarded, to be fetched once more. -/
def execL1InstructionFill (core asid : Nat) (line : Word64) (s : State) : Result :=
  match s.missesLine core asid line with
  | some (v, false) =>
    let (r, s) := s.readCode core asid v.team line 4
    match s.lineVerdict v line r with
    | .error (c, t) => .next (fetchFault v c t s).idle
    | .ok (ws, bad) => .next (s.ilinePut core { asid := asid, va := line.toNat, words := ws, refetch := bad.isSome, asked := s.askers core asid line }).idle
  | _ => .fault .notDue

/-- LINE_REFETCH (R27): the second fetch. A copy that passes is reported as a corrected error of the L1 instruction cache; a second failure
raises UNCORRECTABLE with the line's VA, or the syllable's. -/
def execLineRefetch (core asid : Nat) (line : Word64) (s : State) : Result :=
  match s.missesLine core asid line with
  | some (v, true) =>
    let s := s.ilineDrop core asid line
    let (r, s) := s.readCode core asid v.team line 3
    match s.lineVerdict v line r with
    | .error (c, t) => .next (fetchFault v c t s).idle
    | .ok (ws, none) =>
      let s := s.ilinePut core { asid := asid, va := line.toNat, words := ws, asked := s.askers core asid line }
      .next (s.logError (errRec 4 0 3 core (s.ilineIndex core asid line) asid v.grid.part 0 0)).idle
    | .ok (_, some bad) => .next (fetchFault v 12 bad s).idle
  | _ => .fault .notDue

end Sys2Proof.Machine
end

