-- ==== Sys2Proof/Machine/TeamEvents.lean ====
section
/-! DEFINITION. Events of strands, groups and teams: filing and bins (R246, R251, R252, R284), barriers and their checkpoints (R155, R267,
R268), and the ends of waits (R97, R266, R270, R271). -/

namespace Sys2Proof.Machine

/-! ### Filing and bins -/

/-- SPLIT_FILING (R18, R251, R262): a split whose await set is full is filed in ascending slot; where a bin is needed and none is free,
one launches first. PROMISE_MISSED of a split comes before its filing, with the target as %epc: DEDUCED (log 65), since a filed strand has no batch
numbers left (R98, R252). -/
def execSplitFiling (core group split : Nat) (s : State) : Result :=
  let gk := core * 256 + group
  match s.viewOf gk split with
  | none => .fault .notDue
  | some v =>
    match v.split.st with
    | .filing t =>
      if !s.groupMoves gk || !splitFull v s v.split then .fault .notDue else
      if let some t := s.promiseMissed gk split then .next t.idle else
      let ls := v.lanes.filter fun l => (v.rank l).isSome
      let (left, s1) := s.fileStrands core v.teamKey t v.grp.qset false (ls.filterMap v.rank)
      let done := ls.take (ls.length - left.length)
      if done.isEmpty && !ls.isEmpty then (if s.canForce core (v.key (ls.headD 0)) then .next (s.forceBin core (v.key (ls.headD 0))).idle else .fault .notDue)
      else
        let gone := if left.isEmpty then v.split.mask else lanesOf done
        .next ((s1.modGroup gk fun g => g.dropLanes gone).afterDrop gk).idle
    | _ => .fault .notDue

/-- The clk at the end of which a bin's proof timer expires (R251). -/
def State.proofEnd (s : State) (b : Bin) : Nat :=
  let p := (s.headerOf b.team).proof
  b.started + (if p == 0 then 256 else p)

/-- Whether a bin's timer has expired: at the end of a clk, after that clk's filings (R284). -/
def State.proofDue (s : State) (b : Bin) : Bool := !b.launching && s.teamRuns b.team && s.binFree b && decide (s.proofEnd b ≤ s.dev.clock)

/-- BIN_PROOF_TIMER_EXPIRY (R251, R284). -/
def execBinProofTimerExpiry (core bin : Nat) (s : State) : Result :=
  let n := core * 32 + bin
  match s.ex.bins.find n with
  | none => .fault .notDue
  | some b =>
    if bin < 32 && s.proofDue b then .next (s.modEx fun x => { x with bins := x.bins.modify n fun b => { b with launching := true } }).idle
    else .fault .notDue

/-- The state in which a launching bin has a context (R246), a group of its team being folded where none is free: with whether it is
one of the pool. -/
def State.launchContext (s : State) (core : Nat) (b : Bin) : Option (Bool × State) :=
  if !(b.launching && s.teamRuns b.team && s.binFree b) then none else
  match s.contextFor core b.team with
  | some p => some (p, s)
  | none => (s.foldGroup core b.team).bind fun s => (s.contextFor core b.team).map fun p => (p, s)

/-- The strand of a fold that a launching bin waits for and that finds no bin free: a filling bin launches for it (R251). -/
def State.foldNeed (s : State) (core : Nat) (b : Bin) : Option Nat :=
  if !(b.launching && s.teamRuns b.team && s.binFree b && (s.contextFor core b.team).isNone) then none else
  (s.foldable b.team).bind fun e => ((s.foldInto core b.team e.2).1.head?.map (strandKey b.team)).filter (s.canForce core)

/-- The bin of a core that launches next (R284), at most one in a clk: the earliest timer start, the lower number where they tie. -/
def State.nextLaunch (s : State) (core : Nat) : Option Nat :=
  let start (n : Nat) : Nat := match s.ex.bins.find n with | some b => b.started | none => 0
  if s.ex.launched.find core == some s.dev.clock then none else
  match (binKeys core).filter fun n => match s.ex.bins.find n with | some b => (s.launchContext core b).isSome | none => false with
  | [] => none
  | n :: r => some (r.foldl (fun a b => if start b < start a then b else a) n)

/-- A strand that is launched from a bin: its batch counters restart and its requests belong to no batch (R252). -/
def State.rebatch (s : State) (key : Nat) : State :=
  let uid := (s.strandAt key).uid
  (s.modStrand key fun t => { t with sealedNo := 0, completeNo := 0, batches := [] }).modEx fun x =>
    { x with copies := x.copies.map fun e => (e.1, if e.2.uid == uid then { e.2 with batch := .orphan } else e.2) }

/-- BIN_LAUNCH (R246, R251, R252): a converged group at the bin's PC, which its first run must find to be a valid target unless every strand
was folded at it (R25). -/
def execBinLaunch (core bin : Nat) (s : State) : Result :=
  let n := core * 32 + bin
  match s.ex.bins.find n with
  | none => .fault .notDue
  | some b =>
    if s.nextLaunch core != some n then (match s.foldNeed core b with | some k => .next (s.forceBin core k).idle | none => .fault .notDue) else
    match s.launchContext core b with
    | none => .fault .notDue
    | some (pool, s) =>
      let s := s.modEx fun x => { x with bins := x.bins.del n, launched := x.launched.put core s.dev.clock }
      let s := b.ranks.foldl (fun s r => s.rebatch (strandKey b.team r)) s
      .next (s.formGroup core b.team b.ranks b.pc b.qset pool b.entered).2.idle

/-! ### Barriers -/

/-- A run as it is recorded: without the lines that a fill delivers to it alone (R334). -/
def RunState.recorded (r : RunState) : RunState := { r with late := [] }
/-- A group as it is recorded. -/
def Group.recorded (g : Group) : Group :=
  { g with run := g.run.recorded, splits := g.splits.map fun sp => { sp with cont := sp.cont.map RunState.recorded } }

/-- What a team's checkpoint records as the state stands (R155, R268). -/
def State.checkpointOf (s : State) (k : Nat) (t : Team) : Checkpoint :=
  let hdr := s.headerOf k
  let tag := tagOf s t
  { strands := s.ex.strands.filter fun e => e.1 / 2048 == k
    groups := (s.ex.groups.filter fun e => e.2.team == k).map fun e => (e.1, e.2.recorded)
    queues := t.queues
    bins := (s.ex.bins.filter fun e => e.2.team == k) ++ t.lateBins.map fun b => (t.core * 32, b)
    scratch := s.scratchOf t hdr
    tmask := t.tmask
    tiles := (s.ex.tiles.filter fun e => s.ownsTile t e.1 e.2) ++ (t.lateTiles.filter fun e => !(s.ex.tiles.find e.1).any (s.ownsTile t e.1))
    array := match s.ex.arrays.find (t.core / 16) with
      | some a => if a.bound == some tag then some a else none
      | none => none
    copies := s.ex.copies.filter fun e => e.2.team == k
    mark := s.nextId }

/-- Take a team's checkpoint (R268, R298): the irrevocable flag is clear and no rollback has been made to it. -/
def State.checkpoint (s : State) (k : Nat) : State :=
  match s.ex.teams.find k with
  | none => s
  | some t => s.modTeam k fun u => { u with cp := s.checkpointOf k t, irrevocable := false, rollbacks := 0 }

/-- Release a split parked at a BAR. -/
def Split.release (sp : Split) : Split := if sp.st == .parked .bar then { sp with st := .ready } else sp

/-- Release a team's strands from its barrier. -/
def State.releaseBar (s : State) (k : Nat) : State :=
  s.modEx fun x => { x with
    strands := x.strands.map fun e => (e.1, if e.1 / 2048 == k then { e.2 with arrived := false } else e.2)
    groups := x.groups.map fun e => (e.1, if e.2.team != k then e.2 else
      { e.2 with splits := e.2.splits.map Split.release,
                 saved := e.2.saved.map fun sv => { sv with splits := sv.splits.map Split.release } }) }

/-- Whether an operation is what an accepted GSIG of a team writes. -/
def GateOp.signals (k : Nat) : GateOp → Bool
  | .sig t _ _ => t == k
  | _ => false

/-- Whether every event of a team before its barrier has been performed, and its pilot's issued QLDs have been pushed (R155, R237). -/
def State.barQuiet (s : State) (k : Nat) : Bool :=
  !(s.ex.reqs.any fun e => e.2.dest.strand / 2048 == k && !e.2.performed)
    && !(s.ex.fences.any fun e => e.2.strands.any fun n => n / 2048 == k)
    && !(s.ex.qlds.any fun e => e.2.team == k) && !(s.ex.mq.any fun e => e.2.any fun i => i.team == k)
    && !(s.dev.gops.any fun e => e.2.any fun o => (match s.ex.groups.find o.1 with | some g => g.team == k | none => false) || o.2.signals k)

/-- Whether a team's barrier may complete. -/
def State.barReady (s : State) (k : Nat) : Bool := s.teamRuns k && s.allArrived k && s.barQuiet k

/-- Whether a core pair has no unmatched signature and no result on its way from the leader (R268, R301). -/
def State.pairQuiet (s : State) (k p : Nat) : Bool :=
  match s.org.pairs.find k with
  | none => true
  | some q => q.buffer.isEmpty && q.tsigs.isEmpty && q.fwd.isEmpty
      && !(s.ex.reqs.any fun e => e.2.fwd.isSome && (e.2.dest.strand / 2048 == k || e.2.dest.strand / 2048 == p))
      && !(s.ex.longs.any fun e => e.2.fwd.isSome && (e.2.dest.strand / 2048 == k || e.2.dest.strand / 2048 == p))

/-- BARRIER_COMPLETE (R267, R268): the team's strands are released and its checkpoint taken; the teams of a core pair together. -/
def execBarrierComplete (core k : Nat) (s : State) : Result :=
  match s.ex.teams.find k with
  | none => .fault .notDue
  | some t =>
    if t.core != core || !s.barReady k then .fault .notDue else
    match t.pair with
    | none => .next ((s.releaseBar k).checkpoint k).idle
    | some (false, _) => .fault .notDue
    | some (true, p) =>
      if !s.barReady p || !s.pairQuiet k p then .fault .notDue else
      .next ((((s.releaseBar k).releaseBar p).checkpoint k).checkpoint p).idle

/-! ### The ends of waits -/

/-- JOINW_TIMEOUT (R266): the splits parked at the PC whose timer has expired leave together with 0; in a replay, not where the log holds another outcome
(R312). -/
def execJoinwTimeout (core group : Nat) (s : State) : Result :=
  let gk := core * 256 + group
  match s.ex.groups.find gk with
  | none => .fault .notDue
  | some g =>
    let late := (g.splits.zipIdx).findSome? fun e => match e.1.st with
      | .parked (.joinw pc _ (some d) _) => if d ≤ s.dev.clock && ((s.viewOf gk e.2).bind s.joinLogged).isNone then some pc else none
      | _ => none
    match late with
    | none => .fault .notDue
    | some pc => if s.groupMoves gk && (s.joinEnd gk g).isNone then .next (s.releaseJoin gk pc false).idle else .fault .notDue

/-- The time of a lane's next logged input in a replay, else %clock. -/
def State.waitClock (s : State) (v : View) (l : Nat) : Nat :=
  if s.replays v then
    match (s.ctxNow v).vfind false v.grid.num v.team.num ((v.rank l).getD 0) (s.strandAt (v.key l)).vpos with
    | some r => r.value.toNat
    | none => s.dev.clock
  else s.dev.clock

/-- End one lane's wait: its end is an input (R311). None where the log has no room. -/
def State.logEnd (s : State) (v : View) (l : Nat) (f : State → State) : Option State :=
  match s.logStrand (v.key l) (s.strandAt (v.key l)).uid 1 (BitVec.ofNat 64 s.dev.clock) with
  | .full => none
  | .diverged => some (raiseContext v { cause := 0 } v.split.pc v.engine s)
  | .val _ s => some (f s)

/-- Answer a state, or that the event is not due. -/
def dueOr (r : Option State) : Result := match r with | some s => .next s.idle | none => .fault .notDue

/-- The cores' monitored lines with the place of the oldest lane that waits on each (R270). -/
def State.monitored (s : State) (core : Nat) : AMap Nat :=
  (s.ex.groups.filter fun e => coreOf e.1 == core).foldl (fun m e => e.2.splits.foldl (fun m sp => match sp.st with
    | .parked (.mwait ws) => ws.foldl (fun m w => match w.line with
        | some n => m.put n (match m.find n with | some o => Nat.min o w.order | none => w.order)
        | none => m) m
    | _ => m) m) []

/-- Whether a lane's line leaves the core's monitor table of 64 lines: the oldest lines' lanes wake first. -/
def State.overflows (s : State) (core : Nat) (w : LaneWait) : Bool :=
  match w.line with
  | none => false
  | some n =>
    let m := s.monitored core
    decide (64 < m.length) && match m.find n with | some o => m.all fun e => o ≤ e.2 | none => false

/-- Take a lane's MWAIT away; the split leaves Parked with its last. -/
def Split.endMwait (l : Nat) (sp : Split) : Split :=
  match sp.st with
  | .parked (.mwait ws) =>
    let ws := ws.filter fun w => w.lane != l
    { sp with st := if ws.isEmpty then .awaiting else .parked (.mwait ws) }
  | _ => sp

/-- A lane's MWAIT. -/
def laneWait (v : View) (l : Nat) : Option LaneWait :=
  match v.split.st with
  | .parked (.mwait ws) => ws.find? fun w => w.lane == l
  | _ => none

/-- End a lane's MWAIT where it is due. -/
def endMwaitIf (core group split lane : Nat) (due : View → LaneWait → Bool) (s : State) : Result :=
  let gk := core * 256 + group
  match s.viewOf gk split with
  | none => .fault .notDue
  | some v => match laneWait v lane with
    | none => .fault .notDue
    | some w =>
      if s.groupMoves gk && due v w then dueOr (s.logEnd v lane fun s => s.modGroup gk fun g => g.modSplit split (Split.endMwait lane))
      else .fault .notDue

/-- MWAIT_WAKE (R270): a write to the monitored line has been performed at its home slice; or the monitor table overflows; or the log
replays the wake; or the context was resumed (R272). -/
def execMwaitWake (core group split lane : Nat) (s : State) : Result :=
  endMwaitIf core group split lane (fun v w => w.woken || s.replays v || s.overflows core w
    || match w.line with | some n => decide (w.seq < AMap.get 0 s.mem.wseq n) | none => false) s

/-- MWAIT_TIMEOUT (R270). -/
def execMwaitTimeout (core group split lane : Nat) (s : State) : Result :=
  endMwaitIf core group split lane (fun _ w => match w.deadline with | some d => decide (d ≤ s.dev.clock) | none => false) s

/-- Take a lane's SLEEP away. -/
def Split.endSleep (l : Nat) (sp : Split) : Split :=
  match sp.st with
  | .parked (.sleep ws) =>
    let ws := ws.filter fun w => w.1 != l
    { sp with st := if ws.isEmpty then .awaiting else .parked (.sleep ws) }
  | _ => sp

/-- SLEEP_WAKE (R271): %clock has reached the lane's value, or the log replays the wake. -/
def execSleepWake (core group split lane : Nat) (s : State) : Result :=
  let gk := core * 256 + group
  match s.viewOf gk split with
  | none => .fault .notDue
  | some v =>
    let target : Option Word64 := match v.split.st with
      | .parked (.sleep ws) => (ws.find? fun w => w.1 == lane).map (·.2)
      | _ => none
    match target with
    | none => .fault .notDue
    | some t =>
      if s.groupMoves gk && (s.replays v || decide (t.toNat ≤ s.dev.clock)) then
        dueOr (s.logEnd v lane fun s => s.modGroup gk fun g => g.modSplit split (Split.endSleep lane))
      else .fault .notDue

/-- End a batch wait of a lane. -/
def Split.endBatch (l : Nat) (missed : Bool) (sp : Split) : Split :=
  { sp with bw := sp.bw.map fun w => if w.lane == l then { w with ended := true, missed := missed } else w }

/-- Whether a lane's batch counts as complete (R95, R99). -/
def batchDone (v : View) (s : State) (w : BatchWait) : Bool :=
  let t := s.strandAt (v.key w.lane)
  t.complete w.num || t.forgotten w.num

/-- Whether the time of a lane's wait has reached its batch's promise: %clock, or in a replay the logged end (R97, R312). -/
def promiseReached (v : View) (s : State) (w : BatchWait) : Bool :=
  w.sleep && decide (((s.strandAt (v.key w.lane)).promise w.num).toNat ≤ s.waitClock v w.lane)

/-- Whether a lane's promise has passed with its batch incomplete (R97, R98): in a replay the logged end alone decides it (log 14). -/
def promiseOver (v : View) (s : State) (w : BatchWait) : Bool := promiseReached v s w && (s.replays v || !batchDone v s w)

/-- Whether a lane's wait ends with its batch complete. -/
def batchOver (v : View) (s : State) (w : BatchWait) : Bool := batchDone v s w && !(s.replays v && promiseReached v s w)

/-- End the first of a split's batch waits that a test selects, in a split that a trap has interrupted too; the end of a SLEEPTO is an input (R311). -/
def endBatchIf (core group split : Nat) (missed : Bool) (test : View → BatchWait → Bool) (s : State) : Result :=
  let gk := core * 256 + group
  match s.viewAny gk split with
  | none => .fault .notDue
  | some v =>
    if !s.groupMoves gk || v.split.st == .running then .fault .notDue else
    match v.split.bw.find? fun w => !w.ended && test v w with
    | none => .fault .notDue
    | some w =>
      let end_ (s : State) : State := s.modGroup gk fun g => g.modAny split (Split.endBatch w.lane missed)
      if w.sleep then dueOr (s.logEnd v w.lane end_) else .next (end_ s).idle

/-- BATCH_WAIT_END (R97). -/
def execBatchWaitEnd (core group split : Nat) (s : State) : Result := endBatchIf core group split false (fun v w => batchOver v s w) s
/-- PROMISE_EXPIRY (R97, R98). -/
def execPromiseExpiry (core group split : Nat) (s : State) : Result := endBatchIf core group split true (fun v w => promiseOver v s w) s

end Sys2Proof.Machine
end

