-- ==== Sys2Proof/Machine/MemEvents.lean ====
section
/-! DEFINITION. Events of memory and of results: returning loads (R118), fills (R106, R124), accesses at home slices (R67), the base
die (R56), scrubbing (R62, R63), error records (R64), walks (R74), long-latency results (R177) and copies (R93). -/

namespace Sys2Proof.Machine

/-- One clk, in the time units of Table 3.6: 1.25 GHz (R7). -/
def clkPerSecond : Nat := 1250000000

/-! ### Results -/

/-- Forward words from a leader to its trailer under a key, with the reservation that its read set (R270, R301). -/
def State.pushFwd (s : State) (d : Dest) (key : Option Nat) (ws : List TWord) (seen : Option Reservation := none) : State :=
  match key, (s.ex.teams.find (d.strand / 2048)).bind (·.pair) with
  | some n, some (true, _) => s.modPair (d.strand / 2048) fun p => { p with fwd := p.fwd.put n { isn := d.isn, words := ws, seen := seen } }
  | _, _ => s

/-- The words that a trailer takes under a key, with the state that has taken them and the reservation that its strand then holds (R270, R301):
none while they have not come; the given words for any other team. -/
def State.takeFwd (s : State) (d : Dest) (key : Option Nat) (own : List TWord) : Option (List TWord × State) :=
  match key, (s.ex.teams.find (d.strand / 2048)).bind (·.pair) with
  | some n, some (false, lead) =>
    match ((s.org.pairs.find lead).map (·.fwd)).bind (·.find n) with
    | some e => some (e.words, (s.modPair lead fun p => { p with fwd := p.fwd.del n }).reserve d e.seen)
    | none => none
  | _, _ => some (own, s)

/-- Whether a load waits only for its words at its core's own units. -/
def State.loadHere (s : State) (id : Nat) (r : Req) : Bool :=
  r.kind == .load && !r.done && !s.trailing r && !s.reqBlocked id r && (r.unit == .scratch || (r.unit == .l1 && s.l1Hit r.core r.asid r.va r.width))

/-- Whether a result is one of an instruction that its group issued while it speculates (R243). -/
def State.held (s : State) (d : Dest) : Bool :=
  match s.ex.specs.find d.gk with | some p => decide (p.fence < d.isn) && p.grp.gid == d.gid | none => false

/-- Count an input that a trailer takes from its leader (log 14). -/
def State.countTaken (s : State) (d : Dest) : State :=
  match (((s.ex.teams.find (d.strand / 2048)).bind fun t => s.org.grids.find t.grid).bind fun g => s.org.ctxs.find g.asid) with
  | some c => if c.vmode == 0 || (s.strandAt d.strand).uid != d.uid then s else s.countInput d.strand
  | none => s

/-- Deliver a request's words to its destination (R118, R121). A cause of a speculative load is held until the fence completes (R243). -/
def State.deliverReq (s : State) (id : Nat) (r : Req) (ws : List TWord) : Option State :=
  match judgeWords ws with
  | some (c, i) => if s.held r.dest then none else some ((s.pushFwd r.dest r.fwd ws r.seen).raiseLate id r c i)
  | none =>
    let val := loadValue r.ty (ws.map (·.data)) r.va
    let end_ (x : Word64) (s : State) : State := deliver r.dest (wordsOf r.ty.wide x) false (s.dropReq id)
    match r.kind, s.trailing r with
    | .atom _, false =>
      match s.logStrand r.dest.strand r.dest.uid 2 val with
      | .full => none
      | .diverged => (s.lateView r).map fun v => raiseContext v { cause := 0 } r.pc v.engine s
      | .val x s => some (end_ x (s.pushFwd r.dest r.fwd ((wordsOf r.ty.wide x).map TWord.fresh) r.seen))
    | .atom _, true => some (end_ val (s.countTaken r.dest))
    | _, _ => some (end_ val (s.pushFwd r.dest r.fwd ws r.seen))

/-- LOAD_DATA_RETURN (R81, R118, R121, R301): a load's or an atomic's words return and are checked by the lane. -/
def execLoadDataReturn (core id : Nat) (s : State) : Result :=
  match s.ex.reqs.find id with
  | none => .fault .notDue
  | some r =>
    if r.core != core || !r.returns then .fault .notDue else
    let s := if s.loadHere id r then s.runReq id r 0 else s
    match s.ex.reqs.find id with
    | none => .fault .notDue
    | some r =>
      if !r.done && !s.trailing r then .fault .notDue else
      match s.takeFwd r.dest r.fwd (r.got.map (·.getD {})) with
      | none => .fault .notDue
      | some (ws, s) => dueOr (s.deliverReq id r ws)

/-- LONG_LATENCY_RESULT (R177, R324): the result is written and its destination is full; GREAD's is an input of the voyage log (R311). -/
def execLongLatencyResult (core id : Nat) (s : State) : Result :=
  match s.ex.longs.find id with
  | none => .fault .notDue
  | some r =>
    if r.core != core then .fault .notDue else
    match s.takeFwd r.dest r.fwd (r.vals.map TWord.fresh) with
    | none => .fault .notDue
    | some (ws, s) =>
      let end_ (ws : List TWord) (s : State) : Result :=
        .next (deliver r.dest (ws.map (·.data)) r.poison ((s.pushFwd r.dest r.fwd ws).modEx fun x => { x with longs := x.longs.del id })).idle
      match r.logged, (s.ex.teams.find (r.dest.strand / 2048)).any Team.trails with
      | none, _ => end_ ws s
      | some _, true => end_ ws (s.countTaken r.dest)
      | some kind, false =>
        match s.logStrand r.dest.strand r.dest.uid kind (ofTwo (ws.map (·.data))) with
        | .val x s => end_ ((twoWords x).map TWord.fresh) s
        | .full => .fault .notDue
        | .diverged =>
          match s.engineView (r.dest.strand / 2048) r.dest.gk 0 0 with
          | some v =>
            let pc := ((v.grp.allSplits.find? fun sp => sp.mask.getLsbD r.dest.lane).map (·.pc)).getD 0
            .next (raiseContext v { cause := 0 } pc v.engine s).idle
          | none => .fault .notDue

/-! ### Fills, slices and walks -/

/-- Install the half block that a PREF asked for, unless a sweep has passed since (R106, R112, R124); the line takes the hint's bits (Table
6.2). -/
def State.installFill (s : State) (f : Fill) : State :=
  if !f.installs || f.mt == 1 then s else
  let e : TEntry := { asid := f.asid, part := 0, vpage := f.va / 128, size := 7, pa := f.pa / 128 * 128, rights := f.rights, mt := f.mt, ipa := 0, ipaSize := 7 }
  match s.l1Key f.core f.asid f.va with
  | some k => if (s.l1Line k).filled then s else (s.l1Touch k f.hint).l1FillAt k e
  | none =>
    let (k, s) := (s.payFrom e.pa 32).l1Alloc f.core f.asid f.va e f.hint
    s.l1FillAt k e

/-- L1_DATA_FILL (R106): the half block of a load's miss arrives, and the load is performed; or that of a PREF. -/
def execL1DataFill (core id : Nat) (s : State) : Result :=
  match s.ex.reqs.find id, s.ex.fills.find id with
  | some r, _ =>
    if r.core == core && r.kind == .load && r.unit == .l1 && !r.done && !s.trailing r && !s.reqBlocked id r
        && !s.l1Hit r.core r.asid r.va r.width then .next (s.runReq id r 0).idle
    else .fault .notDue
  | none, some f =>
    if f.core == core then .next ((s.modEx fun x => { x with fills := x.fills.del id }).installFill f).idle else .fault .notDue
  | none, none => .fault .notDue

/-- The words of a request at its home slices that are still to be performed. -/
def Req.left (r : Req) : List Nat := (List.range r.count).filter fun i => (r.got.getD i none).isNone

/-- Choose one of a list, freely where there are several (log 1). -/
def State.choose (s : State) (l : List Nat) : Nat × State :=
  match l with
  | [n] => (n, s)
  | _ =>
    let (k, s) := s.free
    (l.getD (Config.pick k % l.length) 0, s)

/-- HOME_SLICE_ACCESS (R67): one word of an access, of a copy request, or of a QLD is performed at its home slice. -/
def execHomeSliceAccess (core id : Nat) (s : State) : Result :=
  match s.ex.reqs.find id, s.ex.copies.find id, s.ex.qlds.find id with
  | some r, _, _ =>
    if r.core != core || r.unit != .slice || r.done || s.trailing r || s.reqBlocked id r then .fault .notDue else
    let (i, s) := s.choose (if r.left.isEmpty then [0] else r.left)
    .next (s.runReq id r i).idle
  | none, some r, _ =>
    if r.core != core || !s.copyReady id r || r.unmoved.length < 2 then .fault .notDue else
    let (n, s) := s.choose r.unmoved
    .next (s.copyWord id r n).idle
  | none, none, some op =>
    match op.core == core, s.qldLanes id op with
    | true, l :: ls =>
      let (n, s) := s.choose (l :: ls)
      .next (s.qldRead id op n).idle
    | _, _ => .fault .notDue
  | none, none, none => .fault .notDue

/-- COPY_REQUEST_COMPLETE (R93, R95, R100, R102): the last word of a request moves, and its batch may complete. -/
def execCopyRequestComplete (core id : Nat) (s : State) : Result :=
  match s.ex.copies.find id with
  | none => .fault .notDue
  | some r =>
    if r.core != core || !s.copyReady id r || 1 < r.unmoved.length then .fault .notDue else
    let s := match r.unmoved with | n :: _ => s.copyWord id r n | [] => s
    match s.ex.copies.find id with
    | some r => if r.unmoved.isEmpty then .next (s.copyDone id r).idle else .next s.idle
    | none => .next s.idle

/-- TABLE_WALK (R74, R124): a walk that raises nothing ends; a PREF's goes on to a fill of the L1, or of the L2 where the line is not
for the L1; a PREF into a page of memory type 1 is dropped (R111). -/
def execTableWalk (id : Nat) (s : State) : Result :=
  match s.mem.walks.find id with
  | none => .fault .notDue
  | some w =>
    let s := s.modMem fun m => { m with walks := m.walks.del id }
    match s.translate w.cache w.asid (sx57 w.va) w.right with
    | (.error _, s) => .next s.idle
    | (.ok e, s) =>
      let pa := e.paOf w.va
      if w.pref && e.mt == 1 then .next s.idle
      else if w.toL1 && e.mt != 1 then
        let (n, s) := s.fresh
        let f : Fill := { core := w.core, asid := w.asid, va := w.va / 128 * 128, pa := pa / 128 * 128, rights := e.rights, mt := e.mt, hint := w.hint }
        .next (s.modEx fun x => { x with fills := x.fills.put n f }).idle
      else .next (s.l2Ensure (pa / 256) w.asid).idle

/-! ### The base die -/

/-- BASE_DIE_REQUEST (R56, R316): the earliest waiting request for its block is performed; a read that moves sectors on the stack is deferred
while a bucket lacks a token, and so is a write-back. -/
def execBaseDieRequest (id : Nat) (s : State) : Result :=
  match s.mem.base.find id with
  | none => .fault .notDue
  | some q =>
    let may : Bool := match q.kind with | .read => !s.deferred q.block | .write _ => s.hasTokens q.block | .scrub => true
    if (s.baseOf q.block).head? == some id && may then .next (s.performBase id).idle
    else .fault .notDue

/-- Perform what waits at the base die for the blocks that lie in sets of some colours: a flush comes after the requests that arrived before
it (R56). -/
def State.settleColours (s : State) (colours : BitVec 16) : State :=
  ((s.mem.base.map fun e => e.2.block).eraseDups.filter fun b => colours.getLsbD (s.mscSet (256 * b) / 25600)).foldl State.settleBase s

/-- MSC_COLOUR_FLUSH (R56, R57). -/
def execMscColourFlush (colours : BitVec 16) (s : State) : Result :=
  let s := s.settleColours colours
  let ks := (s.mem.msc.filter fun e => colours.getLsbD (e.1 / 4 % 409600 / 25600)).map (·.1)
  .next (ks.foldl State.mscOut s).idle

/-! ### Scrubbing (R62, R63) -/

/-- A level's number in the scrub timers. -/
def scrubNumber : ScrubLevel → Nat
  | .hbm => 0 | .msc => 1 | .metadata => 2 | .l2 => 3 | .l1 => 4 | .scratch => 5

/-- The default period of a level in seconds (Table 3.6); metadata backing is scrubbed with HBM. -/
def scrubDefault : ScrubLevel → Nat
  | .hbm | .metadata => 86400
  | .msc => 3600
  | .l2 => 600
  | .l1 | .scratch => 1

/-- The units of a core's instruction line are checked as it is read (R63): corrected; an uncorrectable error makes a miss of the line, which
is clean. -/
def State.l1iJudge (s : State) (core asid : Nat) (line : Word64) (source : Nat) (units : List Nat := List.range 8) : State :=
  let key := ilineKey core asid line.toNat
  let index := s.ilineIndex core asid line
  let (bad, s) := s.judge 4 key units fun e => s.coreRecord 4 core (index + 2 * e.part) asid source e
  if bad then (s.ilineDrop core asid line).modMem (·.clearError 4 key) else s

/-- A pass visits one protected unit of its level, given by the level, the address and the part of it (R62, R63); at the base die, behind the
requests for the block that arrived before (R56). -/
def State.scrubUnit (s : State) (u : Nat × Nat × Nat) : State :=
  let (lvl, addr, part) := u
  match lvl with
  | 0 => (s.settleBase addr).hbmScrub addr part
  | 1 => (s.settleBase addr).mscJudge addr 0 2 [part]
  | 2 => s.l2Judge addr [part] 0 2
  | 3 => s.l1Judge addr [part] 2
  | 4 => s.l1iJudge (addr / 2 ^ 64 / 4096) (addr / 2 ^ 64 % 4096) (BitVec.ofNat 64 addr) 2 [part]
  | 5 => s.scratchJudge (2 * addr / 98304) (2 * addr % 98304 * 4) 0 2
  | 8 => (s.metaJudge (16 * addr) 0 2 [part]).2
  | _ => s

/-- Whether a pass covers an error (Table 3.6): the metadata backing is scrubbed with HBM, the metadata cache with L2. -/
def scrubCovers (l : ScrubLevel) (e : SoftError) : Bool :=
  match l with
  | .hbm => e.level == 0
  | .msc => e.level == 1
  | .metadata => e.level == 8 && e.part == 0
  | .l2 => e.level == 2 || (e.level == 8 && e.part == 1)
  | .l1 => e.level == 3 || e.level == 4
  | .scratch => e.level == 5

/-- A level's period in clk. -/
def State.scrubClk (s : State) (l : ScrubLevel) : Nat :=
  AMap.get (scrubDefault l * clkPerSecond) s.mem.scrubPeriod (if l = .metadata then 0 else scrubNumber l)
/-- The clk at which a level's next pass is due. DESIGN CHOICE (log 21): a period that Smilor writes before a
level's first pass counts from clk 0, and one that it writes later counts from the pass that was already due. -/
def State.scrubNext (s : State) (l : ScrubLevel) : Nat := AMap.get (s.scrubClk l) s.mem.scrubAt (scrubNumber l)

/-- SCRUB_PERIOD_EXPIRY (R62): a pass visits every unit of its level. -/
def execScrubPeriodExpiry (l : ScrubLevel) (s : State) : Result :=
  if s.dev.clock < s.scrubNext l then .fault .notDue else
  let s := (((s.mem.errors.filter (scrubCovers l)).map fun e => (e.level, e.addr, e.part)).eraseDups).foldl State.scrubUnit s
  .next (s.modMem fun m => { m with scrubAt := m.scrubAt.put (scrubNumber l) (s.dev.clock + s.scrubClk l) }).idle

/-- ERROR_RECORD_TIMEOUT (R64): an open corrected record is written 1 ms after it opened. -/
def execErrorRecordTimeout (unit : Nat) (s : State) : Result :=
  match s.mem.openRecs.find unit with
  | none => .fault .notDue
  | some (_, t) => if t + clkPerSecond / 1000 ≤ s.dev.clock then .next (s.closeRecord unit).idle else .fault .notDue

end Sys2Proof.Machine
end

