-- ==== Sys2Proof/Machine/Place.lean ====
section
/-! DEFINITION. What the scheduler does with teams and frames: a core's resources and the choice of cores (R282, R301, R317, R378), frame
allocation (R136, R137), dispatch of a team (R245, R283, R298), its readiness (R374), its end and its charge (R256, R280), the
completion of a grid (R139, R257), and the choice of a power state (R351). -/

namespace Sys2Proof.Machine

/-! ### Resources of a core -/

/-- The teams that hold a core's resources. -/
def State.residents (s : State) (core : Nat) : List Team := (s.ex.teams.filter fun e => e.2.core == core && !e.2.saved).map (·.2)
/-- The header of a team's grid. -/
def State.hdrOf (s : State) (t : Team) : KHeader := match s.org.grids.find t.grid with | some g => g.hdr | none => {}
/-- The sum of a figure over a core's teams. -/
def State.sumOn (s : State) (core : Nat) (f : KHeader → Nat) : Nat := (s.residents core).foldl (fun n t => n + f (s.hdrOf t)) 0
/-- The register-file bytes of a team (R129). -/
def regBytes (h : KHeader) : Nat := h.capacity * h.regs * 4
/-- The shadow region of a team (Table 15.3) in whole 4 KiB pages, and its call-spill area (R261, R269). -/
def shadowNeed (h : KHeader) : Nat :=
  let region := regBytes h + h.capacity * 1024 + reservedGroups h * 512 + scratchSize h + h.capacity / 32 * 20480 + 1024 + 131584 + 2171904
  (region + 4095) / 4096 * 4096 + h.capacity * 448
/-- The shadow-pool bytes that dispatching a team takes: in core-pair mode each of its two copies has its own. -/
def poolNeed (h : KHeader) : Nat := if h.prot == 2 then 2 * shadowNeed h else shadowNeed h

/-- The scratchpad ranges that a core's teams hold. -/
def State.scratchHeld (s : State) (core : Nat) : List (Nat × Nat) :=
  ((s.residents core).map fun t => (t.scratchBase, scratchSize (s.hdrOf t))).filter fun r => r.2 != 0
/-- The lowest free place of n contiguous scratchpad bytes on a core (R85). -/
def State.scratchFit (s : State) (core n : Nat) : Option Nat :=
  let held := s.scratchHeld core
  let ok (b : Nat) : Bool := decide (b + n ≤ 393216) && held.all fun r => !overlap b n r.1 r.2
  match (0 :: held.map (fun r => r.1 + r.2)).filter ok with
  | [] => none
  | b :: r => some (r.foldl Nat.min b)

/-- Whether a core has room for a team (R282): scratchpad, register file, pilot groups, group contexts. -/
def State.canTake (s : State) (h : KHeader) (core : Nat) : Bool :=
  (s.scratchFit core (scratchSize h)).isSome
    && decide (s.sumOn core regBytes + regBytes h ≤ 524288)
    && (h.pilotent == 0 || decide (s.sumOn core (fun g => if g.pilotent == 0 then 0 else 1) < 16))
    && decide (s.sumOn core reservedGroups + reservedGroups h ≤ 96)

/-- The core with the fewest reserved contexts, the lowest number where they tie (R282). -/
def State.bestCore (s : State) (cores : List Nat) : Option Nat :=
  let n (c : Nat) : Nat := s.sumOn c reservedGroups
  match cores with
  | [] => none
  | c :: r => some (r.foldl (fun a b => if n b < n a || (n b == n a && decide (b < a)) then b else a) c)

/-- A core and, in core-pair mode, its trailer's (R282, R301), of those that may take each. -/
def State.chooseCores (s : State) (h : KHeader) (cores trail : List Nat) : Option (Nat × Option Nat) :=
  let ok := cores.filter (s.canTake h)
  let tok := trail.filter (s.canTake h)
  if h.prot != 2 then (s.bestCore ok).map fun c => (c, none)
  else
    let other (c d : Nat) : Bool := d / 160 == c / 160 && d / 16 != c / 16
    (s.bestCore (ok.filter fun c => tok.any (other c))).bind fun c => (s.bestCore (tok.filter (other c))).map fun d => (c, some d)

/-! ### Where a context may run (R317, R378) -/

/-- The root of a partition. -/
def rootOf (part : Nat) : Nat := part / 16 * 16
/-- The current entry of a root's chart. -/
def State.chartEntry (s : State) (root : Nat) : Option ChartEntry :=
  match s.org.parts.find root with
  | none => none
  | some p => p.chart.bind fun c => if p.chartAt = 0 then none else c.entries[p.chartAt - 1]?
/-- Whether a context may run on a core now. -/
def State.mayRunOn (s : State) (part num core : Nat) : Bool :=
  match (s.org.parts.find (rootOf part)).bind (·.chart) with
  | none => true
  | some c => !c.clmask.getLsbD (core / 16) || match s.chartEntry (rootOf part) with
    | some e => e.child == part % 16 && e.ctx == num
    | none => false
/-- The cores of a partition: a root does not run on the clusters that a child holds for itself (Table 18.1). -/
def State.coresOf (s : State) (part : Nat) : List Nat :=
  match s.org.parts.find part with
  | none => []
  | some p =>
    let given := if part % 16 == 0 then (s.org.parts.filter fun e => rootOf e.1 == part && e.1 != part).flatMap fun e => e.2.clusters else []
    ((p.clusters ++ p.shared).filter fun c => !given.contains c).flatMap fun c => (List.range 16).map (c * 16 + ·)

/-! ### The frame heap (R136, R137, R377) -/

/-- A frame's bytes rounded up. -/
def frameBytes (h : KHeader) : Nat := (h.frameb + 255) / 256 * 256
/-- The free range of the lowest address that holds n bytes at a multiple of 256: the range and the place in it. -/
def heapFit (free : List (Nat × Nat)) (n : Nat) : Option ((Nat × Nat) × Nat) :=
  free.findSome? fun r =>
    let b := (r.1 + 255) / 256 * 256
    if b + n ≤ r.1 + r.2 then some (r, b) else none
/-- Take n bytes at b out of a range of a heap. -/
def heapTake (free : List (Nat × Nat)) (r : Nat × Nat) (b n : Nat) : List (Nat × Nat) :=
  free.flatMap fun x => if x == r then [(r.1, b - r.1), (b + n, r.1 + r.2 - (b + n))].filter (fun y => y.2 != 0) else [x]
/-- Give bytes back to a heap: free ranges stand in rising order and join where they touch. -/
def heapGive : List (Nat × Nat) → Nat → Nat → List (Nat × Nat)
  | [], b, n => [(b, n)]
  | (x, k) :: r, b, n =>
    if x + k < b then (x, k) :: heapGive r b n
    else if x + k = b then heapGive r x (k + n)
    else if b + n = x then (b, n + k) :: r
    else (b, n) :: (x, k) :: r

/-- The pieces of a range of a context's addresses that may be read or written, page by page: physical address and bytes. -/
def State.piecesOf (s : State) (asid lo n : Nat) : List (Nat × Nat) × State :=
  let first := lo / 4096
  let pages := if n = 0 then 0 else (lo + n - 1) / 4096 + 1 - first
  (List.range pages).foldl (fun r i =>
    let a := Nat.max lo ((first + i) * 4096)
    let b := Nat.min (lo + n) ((first + i + 1) * 4096)
    let va := BitVec.ofNat 64 a
    let (t, s) : Except (Nat × Word64) TEntry × State := match r.2.translate dieCache asid va rRD with
      | (.ok e, s) => (.ok e, s)
      | (.error _, s) => s.translate dieCache asid va rW
    match t with
    | .ok e => (r.1 ++ [(e.paOf (va57 va), b - a)], s)
    | .error _ => (r.1, s)) ([], s)

/-- Drop the clean copies of a physical range from every L1, so that the zeroing of R136 is ordered before the grid's accesses. -/
def State.dropClean (s : State) (lo n : Nat) : State :=
  s.l1SweepKeys ((s.mem.l1d.filter fun e => overlap lo n e.2.pa 128).map (·.1))

/-- The 16 words of a frame's header (Table 7.8). -/
def frameHeader (slink : Word64) (refs level size grid : Nat) (cword : Word64) : List Word :=
  [lo slink, hi slink, BitVec.ofNat 32 refs, BitVec.ofNat 32 level, BitVec.ofNat 32 size, BitVec.ofNat 32 grid, lo cword, hi cword]
    ++ List.replicate 8 0

/-- Allocate a grid's frame, zero it and write its header; the grid's display gains its base (R136 to R139). Where a page of the frame cannot be written, the
words from there on stay as they are, and the grid is dispatched: DESIGN CHOICE (log 68), the spec does not say. -/
def State.allocFrame (s : State) (key : Nat) (g : Grid) : State :=
  match (s.org.parts.find g.part).bind fun p => heapFit p.free (frameBytes g.hdr) with
  | none => s
  | some (r, b) =>
    let n := frameBytes g.hdr
    let slink := if g.hdr.level = 0 then 0 else g.display.getLast?.getD 0
    let (pages, s) := s.piecesOf g.asid b n
    let fr : Frame := { part := g.part, base := b, rounded := n, size := g.hdr.frameb, refs := 1, level := g.hdr.level, slink := g.parentFrame,
                        grid := key, asid := g.asid, pages := pages }
    let s := (s.modPart g.part fun p => { p with free := heapTake p.free r b n }).modOrg fun o =>
      { o with frames := o.frames.put (frameKey g.part b) fr }
    let s := pages.foldl (fun s e => s.dropClean e.1 e.2) s
    let s := (s.writeVa dieCache g.asid (BitVec.ofNat 64 b) (List.replicate (n / 4) (TWord.fresh 0))).2
    let s := (s.writeVa dieCache g.asid (BitVec.ofNat 64 b) ((frameHeader slink 1 g.hdr.level g.hdr.frameb g.num g.cword).map TWord.fresh)).2
    s.modGrid key fun g => { g with framed := true, display := g.display ++ [BitVec.ofNat 64 b], fsizes := g.fsizes ++ [g.hdr.frameb] }

/-! ### Power (R350, R351) -/

/-- The exit latency of a power state in µs (Table 20.2). -/
def exitLatency (n : Nat) : Nat := [0, 2, 20, 500, 5000].getD n 5000
/-- The deepest state that the tolerances and the resident teams allow. -/
def State.powerTarget (s : State) : Nat :=
  if s.ex.teams.any fun e => !e.2.saved then 0
  else (List.range 5).foldl (fun best n => if s.org.parts.all fun e => exitLatency n ≤ e.2.tolerance then n else best) 0
/-- The firmware evaluates the state again, at a tolerance write, a dispatch or a retirement. -/
def State.powerEval (s : State) : State :=
  if s.dev.power < s.powerTarget then s.modDev fun d => { d with entering := some s.powerTarget } else s

/-! ### Dispatch of a team -/

/-- The native translation installed for a kernel of a context (R337). -/
def State.xlateOf (s : State) (asid : Nat) (khdr : Word64) : Option Xlate := s.org.xlates.find? fun x => x.asid == asid && x.header == khdr
/-- A PC through a translation's map. -/
def Xlate.pc (x : Xlate) (p : Word64) : Word64 := ((x.pcs.find? fun e => e.1 == p).map (·.2)).getD p

/-- Read a segment descriptor at its home slice (R333); one that cannot be read has no lines (log 37). -/
def State.readSeg (s : State) (asid : Nat) (va : Word64) : SegDesc × State :=
  match s.readChecked dieCache none asid va 8 with
  | (.ok ws, s) =>
    let n := natOf ws
    ({ count := bits n 32 63, image := BitVec.ofNat 64 (bits n 64 127), map := BitVec.ofNat 64 (bits n 128 191),
       textbase := BitVec.ofNat 64 (bits n 192 255) }, s)
  | (.error _, s) => ({ textbase := 0, map := 0, image := 0, count := 0 }, s)

/-- The code that a new team runs: native or not, its segment, and the map of its entries (R333, R337). -/
def State.codeFor (s : State) (g : Grid) : Bool × Option SegDesc × (Word64 → Word64) × State :=
  match s.xlateOf g.asid g.khdr with
  | some x => let (d, s) := s.readSeg g.asid x.seg; (true, some d, x.pc, s)
  | none =>
    if g.hdr.segdesc == 0 then (true, none, id, s)
    else let (d, s) := s.readSeg g.asid g.hdr.segdesc; (g.hdr.form != 1, some d, id, s)

/-- The lines of a header's prefetch list (Table 19.3). -/
def prefetchLines (h : KHeader) (entry : Word64) : List Nat :=
  (h.prefetch.filter (· != 0x8000)).map fun o => (lineVa entry + o.signExtend 64 * 64).toNat

/-- Clear a team's scratchpad (R85). -/
def State.clearScratch (s : State) (core base n : Nat) : State :=
  let lo := scratchKey core base
  let inside (k : Nat) : Bool := decide (lo ≤ k) && decide (k < lo + n / 4)
  s.modMem fun m => { m with scratch := m.scratch.filter fun e => !inside e.1,
                             errors := m.errors.filter fun e => !(e.level == 5 && inside (2 * e.addr)) }

/-- The groups of a new team's initial strands, in rank order (R245): each with its queue set and ranks. -/
def initialGroups (h : KHeader) (n : Nat) : List (Nat × List Nat) :=
  let w := groupSlots h
  (List.range ((n + w - 1) / w)).map fun j => (j * w / 32, (List.range w).filterMap fun l => if j * w + l < n then some (j * w + l) else none)

/-- Create a team on a core: resources, strands, groups, pilot group, checkpoint (R130, R245, R283, R298). -/
def State.newTeam (s : State) (key gk : Nat) (g : Grid) (core : Nat) (pair : Option (Bool × Nat)) (order : Nat) : State :=
  let (native, seg, pcs, s) := s.codeFor g
  let h := g.hdr
  let entry := pcs h.execent
  let base := (s.scratchFit core (scratchSize h)).getD 0
  let lines := prefetchLines h entry
  let t : Team := { grid := gk, num := g.dispatched, core := core, scratchBase := base, dispatched := s.dev.clock, order := order,
                    prio := (s.lqueue g.part g.queue).prio, prefetch := lines, inNative := native, seg := seg,
                    trapent := if h.trapent == 0 then 0 else pcs h.trapent, pair := pair, shadow := shadowNeed h }
  let (id, s) := s.freshes g.strands
  let s := (s.clearScratch core base (scratchSize h)).modEx fun x => { x with
    teams := x.teams.put key t
    strands := (List.range g.strands).foldl (fun m r => m.put (strandKey key r) { uid := id + r }) x.strands }
  let s := (initialGroups h g.strands).foldl (fun s e => (s.formGroup core key e.2 entry e.1 false true).2) s
  let s := if h.pilotent == 0 then s else s.startPilot key core (pcs h.pilotent) (fun _ => 0) true
  (s.modCtx g.asid fun c => { c with shadowUsed := c.shadowUsed + shadowNeed h }).checkpoint key

/-- A team's groups become ready; a leader's readiness starts its trailer's stagger (R283, R374). -/
def State.becomeReady (s : State) (key : Nat) : State :=
  match s.ex.teams.find key with
  | none => s
  | some t =>
    match t.pair with
    | none => s.modTeam key fun t => { t with ready := true }
    | some (false, _) => s
    | some (true, _) =>
      let wait := match (s.asidOf key).bind s.org.ctxs.find with | some c => (c.pairWord.extractLsb' 0 20).toNat | none => 0
      (s.modTeam key fun t => { t with ready := true }).modPair key fun q => { q with stagger := s.dev.clock + wait, released := false }

/-- PAIR and VLOG take effect at a context's dispatch or resume (R305, R374); a log word that asks for a replay brings its records. -/
def State.latchWords (s : State) (asid : Nat) : State :=
  let new := match s.org.ctxs.find asid with | some c => c.vlogNew.isSome | none => false
  let s := s.modCtx asid fun c => { c with pairWord := c.pairNew.getD c.pairWord, pairNew := none, vlog := c.vlogNew.getD c.vlog, vlogNew := none }
  if new then s.vload asid else s

/-- Dispatch the next team of a grid to its core, or to a pair of cores. -/
def State.dispatchTeam (s : State) (gk : Nat) (c : Nat) (d : Option Nat) : State :=
  match s.org.grids.find gk with
  | none => s
  | some g =>
    let s := s.latchWords g.asid
    let s := if g.framed then s else s.allocFrame gk g
    let (k, s) := s.fresh
    let s := match d with
      | none => s.newTeam k gk g c none k
      | some d =>
        let (k', s) := s.fresh
        let s := s.modOrg fun o => { o with pairs := o.pairs.put k { trailer := k', asid := g.asid, released := false } }
        (s.newTeam k gk g c (some (true, k')) k).newTeam k' gk g d (some (false, k)) k
    let last := decide (g.teams ≤ g.dispatched + 1)
    let s := (s.modGrid gk fun g => { g with dispatched := g.dispatched + 1 }).modQueue g.part g.queue fun l =>
      let rest := if last then l.grids.filter (· != gk) else l.grids
      { l with resident := l.resident + 1, grids := rest, deficit := if rest.isEmpty && decide (0 < l.deficit) then 0 else l.deficit }
    let s := if (s.ex.teams.find k).any fun t => t.prefetch.isEmpty then s.becomeReady k else s
    s.powerEval

/-! ### The end of a team and of a grid -/

/-- Charge a team's queue (R280). -/
def State.chargeTeam (s : State) (key : Nat) : State :=
  match s.ex.teams.find key with
  | none => s
  | some t => match s.org.grids.find t.grid with
    | none => s
    | some g =>
      let away := t.savedClk + if t.saved then s.dev.clock - t.savedAt else 0
      let clk := s.dev.clock - t.dispatched - away
      let cost := (clk * reservedGroups g.hdr + 95) / 96
      s.modQueue g.part g.queue fun l => { l with deficit := max (l.deficit - cost) (-(2 ^ 63)), resident := l.resident - 1 }

/-- Remove a team and free everything that it holds (R256, Table 14.3). -/
def State.removeTeam (s : State) (key : Nat) : State :=
  match s.ex.teams.find key with
  | none => s
  | some t =>
    let tag := tagOf s t
    let s := (s.ex.groups.filter fun e => e.2.team == key).foldl (fun s e => s.endRun e.1) s
    let s := match (s.asidOf key) with
      | some a => s.modCtx a fun c => { c with shadowUsed := c.shadowUsed - t.shadow }
      | none => s
    s.modEx fun x => { x with
      specs := x.specs.filter fun e => e.2.grp.team != key
      groups := x.groups.filter fun e => e.2.team != key
      strands := x.strands.filter fun e => e.1 / 2048 != key
      bins := x.bins.filter fun e => e.2.team != key
      pins := (x.pins.map fun e => (e.1, e.2.filter fun p => p.team != key)).filter fun e => !e.2.isEmpty
      tiles := (x.tiles.map fun e => (e.1, if e.2.tag == some tag then {} else e.2)).filter fun e => e.2 != {}
      arrays := x.arrays.filter fun e => e.2.bound != some tag
      teams := x.teams.del key }

/-- The completion-word increment (R257): RD and W rights, the old word checked, and an error recorded where it cannot be made. Nothing is written back (R376): a
read of the word finds what the grid's strands wrote after release FENCEs (R236). -/
def State.completionWord (s : State) (gk : Nat) (g : Grid) : State :=
  if g.cword == 0 then s else
  match s.translate dieCache g.asid g.cword rRW with
  | (.error _, s) => s.queueError g.part g.queue 3 g.cword
  | (.ok e, s) =>
    let pa := e.paOf (va57 g.cword)
    let (t, s) := s.sliceRead pa g.asid
    match t.judge with
    | some _ => s.queueError g.part g.queue 3 g.cword
    | none =>
      let mine := s.mem.owed.filter fun o => o.grid == gk
      let s := s.sliceWrite pa g.asid (TWord.fresh (t.data + 1))
      if mine.isEmpty then s else s.modMem fun m => { m with owing := m.owing.put (pa / 4) (AMap.get [] m.owing (pa / 4) ++ mine) }

/-- The key of a grid's own frame. -/
def Grid.frame (g : Grid) : Nat := frameKey g.part (g.display.getLast?.getD 0).toNat

/-- A grid completes (R139, R256, R257): its frame's count, its static parent's, the completion word, then its number. -/
def State.completeGrid (s : State) (gk : Nat) (g : Grid) : State :=
  let s := s.dropRef g.frame
  let s := if g.hdr.level = 0 then s else s.dropRef g.parentFrame
  (s.completionWord gk g).modOrg fun o => { o with grids := o.grids.del gk }

/-- Remove a grid that can never be dispatched (R136, R269). -/
def State.removeGrid (s : State) (gk : Nat) (g : Grid) (err : BitVec 3) : State :=
  let s := (s.modQueue g.part g.queue fun l => { l with grids := l.grids.filter (· != gk) }).queueError g.part g.queue err g.record
  let s := if g.hdr.level = 0 then s else s.dropRef g.parentFrame
  s.modOrg fun o => { o with grids := o.grids.del gk }

end Sys2Proof.Machine
end

