-- ==== Sys2Proof/Machine/SchedEvents.lean ====
section
/-! DEFINITION. Events of the scheduler (R256, R276 to R283): team retirement, frame discard, the dispatch choice, kernel prefetch,
submission, and writes to a queue's control block and to control fields without behaviour of their own (R8, R11). -/

namespace Sys2Proof.Machine

/-! ### Retirement -/

/-- Whether a team has nothing left (Table 14.3): the writes of its strands have been performed, so that the newest value of each word stands in an L1 or at a
home slice (R376), nor has its scratchpad an access to come. -/
def State.teamDone (s : State) (k : Nat) : Bool :=
  s.teamRuns k && (s.liveStrands k).isEmpty && (s.groupsOf k).isEmpty && (s.pilotOf k).isNone
    && !(s.ex.copies.any fun e => e.2.team == k) && !(s.ex.mq.any fun e => e.2.any fun i => i.team == k)
    && !(s.ex.arrays.any fun e => e.2.queue.any fun i => i.team == k) && !(s.dev.gops.any fun e => e.2.any fun o => o.2.signals k)
    && !(s.ex.fences.any fun e => e.2.strands.any fun n => n / 2048 == k)
    && !(s.ex.reqs.any fun e => e.2.dest.strand / 2048 == k && (e.2.writes || e.2.unit == .scratch) && !e.2.performed && !s.trailing e.2)

/-- The grid has one more team retired, and completes with its last (R256). -/
def State.teamRetired (s : State) (gk : Nat) : State :=
  let s := s.modGrid gk fun g => { g with retired := g.retired + 1 }
  match s.org.grids.find gk with
  | some g => if g.teams ≤ g.retired then s.completeGrid gk g else s
  | none => s

/-- TEAM_RETIRE (R256, R280, R139, R257): the teams of a core pair retire as one. -/
def execTeamRetire (core team : Nat) (s : State) : Result :=
  match s.ex.teams.find team with
  | none => .fault .notDue
  | some t =>
    if t.core != core || !s.teamDone team then .fault .notDue else
    match t.pair with
    | none => .next (((s.chargeTeam team).removeTeam team).teamRetired t.grid).powerEval.idle
    | some (false, _) => .fault .notDue
    | some (true, p) =>
      if !s.teamDone p then .fault .notDue else
      let s := ((s.chargeTeam team).removeTeam team).removeTeam p
      let s := s.modOrg fun o => { o with pairs := o.pairs.del team }
      .next (s.teamRetired t.grid).powerEval.idle

/-- FRAME_DISCARD (R139, R377): every L1 discards its copies of a released frame's physical range, which its allocation recorded, and the bytes return
to the heap, before anything else happens (R369). What a stale address writes there later is not discarded. -/
def execFrameDiscard (part base : Nat) (s : State) : Result :=
  match s.org.frames.find (frameKey part base) with
  | none => .fault .notDue
  | some f =>
    if !f.discarding then .fault .notDue else
    let s := f.pages.foldl (fun s e => s.l1Discard e.1 e.2) s
    let s := s.modOrg fun o => { o with frames := o.frames.del (frameKey part base) }
    .next (s.modPart part fun p => { p with free := heapGive p.free f.base f.rounded }).idle

/-! ### The dispatch choice -/

/-- The head grid of a queue that the scheduler may look at: its queue enabled, accepted before this clk (R277). -/
def State.headGrid (s : State) (part q : Nat) : Option (Nat × Grid) :=
  let l := s.lqueue part q
  if !l.en then none else
  match l.grids with
  | [] => none
  | k :: _ => match s.org.grids.find k with
    | some g => if g.accepted < s.dev.clock then some (k, g) else none
    | none => none

/-- Why a grid can never be dispatched: its frame exceeds the heap (R136), or its shadow need the pool (R269). -/
def State.neverFits (s : State) (g : Grid) : Option (BitVec 3) :=
  match s.org.parts.find g.part, s.org.ctxs.find g.asid with
  | some p, some c =>
    if !g.framed && decide (p.heapSize < frameBytes g.hdr) then some 2
    else if c.shadowPool < poolNeed g.hdr then some 6 else none
  | _, _ => none

/-- The cores for a grid's next team, where it fits now (R282, R378): its context runs, and pool, heap and a core have room, and no saved
team of a resumed context of the partition that was dispatched from its level goes before it (R281). -/
def State.fits (s : State) (g : Grid) : Option (Nat × Option Nat) :=
  match s.org.parts.find g.part, s.org.ctxs.find g.asid with
  | some p, some c =>
    let level := (s.lqueue g.part g.queue).prio
    let resumed (asid : Nat) : Bool := match s.org.ctxs.find asid with | some c => c.part == g.part && !c.halted && !c.saved | none => false
    let first := s.ex.teams.any fun e => e.2.saved && e.2.prio == level && (s.asidOf e.1).any resumed
    if c.halted || c.saved || c.ladder.isSome || first then none
    else if c.shadowPool < c.shadowUsed + poolNeed g.hdr then none
    else if !g.framed && (heapFit p.free (frameBytes g.hdr)).isNone then none
    else
      let cores := (s.coresOf g.part).filter (s.mayRunOn g.part c.num)
      s.chooseCores g.hdr cores cores
  | _, _ => none

/-- The queues of a level with a head team. -/
def State.levelQueues (s : State) (part lvl : Nat) : List Nat :=
  (List.range 64).filter fun q => (s.lqueue part q).prio.toNat == lvl && (s.headGrid part q).isSome
/-- Whether a queue's head team fits a core now. -/
def State.headFits (s : State) (part q : Nat) : Bool := match s.headGrid part q with | some e => (s.fits e.2).isSome | none => false

/-- The rounds that bring a deficit to 0 or more (R279). -/
def roundsFor (l : LQueue) : Option Nat :=
  if 0 ≤ l.deficit then some 0
  else if l.quantum == 0 then none
  else some (((-l.deficit).toNat + l.quantum.toNat - 1) / l.quantum.toNat)

/-- n rounds: QUANTUM is added in each, and a deficit does not exceed it. -/
def LQueue.rounds (l : LQueue) (n : Nat) : LQueue :=
  if n = 0 then l else { l with deficit := min (l.deficit + n * l.quantum.toNat) l.quantum.toNat }

/-- The smallest of some numbers. -/
def leastOf : List Nat → Option Nat
  | [] => none
  | n :: r => some (r.foldl Nat.min n)

/-- The rounds of a level (R279): taken where every queue whose head team fits has a negative deficit. -/
def State.levelRounds (s : State) (part lvl : Nat) : State :=
  let qs := s.levelQueues part lvl
  match leastOf ((qs.filter (s.headFits part)).filterMap fun q => roundsFor (s.lqueue part q)) with
  | some n => qs.foldl (fun s q => s.modQueue part q fun l => l.rounds n) s
  | none => s

/-- The queue that dispatches (R278): the lowest level with an eligible queue, the first after the one that dispatched last. -/
def State.queueChoice (s : State) (part : Nat) : Option (Nat × Nat) :=
  (List.range 4).findSome? fun lvl =>
    let ok := (s.levelQueues part lvl).filter fun q => decide (0 ≤ (s.lqueue part q).deficit) && s.headFits part q
    let last := match s.org.parts.find part with | some p => AMap.get 63 p.lastQ lvl | none => 63
    let turn := (List.range 64).map fun i => (last + 1 + i) % 64
    (turn.find? ok.contains).map fun q => (lvl, q)

/-- The first queue whose head grid must be removed, with the error (R136, R269). -/
def State.removal (s : State) (part : Nat) : Option (Nat × Grid × BitVec 3) :=
  (List.range 64).findSome? fun q => match s.headGrid part q with
    | some (k, g) => (s.neverFits g).map fun e => (k, g, e)
    | none => none

/-- DISPATCH_CHOICE (R278, R279, R282, R283): one for each clk of a partition. A request that meets the module asleep, or on its way
there, is kept and wakes it (R351). -/
def execDispatchChoice (part : Nat) (s : State) : Result :=
  match s.removal part with
  | some (k, g, e) => .next (s.removeGrid k g e).idle
  | none =>
    let now := match s.org.parts.find part with | some p => decide (p.nextDispatch ≤ s.dev.clock) | none => false
    if !now then .fault .notDue else
    let t := (List.range 4).foldl (fun s lvl => s.levelRounds part lvl) s
    match t.queueChoice part with
    | none => .fault .notDue
    | some (lvl, q) =>
      if s.dev.power != 0 || s.dev.entering.isSome then
        if s.dev.exiting then .fault .notDue else .next (s.modDev fun d => { d with exiting := true }).idle
      else match t.headGrid part q with
        | none => .fault .notDue
        | some (k, g) => match t.fits g with
          | none => .fault .notDue
          | some (c, d) =>
            let t := t.modPart part fun p => { p with lastQ := p.lastQ.put lvl q, nextDispatch := t.dev.clock + 1 }
            .next (t.dispatchTeam k c d).idle

/-- Fill one line of a prefetch list; a fill that would fault is dropped (R283). -/
def State.prefetchLine (s : State) (core asid : Nat) (t : Team) (va : Nat) : State :=
  let line := BitVec.ofNat 64 va
  let (r, s) := s.readCode core asid t line
  match r with
  | .ok (some ws) => if lineOk ws || !t.inNative then s.ilinePut core { asid := asid, va := va, words := ws } else s
  | _ => s

/-- KERNEL_PREFETCH_COMPLETE (R283): the listed lines are filled or dropped, and the team's pilot group and groups may run. -/
def execKernelPrefetchComplete (core team : Nat) (s : State) : Result :=
  match s.ex.teams.find team, s.asidOf team with
  | some t, some asid =>
    if t.core != core || t.prefetch.isEmpty || !s.teamRuns team then .fault .notDue else
    let s := t.prefetch.foldl (fun s va => s.prefetchLine core asid t va) s
    .next ((s.modTeam team fun t => { t with prefetch := [] }).becomeReady team).idle
  | _, _ => .fault .notDue

/-! ### Queue control blocks -/

/-- Whether a partition has a queue. -/
def State.hasQueue (s : State) (part q : Nat) : Bool := match s.org.parts.find part with | some p => decide (q < p.queues) | none => false

/-- The ASID of a partition's context of a number. -/
def State.ctxOf (s : State) (part num : Nat) : Option Nat := (s.org.ctxs.find? fun e => e.2.part == part && e.2.num == num).map (·.1)

/-- Submit a level-0 grid to a queue in a context (R277, R378): the queue's ERR value, 0 where the grid is accepted. -/
def State.submit (s : State) (part q : Nat) (asid : Option Nat) (record : Word64) : BitVec 3 × State :=
  let refuse (e : BitVec 3) (s : State) : BitVec 3 × State := (e, s.queueError part q e record)
  match asid with
  | none => refuse 1 s
  | some asid =>
    match s.checkLaunch dieCache none asid none record with
    | (.error _, s) => refuse 1 s
    | (.ok (r, h), s) =>
      let l := s.lqueue part q
      if !l.en then refuse 5 s
      else if l.full then refuse 4 s
      else (0, s.acceptGrid asid part q record r h 0 [] [])

/-- QUEUE_SUBMIT (R277): the grid runs in the context that CTX names. -/
def execQueueSubmit (part q : Nat) (record : Word64) (s : State) : Result :=
  if !s.hasQueue part q then .next s.idle else
  .next (s.submit part q (s.ctxOf part (s.lqueue part q).ctx.toNat) record).2.idle

/-- QUEUE_ENABLE (R276): DEFICIT is set to 0 where EN changes from 0 to 1. -/
def execQueueEnable (part q : Nat) (s : State) : Result :=
  if !s.hasQueue part q then .next s.idle else
  .next (s.modQueue part q fun l => if l.en then l else { l with en := true, deficit := 0 }).idle

/-- PRIO_WRITE (R281): it takes effect for the dispatch choice of the next clk. -/
def execPrioWrite (part q : Nat) (v : BitVec 2) (s : State) : Result :=
  if !s.hasQueue part q then .next s.idle else
  .next (s.modQueue part q fun l => { l with prioNext := some v }).idle

/-- The priority levels, CMDTAILs and CPLHEADs that were written in a clk hold from the next on (R281, R342). -/
def State.latchWrites (s : State) : State :=
  let queue (l : LQueue) : LQueue := { l with prio := l.prioNext.getD l.prio, prioNext := none }
  let channel (c : Channel) : Channel := { c with cmdtail := c.tailNew.getD c.cmdtail, cplhead := c.headNew.getD c.cplhead, tailNew := none, headNew := none }
  s.modOrg fun o => { o with parts := o.parts.map fun e =>
    (e.1, { e.2 with qs := e.2.qs.map (fun q => (q.1, queue q.2)), channels := e.2.channels.map fun c => (c.1, channel c.2) }) }

/-- A partition's channel. -/
def State.channel (s : State) (part ch : Nat) : Channel := match s.org.parts.find part with | some p => AMap.get {} p.channels ch | none => {}
/-- Change a partition's channel; it has 16. -/
def State.modChannel (s : State) (part ch : Nat) (f : Channel → Channel) : State :=
  if ch < 16 then s.modPart part fun p => { p with channels := p.channels.put ch (f (AMap.get {} p.channels ch)) } else s

/-- The ranges of scrub periods in ms (Table 3.6); metadata backing follows HBM. -/
def scrubRange : ScrubLevel → Nat × Nat
  | .hbm => (3600000, 604800000)
  | .msc => (300000, 86400000)
  | .metadata => (1, 0)
  | .l2 => (60000, 3600000)
  | .l1 | .scratch => (10, 10000)

/-- Change a queue's control block where the partition has it. -/
def State.writeQueue (s : State) (part q : Nat) (f : LQueue → LQueue) : State := if s.hasQueue part q then s.modQueue part q f else s

/-! ### The queue and context windows (R276, R305) -/

/-- The queue control block, eight doublewords, as a read of the window gives it (Table 16.1): SUBMIT and reserved bits read zero. -/
def LQueue.block (l : LQueue) : List Word64 :=
  let b (x : Bool) : Nat := x.toNat
  [BitVec.ofNat 64 (b l.en + 4 * (l.prioNext.getD l.prio).toNat + 16 * l.depthm1.toNat + 2 ^ 16 * l.ctx.toNat),
    BitVec.ofNat 64 (2 ^ 32 * l.quantum.toNat), BitVec.ofInt 64 l.deficit, 0,
    BitVec.ofNat 64 (2 ^ 32 * l.grids.length + 2 ^ 60 * l.err.toNat + 2 ^ 63 * b l.errv), l.errAddr,
    BitVec.ofNat 64 (l.resident + 2 ^ 32 * l.wake.toNat), 0]

/-- The writable fields of PREEMPT (Table 17.4). -/
def preemptMask : BitVec 64 := 0x3FFFFFFFFFFFFFFC
/-- The writable fields of VLOG. -/
def vlogMask : BitVec 128 := 0xFFFFFFFFFFFFFFFFFFFFFFFFFFFFFF03
/-- TAIL of VLOG. -/
def vlogTail : BitVec 128 := 0xFFFFFFFF00000000

/-- A write of INJECT takes effect at once, and counting starts (R303). -/
def Ctx.putInject (c : Ctx) (v : BitVec 32) : Ctx := { c with inject := v &&& 0x80FFFFFF, compares := 0 }
/-- A write of PAIR takes effect at the context's next dispatch or resume (R374). -/
def Ctx.putPair (c : Ctx) (v : BitVec 32) : Ctx := { c with pairNew := some (v &&& 0xFFFFF) }
/-- A write of PREEMPT takes effect at the next switch tick (R304). -/
def Ctx.putPreempt (c : Ctx) (v : BitVec 64) : Ctx := { c with preemptNew := some (v &&& preemptMask) }
/-- A write of VLOG takes effect at the context's next dispatch or resume; TAIL, which ends a stall, at once (R305, R311, log 50). -/
def Ctx.putVlog (c : Ctx) (v : BitVec 128) : Ctx :=
  { c with vlogNew := some (v &&& vlogMask), vlog := (c.vlog &&& ~~~vlogTail) ||| (v &&& vlogTail) }

/-- The words of a context as they were last written (Tables 17.4 and 17.8), HEADLO as the log stands. -/
def Ctx.block (c : Ctx) : List Word64 :=
  let vlog := c.vlogNew.getD c.vlog
  [c.preemptNew.getD c.preempt, c.pairNew.getD c.pairWord ++ c.inject,
    (vlog.extractLsb' 0 64 &&& ~~~0xFC) ||| BitVec.ofNat 64 (c.vhead % 64 * 4), vlog.extractLsb' 64 64, 0, 0, 0, 0]

/-- The doubleword at an offset of a partition's queue window, in which the context window begins 4 KiB from the start. Where the windows stand in a
Helm core's address space the spec does not say (log 60). -/
def State.windowRead (s : State) (part off : Nat) : Word64 :=
  if off < 4096 then (if s.hasQueue part (off / 64) then (s.lqueue part (off / 64)).block.getD (off % 64 / 8) 0 else 0)
  else match (s.ctxOf part ((off - 4096) / 64)).bind s.org.ctxs.find with
    | some c => c.block.getD (off % 64 / 8) 0
    | none => 0

/-- A write of a doubleword of a queue's control block (Table 16.1, R8); PRIV fields ignore one that does not come from a supervisor (R11). -/
def State.writeQueueBlock (s : State) (part q i : Nat) (v : Word64) (sup : Bool := true) : State :=
  if !s.hasQueue part q || (i < 3 && !sup) then s else
  match i with
  | 0 => s.modQueue part q fun l =>
      let en := v.getLsbD 0
      { l with en := en, deficit := if en && !l.en then 0 else l.deficit, prioNext := some (v.extractLsb' 2 2), depthm1 := v.extractLsb' 4 12, ctx := v.extractLsb' 16 4 }
  | 1 => s.modQueue part q fun l => { l with quantum := v.extractLsb' 32 32 }
  | 2 => s.modQueue part q fun l => { l with deficit := v.toInt }
  | 3 => (s.submit part q (s.ctxOf part (s.lqueue part q).ctx.toNat) v).2
  | 4 => s.modQueue part q fun l => { l with errv := l.errv && !v.getLsbD 63 }
  | 6 => s.modQueue part q fun l => { l with wake := l.wake &&& ~~~(v.extractLsb' 32 32) }
  | _ => s

/-- A write of a doubleword of a context's control block (Table 17.8). -/
def Ctx.writeBlock (c : Ctx) (i : Nat) (v : Word64) : Ctx :=
  let vlog := c.vlogNew.getD c.vlog
  match i with
  | 0 => c.putPreempt v
  | 1 => (c.putInject (v.extractLsb' 0 32)).putPair (v.extractLsb' 32 32)
  | 2 => c.putVlog (vlog.extractLsb' 64 64 ++ v)
  | 3 => c.putVlog (v ++ ((vlog.extractLsb' 0 64 &&& ~~~0xFFFFFFFF00000000) ||| (c.vlog.extractLsb' 0 64 &&& 0xFFFFFFFF00000000)))
  | _ => c

/-! ### BAR0 of a virtual function (R340, R341) -/

/-- The entries of a channel's rings. -/
def Channel.ring (c : Channel) : Nat := 2 ^ (c.size.toNat + 6)
/-- A write of CMDTAIL: one that makes more commands pending than the ring holds is an overrun (R342); the device reads the new value from the next clk on. -/
def Channel.putTail (c : Channel) (v : Word) : Channel :=
  let c := { c with tailNew := some v }
  if c.ring < (v - c.cmdhead).toNat then { c with err := c.err ||| 2, en := false } else c
/-- A write of CPLHEAD. -/
def Channel.putHead (c : Channel) (v : Word) : Channel := { c with headNew := some v }
/-- A write of SIZE, ignored while EN is 1 (R342). -/
def Channel.putSize (c : Channel) (v : BitVec 4) : Channel := if c.en then c else { c with size := if 10 < v.toNat then 10 else v }
/-- A write of a ring's base, ignored while EN is 1. -/
def Channel.putBase (c : Channel) (cpl : Bool) (v : Word64) : Channel :=
  let a := v &&& ~~~0xFFF#64
  if c.en then c else if cpl then { c with cplbase := a } else { c with cmdbase := a }

/-- A channel's register block, eight doublewords (Table 20.1). -/
def Channel.block (c : Channel) : List Word64 :=
  [BitVec.ofNat 64 (c.en.toNat + 2 ^ 8 * c.size.toNat + 2 ^ 12 * c.err.toNat), 0, 0, 0, c.cpltail ++ c.headNew.getD c.cplhead,
    c.tailNew.getD c.cmdtail ++ c.cmdhead, c.cplbase, c.cmdbase]
/-- A write of a doubleword of a channel's register block (Table 20.1, R8). -/
def Channel.writeBlock (c : Channel) (i : Nat) (v : Word64) : Channel :=
  match i with
  | 0 => { c.putSize (v.extractLsb' 8 4) with en := v.getLsbD 0, err := c.err &&& ~~~(v.extractLsb' 12 4) }
  | 4 => c.putHead (v.extractLsb' 0 32)
  | 5 => c.putTail (v.extractLsb' 32 32)
  | 6 => c.putBase true v
  | 7 => c.putBase false v
  | _ => c

/-- Whether a partition has a host function. -/
def State.hasVf (s : State) (part : Nat) : Bool := (s.org.parts.find part).any (·.vf)
/-- A write of the host to a channel's register: none reaches a partition without a virtual function (R340). -/
def State.hostChannel (s : State) (part ch : Nat) (f : Channel → Channel) : State := if s.hasVf part then s.modChannel part ch f else s

/-- The doubleword that the host reads at an offset of BAR0 (R340): the queue window, the channels' blocks from 0x1000 on, else zero. -/
def State.barRead (s : State) (part off : Nat) : Word64 :=
  if !s.hasVf part then 0
  else if off < 0x1000 then s.windowRead part off
  else if off < 0x1400 then (s.channel part (off / 64 % 64)).block.getD (off % 64 / 8) 0
  else 0
/-- The host's write of the doubleword at an offset of BAR0: what no register holds ignores it (R340). -/
def State.barWrite (s : State) (part off : Nat) (v : Word64) : State :=
  if !s.hasVf part then s
  else if off < 0x1000 then s.writeQueueBlock part (off / 64) (off % 64 / 8) v false
  else if off < 0x1400 then s.modChannel part (off / 64 % 64) fun c => c.writeBlock (off % 64 / 8) v
  else s

/-- The effect of a write to a control field without behaviour of its own (R8, R11, Tables 3.6, 16.1, 18.3, 20.1, R316, R318). -/
def State.writeCtl (s : State) : CtlReg → State
  | .queueQuantum part q v => s.writeQueue part q fun l => { l with quantum := v }
  | .queueDeficit part q v => s.writeQueue part q fun l => { l with deficit := v.toInt }
  | .queueDepth part q v => s.writeQueue part q fun l => { l with depthm1 := v }
  | .queueCtx part q v => s.writeQueue part q fun l => { l with ctx := v }
  | .queueDisable part q => s.writeQueue part q fun l => { l with en := false }
  | .queueWakeClear part q v => s.writeQueue part q fun l => { l with wake := l.wake &&& ~~~v }
  | .queueErrClear part q v => s.writeQueue part q fun l => { l with errv := l.errv && !v }
  | .helmWakeClear k v => s.modDev fun d => { d with helm := d.helm.modify k fun h =>
      let w := h.wake &&& ~~~v
      { h with wake := w, wakeIrq := h.wakeIrq && w != 0 } }
  | .scopeClamps asid v => s.modCtx asid fun c => { c with clamps := v }
  | .channelBase part ch cpl v => s.hostChannel part ch fun c => c.putBase cpl v
  | .channelSize part ch v => s.hostChannel part ch fun c => c.putSize v
  | .channelErrClear part ch v => s.hostChannel part ch fun c => { c with err := c.err &&& ~~~v }
  | .channelDisable part ch => s.hostChannel part ch fun c => { c with en := false }
  | .scrubPeriod lvl ms =>
      let r := scrubRange lvl
      if r.1 ≤ ms && ms ≤ r.2 then s.modMem fun m => { m with scrubPeriod := m.scrubPeriod.put (scrubNumber lvl) (ms * (clkPerSecond / 1000)) } else s
  | .bucket stack part rate burst =>
      if rate == 0 || burst == 0 then s else
      s.modMem fun m => { m with buckets := m.buckets.modify (stack * 256 + part) fun b => { b with rate := rate.toNat, burst := burst.toNat } }
  | .compress granule on => s.setCompress granule on
  | .errorRingRead ring n => s.modMem fun m => { m with rings := m.rings.modify ring fun g =>
      let rs := g.recs.drop n
      { g with recs := rs, raised := g.raised && !rs.isEmpty } }
  | .queueWindow part off v => s.writeQueueBlock part (off / 64) (off % 64 / 8) v
  | .contextWindow part off v => match s.ctxOf part (off / 64) with
      | some a => if off < 1024 then s.modCtx a fun c => c.writeBlock (off % 64 / 8) v else s
      | none => s
  | .bar0 part off v => s.barWrite part off v
  | .gateRecord n lastfill value tokens burst rate gen acl v =>
      if n == 0 || decide (65535 < n) then s else
      let g : Gate := { lastfill := lastfill, tokens := tokens, burst := burst, rate := rate, acl := (acl.take 8).map (· &&& 0xFF07), gen := gen, v := v, value := value }
      s.modDev fun d => { d with gates := d.gates.put n g }
  | .remoteWindow w =>
      if w.base < hbmEnd || decide (12 ≤ w.port) || !s.org.parts.has w.part then s else
      s.modDev fun d => { d with windows := (d.windows.filter fun x => x.base != w.base) ++ [w] }
  | .reserved => s

/-- CONTROL_REGISTER_WRITE (R8, R11): a write to a reserved or read-only field is ignored. -/
def execControlRegisterWrite (r : CtlReg) (s : State) : Result := .next (s.writeCtl r).idle

end Sys2Proof.Machine
end

