-- ==== Sys2Proof/Machine/Stops.lean ====
section
/-! DEFINITION. What a halt, a save, a resume and a reset do to a context and its teams: stop records (R294 to R296), the save of a team
(R307), its return to a core (R310, R366, R272), and the reset of a context (R309). -/

namespace Sys2Proof.Machine

/-! ### Teams of a context -/

/-- The keys of a context's teams. -/
def State.teamsOf (s : State) (asid : Nat) : List Nat := (s.ex.teams.filter fun e => s.asidOf e.1 == some asid).map (·.1)
/-- The keys of a context's resident teams. -/
def State.residentOf (s : State) (asid : Nat) : List Nat := (s.teamsOf asid).filter fun k => (s.ex.teams.find k).any fun t => !t.saved
/-- Whether a team belongs to a context. -/
def State.inCtx (s : State) (asid k : Nat) : Bool := s.asidOf k == some asid
/-- Numbers without repeats, rising. -/
def risingOf (l : List Nat) : List Nat := (l.foldl (fun (m : AMap Unit) n => m.put n ()) []).map (·.1)
/-- Change the Helm core of a partition's supervisor. -/
def State.modSupHelm (s : State) (part : Nat) (f : Helm → Helm) : State :=
  let k := match s.org.parts.find part with | some p => p.helm.headD 0 | none => 0
  s.modDev fun d => { d with helm := d.helm.put k (f (AMap.get {} d.helm k)) }

/-! ### Stop records (R294, R296, Table 17.3) -/

/-- The words of the instruction at a PC, where its line is resident. -/
def State.instrWords (s : State) (core asid : Nat) (pc : Word64) : List Word :=
  match s.iline core asid (lineVa pc) with
  | some l => let w := slotWord l.words (slotNo pc); [w.extractLsb' 0 32, w.extractLsb' 32 32, w.extractLsb' 64 32]
  | none => [0, 0, 0]

/-- A number as a word of a record's body. -/
def w32 (n : Nat) : Word := BitVec.ofNat 32 n

/-- A tile descriptor as a record lists it. -/
def TileDesc.words (d : TileDesc) : List Word := [w32 d.base, w32 (d.base / 2 ^ 32), BitVec.ofInt 32 d.stride, w32 d.scratch.toNat]
/-- The operands of a matrix instruction as a record lists them (R218). -/
def MOp.words : MOp → List Word
  | .mma a b sa sb k => a.words ++ b.words ++ [sa, sb, w32 k]
  | .mload a _ slot | .mstore a _ slot => a.words ++ [slot]
  | .mmov sel dests => dests.flatMap fun d => [w32 d.lane, w32 d.reg.toNat, w32 (AMap.get 0 sel d.lane)]
  | .mzero => []
/-- A pilot group's PC and run state: the count, the awaited batches and each written temporary (R42, R296). -/
def runWords (sp : Split) : List Word :=
  let u := sp.cont.getD {}
  [lo sp.pc, hi sp.pc, sp.mask, w32 u.count] ++ ((u.bwait.getD []).flatMap fun w => [w32 w.lane, w.num]) ++ u.t.flatMap fun e => [w32 e.1, e.2.val]

/-- The engines of a context that write a record: engine, unit, body (R294, R296; the layout of a body is the model's, log 15). -/
def State.stopEngines (s : State) (asid : Nat) : List (Nat × Nat × List Word) :=
  let res := s.residentOf asid
  let cores := risingOf (res.filterMap fun k => (s.ex.teams.find k).map (·.core))
  let all := s.teamsOf asid
  let engines := risingOf ((s.ex.copies.filter fun e => all.contains e.2.team).map fun e => e.2.core)
  let loads (c : Nat) : List Word := (s.ex.reqs.filter fun e => e.2.asid == asid && e.2.core == c && e.2.kind == .load).flatMap fun e =>
    [w32 (e.2.dest.strand % 2048), w32 e.2.dest.reg.toNat, w32 e.2.va, w32 (e.2.va / 2 ^ 32)]
  let core := cores.map fun c => (0, c, loads c)
  let copy := engines.map fun c =>
    (1, c, (s.ex.copies.filter fun e => all.contains e.2.team && e.2.core == c).flatMap fun e =>
      [w32 e.2.lane, (match e.2.batch with | .sealed n => n | _ => 0), w32 (match e.2.form with | .gs => 0 | .sg => 1 | .gg => 2),
        w32 e.2.strided, w32 (e.2.strided / 2 ^ 32), w32 e.2.packed, w32 (e.2.packed / 2 ^ 32), w32 e.2.dims, w32 e.2.words, w32 e.2.rows, w32 e.2.planes,
        BitVec.ofInt 32 e.2.rstride, BitVec.ofInt 32 e.2.pstride])
  let pilot := cores.filterMap fun c =>
    let gs := s.ex.groups.filter fun e => isPilot e.1 && coreOf e.1 == c && res.contains e.2.team
    if gs.isEmpty then none else some (2, c, gs.flatMap fun e => e.2.splits.flatMap runWords)
  let matrix := cores.filterMap fun c =>
    let is := (s.matrixQueue c).filter fun i => res.contains i.team
    if is.isEmpty then none else some (3, c, is.flatMap fun i => [w32 i.tile, lo i.pc, hi i.pc, w32 i.chunks] ++ i.op.words)
  let array := cores.filterMap fun c => match s.ex.arrays.find (c / 16) with
    | some a => if a.queue.any (fun i => res.contains i.team && (s.ex.teams.find i.team).any fun t => t.core == c) then some (4, c, [w32 a.remain, w32 a.colour, a.sc]) else none
    | none => none
  let walker := (s.mem.walks.filter fun e => e.2.asid == asid).map fun e => (5, e.2.core / 160 * 16 + e.1 % 16, [w32 e.2.va, w32 (e.2.va / 2 ^ 32)])
  core ++ copy ++ pilot ++ matrix ++ array ++ walker

/-- One engine's record: the cause it raised, or the one that raised the halt line (Table 17.3). -/
def State.stopRecord (s : State) (asid : Nat) (c : Ctx) (seq : Nat) (e : Nat × Nat × List Word) : StopRecord :=
  let base : StopRecord := { time := s.dev.clock, engine := e.1, unit_ := e.2.1, seq := seq, asid := asid,
                             stopclk := Nat.min 128 (s.dev.clock - c.haltClk), body := e.2.2 }
  match c.raised.find? fun r => r.engine == e.1 && r.unit_ == e.2.1 with
  | some r => { base with lcause := r.lcause, tval := r.tval, epc := r.epc, group := r.group, cause := r.cause, hm := r.hm, origin := true,
                          body := if e.1 = 0 then s.instrWords e.2.1 asid r.epc ++ e.2.2 else e.2.2 }
  | none => { base with cause := c.haltCause
                        body := if e.1 = 0 then [0, 0, 0] ++ e.2.2 else e.2.2 }

/-- A record's header as one number (Table 17.3): V is 1, and BODYLEN is the bytes of the body. -/
def StopRecord.header (r : StopRecord) : Nat :=
  let lane (l : Nat) : Nat := AMap.get 0 r.lcause l % 32 * 2 ^ (5 * l)
  1 + 2 * r.origin.toNat + 4 * r.hm.toNat + 8 * r.cause + 2 ^ 8 * r.stopclk + 2 ^ 32 * r.asid + 2 ^ 64 * (r.seq % 2 ^ 32) + 2 ^ 96 * r.unit_ + 2 ^ 112 * r.engine
    + 2 ^ 120 * r.group + 2 ^ 128 * (4 * r.body.length) + 2 ^ 160 * (r.time % 2 ^ 64) + 2 ^ 224 * r.epc.toNat + 2 ^ 288 * r.tval.toNat
    + 2 ^ 352 * ((List.range 32).foldl (fun n l => n + lane l) 0)

/-- Write a context's stop records and cancel its loads (R294, R295). -/
def State.writeStops (s : State) (asid : Nat) (c : Ctx) : State :=
  let es := s.stopEngines asid
  let more := (c.raised.filter fun r => !(es.any fun e => e.1 == r.engine && e.2.1 == r.unit_)).map fun r => (r.engine, r.unit_, ([] : List Word))
  let rs := ((es ++ more).zipIdx).map fun e => s.stopRecord asid c (c.recordSeq + e.2) e.1
  let stop (r : Req) : Req := if r.asid == asid && r.kind == .load then { r with got := r.got.map (fun _ => none), done := false } else r
  let s := s.modEx fun x => { x with reqs := x.reqs.map fun e => (e.1, stop e.2) }
  let s := s.modCtx asid fun c => { c with records := c.records ++ rs, recordSeq := c.recordSeq + rs.length, interrupt := true, raised := [] }
  s.modSupHelm c.part fun h => { h with haltIrq := h.haltIrq ++ [asid] }

/-- Whether the stage-2 tables of a partition map a page of its own granules that may be written. -/
def State.pinnedPage (s : State) (part : Nat) (p : Partition) (ipa : Nat) : Bool × State :=
  match s.walkIpa (p.helm.headD 0 / 4) part p ipa with | (r, s) => (r.any fun f => f.rights &&& rW == rW, s)
/-- Whether every save-area page is mapped (R304, R308). -/
def State.pagesPinned (s : State) (part : Nat) (p : Partition) : List Nat → Bool × State
  | [] => (true, s)
  | a :: r => match s.pinnedPage part p a with | (true, s) => s.pagesPinned part p r | (false, s) => (false, s)

/-- The record that Smilor's ring gets of a save-area fault (R308). -/
def State.saveFault (s : State) (asid part : Nat) : State :=
  s.ringAppend 0 { errRec 10 1 1 0 0 asid part 0 0 with time := s.dev.clock }

/-! ### The save of a team (R307) -/

/-- A group as a light record brings it back (R306, R307, R310): one that had stopped as a single split at a run boundary becomes one Ready split, unless it
is parked in a wait of its own (R272). -/
def Group.lighten (g : Group) : Group :=
  if decide (1 < g.liveSplits) || g.splits.any (fun sp => sp.st == .running || sp.cont.isSome) then g else
  { g with splits := g.splits.map fun sp => if sp.st == .awaiting && sp.bw.all (·.ended) then { sp with st := .ready, awaits := [], bw := sp.missed } else sp }

/-- Save a team: groups, bins with the time that they have run, scratchpad and array; its .gs requests are cancelled (R103) and its
core's dirty words written back (R108). -/
def State.saveTeam (s : State) (k : Nat) : State :=
  match s.ex.teams.find k with
  | none => s
  | some t =>
    let asid := (s.asidOf k).getD 0
    let light := s.stageOf k == some .saving
    let s := s.l1WriteBackAll t.core asid
    let now := s.checkpointOf k t
    let img : Checkpoint := { now with groups := now.groups.map (fun e => (e.1, if light && !isPilot e.1 then e.2.lighten else e.2)), copies := [], strands := [], tiles := [], queues := [],
                                       bins := now.bins.map fun e => (e.1, { e.2 with started := s.dev.clock - e.2.started }) }
    let s := s.modEx fun x => { x with
      groups := x.groups.filter fun e => e.2.team != k
      bins := x.bins.filter fun e => e.2.team != k
      arrays := if img.array.isSome then x.arrays.del (t.core / 16) else x.arrays
      copies := x.copies.map fun e => (e.1, if e.2.team == k && e.2.form == .gs then { e.2 with cancelled := true } else e.2) }
    s.modTeam k fun t => { t with save := img, saved := true, savedAt := s.dev.clock }

/-- Whether nothing of a context stands before its save: its stores and atomics performed, but for those that a cancelled load holds. -/
def State.saveQuiet (s : State) (asid : Nat) : Bool :=
  !(s.ex.reqs.any fun e => e.2.asid == asid && e.2.writes && !e.2.performed && !s.trailing e.2 && !s.reqBlocked e.1 e.2)

/-! ### The return of a team (R310, R366, R272) -/

/-- A parked wait as it resumes (R270, R272, R325): JOINW restarts its timer, MWAIT wakes, GWAIT compares afresh and restarts its timeout, unless
the log has taken a part of its end already. -/
def State.resumeWait (s : State) (trails taken : Bool) : Wait → Wait
  | .joinw a p _ t => .joinw a p (if t = 0 then none else some (s.dev.clock + t)) t
  | .mwait ws => .mwait (ws.map fun w => { w with woken := true })
  | .gwait h n _ t d last res =>
      if trails || taken then .gwait h n none t d last res
      else if !s.gateCurrent h then .gwait h n none t d last (some (2, 0))
      else .gwait h n (if t = 0 then none else some (s.dev.clock + t)) t d none none
  | w => w

/-- A split as it resumes. -/
def State.resumeSplit (s : State) (trails : Bool) (sp : Split) : Split :=
  match sp.st with | .parked w => { sp with st := .parked (s.resumeWait trails (!sp.took.isEmpty) w) } | _ => sp

/-- A group as it resumes: a claim that was blocked is made again. -/
def State.resumeSplits (s : State) (trails : Bool) (g : Group) : Group :=
  { g with splits := g.splits.map (s.resumeSplit trails),
           saved := g.saved.map fun sv => { sv with splits := sv.splits.map (s.resumeSplit trails) },
           block := match g.block with | some (.claim _) => none | b => b }

/-- The gates that a group waits to be armed at, an interrupted split's among them. -/
def Group.toArm (g : Group) : List Nat :=
  g.allSplits.filterMap fun sp => match sp.st with | .parked (.gwait h _ _ _ _ none none) => some (gateIndex h) | _ => none

/-- Resume a team's groups where they stand, and its unfinished matrix instructions, whose tiles are checked again (R366). -/
def State.resumeGroups (s : State) (k : Nat) : State :=
  let trails := match (s.ex.teams.find k).bind (·.pair) with | some (b, _) => !b | none => false
  let mine := (s.ex.groups.filter fun e => e.2.team == k).map (·.1)
  let s := mine.foldl (fun s gk =>
    let s := s.modGroup gk fun g => s.resumeSplits trails g
    match s.ex.groups.find gk with
    | some g => if trails then s else g.toArm.foldl (fun s n => s.sendGate n gk .rearm) s
    | none => s) s
  s.modEx fun x => { x with mq := x.mq.map fun e => (e.1, e.2.map fun i =>
    if i.team == k then { i with fetched := none, blocks := [], check := true } else i) }

/-- Renew the promises of a strand's incomplete batches (R103), from the oldest on, none below the one before it (R96). -/
def State.renewPromises (s : State) (key : Nat) : State :=
  let t := s.strandAt key
  let one (a : List Batch × Word64 × State) (b : Batch) : List Batch × Word64 × State :=
    if t.complete b.num then (b :: a.1, maxW a.2.1 b.promise, a.2.2)
    else
      let (i, s) := a.2.2.free
      let p := maxW a.2.1 (BitVec.ofNat 64 s.dev.clock + Config.estimate i)
      ({ b with promise := p } :: a.1, p, s)
  let (bs, _, s) := t.batches.reverse.foldl one ([], 0, s)
  s.modStrand key fun t => { t with batches := bs }

/-- An access that is made again as its context resumes: a cancelled load, or one that had failed (R295). It goes to its L1 again, or is translated again, as it is
performed (R68). -/
def Req.renewed (r : Req) : Req :=
  if r.unit == .scratch then { r with failed := false }
  else if r.failed || (r.kind == .load && !r.done) then { r with failed := false, hit := true, unit := if r.wide || r.pilot then .slice else .l1 }
  else r

/-- Make a team's failed accesses and cancelled loads again, and its cancelled copy requests, whole (R295, R103). -/
def State.reissueAll (s : State) (k : Nat) : State :=
  let s := s.modEx fun x => { x with reqs := x.reqs.map fun e => (e.1, if e.2.dest.strand / 2048 == k then e.2.renewed else e.2) }
  let cs := s.ex.copies.filter fun e => e.2.team == k && e.2.cancelled
  let s := cs.foldl (fun s e => s.reissued e.2) s
  s.modEx fun x => { x with copies := x.copies.map fun e => (e.1, if e.2.team != k then e.2 else
    if e.2.cancelled then { e.2 with cancelled := false, late := false, moved := [], reissued := true } else { e.2 with late := false }) }

/-- A team's move to a core: the old and new places of its scratchpad, and of its groups. -/
structure Move where
  k : Nat
  c0 : Nat
  c1 : Nat
  b0 : Nat
  b1 : Nat
  gs : AMap Nat
deriving Repr

/-- The new key of a group. -/
def Move.group (m : Move) (gk : Nat) : Nat := AMap.get gk m.gs gk
/-- The new key of a scratchpad word. -/
def Move.word (m : Move) (n : Nat) : Nat := n - scratchKey m.c0 m.b0 + scratchKey m.c1 m.b1
/-- Scratchpad words at their new keys. -/
def Move.words (m : Move) (ws : AMap TWord) : AMap TWord := ws.map fun e => (m.word e.1, e.2)
/-- A destination's group. -/
def Move.dest (m : Move) (d : Dest) : Dest := { d with gk := m.group d.gk }

/-- A team's operations in flight follow it. -/
def State.moveOps (s : State) (m : Move) : State :=
  let mine (st : Nat) : Bool := st / 2048 == m.k
  let req (r : Req) : Req := if mine r.dest.strand then { r with
      core := m.c1, dest := m.dest r.dest
      addr := if r.unit == .scratch then r.addr - m.b0 + m.b1 else r.addr } else r
  let long (r : Long) : Long := if mine r.dest.strand then { r with core := m.c1, dest := m.dest r.dest } else r
  let fence (f : FenceOp) : FenceOp := if f.strands.any mine then { f with core := m.c1, gk := m.group f.gk } else f
  let qld (o : QldOp) : QldOp := if o.team == m.k then { o with core := m.c1, gk := m.group o.gk } else o
  let mi (i : MInstr) : MInstr := { i with gk := m.group i.gk, op := match i.op with | .mmov sel ds => .mmov sel (ds.map m.dest) | o => o }
  let gop (o : Nat × GateOp) : Nat × GateOp := match o.2 with
    | .read _ ds => if ds.any fun d => mine d.1.strand then (m.group o.1, .read m.c1 (ds.map fun d => (m.dest d.1, d.2))) else o
    | _ => o
  let s := s.modDev fun d => { d with gops := d.gops.map fun e => (e.1, e.2.map gop) }
  let mqs := (AMap.get [] s.ex.mq m.c0).filter fun i => i.team == m.k
  let pin := (AMap.get [] s.ex.pins m.c0).filter fun p => p.team == m.k
  s.modEx fun x =>
    let mq0 := AMap.modify x.mq m.c0 fun q => q.filter fun i => i.team != m.k
    let pin0 := AMap.modify x.pins m.c0 fun q => q.filter fun p => p.team != m.k
    { x with
      reqs := x.reqs.map fun e => (e.1, req e.2)
      longs := x.longs.map fun e => (e.1, long e.2)
      fences := x.fences.map fun e => (e.1, fence e.2)
      qlds := x.qlds.map fun e => (e.1, qld e.2)
      copies := x.copies.map fun e => (e.1, if e.2.team == m.k && e.2.form == .gs then { e.2 with core := m.c1 } else e.2)
      mq := if mqs.isEmpty then mq0 else AMap.put mq0 m.c1 (AMap.get [] mq0 m.c1 ++ mqs.map mi)
      pins := if pin.isEmpty then pin0 else AMap.put pin0 m.c1 ((AMap.get [] pin0 m.c1 ++ pin).take 16) }

/-- An array's instructions in flight follow their team. -/
def Move.array (m : Move) (group : Nat → Nat) (a : Sampler) : Sampler :=
  { a with queue := a.queue.map fun i => if i.team == m.k then
      { i with gk := group i.gk, dests := i.dests.map fun d => ({ d.1 with gk := group d.1.gk }, d.2) } else i }

/-- A checkpoint follows its team. -/
def Move.checkpoint (m : Move) (c : Checkpoint) : Checkpoint :=
  { c with
    array := c.array.map (m.array fun gk => m.c1 * 256 + gk % 256)
    groups := c.groups.map fun e => (m.c1 * 256 + e.1 % 256, e.2)
    bins := c.bins.map fun e => (m.c1 * 32 + e.1 % 32, e.2)
    scratch := m.words c.scratch
    copies := c.copies.map fun e => (e.1, { e.2 with core := m.c1 }) }

/-- The new keys of a team's saved groups on a core: a pilot group's place, or the lowest free number (R244). -/
def State.newKeys (s : State) (c1 : Nat) (gs : List Nat) : AMap Nat :=
  let add (m : AMap Nat) (gk : Nat) : AMap Nat :=
    let base := if isPilot gk then 128 else 0
    let n := ((List.range 128).find? fun j => !s.ex.groups.has (c1 * 256 + base + j) && !(m.any fun e => e.2 == c1 * 256 + base + j)).getD 127
    m.put gk (c1 * 256 + base + n)
  gs.foldl add []

/-- Place a saved team on a core (R310). -/
def State.placeTeamOn (s : State) (k c1 : Nat) : State :=
  match s.ex.teams.find k with
  | none => s
  | some t =>
    let h := s.hdrOf t
    let b1 := (s.scratchFit c1 (scratchSize h)).getD 0
    let m : Move := { k := k, c0 := t.core, c1 := c1, b0 := t.scratchBase, b1 := b1, gs := s.newKeys c1 (t.save.groups.map (·.1)) }
    let img := t.save
    let s := (s.clearScratch c1 b1 (scratchSize h)).modMem fun x => { x with scratch := (m.words img.scratch).foldl (fun a e => AMap.set {} a e.1 e.2) x.scratch }
    let s := s.moveOps m
    let s := if img.array.isSome then s.mendArray (c1 / 16) fun _ => true else s
    let s := s.modEx fun x => { x with
      groups := img.groups.foldl (fun a e => a.put (m.group e.1) e.2) x.groups
      arrays := match img.array with | some a => x.arrays.put (c1 / 16) (m.array m.group a) | none => x.arrays }
    let s := s.modTeam k fun t => { t with core := c1, scratchBase := b1, saved := false, save := {}, ready := false, lateBins := [],
                                           savedClk := t.savedClk + (s.dev.clock - t.savedAt), cp := m.checkpoint t.cp }
    let s := img.bins.foldl (fun s e => s.restoreBin (c1 * 32 + e.1 % 32, { e.2 with started := s.dev.clock - e.2.started })) s
    s.l1Sweep c1 ((s.asidOf k).getD 0)

/-- A rollback that was pending is performed before any group of the team issues (R299). -/
def State.pendingNow (s : State) (k : Nat) : State :=
  match (s.ex.teams.find k).bind (·.pendingRollback), s.engineView k ((s.ex.teams.find k).map (·.core * 256) |>.getD 0) 0 0 with
  | some (c, a, p), some v => s.rollback v { cause := c, addr := a, place := p }
  | _, _ => s

/-- A resident team of a running context continues (R297, R310); after pre-emption its promises are renewed (R96, R103). -/
def State.resumeTeam (preempted : Bool) (s : State) (k : Nat) : State :=
  let s := (s.resumeGroups k).reissueAll k
  let s := s.modTeam k fun t => { t with ready := t.ready && (match t.pair with | some (b, _) => b | none => true) }
  let s := if !preempted then s else (((s.ex.strands.filter fun e => e.1 / 2048 == k).map (·.1))).foldl State.renewPromises s
  let s := if (s.ex.teams.find k).any fun t => t.prefetch.isEmpty then s.becomeReady k else s
  s.pendingNow k

/-! ### The reset of a context (R309) -/

/-- Discard a team: its stores that have issued are still performed (R295). -/
def State.discardTeam (s : State) (k : Nat) : State := (s.dropTeam k 0).removeTeam k

/-- A grid after a reset of its context: one in a queue stays there, its dispatch to begin again with a new frame; others are gone. -/
def State.resetGrid (s : State) (gk : Nat) (g : Grid) : State :=
  if (s.lqueue g.part g.queue).grids.contains gk then
    s.modGrid gk fun g => if g.framed then { g with framed := false, parentFrame := 0, display := g.display.dropLast, fsizes := g.fsizes.dropLast }
                          else { g with parentFrame := 0 }
  else s.modOrg fun o => { o with grids := o.grids.del gk }

/-- Reset a context (R309): teams, tiles, arrays, pins and frames go, no completion word is incremented, its queues and its channel
are disabled, and charges are made (R280, R344). -/
def State.resetContext (s : State) (asid : Nat) : State :=
  match s.org.ctxs.find asid with
  | none => s
  | some c =>
    let ks := s.teamsOf asid
    let lead (k : Nat) : Bool := match (s.ex.teams.find k).bind (·.pair) with | some (b, _) => b | none => true
    let s := (ks.filter lead).foldl State.chargeTeam s
    let s := ks.foldl State.discardTeam s
    let grids := s.org.grids.filter fun e => e.2.asid == asid
    let mineQ (q : Nat) (l : LQueue) : Bool := l.ctx.toNat == c.num || l.grids.any fun k => (s.org.grids.find k).any fun g => g.asid == asid && g.queue == q
    let s := s.modPart c.part fun p => { p with
      qs := p.qs.map fun e => (e.1, if mineQ e.1 e.2 then { e.2 with en := false } else e.2)
      channels := p.channels.modify c.num fun ch => { ch with en := false } }
    let s := grids.foldl (fun s e => s.resetGrid e.1 e.2) s
    let s := s.modEx fun x => { x with
      tiles := (x.tiles.map fun e => (e.1, if e.2.tag.any (fun t => t.asid == asid) then {} else e.2)).filter fun e => e.2 != {}
      arrays := x.arrays.filter fun e => !(e.2.bound.any fun t => t.asid == asid) }
    let s := s.modOrg fun o => { o with
      frames := o.frames.map (fun e => (e.1, if e.2.asid == asid then { e.2 with discarding := true } else e.2))
      pairs := o.pairs.filter fun e => e.2.asid != asid }
    (s.modCtx asid fun c => { c with halted := false, faulted := false, preempting := false, saved := false, ladder := none, raised := [] }).powerEval

end Sys2Proof.Machine
end

