-- ==== Sys2Proof/Machine/PreemptEvents.lean ====
section
/-! DEFINITION. Events of contexts: stop records (R294), signatures (R302), the control words (R303 to R305, R374), creation and
destruction (R304, R315), the pre-emption ladder (R306, R308, R309, R317), resume (R297, R310) and reset. -/

namespace Sys2Proof.Machine

/-- Do something for a context, if there is one. -/
def State.onCtx (s : State) (asid : Nat) (f : Ctx → Result) : Result := match s.org.ctxs.find asid with | some c => f c | none => .fault .notDue

/-- Whether a context's save area can be written (R308): where it cannot, the context has been reset and the fault recorded for Smilor. -/
def State.saveWrites (s : State) (asid : Nat) (c : Ctx) : Bool × State :=
  match s.org.parts.find c.part with
  | none => (true, s)
  | some p => match s.pagesPinned c.part p c.savePages with
    | (true, s) => (true, s)
    | (false, s) => (false, (s.saveFault asid c.part).resetContext asid)

/-- STOP_RECORDS_COMPLETE (R294 to R296, R308): every engine has written its record into the save area, and the supervisor gets one interrupt. -/
def execStopRecordsComplete (asid : Nat) (s : State) : Result := s.onCtx asid fun c =>
  if !c.halted || c.interrupt then .fault .notDue else
  let (ok, s) := s.saveWrites asid c
  .next (if ok then s.writeStops asid c else s).idle

/-! ### Signatures (R302, R303, R374) -/

/-- A redundancy mismatch of a core pair: both teams roll back, or the cause is a context fault where either may not (R298, R302). -/
def State.pairMismatch (s : State) (lead : Nat) (pc : Nat) : State :=
  match s.org.pairs.find lead, s.engineView lead ((s.ex.teams.find lead).map (·.core * 256) |>.getD 0) (BitVec.ofNat 64 pc) 0 with
  | some p, some v =>
    let f : Fail := { cause := 18, tval := BitVec.ofNat 64 pc }
    let may := willRollback v f && match s.ex.teams.find p.trailer with
      | some t => !t.irrevocable && decide (t.rollbacks < 3)
      | none => false
    if may then s.rollback v f else raiseContext v f (BitVec.ofNat 64 pc) 0 s
  | _, _ => s

/-- SIGNATURE_MATCH (R302, R303, R374): the oldest signatures of both sides are compared; the compare counts for an injection. -/
def execSignatureMatch (pair : Nat) (s : State) : Result :=
  match s.org.pairs.find pair with
  | none => .fault .notDue
  | some p =>
    match p.buffer, p.tsigs, s.org.ctxs.find p.asid with
    | (a, pc) :: as, (b, _) :: bs, some c =>
      if !s.teamRuns pair then .fault .notDue else
      let hit := c.injectHits 1
      let s := s.modCtx p.asid fun c => { c with compares := c.compares + 1, inject := if hit then c.inject &&& 0x7FFFFFFF else c.inject }
      let s := s.modPair pair fun p => { p with buffer := as, tsigs := bs, matched := p.matched + 1 }
      .next (if hit || a != b then s.pairMismatch pair pc else s).idle
    | _, _, _ => .fault .notDue

/-- STAGGER_EXPIRY (R374): the trailing team's groups become ready. -/
def execStaggerExpiry (pair : Nat) (s : State) : Result :=
  match s.org.pairs.find pair with
  | none => .fault .notDue
  | some p =>
    let lead := (s.ex.teams.find pair).any (·.ready)
    let listed := (s.ex.teams.find p.trailer).any fun t => t.prefetch.isEmpty
    if p.released || !lead || !listed || !s.teamRuns p.trailer || decide (s.dev.clock < p.stagger) then .fault .notDue else
    .next ((s.modPair pair fun p => { p with released := true }).modTeam p.trailer fun t => { t with ready := true }).idle

/-! ### Control words (R304, R305) -/

/-- INJECT_WRITE (R303): it takes effect at once, and counting starts. -/
def execInjectWrite (asid : Nat) (v : BitVec 32) (s : State) : Result :=
  .next (s.modCtx asid fun c => c.putInject v).idle
/-- PAIR_WRITE (R374). -/
def execPairWrite (asid : Nat) (v : BitVec 32) (s : State) : Result :=
  .next (s.modCtx asid fun c => c.putPair v).idle
/-- PREEMPT_WRITE (R304): it takes effect at the next switch tick. -/
def execPreemptWrite (asid : Nat) (v : BitVec 64) (s : State) : Result :=
  .next (s.modCtx asid fun c => c.putPreempt v).idle
/-- VLOG_WRITE (R305, R311): it takes effect at the context's next dispatch or resume; TAIL, which ends a stall, at once (log 50). -/
def execVlogWrite (asid : Nat) (v : BitVec 128) (s : State) : Result :=
  .next (s.modCtx asid fun c => c.putVlog v).idle

/-! ### Creation and destruction -/

/-- Whether an ASID may be given (R315): in range, held by no context, and invalidated since the context that last held it. -/
def State.asidFree (s : State) (asid : Nat) : Bool :=
  decide (1 ≤ asid) && decide (asid ≤ 4095) && !s.org.ctxs.has asid && !s.org.usedAsids.contains asid

/-- Whether a request's frame heap is the partition's (R136): all its contexts share one, which the first names within the bytes that the partition was
granted; with no context and no frame left, another may be named. -/
def State.heapNamed (s : State) (part : Nat) (p : Partition) (r : CtxReq) : Bool :=
  let used := s.org.ctxs.any (fun e => e.2.part == part) || s.org.frames.any fun e => e.2.part == part
  if used then r.heapBase == p.heapBase && r.heapSize == p.heapSize else decide (r.heapSize ≤ p.heapBytes)

/-- Whether a request's shadow pool and save area are within what the partition was granted, with those of its other contexts (Table 18.1). -/
def poolsFit (p : Partition) (others : List Ctx) (r : CtxReq) : Bool :=
  decide (others.foldl (fun n c => n + c.shadowPool) r.shadowPool ≤ p.shadowBytes)
    && decide (others.foldl (fun n c => n + 4096 * c.savePages.length) (4096 * r.savePages.length) ≤ p.saveBytes)

/-- CONTEXT_CREATE (R136, R304, R314, R315, R269): a request that breaks a limit is refused and changes nothing. -/
def execContextCreate (r : CtxReq) (s : State) : Result :=
  match s.org.parts.find r.part with
  | none => .next s.idle
  | some p =>
    let mine := s.org.ctxs.filter fun e => e.2.part == r.part
    if !s.asidFree r.asid || 15 < r.ctx || (s.ctxOf r.part r.ctx).isSome || p.contexts ≤ mine.length || !s.heapNamed r.part p r
        || !poolsFit p (mine.map (·.2)) r then .next s.idle
    else
      let (ok, s) := s.pagesPinned r.part p r.savePages
      if !ok then .next s.idle else
      let c : Ctx := { part := r.part, num := r.ctx, s1root := r.s1root, shadowPool := r.shadowPool, savePages := r.savePages,
                       preempt := r.preempt &&& preemptMask, inject := r.inject &&& 0x80FFFFFF, pairNew := some (r.pair &&& 0xFFFFF),
                       vlogNew := some (r.vlog &&& vlogMask) }
      let named := p.heapBase == r.heapBase && p.heapSize == r.heapSize
      let s := if named then s else s.modPart r.part fun p =>
        { p with heapBase := r.heapBase, heapSize := r.heapSize, free := if r.heapSize = 0 then [] else [(r.heapBase, r.heapSize)] }
      .next (s.modOrg fun o => { o with ctxs := o.ctxs.put r.asid c }).idle

/-- CONTEXT_DESTROY (R308, R315): what it holds goes as at a reset, its queued grids and translations with it. -/
def execContextDestroy (asid : Nat) (s : State) : Result := s.onCtx asid fun c =>
  let s := s.resetContext asid
  let gone := (s.org.grids.filter fun e => e.2.asid == asid).map (·.1)
  let s := s.modPart c.part fun p => { p with qs := p.qs.map fun e => (e.1, { e.2 with grids := e.2.grids.filter fun k => !gone.contains k }) }
  .next (s.modOrg fun o => { o with grids := o.grids.filter fun e => e.2.asid != asid, ctxs := o.ctxs.del asid,
                                    usedAsids := asid :: o.usedAsids.filter (· != asid), xlates := o.xlates.filter fun x => x.asid != asid }).idle

/-- SUPERVISOR_CONTEXT_RESET (R297, R309). -/
def execSupervisorContextReset (asid : Nat) (s : State) : Result := s.onCtx asid fun _ => .next (s.resetContext asid).idle

/-! ### The ladder (R306) -/

/-- DEADLINE of a context, in clk. -/
def Ctx.deadline (c : Ctx) : Nat := (c.preempt.extractLsb' 42 20).toNat
/-- SOFT of a context. -/
def Ctx.soft (c : Ctx) : Nat := (c.preempt.extractLsb' 22 20).toNat
/-- DRAIN of a context. -/
def Ctx.drainClk (c : Ctx) : Nat := (c.preempt.extractLsb' 2 20).toNat
/-- S3 of a ladder that began at t. -/
def Ctx.force (c : Ctx) (t : Nat) : Nat := Nat.min (t + c.drainClk + c.soft) (t + c.deadline)

/-- The save is over: nothing is left on the ladder. -/
def State.saved (s : State) (asid : Nat) : State := s.modCtx asid fun c => { c with ladder := none, saved := true }

/-- The context that a chart's entry names. -/
def State.ctxAt (s : State) (root : Nat) (e : ChartEntry) : Option Nat := s.ctxOf (root + e.child) e.ctx

/-- Begin a context's ladder at a tick; one with nothing resident has nothing to save. -/
def State.startLadder (s : State) (asid t : Nat) : State :=
  if (s.residentOf asid).isEmpty then s.saved asid else s.modCtx asid fun c => { c with ladder := some (t, .drain) }

/-- SWITCH_TICK (R317, R306, R304): the chart's next entry begins, and the outgoing context starts its ladder. -/
def execSwitchTick (root : Nat) (s : State) : Result :=
  match s.org.parts.find root with
  | none => .fault .notDue
  | some p =>
    match p.chart with
    | none => .fault .notDue
    | some c =>
      if s.dev.clock < p.nextTick || c.entries.isEmpty then .fault .notDue else
      let t := p.nextTick
      let out := (s.chartEntry root).bind (s.ctxAt root)
      let i := if p.chartAt < c.entries.length then p.chartAt else 0
      let dur := match c.entries[i]? with | some e => e.dur | none => 1
      let s := s.modPart root fun p => { p with chartAt := i + 1, nextTick := t + Nat.max 1 dur }
      let s := s.modOrg fun o => { o with ctxs := o.ctxs.map fun e =>
        (e.1, if rootOf e.2.part == root then { e.2 with preempt := e.2.preemptNew.getD e.2.preempt, preemptNew := none } else e.2) }
      .next (match out with | some a => s.startLadder a t | none => s).idle

/-- DRAIN_EXPIRY (R306): stage 1 ends; teams that have all retired need no save. -/
def execDrainExpiry (asid : Nat) (s : State) : Result := s.onCtx asid fun c =>
  match c.ladder with
  | some (t, .drain) =>
    if (s.residentOf asid).isEmpty then .next (s.saved asid).idle
    else if s.dev.clock < t + c.drainClk then .fault .notDue
    else .next (s.modCtx asid fun c => { c with ladder := some (t, .reconverge) }).idle
  | _ => .fault .notDue

/-- Whether every group of a context has stopped (R306): a single split at a run boundary. -/
def State.allStopped (s : State) (asid : Nat) : Bool :=
  s.ex.groups.all fun e => !s.inCtx asid e.2.team || isPilot e.1
    || (decide (e.2.liveSplits ≤ 1) && e.2.splits.all fun sp => sp.st != .running && sp.cont.isNone)

/-- FORCE_EXPIRY (R306): every group has stopped, or S3 has come; the halt line rises and the save begins. -/
def execForceExpiry (asid : Nat) (s : State) : Result := s.onCtx asid fun c =>
  match c.ladder with
  | some (t, .reconverge) =>
    if (s.residentOf asid).isEmpty then .next (s.saved asid).idle
    else if !s.allStopped asid && decide (s.dev.clock < c.force t) then .fault .notDue
    else .next ((s.halt asid none).modCtx asid fun c => { c with ladder := some (t, .saving) }).idle
  | _ => .fault .notDue

/-- CONTEXT_SAVE_COMPLETE (R307, R308): the stop records are written and the teams saved, unless a page of the save area is not mapped. -/
def execContextSaveComplete (asid : Nat) (s : State) : Result := s.onCtx asid fun c =>
  match c.ladder with
  | some (_, .saving) =>
    if !c.interrupt || !s.saveQuiet asid then .fault .notDue else
    let (ok, s) := s.saveWrites asid c
    if !ok then .next s.idle
    else .next (((s.residentOf asid).foldl State.saveTeam s).saved asid).powerEval.idle
  | _ => .fault .notDue

/-- DEADLINE_EXPIRY (R309): an unfinished save resets the context, and its supervisor is told that it is lost. -/
def execDeadlineExpiry (asid : Nat) (s : State) : Result := s.onCtx asid fun c =>
  match c.ladder with
  | some (t, _) =>
    if s.dev.clock < t + c.deadline then .fault .notDue
    else .next ((s.resetContext asid).modSupHelm c.part fun h => { h with lost := h.lost ++ [asid] }).idle
  | none => .fault .notDue

/-! ### Resume (R297, R310, R281) -/

/-- Insert a team by recorded level, then by order of dispatch. -/
def insertTeam (x : Nat × Team) : List (Nat × Team) → List (Nat × Team)
  | [] => [x]
  | y :: r => if (y.2.prio.toNat * 2 ^ 64 + y.2.order) ≤ (x.2.prio.toNat * 2 ^ 64 + x.2.order) then y :: insertTeam x r else x :: y :: r

/-- A context's saved teams, a core pair's leader for both, in the order of R281. -/
def State.savedTeams (s : State) (asid : Nat) : List (Nat × Team) :=
  ((s.teamsOf asid).filterMap fun k => match s.ex.teams.find k with
    | some t => if t.saved && (match t.pair with | some (b, _) => b | none => true) then some (k, t) else none
    | none => none).foldl (fun l x => insertTeam x l) []

/-- Whether a core can take a saved team: R282, and a free array where it holds one (log 52). -/
def State.arrayRoom (s : State) (t : Team) (core : Nat) : Bool := t.save.array.isNone || ((s.ex.arrays.find (core / 16)).bind (·.bound)).isNone

/-- Whether a core's pool has the contexts that a saved team's groups, or those of its checkpoint, hold of it (R246, log 66). -/
def State.poolRoom (s : State) (t : Team) (core : Nat) : Bool := decide (s.poolTotal core + Nat.max (inPool t.save.groups) (inPool t.cp.groups) ≤ 32)

/-- The cores for a saved team now, and for its trailer, whose groups are its own. -/
def State.placeFor (s : State) (part num : Nat) (t : Team) : Option (Nat × Option Nat) :=
  let cores := (s.coresOf part).filter (s.mayRunOn part num)
  let trailer := (t.pair.bind fun p => s.ex.teams.find p.2).getD t
  s.chooseCores (s.hdrOf t) (cores.filter fun c => s.arrayRoom t c && s.poolRoom t c) (cores.filter (s.poolRoom trailer))

/-- Place one saved team, if a core can take it. -/
def State.placeSaved (part num : Nat) (s : State) (k : Nat) : State :=
  match s.ex.teams.find k with
  | none => s
  | some t =>
    match s.placeFor part num t, t.pair with
    | some (c, some d), some (_, p) => (((s.placeTeamOn k c).placeTeamOn p d).resumeTeam true p).resumeTeam true k
    | some (c, _), _ => (s.placeTeamOn k c).resumeTeam true k
    | none, _ => s

/-- Whether a context may run somewhere now, with no save of its root's contexts in progress (R317). -/
def State.runsNow (s : State) (c : Ctx) : Bool :=
  (s.coresOf c.part).any (s.mayRunOn c.part c.num) && !(s.org.ctxs.any fun e => rootOf e.2.part == rootOf c.part && e.2.ladder.isSome)
/-- Whether some saved team of a context could be placed now. -/
def State.someFits (s : State) (asid : Nat) (c : Ctx) : Bool := (s.savedTeams asid).any fun e => (s.placeFor c.part c.num e.2).isSome

/-- CONTEXT_RESUME (R297, R310): a halted context goes on where it stands; a saved one's teams are placed again as cores can take them.
The resume of one that had faulted is its supervisor's. -/
def execContextResume (asid : Nat) (s : State) : Result := s.onCtx asid fun c =>
  if c.ladder.isSome then .fault .notDue
  else if s.dev.power != 0 || s.dev.entering.isSome then (if s.dev.exiting then .fault .notDue else .next (s.modDev fun d => { d with exiting := true }).idle)
  else if c.saved && c.faulted then .next (s.modCtx asid fun c => { c with faulted := false }).idle
  else if c.saved then
    if !s.runsNow c || !(s.someFits asid c || (s.savedTeams asid).isEmpty) then .fault .notDue else
    let s := (s.modCtx asid fun c => { c with saved := false, halted := false, preempting := false, raised := [] }).latchWords asid
    .next (((s.savedTeams asid).map (·.1)).foldl (State.placeSaved c.part c.num) s).powerEval.idle
  else if c.halted then
    if !c.interrupt then .fault .notDue else
    let s := (s.modCtx asid fun c => { c with halted := false, faulted := false, preempting := false, raised := [] }).latchWords asid
    .next ((s.residentOf asid).foldl (State.resumeTeam false) s).idle
  else if s.someFits asid c then .next (((s.savedTeams asid).map (·.1)).foldl (State.placeSaved c.part c.num) s).powerEval.idle
  else .fault .notDue

end Sys2Proof.Machine
end

