-- ==== Sys2Proof/Machine/PartitionEvents.lean ====
section
/-! DEFINITION. Events of partitions: creation, destruction and migration (R313, R314, R326, R327, R340), the HBM token buckets (R316) and
the time charts (R317). -/

namespace Sys2Proof.Machine

/-- Whether every element of a list is in another. -/
def within (a b : List Nat) : Bool := a.all b.contains
/-- Whether two lists have no element in common. -/
def apart (a b : List Nat) : Bool := a.all fun n => !b.contains n
/-- Whether a list names nothing twice. -/
def noRepeat (l : List Nat) : Bool := decide l.Nodup

/-- The other root partitions. -/
def State.otherRoots (s : State) (root : Nat) : List Partition := (s.org.parts.filter fun e => e.1 % 16 == 0 && e.1 != root).map (·.2)
/-- The children of a root, but one. -/
def State.siblings (s : State) (root but : Nat) : List Partition :=
  (s.org.parts.filter fun e => rootOf e.1 == root && e.1 % 16 != 0 && e.1 != but).map (·.2)

/-- The limits of Table 18.1 that hold for any request, and those of the number, the bucket and the Helm cores (R313, R314, R316). -/
def requestOk (r : PartReq) : Bool :=
  r.byHostOrRoot && decide (r.part / 16 < 8) && decide (r.part % 16 ≤ 8)
    && noRepeat (r.clusters ++ r.shared) && (r.clusters ++ r.shared).all (fun c => decide (c < 40))
    && noRepeat r.granules && r.granules.all (fun g => decide (g < 768)) && (r.dieLocal.all fun ds => ds.length == r.granules.length && ds.all fun d => decide (d < 4))
    && !r.colours.isEmpty && noRepeat r.colours && r.colours.all (fun c => decide (c < 16))
    && decide (1 ≤ r.rate) && decide (r.rate ≤ 65535) && decide (1 ≤ r.burst) && decide (r.burst ≤ 65535)
    && decide (1 ≤ r.contexts) && decide (r.contexts ≤ 16) && decide (r.queues ≤ 64)
    && decide (r.heapBytes + r.shadowBytes + r.saveBytes ≤ r.granules.length * 2 ^ 30)

/-- The limits of a root (R313, R314): its clusters and granules are its own, and its Helm cores are not Smilor's. Its colours are its own too, since
no partition's blocks occupy another's sets (R54, log 8). -/
def State.rootOk (s : State) (r : PartReq) : Bool :=
  let others := s.otherRoots r.part
  r.shared.isEmpty && others.all (fun p => apart r.clusters p.clusters && apart r.granules p.granules && apart r.helm p.helm && apart r.colours p.colours)
    && decide (others.foldl (fun n p => n + p.rate) r.rate ≤ 31457)
    && !r.helm.isEmpty && r.helm.all fun k => decide (k < 16) && k % 4 != 0

/-- The limits of a child: its budgets are drawn from its root's. -/
def State.childOk (s : State) (r : PartReq) : Bool :=
  match s.org.parts.find (rootOf r.part) with
  | none => false
  | some p =>
    let sib := s.siblings (rootOf r.part) r.part
    within (r.clusters ++ r.shared) p.clusters && sib.all (fun q => apart r.clusters (q.clusters ++ q.shared) && apart r.shared q.clusters)
      && within r.granules p.granules && sib.all (fun q => apart r.granules q.granules)
      && within r.colours p.colours && decide (sib.foldl (fun n q => n + q.rate) r.rate ≤ p.rate)

/-- The virtual functions that are assigned. -/
def State.vfsUsed (s : State) : Nat := (s.org.parts.filter fun e => e.2.vf).length

/-- The feature view (Table 18.7). -/
def featureView (r : PartReq) : List Word :=
  [0x09600001, BitVec.ofNat 32 (r.clusters ++ r.shared).length, BitVec.ofNat 32 r.granules.length,
    BitVec.ofNat 32 (r.colours.foldl (fun m c => m + 2 ^ c) 0), BitVec.ofNat 32 (r.queues * 256 + r.contexts), BitVec.ofNat 32 r.rate,
    r.features.setWidth 32] ++ List.replicate 9 0

/-- The stacks on which a partition has a granule (R52, R53). -/
def stacksOf (r : PartReq) : List Nat :=
  match r.dieLocal with
  | none => if r.granules.isEmpty then [] else List.range 16
  | some ds => (List.range 16).filter fun k => ds.contains (k / 4)

/-- Whether a request is for a virtual function: a root's always is (R340). -/
def wantsVf (r : PartReq) : Bool := r.part % 16 == 0 || r.wantVf

/-- The partition that a request makes: a child has its root's Helm cores (R313, R314, R326). -/
def State.newPart (s : State) (r : PartReq) : Partition :=
  { clusters := r.clusters, shared := r.shared, granules := r.granules, dieLocal := r.dieLocal, colours := r.colours, rate := r.rate,
    contexts := r.contexts, queues := r.queues, heapBytes := r.heapBytes, shadowBytes := r.shadowBytes,
    saveBytes := r.saveBytes, s2root := r.s2root, vf := wantsVf r, features := featureView r,
    helm := if r.part % 16 == 0 then r.helm else match s.org.parts.find (rootOf r.part) with | some p => p.helm | none => [] }

/-- Whether the stacks have room for the granules of the partition that a request makes, as it places them (R51, R53). -/
def State.placeable (s : State) (r : PartReq) : Bool := (s.modOrg fun o => { o with parts := o.parts.put r.part (s.newPart r) }).stacksFit

/-- PARTITION_CREATE (R314, R316, R326, R340): a request that would break a limit is refused, and nothing of it takes effect. The caches below the L1s are
emptied first, since the placement and the colours of the granules may change (log 8). -/
def execPartitionCreate (r : PartReq) (s : State) : Result :=
  let ok := s.dev.boot == .done && requestOk r && !s.org.parts.has r.part && (if r.part % 16 == 0 then s.rootOk r else s.childOk r)
    && (!(wantsVf r) || decide (s.vfsUsed < 63)) && s.placeable r
  if !ok then .next s.idle else
  let s := (s.emptyBelow r.granules).modOrg fun o => { o with parts := o.parts.put r.part (s.newPart r) }
  let s := s.modDev fun d => { d with parted := true }
  .next (s.modMem fun m => { m with buckets := (stacksOf r).foldl (fun b k => b.put (k * 256 + r.part) { rate := r.rate, burst := r.burst, tokens := 0 }) m.buckets }).idle

/-- Destroy one context outright. -/
def State.destroyCtx (s : State) (asid : Nat) : State :=
  (s.resetContext asid).modOrg fun o => { o with grids := o.grids.filter fun e => e.2.asid != asid, ctxs := o.ctxs.del asid,
                                                 usedAsids := asid :: o.usedAsids.filter (· != asid),
                                                 xlates := o.xlates.filter fun x => x.asid != asid }

/-- PARTITION_DESTROY (R314, R319, R340): its contexts go, its virtual function and budgets return, and no gate names it any more. A root
that has children is not destroyed. -/
def execPartitionDestroy (part : Nat) (s : State) : Result :=
  if !s.org.parts.has part || (part % 16 == 0 && !(s.siblings part part).isEmpty) then .next s.idle else
  let ctxs := (s.org.ctxs.filter fun e => e.2.part == part).map (·.1)
  let s := (ctxs.foldl State.destroyCtx s).emptyBelow ((s.org.parts.find part).getD {}).granules
  let named (e : BitVec 16) : Bool := (e.extractLsb' 8 7).toNat == part
  let s := s.modDev fun d => { d with gates := d.gates.map fun e => (e.1, { e.2 with acl := e.2.acl.map fun a => if named a then a &&& 0x7FFF else a }), windows := d.windows.filter fun w => w.part != part }
  let s := s.modMem fun m => { m with buckets := m.buckets.filter fun e => e.1 % 256 != part }
  .next (s.modOrg fun o => { o with parts := o.parts.del part, frames := o.frames.filter fun e => e.2.part != part }).idle

/-- TOKEN_BUCKET_REFILL (R316): every 1,024 clk each bucket adds its RATE, capped at BURST. -/
def execTokenBucketRefill (s : State) : Result :=
  if s.dev.clock < s.dev.lastRefill + 1024 then .fault .notDue else
  let add (b : Bucket) : Bucket := { b with tokens := min (b.burst : Int) (b.tokens + b.rate) }
  let s := s.modMem fun m => { m with buckets := m.buckets.map fun e => (e.1, add e.2) }
  .next (s.modDev fun d => { d with lastRefill := d.lastRefill + 1024 }).idle

/-! ### Time charts (R317) -/

/-- Whether a chart keeps to its limits: durations, their sum, clusters that the root owns, and each entry at least as long as the
DEADLINE of the context before it. -/
def State.chartOk (s : State) (root : Nat) (p : Partition) (c : Chart) : Bool :=
  let n := c.entries.length
  let dead (e : ChartEntry) : Nat := match (s.ctxAt root e).bind s.org.ctxs.find with | some x => x.deadline | none => 0
  let before (i : Nat) : Nat := match c.entries[(i + n - 1) % n]? with | some e => dead e | none => 0
  decide (1 ≤ n) && decide (n ≤ 64) && c.period == c.entries.foldl (fun t e => t + e.dur) 0
    && (c.entries.zipIdx).all (fun e => decide (4096 ≤ e.1.dur) && decide (before e.2 ≤ e.1.dur))
    && (List.range 40).all fun k => !c.clmask.getLsbD k || p.clusters.contains k

/-- Where a chart stands at a clk after its EPOCH: its entry, from 1 on, and the clk at which that entry ends. -/
def chartNow (es : List ChartEntry) (start now : Nat) : Nat → Nat × Nat
  | i => match es with
    | [] => (i, start)
    | e :: r => if now < start + e.dur then (i + 1, start + e.dur) else chartNow r (start + e.dur) now (i + 1)

/-- TIME_CHART_INSTALL (R317). -/
def execTimeChartInstall (root : Nat) (c : Chart) (s : State) : Result :=
  match s.org.parts.find root with
  | none => .next s.idle
  | some p =>
    if root % 16 != 0 || !s.chartOk root p c then .next s.idle else
    let now := s.dev.clock
    let (i, next) := if now < c.epoch then (0, c.epoch)
      else chartNow c.entries (now - (now - c.epoch) % c.period) now 0
    .next (s.modPart root fun p => { p with chart := some c, chartAt := i, nextTick := next }).idle

/-! ### Migration (R327) -/

/-- Save a context's resident teams for a move, as pre-emption does. -/
def State.saveForMove (s : State) (asid : Nat) : State :=
  if (s.residentOf asid).isEmpty then s else
  let s := s.halt asid none
  match s.org.ctxs.find asid with
  | none => s
  | some c =>
    let (ok, s) := s.saveWrites asid c
    if !ok then s else
    let s := s.writeStops asid c
    ((s.residentOf asid).foldl State.saveTeam (s.settleIf fun _ => true)).saved asid

/-- Whether a partition may move to clusters of the module: as many as its feature view shows for its own (Table 18.7). No cluster stands for another
module, where a root whose children hold clusters cannot go without them (log 67). -/
def State.moveOk (s : State) (part : Nat) (p : Partition) (cs : List Nat) : Bool :=
  noRepeat cs && cs.all (fun c => decide (c < 40)) && (cs.isEmpty || cs.length + p.shared.length == (p.features.getD 1 0).toNat)
    && if part % 16 == 0 then (s.otherRoots part).all (fun q => apart cs q.clusters) && (s.siblings part part).all fun q => within (q.clusters ++ q.shared) cs
       else match s.org.parts.find (rootOf part) with
        | some r => within cs r.clusters && (s.siblings (rootOf part) part).all (fun q => apart cs (q.clusters ++ q.shared)) && apart cs p.shared
        | none => false

/-- PARTITION_MIGRATE (R327): refused where the destination cannot present the feature view; else the contexts are saved, and placed again
on the new clusters; those of a partition that has gone to another module, the list being empty, are placed on none of this one, its shared clusters no more than its own. Its gate records stay, and
peers' GSIGs go on arriving at them. -/
def execPartitionMigrate (part : Nat) (clusters : List Nat) (features : List (BitVec 32)) (s : State) : Result :=
  match s.org.parts.find part with
  | none => .next s.idle
  | some p =>
    if features != p.features || !s.moveOk part p clusters then .next s.idle else
    let ctxs := (s.org.ctxs.filter fun e => e.2.part == part).map (·.1)
    .next ((ctxs.foldl State.saveForMove s).modPart part fun p => { p with clusters := clusters, shared := if clusters.isEmpty then [] else p.shared }).idle

end Sys2Proof.Machine
end

