-- ==== Sys2Proof/Machine/LoaderEvents.lean ====
section
/-! DEFINITION. The loader (R328 to R330, R332, R334), and the background translation of Draern Portable Form (R337). -/

namespace Sys2Proof.Machine

/-- A partial function over a list: none where it is none of some element. -/
def mapAll {α β : Type} (f : α → Option β) : List α → Option (List β)
  | [] => some []
  | a :: l => (f a).bind fun b => (mapAll f l).map (b :: ·)
/-- A fold of a partial function: none where a step of it is none. -/
def foldAll {α β : Type} (f : β → α → Option β) : β → List α → Option β
  | b, [] => some b
  | b, a :: l => (f b a).bind fun c => foldAll f c l

/-! ### The file (R328, Table 19.1)

The spec names the parts and their order; log 28 chooses the places of the fields within them. -/

/-- The 8-byte little-endian word at an offset of a file. -/
def fileWord (bs : List Byte) (o : Nat) : Nat := ((bs.drop o).take 8).foldr (fun b n => b.toNat + 256 * n) 0
/-- The offset and size of part k that the object header gives: section table, sections, symbols, relocations, global offset table,
string table. -/
def partAt (bs : List Byte) (k : Nat) : Nat × Nat := (fileWord bs (16 + 16 * k), fileWord bs (24 + 16 * k))
/-- The six parts. -/
def partsOf (bs : List Byte) : List (Nat × Nat) := (List.range 6).map (partAt bs)
/-- Whether the parts stand in order from an offset on, each at a 64-byte boundary and inside the file. -/
def partsInside (len : Nat) : Nat → List (Nat × Nat) → Bool
  | _, [] => true
  | o, (a, n) :: r => decide (o ≤ a) && a % 64 == 0 && decide (a + n ≤ len) && partsInside len (a + n) r
/-- Bytes as words, the last filled with zero. -/
def wordsOfBytes (bs : List Byte) : List Word := (List.range ((bs.length + 3) / 4)).map fun i => wordAt (bs ++ [0, 0, 0]) (4 * i)

/-- Section record j with its place: none where its bytes do not lie in the Sections part. -/
def sectionAt (bs : List Byte) (places : List CodePlace) (j : Nat) : Option ObjSection :=
  let o := (partAt bs 0).1 + 32 * j
  let (a, n) := partAt bs 1
  let (kind, align, size, at_) := (fileWord bs o, fileWord bs (o + 8), fileWord bs (o + 16), fileWord bs (o + 24))
  if kind != 4 && (at_ < a || a + n < at_ + size) then none else
  (places[j]?).map fun p =>
    { kind := kind, align := align, size := size, va := p.va, mapVa := p.mapVa, imageVa := p.imageVa, segVa := p.segVa
      words := if kind == 4 then [] else wordsOfBytes ((bs.drop at_).take size) }

/-- Symbol record j; it is undefined where it names no section. -/
def symbolAt (bs : List Byte) (sections j : Nat) : ObjSymbol :=
  let o := (partAt bs 2).1 + 32 * j
  let k := fileWord bs (o + 8)
  { sect := if k < sections then some k else none, value := fileWord bs (o + 16), header := fileWord bs (o + 24) == 0 }

/-- Relocation record j (R330); its reserved bits [31:16] are not looked at. -/
def relocAt (bs : List Byte) (j : Nat) : ObjReloc :=
  let o := (partAt bs 3).1 + 24 * j
  let w := fileWord bs (o + 8)
  { site := fileWord bs o, ty := w % 2 ^ 8, sect := w / 2 ^ 8 % 2 ^ 8, sym := w / 2 ^ 32, addend := BitVec.ofNat 64 (fileWord bs (o + 16)) }

/-- Read a code object's file: none where the tag or the version is another, or a part or a section lies outside the file (R329). -/
def readFile (f : CodeFile) : Option CodeObject :=
  let bs := f.bytes
  if fileWord bs 0 != 0x4F433036394E5244 || fileWord bs 8 != 1 || !partsInside bs.length 112 (partsOf bs) then none else
  let n := (partAt bs 0).2 / 32
  (mapAll (sectionAt bs f.places) (List.range n)).map fun ts =>
    { sections := ts, gotVa := f.gotVa
      symbols := (List.range ((partAt bs 2).2 / 32)).map (symbolAt bs n), relocs := (List.range ((partAt bs 3).2 / 24)).map (relocAt bs) }

/-! ### Relocation (R330, Table 19.2) -/

/-- The VA of a symbol, none where it is undefined. -/
def symVa (o : CodeObject) (n : Nat) : Option Word64 :=
  match o.symbols[n]? with
  | none => none
  | some y => y.sect.bind fun k => (o.sections[k]?).map fun t => BitVec.ofNat 64 (t.va + y.value)

/-- The symbols that GOT relocations name, rising; each has an 8-byte entry. -/
def gotSymbols (o : CodeObject) : List Nat := risingOf ((o.relocs.filter fun r => r.ty == 4 || r.ty == 5).map (·.sym))
/-- The VA of a symbol's GOT entry. -/
def gotVaOf (o : CodeObject) (n : Nat) : Word64 := BitVec.ofNat 64 (o.gotVa + 8 * (gotSymbols o).findIdx (· == n))

/-- The target form of an address relative to a site of code (R43, R336): none where it is no PC of the code form or lies out of reach. -/
def targetForm (kind : Nat) (site target : Word64) : Option (BitVec 20) :=
  if kind == 1 then
    let d := (target - site).toInt
    if d % 4 != 0 || d / 4 < -2 ^ 19 || 2 ^ 19 ≤ d / 4 then none else some (BitVec.ofInt 20 (d / 4))
  else
    let d := ((lineVa target) - (lineVa site)).toInt / 64
    if !pcForm target || d < -2 ^ 16 || 2 ^ 16 ≤ d then none else some (BitVec.ofInt 20 (d * 8 + slotNo target))

/-- Apply one relocation to a section's words: none where it is rejected. A code site's IMM is its third word. -/
def applyReloc (o : CodeObject) (r : ObjReloc) (t : ObjSection) : Option ObjSection :=
  match symVa o r.sym with
  | none => none
  | some y =>
    let sa := y + r.addend
    let code := t.kind ≤ 1
    let imm := r.site / 4 + if code then 2 else 0
    let put (w : Word) : Option ObjSection := if r.site % 4 != 0 || t.words.length ≤ imm then none else some { t with words := t.words.set imm w }
    match r.ty with
    | 1 => put (sa.extractLsb' 0 32)
    | 2 => put (sa.extractLsb' 32 32)
    | 3 => if !code then none else (targetForm t.kind (BitVec.ofNat 64 (t.va + r.site)) sa).bind fun f => put ((t.words.getD imm 0).extractLsb' 20 12 ++ f)
    | 4 => put ((gotVaOf o r.sym).extractLsb' 0 32)
    | 5 => put ((gotVaOf o r.sym).extractLsb' 32 32)
    | 6 =>
      let k := r.site / 4
      if r.site % 8 != 0 || t.words.length < k + 2 then none
      else some { t with words := (t.words.set k (sa.extractLsb' 0 32)).set (k + 1) (sa.extractLsb' 32 32) }
    | _ => none

/-- Apply every relocation, in order. -/
def applyRelocs (o : CodeObject) : List ObjReloc → List ObjSection → Option (List ObjSection)
  | [], ts => some ts
  | r :: rs, ts =>
    match (ts[r.sect]?).bind (applyReloc o r) with
    | some t => applyRelocs o rs (ts.set r.sect t)
    | none => none

/-! ### Fetch lines in storage (R22, R334) -/

/-- The parity of a word. -/
def parity32 (w : Word) : Bool := parityOf 32 w.getLsbD
/-- A line of 16 words with the parities of R22 made again, as a relocated instruction needs them. -/
def reparity (ws : List Word) : List Word :=
  let slot (j : Nat) : Bool := ((List.range 3).map fun i => parity32 (ws.getD (3 * j + i) 0)).foldl (fun a b => a != b) false
  let w := (ws.getD 15 0) &&& 0x03FFFFFF
  let w := (List.range 5).foldl (fun w j => if slot j then w ||| (1#32 <<< (26 + j)) else w) w
  ws.take 15 ++ [if parity32 w then w ||| 0x80000000 else w]

/-- Words cut into groups of 16, the last filled with zero. -/
def linesOf (ws : List Word) : List (List Word) := (List.range ((ws.length + 15) / 16)).map fun i => ((ws ++ List.replicate 15 0).drop (16 * i)).take 16
/-- Relocated native text: the lines that a relocation changed have their parities made again. -/
def mendLines (old new : List Word) : List Word := ((linesOf old).zip (linesOf new)).flatMap fun (a, b) => if a == b then b else reparity b

/-- The compressed block of a line (R334); an all-zero line has none. -/
def blockOf (ws : List Word) : List Byte :=
  if ws.all (· == 0) then [] else
  let m : BitVec 16 := (List.range 16).foldl (fun m i => if ws.getD i 0 == 0 then m ||| (1#16 <<< i) else m) 0
  [m.extractLsb' 0 8, m.extractLsb' 8 8] ++ (ws.filter (· != 0)).flatMap bytesOf

/-- The image and the line address translation table of native text (R334). -/
def compressText (ls : List (List Word)) : List Byte × List Word :=
  ls.foldl (fun a l =>
    let b := blockOf l
    (a.1 ++ b, a.2 ++ [BitVec.ofNat 32 (a.1.length / 2 * 128 + b.length)])) ([], [])

/-- The eight words of a segment descriptor (Table 19.4). -/
def segWords (textbase map image count : Nat) : List Word :=
  [0, w32 count, w32 image, w32 (image / 2 ^ 32), w32 map, w32 (map / 2 ^ 32), w32 textbase, w32 (textbase / 2 ^ 32)]

/-! ### Loading (R329) -/

/-- The words of a section as they are placed. -/
def sectionWords (t : ObjSection) : List Word := if t.kind == 4 then List.replicate ((t.size + 3) / 4) 0 else t.words

/-- Whether a kernel header in an object's data is valid (R332). -/
def headerOk (ts : List ObjSection) (y : ObjSymbol) : Bool :=
  match y.sect.bind fun k => ts[k]? with
  | none => false
  | some t =>
    let ws := (sectionWords t).drop (y.value / 4)
    (t.va + y.value) % 64 == 0 && decide (32 ≤ ws.length) && (badHeader (ws.take 32)).isNone

/-- The segment that a kernel header runs in: the text section that holds its execute entry and has a segment descriptor (R331, R333). -/
def segmentOf (ts : List ObjSection) (exec : Nat) : Option Nat :=
  (ts.find? fun t => decide (t.kind ≤ 1) && t.segVa != 0 && decide (t.va ≤ exec) && decide (exec < t.va + t.size)).map (·.segVa)

/-- Fill the SEGDESC of the kernel header at a symbol (R329, R361): the loader writes the address of the descriptor. -/
def fillHeader (ts : List ObjSection) (y : ObjSymbol) : List ObjSection :=
  match y.sect with
  | none => ts
  | some k => ts.modify k fun t =>
    let at_ (i : Nat) : Nat := ((sectionWords t).getD (y.value / 4 + i) 0).toNat
    match segmentOf ts (at_ 20 + 2 ^ 32 * at_ 21) with
    | some va => { t with words := ((t.words.set (y.value / 4 + 26) (BitVec.ofNat 32 va)).set (y.value / 4 + 27) (BitVec.ofNat 32 (va / 2 ^ 32))) }
    | none => t

/-- The sections of an object that passes the loader's checks, relocated: none where it is rejected (R329). -/
def loadedSections (o : CodeObject) : Option (List ObjSection) :=
  if (List.range o.symbols.length).any (fun n => (symVa o n).isNone) then none
  else if o.sections.any fun t => 4 < t.kind || t.va % Nat.max 1 t.align != 0 then none
  else match applyRelocs o o.relocs o.sections with
    | none => none
    | some ts =>
      let ts := (o.sections.zip ts).map fun (a, b) => if a.kind == 0 then { b with words := mendLines a.words b.words } else b
      let ts := (o.symbols.filter (·.header)).foldl fillHeader ts
      if (o.symbols.filter (·.header)).all (headerOk ts) then some ts else none

/-- Write words at a VA of a context, as the loader does: at their home slices, whatever rights the page gives; none where a page is
not mapped (log 28). -/
def State.loadWords (asid va : Nat) (ws : List Word) (s : State) : Option State :=
  match s.writeVa dieCache asid (BitVec.ofNat 64 va) (ws.map TWord.fresh) 0 with
  | (.ok _, s) => some s
  | (.error _, _) => none

/-- Write bytes from a 2-byte-aligned VA on; the other half of the first and of the last word stays as it is (R333). -/
def State.loadHalves (asid va : Nat) (bs : List Byte) (s : State) : Option State :=
  let word (a : Nat) : List Byte := match (s.readVa dieCache asid (BitVec.ofNat 64 (a / 4 * 4)) 0 1).1 with
    | .ok (t :: _) => bytesOf t.data
    | _ => [0, 0, 0, 0]
  let bs := (word va).take (va % 4) ++ bs ++ if (va + bs.length) % 4 = 0 then [] else (word (va + bs.length)).drop ((va + bs.length) % 4)
  s.loadWords asid (va / 4 * 4) (wordsOfBytes bs)

/-- Place one section as it stands (R329, step 1). Native text that runs compressed needs no mapping of its own range (R333). -/
def State.placeSection (asid : Nat) (s : State) (t : ObjSection) : Option State :=
  match s.loadWords asid t.va (sectionWords t) with
  | some s => some s
  | none => if t.kind == 0 && t.segVa != 0 then some s else none
/-- Fill the GOT entry of a symbol (step 2). -/
def State.placeGot (asid : Nat) (o : CodeObject) (s : State) (n : Nat) : Option State :=
  (symVa o n).bind fun y => s.loadWords asid (gotVaOf o n).toNat [lo y, hi y]
/-- Write a native text section's image and line address translation table (step 4, R334). -/
def State.placeImage (asid : Nat) (s : State) (t : ObjSection) : Option State :=
  if t.kind != 0 then some s else
  let (img, lat) := compressText (linesOf t.words)
  (s.loadHalves asid t.imageVa img).bind (State.loadWords asid t.mapVa lat)
/-- Write a text section's segment descriptor (step 5, R333). -/
def State.placeSegment (asid : Nat) (s : State) (t : ObjSection) : Option State :=
  if t.segVa == 0 || 1 < t.kind then some s
  else if t.kind == 0 then s.loadWords asid t.segVa (segWords t.va t.mapVa t.imageVa (linesOf t.words).length)
  else s.loadWords asid t.segVa (segWords t.va t.mapVa 0 t.words.length)

/-- The loader's steps over an object that passed its checks, in R329's order; every word stands at its home slice when they end, as
the fence of step 6 requires. -/
def State.placeObject (asid : Nat) (o : CodeObject) (ts : List ObjSection) (s : State) : Option State :=
  ((((foldAll (State.placeSection asid) s ts).bind fun s => foldAll (State.placeGot asid o) s (gotSymbols o)).bind
    fun s => foldAll (State.placeImage asid) s ts).bind fun s => foldAll (State.placeSegment asid) s ts)

/-- The state after the loader has placed an object's file: none where it rejects the object (R329). -/
def State.loadFile (asid : Nat) (f : CodeFile) (s : State) : Option State :=
  (readFile f).bind fun o => (loadedSections o).bind fun ts => s.placeObject asid o ts

/-- LOAD_CODE_OBJECT (R329, log 28): a rejected object changes nothing. -/
def execLoadCodeObject (asid : Nat) (o : CodeFile) (s : State) : Result :=
  if s.org.ctxs.has asid then .next ((s.loadFile asid o).getD s).idle else .next s.idle

/-! ### Background translation (R337) -/

/-- Whether DPF text holds a BRX, a CALLX or a PGO, from a syllable on (R335). -/
def holdsIndirect : Nat → List Word → Bool
  | 0, _ => false
  | f + 1, ws => match ws with
    | [] => false
    | w :: _ =>
      let opc := w.extractLsb' 21 9
      opc == 0x1C2 || opc == 0x1C4 || opc == 0x148 || holdsIndirect f (ws.drop (if w.getLsbD 30 then 3 else 2))

/-- The PCs of the instructions after a trailer, CALL or LOOP, from a syllable on (R337). -/
def pcsAfter : Nat → Word64 → List Word → List Word64
  | 0, _, _ => []
  | f + 1, pc, ws => match ws with
    | [] => []
    | w :: _ =>
      let n := if w.getLsbD 30 then 3 else 2
      let rest := pcsAfter f (pc + BitVec.ofNat 64 (4 * n)) (ws.drop n)
      match decodeDpf .core w (ws.getD 1 0) (ws.getD 2 0) with
      | some (.ok i) => if (isTrailer i || match i with | .loop .. => true | _ => false) && decide (n < ws.length) then (pc + BitVec.ofNat 64 (4 * n)) :: rest else rest
      | _ => rest

/-- The PCs of the syllables that a target map names (R336): bit s of its byte s / 8 stands for syllable s. -/
def mapTargets (d : SegDesc) (map : List Word) : List Word64 :=
  ((List.range d.count).filter fun n =>
      let b := 8 * (d.map.toNat % 4) + n
      (map.getD (b / 32) 0).getLsbD (b % 32)).map fun n => d.textbase + BitVec.ofNat 64 (4 * n)

/-- The PCs that a kernel's PC map must hold (R337): its entries, the target-map syllables, and the instructions after a trailer, CALL or LOOP. -/
def mapNeeds (h : KHeader) (d : SegDesc) (map text : List Word) : List Word64 :=
  [h.execent, h.pilotent, h.trapent].filter (· != 0) ++ mapTargets d map ++ pcsAfter d.count d.textbase text

/-- Whether a translation's map holds a DPF PC. -/
def Xlate.has (x : Xlate) (p : Word64) : Bool := x.pcs.any fun e => e.1 == p

/-- DPF_TRANSLATION (R337, log 29): Smilor's translator installs a native segment and its PC map for a DPF kernel that has been
dispatched, whose NOXLATE is clear, and that holds no BRX, CALLX or PGO; the map holds every PC that R337 names. -/
def execDpfTranslation (asid : Nat) (header seg : Word64) (pcs : List (Word64 × Word64)) (s : State) : Result :=
  match s.org.grids.find? fun e => e.2.asid == asid && e.2.khdr == header && e.2.dispatched != 0 with
  | none => .next s.idle
  | some (_, g) =>
    if g.hdr.form != 1 || g.hdr.noxlate || (s.xlateOf asid header).isSome then .next s.idle else
    let (d, s) := s.readSeg asid g.hdr.segdesc
    match s.readChecked dieCache none asid d.textbase d.count with
    | (.error _, s) => .next s.idle
    | (.ok ws, s) =>
      if holdsIndirect d.count ws then .next s.idle else
      match s.readChecked dieCache none asid (d.map &&& ~~~3#64) ((8 * (d.map.toNat % 4) + d.count + 31) / 32) with
      | (.error _, s) => .next s.idle
      | (.ok map, s) =>
        let x : Xlate := { asid := asid, header := header, seg := seg, text := d.textbase.toNat, size := 4 * d.count, pcs := pcs }
        if (mapNeeds g.hdr d map ws).all x.has && pcs.all (fun e => pcForm e.2) then .next (s.modOrg fun o => { o with xlates := o.xlates ++ [x] }).idle
        else .next s.idle

/-- A strand through a translation's map. -/
def Xlate.strand (x : Xlate) (t : Strand) : Strand :=
  { t with rets := t.rets.map x.pc, loops := t.loops.map fun l => { l with start := x.pc l.start } }
/-- A split through a translation's map. -/
def Xlate.split (x : Xlate) (sp : Split) : Split :=
  { sp with pc := x.pc sp.pc, st := match sp.st with
      | .filing t => .filing (x.pc t)
      | .parked (.joinw a p d t) => .parked (.joinw (x.pc a) p d t)
      | .parked (.asking id n h th t d) => .parked (.asking id (x.pc n) h th t d)
      | st => st }
/-- A group through a translation's map. -/
def Xlate.group (x : Xlate) (g : Group) : Group :=
  { g with splits := g.splits.map x.split, epc := x.pc g.epc, held := g.held.map fun h => { h with epc := x.pc h.epc } }
/-- A bin through a translation's map. -/
def Xlate.bin (x : Xlate) (b : Bin) : Bin := { b with pc := x.pc b.pc }
/-- A checkpoint through a translation's map. -/
def Xlate.checkpoint (x : Xlate) (c : Checkpoint) : Checkpoint :=
  { c with strands := c.strands.map (fun e => (e.1, x.strand e.2)), groups := c.groups.map (fun e => (e.1, x.group e.2))
           bins := c.bins.map fun e => (e.1, x.bin e.2) }

/-- The PCs that a swap replaces in a split. -/
def Split.pcs (sp : Split) : List Word64 :=
  sp.pc :: match sp.st with
    | .filing t => [t]
    | .parked (.joinw a _ _ _) => [a]
    | .parked (.asking _ n _ _ _ _) => [n]
    | _ => []
/-- The PCs that a swap replaces in a checkpoint. -/
def Checkpoint.pcs (c : Checkpoint) : List Word64 :=
  c.strands.flatMap (fun e => e.2.rets ++ e.2.loops.map (·.start)) ++ c.groups.flatMap (fun e => e.2.splits.flatMap Split.pcs) ++ c.bins.map (·.2.pc)

/-- Whether a team may be swapped (R337): no group of it within a run or in handler mode, and the team not saved. -/
def State.maySwap (s : State) (k : Nat) (t : Team) : Bool :=
  !t.saved && !t.inNative
    && s.ex.groups.all fun e => e.2.team != k || (!s.ex.specs.has e.1 && !e.2.hm && e.2.saved.isNone && e.2.splits.all fun sp => sp.st != .running && sp.cont.isNone)

/-- TRANSLATION_SWAP (R337): every PC of the team goes through the map, and it runs natively from then on; a team that holds a PC that the map
need not hold, such as that of a JOINW where a strand waits, is swapped once it holds none (log 29). -/
def execTranslationSwap (core team : Nat) (s : State) : Result :=
  match s.ex.teams.find team with
  | none => .fault .notDue
  | some t =>
    match s.org.grids.find t.grid with
    | none => .fault .notDue
    | some g =>
      match s.xlateOf g.asid g.khdr with
      | none => .fault .notDue
      | some x =>
        if t.core != core || !s.maySwap team t || !((s.checkpointOf team t).pcs ++ t.cp.pcs).all x.has then .fault .notDue else
        let (d, s) := s.readSeg g.asid x.seg
        let s := s.modEx fun e => { e with
          strands := e.strands.map (fun p => (p.1, if p.1 / 2048 == team then x.strand p.2 else p.2))
          groups := e.groups.map (fun p => (p.1, if p.2.team == team then x.group p.2 else p.2))
          bins := e.bins.map fun p => (p.1, if p.2.team == team then x.bin p.2 else p.2) }
        .next (s.modTeam team fun t => { t with inNative := true, seg := some d, trapent := if t.trapent == 0 then 0 else x.pc t.trapent,
                                                lateBins := t.lateBins.map x.bin, cp := x.checkpoint t.cp }).idle

end Sys2Proof.Machine
end

