-- ==== Sys2Proof/Machine/HostEvents.lean ====
section
/-! DEFINITION. The host interface (R84, R340 to R344): host channels and their commands, direct reads and writes of device memory, and the
function-level reset. -/

namespace Sys2Proof.Machine

/-! ### Ingress and egress lanes (R84) -/

/-- Write host words into device memory: they get fresh codes. Whether every word could be written. -/
def State.ingress (s : State) (asid : Nat) (va : Word64) (ws : List Word) : Bool × State :=
  match s.writeVa dieCache asid va (ws.map TWord.fresh) with
  | (.ok _, s) => (true, s)
  | (.error _, s) => (false, s)

/-- Read n words for the host: the words, whether a translation failed, and whether a check failed, which is recorded. -/
def State.egress (s : State) (asid : Nat) (va : Word64) : Nat → (List Word × Bool × Bool) × State
  | 0 => (([], false, false), s)
  | n + 1 =>
    match s.translate dieCache asid va rRD with
    | (.error _, s) => (([], true, false), s)
    | (.ok e, s) =>
      let pa := e.paOf (va57 va)
      let (t, s) := s.sliceRead pa asid
      let part := match s.org.ctxs.find asid with | some c => c.part | none => 0
      let bad := t.judge.isSome
      let s := if bad then s.writeRecordOf (s.ownerNum pa) { errRec 10 1 0 (s.homeSlice pa) (pa / 256 * 256) asid part 0 0 with time := s.dev.clock } else s
      let ((ws, f, b), s) := s.egress asid (va + 4) n
      ((t.data :: ws, f, bad || b), s)

/-- Keep what the egress lanes have answered. -/
def State.hostRead (s : State) (part : Nat) (ws : List Word) (bad : Bool) : State :=
  s.modPart part fun p => { p with hostReads := p.hostReads ++ [(ws, bad)] }

/-- Whether the host reaches a context: its partition has a virtual function (R340). -/
def State.hostReaches (s : State) (asid : Nat) : Bool := (s.org.ctxs.find asid).any fun c => s.hasVf c.part

/-- HOST_INGRESS_WRITE (R84, R340): nothing for a partition without a virtual function. -/
def execHostIngressWrite (asid : Nat) (va : Word64) (words : List (BitVec 32)) (s : State) : Result :=
  if !s.hostReaches asid then .next s.idle else .next (s.ingress asid va words).2.idle

/-- HOST_EGRESS_READ (R84, R340): a failed check raises no fault, and the data is returned; nothing for a partition without a virtual function. -/
def execHostEgressRead (asid : Nat) (va : Word64) (count : Nat) (s : State) : Result :=
  if !s.hostReaches asid then .next s.idle else
  let ((ws, _, bad), t) := s.egress asid va count
  .next (match s.org.ctxs.find asid with | some c => t.hostRead c.part ws bad | none => t).idle

/-! ### Channel registers (R341, R342, R344) -/

/-- The commands that are pending. -/
def Channel.pending (c : Channel) : Nat := (c.cmdtail - c.cmdhead).toNat
/-- Whether the completion ring is full. -/
def Channel.cplFull (c : Channel) : Bool := (c.cpltail - c.cplhead).toNat == c.ring

/-- CMDTAIL_WRITE (R342). -/
def execCmdtailWrite (part ch : Nat) (v : BitVec 32) (s : State) : Result :=
  if !s.hasVf part then .next s.idle else
  .next (s.modChannel part ch fun c => c.putTail v).idle
/-- CPLHEAD_WRITE (R342). -/
def execCplheadWrite (part ch : Nat) (v : BitVec 32) (s : State) : Result :=
  if !s.hasVf part then .next s.idle else .next (s.modChannel part ch fun c => c.putHead v).idle
/-- CHANNEL_ENABLE (R344): the channel runs on at the retained sequences. -/
def execChannelEnable (part ch : Nat) (s : State) : Result :=
  if !s.hasVf part then .next s.idle else .next (s.modChannel part ch fun c => { c with en := true }).idle

/-! ### Commands (R342, R343) -/

/-- A command entry (R343). -/
structure Command where
  kind : Nat
  va : Word64
  bus : Nat
  bytes : Nat
  queue : Nat
  bad : Bool
deriving Repr

/-- The fields of an entry's 16 words; a word that must be zero and is not, a KIND of no command, or a bad count makes it bad. -/
def parseCommand (ws : List Word) : Command :=
  let w (i : Nat) : Word := ws.getD i 0
  let n := (w 6).toNat
  { kind := (w 1).toNat, va := w 3 ++ w 2, bus := (w 5 ++ w 4).toNat, bytes := n, queue := (w 7).toNat
    bad := (List.range 8).any (fun i => w (8 + i) != 0) || 3 < (w 1).toNat || (2 ≤ (w 1).toNat && (n % 4 != 0 || 2 ^ 24 < n)) }

/-- A fault of a ring access: ERR is set, EN clears. -/
def State.channelFault (s : State) (part ch : Nat) (bit : BitVec 4) : State :=
  s.modChannel part ch fun c => { c with err := c.err ||| bit, en := false }

/-- Write a completion (R342, R343); a failed write leaves CPLTAIL. -/
def State.complete (s : State) (part ch : Nat) (seq : Word) (status err : Nat) (wrOk : Bool) : State :=
  if !wrOk then s.channelFault part ch 4 else
  let c := s.channel part ch
  let at_ := c.cplbase.toNat + 64 * (c.cpltail.toNat % c.ring)
  let s := s.modPart part fun p => { p with hostWrites := p.hostWrites ++ [(at_, [c.cpltail, seq, w32 status, w32 err] ++ List.replicate 12 0)] }
  s.modChannel part ch fun c => { c with cpltail := c.cpltail + 1 }

/-- What a command does: status and, for kind 1, the ERR value. -/
def State.command (s : State) (part ch : Nat) (c : Command) (data : List Word) (dataOk : Bool) : (Nat × Nat) × State :=
  if c.bad then ((1, 0), s) else
  let ctx := s.ctxOf part ch
  match c.kind, ctx with
  | 0, _ => ((0, 0), s)
  | 1, _ =>
    if !s.hasQueue part c.queue then ((1, 5), s) else
    let (e, s) := s.submit part c.queue ctx c.va
    ((if e == 0 then 0 else 1, e.toNat), s)
  | 2, some asid =>
    if !dataOk then ((4, 0), s) else
    let (ok, s) := s.ingress asid c.va data
    ((if ok then 0 else 3, 0), s)
  | 3, some asid =>
    let ((ws, miss, bad), s) := s.egress asid c.va (c.bytes / 4)
    if miss then ((3, 0), s)
    else if !dataOk then ((4, 0), s)
    else ((if bad then 2 else 0, 0), s.modPart part fun p => { p with hostWrites := p.hostWrites ++ [(c.bus, ws)] })
  | _, none => ((3, 0), s)
  | _, _ => ((1, 0), s)

/-- The bus address of the slot that holds the next command (R341). -/
def Channel.cmdSlot (c : Channel) : Nat := c.cmdbase.toNat + 64 * (c.cmdhead.toNat % c.ring)

/-- Whether a DMA answers a read of so many words at a bus address. -/
def dmaAnswers (d : HostDma) (bus n : Nat) : Bool := d.bus == bus && (!d.ok || d.words.length == n)

/-- Consume the next command (R342): its slot is read, CMDHEAD advances, the command is performed, and its completion is written. The
event stands for entries that a test selects, and for what the host answers to the reads that the device makes. -/
def State.runCommand (s : State) (part ch : Nat) (rd : HostDma) (data : List Word) (dataOk wrOk : Bool) (mine : Command → Bool) : Result :=
  let c := s.channel part ch
  if !c.en || c.pending = 0 || c.cplFull || !s.hasVf part || !(dmaAnswers rd c.cmdSlot 16) then .fault .notDue
  else if !rd.ok then .next (s.channelFault part ch 4).idle
  else if rd.words.getD 0 0 != c.cmdhead then .next (s.channelFault part ch 1).idle
  else
    let cmd := parseCommand rd.words
    if !mine cmd then .fault .notDue else
    let s := s.modChannel part ch fun c => { c with cmdhead := c.cmdhead + 1 }
    let ((status, err), s) := s.command part ch cmd data dataOk
    .next (s.complete part ch c.cmdhead status err wrOk).idle

/-- HOST_CMD_NOP (R343): KIND 0; an entry that is refused as it stands completes in the same way, with status 1. -/
def execHostCmdNop (part ch : Nat) (rd : HostDma) (wrOk : Bool) (s : State) : Result :=
  s.runCommand part ch rd [] true wrOk fun c => c.bad || c.kind == 0
/-- HOST_CMD_SUBMIT (R343). -/
def execHostCmdSubmit (part ch : Nat) (rd : HostDma) (wrOk : Bool) (s : State) : Result :=
  s.runCommand part ch rd [] true wrOk fun c => !c.bad && c.kind == 1
/-- HOST_CMD_COPY_TO_DEVICE (R343, R84): the words come from the entry's host bus address. -/
def execHostCmdCopyToDevice (part ch : Nat) (rd data : HostDma) (wrOk : Bool) (s : State) : Result :=
  s.runCommand part ch rd data.words data.ok wrOk fun c => !c.bad && c.kind == 2 && dmaAnswers data c.bus (c.bytes / 4)
/-- HOST_CMD_COPY_TO_HOST (R343, R84). -/
def execHostCmdCopyToHost (part ch : Nat) (rd : HostDma) (dataOk wrOk : Bool) (s : State) : Result :=
  s.runCommand part ch rd [] dataOk wrOk fun c => !c.bad && c.kind == 3

/-- FUNCTION_LEVEL_RESET (R340, R344): every context of the partition is reset, and every channel's EN clears. -/
def execFunctionLevelReset (part : Nat) (s : State) : Result :=
  if !s.hasVf part then .next s.idle else
  let ctxs := (s.org.ctxs.filter fun e => e.2.part == part).map (·.1)
  .next ((ctxs.foldl State.resetContext s).modPart part fun p => { p with channels := p.channels.map fun e => (e.1, { e.2 with en := false }) }).idle

end Sys2Proof.Machine
end

