-- ==== Sys2Proof/Machine/Sha3.lean ====
section
/-! DEFINITION. SHA3-512 (R348 names it and does not define it: PRESUMED from FIPS 202, log 19). -/

namespace Sys2Proof

/-- Lane (x, y) of a Keccak state. -/
def lane (a : List (BitVec 64)) (x y : Nat) : BitVec 64 := a.getD (x % 5 + 5 * (y % 5)) 0
/-- A Keccak state from a function of (x, y). -/
def lanesFrom (f : Nat → Nat → BitVec 64) : List (BitVec 64) := (List.range 25).map fun i => f (i % 5) (i / 5)

/-- The rotation of each lane. -/
def rhoOffsets : List Nat := [0, 1, 62, 28, 27, 36, 44, 6, 55, 20, 3, 10, 43, 25, 39, 41, 45, 15, 21, 8, 18, 2, 61, 56, 14]
/-- The round constants. -/
def roundConsts : List (BitVec 64) :=
  [0x1, 0x8082, 0x800000000000808A, 0x8000000080008000, 0x808B, 0x80000001, 0x8000000080008081, 0x8000000000008009, 0x8A, 0x88,
    0x80008009, 0x8000000A, 0x8000808B, 0x800000000000008B, 0x8000000000008089, 0x8000000000008003, 0x8000000000008002,
    0x8000000000000080, 0x800A, 0x800000008000000A, 0x8000000080008081, 0x8000000000008080, 0x80000001, 0x8000000080008008]

/-- One round of Keccak-f[1600]. -/
def keccakRound (a : List (BitVec 64)) (rc : BitVec 64) : List (BitVec 64) :=
  let c := (List.range 5).map fun x => lane a x 0 ^^^ lane a x 1 ^^^ lane a x 2 ^^^ lane a x 3 ^^^ lane a x 4
  let d (x : Nat) : BitVec 64 := c.getD ((x + 4) % 5) 0 ^^^ (c.getD ((x + 1) % 5) 0).rotateLeft 1
  let t := lanesFrom fun x y => (lane a x y ^^^ d x).rotateLeft (rhoOffsets.getD (x + 5 * y) 0)
  let b := lanesFrom fun x y => lane t (x + 3 * y) x
  let e := lanesFrom fun x y => lane b x y ^^^ (~~~(lane b (x + 1) y) &&& lane b (x + 2) y)
  match e with
  | h :: r => (h ^^^ rc) :: r
  | [] => []

/-- The 64-bit lane of eight bytes, the first lowest. -/
def laneOf (bs : List Byte) (i : Nat) : BitVec 64 :=
  (List.range 8).foldl (fun v k => v ||| ((bs.getD (8 * i + k) 0).setWidth 64 <<< (8 * k))) 0

/-- Absorb blocks of 72 bytes. -/
def absorb : Nat → List Byte → List (BitVec 64) → List (BitVec 64)
  | 0, _, a => a
  | n + 1, bs, a =>
    let x := (a.zipIdx).map fun e => if e.2 < 9 then e.1 ^^^ laneOf bs e.2 else e.1
    absorb n (bs.drop 72) (roundConsts.foldl keccakRound x)

/-- Pad to a whole number of blocks: 0x06, zeros, and the top bit of the last byte. -/
def pad72 (m : List Byte) : List Byte :=
  let z := 71 - m.length % 72
  if z = 0 then m ++ [0x86] else m ++ [0x06] ++ List.replicate (z - 1) 0 ++ [0x80]

/-- SHA3-512. -/
def sha3 (m : List Byte) : List Byte :=
  let p := pad72 m
  let a := absorb (p.length / 72) p (List.replicate 25 0)
  (List.range 64).map fun i => (a.getD (i / 8) 0).extractLsb' (8 * (i % 8)) 8

end Sys2Proof
end

