-- ==== Sys2Proof/Machine/BootEvents.lean ====
section
/-! DEFINITION. Draern Link (R345, R346), boot, measurement and attestation (R348, R349), and the power states (R350, R351). -/

namespace Sys2Proof.Machine

/-! ### Draern Link -/

/-- A link port; the module has 12. -/
def State.port (s : State) (n : Nat) : Port := AMap.get {} s.dev.ports n
/-- Change a port. -/
def State.modPort (s : State) (n : Nat) (f : Port → Port) : State := if n < 12 then s.modDev fun d => { d with ports := d.ports.put n (f (s.port n)) } else s

/-- The next lower rate. -/
def slower (r : Nat) : Nat := if r = 112 then 80 else 56
/-- The next higher rate. -/
def faster (r : Nat) : Nat := if r = 56 then 80 else 112

/-- A port pauses for a retrain at a rate (R346). -/
def Port.retrain (p : Port) (rate now : Nat) : Port := { p with rate := rate, retraining := true, retrainAt := now + 50000 }

/-- Perform what a peer's window carries here (R347): an access at the home slice of its word, a gate operation at its gate unit. What lies outside HBM is
no access of this module. -/
def State.peerOp (port : Nat) (s : State) (o : PeerOp) : State :=
  match o with
  | .read pa n =>
    if hbmEnd < pa + 4 * n then s else
    let (ws, s) := s.sliceReads pa 0 n
    s.sendPeer port (.words ws)
  | .write pa w code mark =>
    if hbmEnd < pa + 4 then s else s.sliceWrite pa 0 { data := w, code := code, mark := mark }
  | .atomic pa op ty data ret =>
    let n := data.length / (if op == .cas then 2 else 1)
    if hbmEnd < pa + 4 * n then s else
    let (old, s) := s.sliceReads pa 0 n
    let s := match judgeWords old, atomResult op ty (old.map (·.data)) data with
      | none, some ws => (ws.zipIdx).foldl (fun s e => s.sliceWrite (pa + 4 * e.2) 0 (TWord.fresh e.1)) s
      | _, _ => s
    if ret then s.sendPeer port (.words old) else s
  | .gate h part right a => s.sendGate (gateIndex h) (peerKey port) (.ask h part right a 0)

/-- LINK_FLIT_RECEIVE (R345 to R347): the next flit in sequence is delivered, and what it carries is performed; one that fails its CRC, or that follows a lost one, asks for a
replay; a repeated one is dropped; what it acknowledges makes room for what waits to be sent. A port at 56 Gb/s whose FEC fails reports a link-down to Smilor. A paused port receives nothing. -/
def execLinkFlitReceive (port : Nat) (f : Flit) (s : State) : Result :=
  let p := s.port port
  if 12 ≤ port || p.retraining || p.down then .next s.idle
  else if f.fecFailed && p.rate == 56 then
    let s := s.modPort port fun p => { p with down := true }
    .next (s.modDev fun d => { d with helm := d.helm.put 0 { AMap.get {} d.helm 0 with linkDown := (AMap.get {} d.helm 0).linkDown ++ [port] } }).idle
  else
    let s := s.modPort port fun p => { p with corrected := p.corrected + f.fecFixed }
    if f.fecFailed || !flitOk f then .next (s.modPort port fun p => { p with nak := true }.control port 2).idle
    else
      let t := s.modPort port fun p => p.take port f
      .next (if p.delivers f then f.ops.foldl (State.peerOp port) t else t).idle

/-- LINK_MARGIN_EVALUATION (R346): every 10^6 clk; a low margin, or more than 2,048 corrected symbols, steps the port down one rate. -/
def execLinkMarginEvaluation (port : Nat) (lowMargin : Bool) (s : State) : Result :=
  let p := s.port port
  if 12 ≤ port || s.dev.clock < p.nextEval then .fault .notDue else
  let step := (lowMargin || 2048 < p.corrected) && p.rate != 56 && !p.retraining && !p.down
  .next (s.modPort port fun p =>
    let p := { p with nextEval := p.nextEval + 1000000, corrected := 0 }
    if step then p.retrain (slower p.rate) s.dev.clock else p).idle

/-- LINK_RETRAIN_COMPLETE (R346): the port replays every unacknowledged flit and goes on. -/
def execLinkRetrainComplete (port : Nat) (s : State) : Result :=
  let p := s.port port
  if 12 ≤ port || !p.retraining then .fault .notDue else
  .next (s.modPort port fun p => { p with retraining := false, retrainAt := 0 }.resend.pump port).idle

/-- LINK_STEP_UP (R346): at Smilor's request. -/
def execLinkStepUp (port : Nat) (s : State) : Result :=
  let p := s.port port
  if 12 ≤ port || p.retraining || p.rate == 112 then .next s.idle else
  .next (s.modPort port fun p => { p.retrain (faster p.rate) s.dev.clock with down := false }).idle

/-! ### Boot, measurement, attestation -/

/-- A measurement register. -/
def Device.measure (d : Device) (j : Nat) : List Byte := d.measures.getD j []
/-- M_j := SHA3-512(M_j followed by a digest) (R348). -/
def Device.extend (d : Device) (j : Nat) (digest : List Byte) : Device := { d with measures := d.measures.set j (sha3 (d.measure j ++ digest)) }

/-- One stage of boot: image j is verified, then measured, then run (R348). -/
def State.bootStage (s : State) (j : Nat) : State :=
  let f := s.dev.images.getD j {}
  let digest := sha3 f.bytes
  if Config.mlDsaVerify s.dev.key digest f.signature then
    s.modDev fun d => { d.extend j digest with boot := if j < 2 then .running (j + 1) else .done }
  else s.modDev fun d => { d with boot := .failed j 1 }

/-- POWER_ON_BOOT (R348): the images in order: base-die firmware, Helm firmware, Smilor; one image in each step. -/
def execPowerOnBoot (s : State) : Result :=
  match s.dev.boot with
  | .off => .next (s.bootStage 0).idle
  | .running j => .next (s.bootStage j).idle
  | .done => .fault .notDue
  | .failed _ _ => .fault .notDue

/-- MEASUREMENT_EXTEND (R348, Table 20.3): M3 by Smilor before it creates any partition, M4 to M7 on a request; the ROM's registers take
no request. -/
def execMeasurementExtend (reg : Nat) (digest : List (BitVec 8)) (s : State) : Result :=
  if s.dev.boot != .done || 7 < reg || reg < 3 || (reg == 3 && s.dev.parted) then .next s.idle
  else .next (s.modDev fun d => d.extend reg digest).idle

/-- The part number GMX-D960 (R349). -/
def partNumber : List Byte := [0x47, 0x4D, 0x58, 0x2D, 0x44, 0x39, 0x36, 0x30]

/-- ATTESTATION_REQUEST (R349): a report signed with the device identity key. -/
def execAttestationRequest (part : Nat) (nonce : List (BitVec 8)) (s : State) : Result :=
  match s.org.parts.find part with
  | none => .next s.idle
  | some p =>
    if s.dev.boot != .done || nonce.length != 32 then .next s.idle else
    let body := s.dev.measures.flatten ++ nonce ++ partNumber ++ p.features.flatMap bytesOf
    let r : Report := { measurements := s.dev.measures, nonce := nonce, partNumber := partNumber, features := p.features, signature := Config.mlDsaSign body }
    .next (s.modDev fun d => { d with reports := d.reports ++ [r] }).idle

/-! ### Power -/

/-- LATENCY_TOLERANCE_WRITE (R351). -/
def execLatencyToleranceWrite (part us : Nat) (s : State) : Result := .next ((s.modPart part fun p => { p with tolerance := us }).powerEval).idle

/-- Whether no access is on its way in the compute dies. -/
def State.memQuiet (s : State) : Bool := s.ex.reqs.isEmpty && s.ex.fills.isEmpty && s.ex.copies.isEmpty && s.mem.walks.isEmpty

/-- Write everything back to HBM before the compute and cache dies lose power (R57, R350). -/
def State.powerDown (s : State) : State :=
  let s := (s.mem.l1d.map (·.1)).foldl State.l1WriteBack s
  let s := (s.mem.l2.map (·.1)).foldl State.l2Evict s
  let s := ((s.mem.base.map fun e => e.2.block)).foldl State.settleBase s
  let s := (s.mem.msc.map (·.1)).foldl State.mscOut s
  s.modMem fun m => { m with l1d := [], l1i := [], lat := [], tcache := [], partials := [] }

/-- Perform what waits at the base dies before HBM refreshes itself (R350). -/
def State.hbmQuiet (s : State) : State := (s.mem.base.map fun e => e.2.block).foldl State.settleBase s

/-- POWER_STATE_ENTRY_COMPLETE (R350, R351): from PS2 on HBM refreshes itself; PS3 and PS4 take power from the compute and cache dies. -/
def execPowerStateEntryComplete (s : State) : Result :=
  match s.dev.entering with
  | none => .fault .notDue
  | some n =>
    if !s.memQuiet then .fault .notDue else
    let s := if 3 ≤ n then s.powerDown else if n = 2 then s.hbmQuiet else s
    .next (s.modDev fun d => { d with power := n, entering := none }).idle

/-- POWER_STATE_EXIT (R350, R351): the module runs again for the access or the dispatch that woke it. -/
def execPowerStateExit (s : State) : Result :=
  if s.dev.power == 0 || s.dev.entering.isSome || !s.dev.exiting then .fault .notDue
  else .next (s.modDev fun d => { d with power := 0, exiting := false }).idle

end Sys2Proof.Machine
end

