-- ==== Sys2Proof/Machine/CrossLane.lean ====
section
/-! DEFINITION. The cross-lane and predicate instructions of class 3 (R192 to R200). In lane-pair mode the lanes are the
visible slots (log 12). -/

namespace Sys2Proof.Machine

/-- Write an optional predicate result (R193). -/
def writeP (v : View) (act : List Nat) (p : Option (BitVec 4)) (f : Nat → Bool × Bool) (s : State) : State :=
  match p with
  | some n => writePred v act n f s
  | none => s

/-- The bits of a lane argument that name a slot: 5, or 4 in lane-pair mode (R200). -/
def slotArg (v : View) (b : Word) : Nat := if v.lanePair then b.toNat % 16 else b.toNat % 32

/-- SHFL's source slot, none where it is out of range (R195). -/
def shflSlot (v : View) (m : ShflMode) (l : Nat) (b : Word) : Option Nat :=
  match m with
  | .at => some (slotArg v b)
  | .back => if b.toNat ≤ l then some (l - b.toNat) else none
  | .fwd => some (l + b.toNat)
  | .flip => some (((BitVec.ofNat 32 l) ^^^ BitVec.ofNat 32 (slotArg v b)).toNat)

/-- A move from another lane: each lane takes a(s) for its source slot s where s is active, else its own a (R192, R195). -/
def takeFrom (x : FX) (slotOf : View → Nat → Word → Option Nat) (v : View) (s : State) : Body := do
  let wide := x.ty.wide
  let srcs := x.a.use wide :: x.b.uses
  let (act, cs) ← prologue v s x.g srcs [(x.d, wide)]
  checkCauses cs
  let one (l : Nat) : (Word64 × Bool) × Bool × Bool :=
    let b := valB v s l .z32 x.b false
    match slotOf v l (lo b.1) with
    | some k =>
      if act.contains k then let r := valR v s k x.a wide; ((r.1, r.2 || b.2), true, b.2)
      else let r := valR v s l x.a wide; ((r.1, r.2 || b.2), false, b.2)
    | none => let r := valR v s l x.a wide; ((r.1, r.2 || b.2), false, b.2)
  let t := writeDest v act x.d (fun l => (wordsOf wide (one l).1.1, (one l).1.2)) s
  return popQueues v srcs (writeP v act x.p (fun l => (one l).2) t)

/-- SHFL. -/
def execShfl (x : FX) (mode : ShflMode) (s : State) : Result := runBody s (takeFrom x fun v l b => shflSlot v mode l b)
/-- SHFLR takes by rank, through the group's own remapping table. -/
def execShflr (x : FX) (s : State) : Result := runBody s (takeFrom x fun v _ b => (v.grp.remap.find? fun e => e.2 == b.toNat).map (·.1))

/-- XPUT (R196): the highest-numbered pushing lane wins; a lane that receives nothing keeps its D. -/
def execXput (x : FX) (s : State) : Result := runBody s fun v s => do
  let wide := x.ty.wide
  let srcs := x.a.use wide :: x.b.uses
  let (act, cs) ← prologue v s x.g srcs [] (badOperands v [] [(x.d, wide)] || (216 ≤ x.d.toNat && x.d.toNat < 248))
  checkCauses cs
  let from_ (k : Nat) : Option Nat := (act.filter fun l => slotArg v (lo (valB v s l .z32 x.b false).1) == k).getLast?
  let got := act.filter fun k => (from_ k).isSome
  if destEmpty v s got (x.d, wide) then .error .stall
  let val (k : Nat) : Word64 × Bool :=
    match from_ k with
    | some l => let r := valR v s l x.a wide; (r.1, r.2 || (valB v s l .z32 x.b false).2)
    | none => (0, false)
  let t := writeDest v got x.d (fun k => (wordsOf wide (val k).1, (val k).2)) (flagT v x.d.toNat s)
  return popQueues v srcs (writeP v act x.p (fun k => ((from_ k).isSome, (from_ k).isSome && (val k).2 &&
    (match from_ k with | some l => (valB v s l .z32 x.b false).2 | none => false))) t)

/-- POLL (R197). -/
def execPoll (g : Guard) (mode : PollMode) (d : Reg) (p : BitVec 4) (s : State) : Result := runBody s fun v s => do
  let (act, cs) ← prologue v s g [] (if mode == .mask then [(d, false)] else []) (preds := [p])
  checkCauses cs
  let bits := act.map fun l => (readPred v s l p).1
  let poison := act.any fun l => (readPred v s l p).2
  let r : Bool := match mode with
    | .every => bits.all id
    | .some => bits.any id
    | _ => bits.all id || !bits.any id
  if mode == .mask then
    return writeDest v act d (fun _ => ([lanesOf (act.filter fun l => (readPred v s l p).1)], poison)) s
  else return writePred v act (d.setWidth 4) (fun _ => (r, poison)) s

/-! ### REDL and SCANL (R198) -/

/-- The identity of Table 10.9. -/
def redIdentity (t : OpType) (op : RedOp) : Word :=
  match op, t with
  | .add, _ | .or, _ | .xor, _ => 0
  | .and, _ => 0xFFFFFFFF
  | .min, .s32 => 0x7FFFFFFF
  | .min, .f32 => 0x7F800000
  | .min, _ => 0xFFFFFFFF
  | .max, .s32 => 0x80000000
  | .max, .f32 => 0xFF800000
  | .max, _ => 0

/-- One step of a combination and its exceptions. -/
def redStep (t : OpType) (op : RedOp) (rm : Rounding) (a b : Word) : Word × BitVec 5 :=
  if t == .f32 then
    let r : FRes := match op with
      | .min => fmt32.minMax false a.toNat b.toNat
      | .max => fmt32.minMax true a.toNat b.toNat
      | _ => fmt32.add rm a.toNat b.toNat
    (BitVec.ofNat 32 r.1, r.2)
  else
    (match op with
      | .add => a + b
      | .min => alMin t.signed a b
      | .max => alMax t.signed a b
      | .and => a &&& b
      | .or => a ||| b
      | .xor => a ^^^ b, 0)

/-- The combination of lanes in ascending slot: an .f32 starts from the lowest lane's element as it stands. -/
def redFold (t : OpType) (op : RedOp) (rm : Rounding) (xs : List Word) : Word × BitVec 5 :=
  let go (init : Word) (xs : List Word) : Word × BitVec 5 :=
    xs.foldl (fun r x => let n := redStep t op rm r.1 x; (n.1, r.2 ||| n.2)) (init, 0)
  match xs with
  | [] => (redIdentity t op, 0)
  | x :: r => if t == .f32 then go x r else go (redIdentity t op) xs

/-- A lane's result over the lanes that a predicate includes. -/
def redLane (x : FRed) (v : View) (s : State) (act : List Nat) (incl : Nat → Bool) : LaneOut :=
  let ls := act.filter incl
  let rm := laneRm v s (act.headD 0) x.rm
  let r := redFold x.ty x.op rm (ls.map fun k => lo (valR v s k x.a false).1)
  { val := r.1.setWidth 64, poison := ls.any fun k => (valR v s k x.a false).2, flags := r.2 }

/-- REDL. -/
def execRedl (x : FRed) (s : State) : Result := runBody s fun v s =>
  computeAtIssue x.g [x.a.use] x.d false (fun v s act _ => redLane x v s act fun _ => true) (v := v) (s := s)
/-- SCANL. -/
def execScanl (x : FRed) (excl : Bool) (s : State) : Result := runBody s fun v s =>
  computeAtIssue x.g [x.a.use] x.d false (fun v s act l => redLane x v s act fun k => if excl then decide (k < l) else decide (k ≤ l))
    (v := v) (s := s)

/-- KIN (R197): P says that all lanes agree, or that a lane is the lowest of its kin set. -/
def execKin (x : FA) (p : Option (BitVec 4)) (leader : Bool) (s : State) : Result := runBody s fun v s => do
  let wide := x.ty.wide
  let (act, cs) ← prologue v s x.g [x.a.use wide] [(x.d, false)]
  checkCauses cs
  let val (l : Nat) : Word64 := (valR v s l x.a wide).1
  let poison := act.any fun l => (valR v s l x.a wide).2
  let kin (l : Nat) : List Nat := act.filter fun k => val k == val l
  let t := writeDest v act x.d (fun l => ([lanesOf (kin l)], poison)) s
  return popQueues v [x.a.use wide] (writeP v act p (fun l =>
    (if leader then (kin l).head? == some l else (kin l).length == act.length, poison)) t)

/-- PLOP (R199). -/
def execPlop (g : Guard) (d a b c : BitVec 4) (table : BitVec 8) (s : State) : Result := runBody s fun v s => do
  let (act, cs) ← prologue v s g [] [] (preds := [a, b, c])
  checkCauses cs
  let n (q : Bool × Bool) : Nat := if q.1 then 1 else 0
  let one (l : Nat) : Bool × Bool :=
    let pa := readPred v s l a
    let pb := readPred v s l b
    let pc := readPred v s l c
    (table.getLsbD (4 * n pa + 2 * n pb + n pc), pa.2 || pb.2 || pc.2)
  return writePred v act d one s

/-- Every predicate. -/
def allPreds : List (BitVec 4) := (List.range 16).map (BitVec.ofNat 4)

/-- PGET. -/
def execPget (x : FD) (s : State) : Result := runBody s fun v s =>
  computeAtIssue x.g [] x.d false (fun v s _ l =>
    let t := s.strandAt (v.key l)
    { val := t.p.setWidth 64, poison := t.pp != 0 }) (preds := allPreds) (v := v) (s := s)

/-- PPUT: the predicates whose mask bit is 0 are unchanged. -/
def execPput (x : FS) (mask : BitVec 16) (s : State) : Result := runBody s fun v s => do
  let (act, cs) ← prologue v s x.g [x.a.use] []
  checkCauses cs
  let t := act.foldl (fun t l =>
    let a := valR v s l x.a false
    t.modStrand (v.key l) fun k =>
      { k with p := (k.p &&& ~~~mask) ||| ((lo a.1).setWidth 16 &&& mask),
               pp := if a.2 then k.pp ||| mask else k.pp &&& ~~~mask, pe := k.pe &&& ~~~mask }) s
  return popQueues v [x.a.use] t

end Sys2Proof.Machine
end

