-- ==== Sys2Proof/Machine/Dispatch.lean ====
section
/-! DEFINITION. The dispatch: one arm per constructor of Instr. -/

namespace Sys2Proof.Machine

/-- What an instruction or event does at a state. -/
def exec (i : Instr) (s : State) : Host.Outcome State Fault Refusal :=
  match i with
  | .nop => Sys2Proof.Machine.execNop s
  | .mov x => Sys2Proof.Machine.execMov x s
  | .sel x p => Sys2Proof.Machine.execSel x p s
  | .add x => Sys2Proof.Machine.execAdd x s
  | .sub x => Sys2Proof.Machine.execSub x s
  | .adds x => Sys2Proof.Machine.execAdds x s
  | .neg x => Sys2Proof.Machine.execNeg x s
  | .mul x => Sys2Proof.Machine.execMul x s
  | .mulh x => Sys2Proof.Machine.execMulh x s
  | .mad x => Sys2Proof.Machine.execMad x s
  | .dot4 x sat => Sys2Proof.Machine.execDot4 x sat s
  | .div x => Sys2Proof.Machine.execDiv x s
  | .rem x => Sys2Proof.Machine.execRem x s
  | .min x => Sys2Proof.Machine.execMin x s
  | .max x => Sys2Proof.Machine.execMax x s
  | .abs x => Sys2Proof.Machine.execAbs x s
  | .and x => Sys2Proof.Machine.execAnd x s
  | .or x => Sys2Proof.Machine.execOr x s
  | .xor x => Sys2Proof.Machine.execXor x s
  | .andn x => Sys2Proof.Machine.execAndn x s
  | .not x => Sys2Proof.Machine.execNot x s
  | .shl x => Sys2Proof.Machine.execShl x s
  | .shr x => Sys2Proof.Machine.execShr x s
  | .sar x => Sys2Proof.Machine.execSar x s
  | .rol x => Sys2Proof.Machine.execRol x s
  | .bfx x => Sys2Proof.Machine.execBfx x s
  | .bfi x => Sys2Proof.Machine.execBfi x s
  | .popc x => Sys2Proof.Machine.execPopc x s
  | .clz x => Sys2Proof.Machine.execClz x s
  | .ctz x => Sys2Proof.Machine.execCtz x s
  | .brev x => Sys2Proof.Machine.execBrev x s
  | .add64 x => Sys2Proof.Machine.execAdd64 x s
  | .sub64 x => Sys2Proof.Machine.execSub64 x s
  | .lea x sh => Sys2Proof.Machine.execLea x sh s
  | .isetp x => Sys2Proof.Machine.execIsetp x s
  | .bsel x => Sys2Proof.Machine.execBsel x s
  | .fadd x => Sys2Proof.Machine.execFadd x s
  | .fsub x => Sys2Proof.Machine.execFsub x s
  | .fmul x => Sys2Proof.Machine.execFmul x s
  | .ffma x c => Sys2Proof.Machine.execFfma x c s
  | .fmin x => Sys2Proof.Machine.execFmin x s
  | .fmax x => Sys2Proof.Machine.execFmax x s
  | .fminm x => Sys2Proof.Machine.execFminm x s
  | .fmaxm x => Sys2Proof.Machine.execFmaxm x s
  | .fabs x => Sys2Proof.Machine.execFabs x s
  | .fneg x => Sys2Proof.Machine.execFneg x s
  | .fsetp x => Sys2Proof.Machine.execFsetp x s
  | .fclass x => Sys2Proof.Machine.execFclass x s
  | .frnd x => Sys2Proof.Machine.execFrnd x s
  | .fscale x => Sys2Proof.Machine.execFscale x s
  | .fdiv x => Sys2Proof.Machine.execFdiv x s
  | .fsqrt x => Sys2Proof.Machine.execFsqrt x s
  | .frcp x => Sys2Proof.Machine.execFrcp x s
  | .frsq x => Sys2Proof.Machine.execFrsq x s
  | .fexp2 x => Sys2Proof.Machine.execFexp2 x s
  | .flog2 x => Sys2Proof.Machine.execFlog2 x s
  | .fsin x => Sys2Proof.Machine.execFsin x s
  | .fcos x => Sys2Proof.Machine.execFcos x s
  | .ftanh x => Sys2Proof.Machine.execFtanh x s
  | .pclr g k d => Sys2Proof.Machine.execPclr g k d s
  | .ptst g k p a => Sys2Proof.Machine.execPtst g k p a s
  | .cvt x sty sat slot => Sys2Proof.Machine.execCvt x sty sat slot s
  | .tfpk g slot hi d a b c => Sys2Proof.Machine.execTfpk g slot hi d a b c s
  | .tfunpk g slot hi d a => Sys2Proof.Machine.execTfunpk g slot hi d a s
  | .pack2 x => Sys2Proof.Machine.execPack2 x s
  | .slotq g slot d => Sys2Proof.Machine.execSlotq g slot d s
  | .shfl x mode => Sys2Proof.Machine.execShfl x mode s
  | .shflr x => Sys2Proof.Machine.execShflr x s
  | .xput x => Sys2Proof.Machine.execXput x s
  | .poll g mode d p => Sys2Proof.Machine.execPoll g mode d p s
  | .redl x => Sys2Proof.Machine.execRedl x s
  | .scanl x excl => Sys2Proof.Machine.execScanl x excl s
  | .kin x p leader => Sys2Proof.Machine.execKin x p leader s
  | .plop g d a b c table => Sys2Proof.Machine.execPlop g d a b c table s
  | .pget x => Sys2Proof.Machine.execPget x s
  | .pput x mask => Sys2Proof.Machine.execPput x mask s
  | .movs x num => Sys2Proof.Machine.execMovs x num s
  | .movsw x num => Sys2Proof.Machine.execMovsw x num s
  | .ld m d => Sys2Proof.Machine.execLd m d s
  | .st m b => Sys2Proof.Machine.execSt m b s
  | .atom m d => Sys2Proof.Machine.execAtom m d s
  | .red m => Sys2Proof.Machine.execRed m s
  | .pref g space hint a off => Sys2Proof.Machine.execPref g space hint a off s
  | .faddr x off => Sys2Proof.Machine.execFaddr x off s
  | .cwb x => Sys2Proof.Machine.execCwb x s
  | .cinv x => Sys2Proof.Machine.execCinv x s
  | .qld m q b => Sys2Proof.Machine.execQld m q b s
  | .copy g form a b c => Sys2Proof.Machine.execCopy g form a b c s
  | .seal x => Sys2Proof.Machine.execSeal x s
  | .cwait x => Sys2Proof.Machine.execCwait x s
  | .sleepto x => Sys2Proof.Machine.execSleepto x s
  | .cstat x wide => Sys2Proof.Machine.execCstat x wide s
  | .pgo g a b => Sys2Proof.Machine.execPgo g a b s
  | .pstop g flush => Sys2Proof.Machine.execPstop g flush s
  | .qstat x wide => Sys2Proof.Machine.execQstat x wide s
  | .sabind x => Sys2Proof.Machine.execSabind x s
  | .safree g => Sys2Proof.Machine.execSafree g s
  | .saload g a cells => Sys2Proof.Machine.execSaload g a cells s
  | .saseed x ent => Sys2Proof.Machine.execSaseed x ent s
  | .saclamp g a b c => Sys2Proof.Machine.execSaclamp g a b c s
  | .sasweep g cnt d a b => Sys2Proof.Machine.execSasweep g cnt d a b s
  | .saread x => Sys2Proof.Machine.execSaread x s
  | .sacnt x clr => Sys2Proof.Machine.execSacnt x clr s
  | .sastat x wide => Sys2Proof.Machine.execSastat x wide s
  | .mma g tile slotA slotB a b c => Sys2Proof.Machine.execMma g tile slotA slotB a b c s
  | .mzero g tile => Sys2Proof.Machine.execMzero g tile s
  | .mload x => Sys2Proof.Machine.execMload x s
  | .mstore x => Sys2Proof.Machine.execMstore x s
  | .mmov g tile a b => Sys2Proof.Machine.execMmov g tile a b s
  | .mpin g slot a c => Sys2Proof.Machine.execMpin g slot a c s
  | .munpin g slot a c => Sys2Proof.Machine.execMunpin g slot a c s
  | .mrel g tile => Sys2Proof.Machine.execMrel g tile s
  | .msave g tile a b => Sys2Proof.Machine.execMsave g tile a b s
  | .mrest g tile a b => Sys2Proof.Machine.execMrest g tile a b s
  | .trail x => Sys2Proof.Machine.execTrail x s
  | .br x => Sys2Proof.Machine.execBr x s
  | .brx x => Sys2Proof.Machine.execBrx x s
  | .call x => Sys2Proof.Machine.execCall x s
  | .callx x => Sys2Proof.Machine.execCallx x s
  | .ret x => Sys2Proof.Machine.execRet x s
  | .reform x => Sys2Proof.Machine.execReform x s
  | .exit aw => Sys2Proof.Machine.execExit aw s
  | .lend x => Sys2Proof.Machine.execLend x s
  | .joinw g p tmo aw => Sys2Proof.Machine.execJoinw g p tmo aw s
  | .bar aw => Sys2Proof.Machine.execBar aw s
  | .mwait x => Sys2Proof.Machine.execMwait x s
  | .rte aw => Sys2Proof.Machine.execRte aw s
  | .sleep x => Sys2Proof.Machine.execSleep x s
  | .gwait x => Sys2Proof.Machine.execGwait x s
  | .loop g a tgt => Sys2Proof.Machine.execLoop g a tgt s
  | .spawn g d a tgt => Sys2Proof.Machine.execSpawn g d a tgt s
  | .launch x => Sys2Proof.Machine.execLaunch x s
  | .fence g scope order => Sys2Proof.Machine.execFence g scope order s
  | .trap g imm => Sys2Proof.Machine.execTrap g imm s
  | .swi g helm bit queue => Sys2Proof.Machine.execSwi g helm bit queue s
  | .featq g d k => Sys2Proof.Machine.execFeatq g d k s
  | .icinv g k => Sys2Proof.Machine.execIcinv g k s
  | .tlbinv g k => Sys2Proof.Machine.execTlbinv g k s
  | .gsig g set a b => Sys2Proof.Machine.execGsig g set a b s
  | .gread x => Sys2Proof.Machine.execGread x s
  | .runStart core slot => Sys2Proof.Machine.execRunStart core slot s
  | .awaitSetSatisfied core group split => Sys2Proof.Machine.execAwaitSetSatisfied core group split s
  | .l1InstructionFill core asid line => Sys2Proof.Machine.execL1InstructionFill core asid line s
  | .lineRefetch core asid line => Sys2Proof.Machine.execLineRefetch core asid line s
  | .loadDataReturn core id => Sys2Proof.Machine.execLoadDataReturn core id s
  | .longLatencyResult core id => Sys2Proof.Machine.execLongLatencyResult core id s
  | .l1DataFill core id => Sys2Proof.Machine.execL1DataFill core id s
  | .homeSliceAccess core id => Sys2Proof.Machine.execHomeSliceAccess core id s
  | .baseDieRequest id => Sys2Proof.Machine.execBaseDieRequest id s
  | .mscColourFlush colours => Sys2Proof.Machine.execMscColourFlush colours s
  | .scrubPeriodExpiry lvl => Sys2Proof.Machine.execScrubPeriodExpiry lvl s
  | .errorRecordTimeout unit => Sys2Proof.Machine.execErrorRecordTimeout unit s
  | .tableWalk id => Sys2Proof.Machine.execTableWalk id s
  | .tlbinvComplete core group => Sys2Proof.Machine.execTlbinvComplete core group s
  | .cwbComplete core group => Sys2Proof.Machine.execCwbComplete core group s
  | .icinvComplete core group => Sys2Proof.Machine.execIcinvComplete core group s
  | .fenceComplete core id => Sys2Proof.Machine.execFenceComplete core id s
  | .copyRequestComplete core id => Sys2Proof.Machine.execCopyRequestComplete core id s
  | .batchWaitEnd core group split => Sys2Proof.Machine.execBatchWaitEnd core group split s
  | .promiseExpiry core group split => Sys2Proof.Machine.execPromiseExpiry core group split s
  | .pilotIssue core => Sys2Proof.Machine.execPilotIssue core s
  | .qldPush core id => Sys2Proof.Machine.execQldPush core id s
  | .pilotStopComplete core group => Sys2Proof.Machine.execPilotStopComplete core group s
  | .mmaChunkFetch core => Sys2Proof.Machine.execMmaChunkFetch core s
  | .mmaChunkAdd core => Sys2Proof.Machine.execMmaChunkAdd core s
  | .tileClaimUnblock core group => Sys2Proof.Machine.execTileClaimUnblock core group s
  | .sweepColourPhase cluster => Sys2Proof.Machine.execSweepColourPhase cluster s
  | .splitFiling core group split => Sys2Proof.Machine.execSplitFiling core group split s
  | .binProofTimerExpiry core bin => Sys2Proof.Machine.execBinProofTimerExpiry core bin s
  | .binLaunch core bin => Sys2Proof.Machine.execBinLaunch core bin s
  | .barrierComplete core team => Sys2Proof.Machine.execBarrierComplete core team s
  | .joinwTimeout core group => Sys2Proof.Machine.execJoinwTimeout core group s
  | .mwaitWake core group split lane => Sys2Proof.Machine.execMwaitWake core group split lane s
  | .mwaitTimeout core group split lane => Sys2Proof.Machine.execMwaitTimeout core group split lane s
  | .sleepWake core group split lane => Sys2Proof.Machine.execSleepWake core group split lane s
  | .gwaitTimeout core group split => Sys2Proof.Machine.execGwaitTimeout core group split s
  | .gateUnitOperation gate => Sys2Proof.Machine.execGateUnitOperation gate s
  | .teamRetire core team => Sys2Proof.Machine.execTeamRetire core team s
  | .frameDiscard part base => Sys2Proof.Machine.execFrameDiscard part base s
  | .dispatchChoice part => Sys2Proof.Machine.execDispatchChoice part s
  | .kernelPrefetchComplete core team => Sys2Proof.Machine.execKernelPrefetchComplete core team s
  | .queueSubmit part q record => Sys2Proof.Machine.execQueueSubmit part q record s
  | .queueEnable part q => Sys2Proof.Machine.execQueueEnable part q s
  | .prioWrite part q v => Sys2Proof.Machine.execPrioWrite part q v s
  | .controlRegisterWrite r => Sys2Proof.Machine.execControlRegisterWrite r s
  | .stopRecordsComplete asid => Sys2Proof.Machine.execStopRecordsComplete asid s
  | .signatureMatch pair => Sys2Proof.Machine.execSignatureMatch pair s
  | .injectWrite asid v => Sys2Proof.Machine.execInjectWrite asid v s
  | .pairWrite asid v => Sys2Proof.Machine.execPairWrite asid v s
  | .preemptWrite asid v => Sys2Proof.Machine.execPreemptWrite asid v s
  | .vlogWrite asid v => Sys2Proof.Machine.execVlogWrite asid v s
  | .contextCreate r => Sys2Proof.Machine.execContextCreate r s
  | .switchTick root => Sys2Proof.Machine.execSwitchTick root s
  | .drainExpiry asid => Sys2Proof.Machine.execDrainExpiry asid s
  | .forceExpiry asid => Sys2Proof.Machine.execForceExpiry asid s
  | .deadlineExpiry asid => Sys2Proof.Machine.execDeadlineExpiry asid s
  | .contextSaveComplete asid => Sys2Proof.Machine.execContextSaveComplete asid s
  | .contextResume asid => Sys2Proof.Machine.execContextResume asid s
  | .partitionCreate r => Sys2Proof.Machine.execPartitionCreate r s
  | .partitionDestroy part => Sys2Proof.Machine.execPartitionDestroy part s
  | .tokenBucketRefill => Sys2Proof.Machine.execTokenBucketRefill s
  | .timeChartInstall root c => Sys2Proof.Machine.execTimeChartInstall root c s
  | .gateRetire gate => Sys2Proof.Machine.execGateRetire gate s
  | .partitionMigrate part clusters features => Sys2Proof.Machine.execPartitionMigrate part clusters features s
  | .loadCodeObject asid o => Sys2Proof.Machine.execLoadCodeObject asid o s
  | .dpfTranslation asid header seg pcs => Sys2Proof.Machine.execDpfTranslation asid header seg pcs s
  | .translationSwap core team => Sys2Proof.Machine.execTranslationSwap core team s
  | .cmdtailWrite part ch v => Sys2Proof.Machine.execCmdtailWrite part ch v s
  | .cplheadWrite part ch v => Sys2Proof.Machine.execCplheadWrite part ch v s
  | .channelEnable part ch => Sys2Proof.Machine.execChannelEnable part ch s
  | .hostCmdNop part ch rd wrOk => Sys2Proof.Machine.execHostCmdNop part ch rd wrOk s
  | .hostCmdSubmit part ch rd wrOk => Sys2Proof.Machine.execHostCmdSubmit part ch rd wrOk s
  | .hostCmdCopyToDevice part ch rd data wrOk => Sys2Proof.Machine.execHostCmdCopyToDevice part ch rd data wrOk s
  | .hostCmdCopyToHost part ch rd dataOk wrOk => Sys2Proof.Machine.execHostCmdCopyToHost part ch rd dataOk wrOk s
  | .hostIngressWrite asid va words => Sys2Proof.Machine.execHostIngressWrite asid va words s
  | .hostEgressRead asid va count => Sys2Proof.Machine.execHostEgressRead asid va count s
  | .functionLevelReset part => Sys2Proof.Machine.execFunctionLevelReset part s
  | .linkFlitReceive port f => Sys2Proof.Machine.execLinkFlitReceive port f s
  | .linkMarginEvaluation port lowMargin => Sys2Proof.Machine.execLinkMarginEvaluation port lowMargin s
  | .linkRetrainComplete port => Sys2Proof.Machine.execLinkRetrainComplete port s
  | .linkStepUp port => Sys2Proof.Machine.execLinkStepUp port s
  | .powerOnBoot => Sys2Proof.Machine.execPowerOnBoot s
  | .measurementExtend reg digest => Sys2Proof.Machine.execMeasurementExtend reg digest s
  | .attestationRequest part nonce => Sys2Proof.Machine.execAttestationRequest part nonce s
  | .latencyToleranceWrite part us => Sys2Proof.Machine.execLatencyToleranceWrite part us s
  | .powerStateExit => Sys2Proof.Machine.execPowerStateExit s
  | .staggerExpiry pair => Sys2Proof.Machine.execStaggerExpiry pair s
  | .powerStateEntryComplete => Sys2Proof.Machine.execPowerStateEntryComplete s
  | .supervisorContextReset asid => Sys2Proof.Machine.execSupervisorContextReset asid s
  | .contextDestroy asid => Sys2Proof.Machine.execContextDestroy asid s

end Sys2Proof.Machine
end

