-- ==== Sys2Proof/Machine/Arbiter.lean ====
section
/-! DEFINITION. The order of the machine's agents (log 1, log 2): issuing one instruction (R40, R242), what may happen next, the free
choice among it, and the passing of a clk. -/

namespace Sys2Proof.Machine

/-! ### Issue -/

/-- Whether a split's next instruction may issue: its context runs, its team is on its core, and it waits for nothing. -/
def State.mayIssue (s : State) (v : View) : Bool :=
  !v.ctx.halted && !v.team.saved && v.grp.block.isNone && (!v.pilot || s.pilotMay (v.gk, v.grp))

/-- Whether an instruction of a speculating split is of opcode classes 0 to 3, MOVSW apart (R242). -/
def classPast (i : Instr) : Bool :=
  match i, encodeFields i with
  | .movsw .., _ => false
  | _, some f => decide (f.opc.toNat < 0x100)
  | _, none => false

/-- Whether a load of a speculating split issues (R242): one from the scratchpad once the earlier reads are performed, and the scratchpad accesses of its
lanes; another at plain, .grp or .core scope that hits the L1 in every lane, while the record has room for its lines. A core pair's waits for the fence,
since its words are forwarded (log 30). -/
def State.loadPast (s : State) (v : View) (m : FMem) : Bool :=
  let act := activeLanes v s m.g
  if m.space == .s then
    act.all fun l => !(s.ex.reqs.any fun e => v.key l == e.2.dest.strand && (e.2.reads || e.2.unit == .scratch) && !e.2.performed)
      && !s.enginesBefore s.nextId true (v.key l)
  else
    let vas := act.map fun l => match effAddr v s l m.space m.a m.off (accWidth m.ty) false with | .ok va => some (va57 va) | .error _ => none
    let lines := match s.ex.specs.find v.gk with | some p => p.lines.map (·.1) | none => []
    !m.scope.wide && !v.trails && !v.leads
      && vas.all (fun a => match a with | some va => s.l1Hit v.core v.asid va (accWidth m.ty) | none => false)
      && decide ((lines ++ vas.filterMap fun a => a.map (· / 128)).eraseDups.length ≤ 16)

/-- Whether an instruction issues while its split speculates (R242): what classPast and loadPast say. -/
def State.issuesPast (s : State) (v : View) (i : Instr) : Bool :=
  match i with
  | .ld m _ => s.loadPast v m
  | i => classPast i

/-- What an instruction that does not issue past the fence does meanwhile (R242): a trailer issues and parks the split, and has its effect when the
fence has completed; any other waits at its slot. -/
def State.behindFence (s : State) (v : View) (i : Instr) : State :=
  if isTrailer i then (s.modGroup v.gk fun g => g.modSplit v.idx fun sp => { sp with st := .parked .fence, cont := some g.run }).endRun v.gk
  else s

/-- Judge the instruction lines that a split reads from (R63). -/
def State.judgeLines (s : State) (v : View) : State :=
  (wantedLines v).foldl (fun s l => s.l1iJudge v.core v.asid l 4) s

/-- An issue slot or pilot engine issues its run's next instruction (R40, R144). -/
def issueNext (core slot : Nat) (s : State) : Result :=
  match s.slotGroup core slot with
  | none => .next s.idle
  | some gk =>
    let s : State := { s with cur := some gk }
    match s.view with
    | none => .next s.idle
    | some v =>
      if !s.mayIssue v then .next s.idle else
      let s := s.judgeLines v
      match s.fetch v with
      | .wait => .next s.idle
      | .skip pc => .next (s.modGroup gk fun g => g.modSplit v.idx fun sp => { sp with pc := pc }).idle
      | .bad f => .next (raiseNow v f s).idle
      | .instr i => if s.ex.specs.has gk && !s.issuesPast v i then .next (s.behindFence v i).idle else exec i s

/-! ### What may happen next -/

/-- Whether an event is due. -/
def State.due (s : State) (i : Instr) : Bool := match exec i s with | .next _ => true | _ => false

/-- Perform an event; one that is not due changes nothing (log 22). -/
def performEvent (i : Instr) (s : State) : State := match exec i s with | .next t => t | _ => s.idle

/-- The slots, pilot engines apart, whose run may issue. -/
def State.issueTurns (s : State) : List Turn :=
  (s.ex.runs.filter fun e => e.1 % 8 < 4).filterMap fun e =>
    match ({ s with cur := some (e.1 / 8 * 256 + e.2) } : State).view with
    | some v => if s.mayIssue v then some (.issue (e.1 / 8) (e.1 % 8)) else none
    | none => none

/-- The slots and pilot engines that groups are homed on. -/
def State.slotEvents (s : State) : List Instr :=
  (risingOf (s.ex.groups.map fun e => coreOf e.1 * 8 + homeSlot e.1)).flatMap fun n =>
    if n % 8 = 4 then [.pilotIssue (n / 8)] else [.runStart (n / 8) (n % 8)]

/-- The lines that running splits miss. -/
def State.fetchEvents (s : State) : List Instr :=
  s.ex.runs.filterMap fun e =>
    match ({ s with cur := some (e.1 / 8 * 256 + e.2) } : State).view with
    | none => none
    | some v => match s.missingLine v with
      | some (l, true) => some (.lineRefetch v.core v.asid l)
      | some (l, false) => some (.l1InstructionFill v.core v.asid l)
      | none => none

/-- The lanes of a split that wait in MWAIT or SLEEP. -/
def Split.laneWaits (sp : Split) : List Nat :=
  match sp.st with
  | .parked (.mwait ws) => ws.map (·.lane)
  | .parked (.sleep ws) => ws.map (·.1)
  | _ => []

/-- The events of a group and its splits. -/
def groupEvents (gk : Nat) (g : Group) : List Instr :=
  let c := coreOf gk
  let n := gk % 256
  let split (e : Split × Nat) : List Instr :=
    [.awaitSetSatisfied c n e.2, .splitFiling c n e.2, .batchWaitEnd c n e.2]
      ++ e.1.laneWaits.flatMap fun l => [.mwaitWake c n e.2 l, .sleepWake c n e.2 l]
  [.tlbinvComplete c n, .cwbComplete c n, .icinvComplete c n, .pilotStopComplete c n, .tileClaimUnblock c n] 
    ++ (g.splits.zipIdx).flatMap split ++ ((g.allSplits.zipIdx).drop g.splits.length).map fun e => .batchWaitEnd c n e.2

/-- The events of operations in flight. -/
def State.flightEvents (s : State) : List Instr :=
  s.ex.reqs.flatMap (fun e => [.loadDataReturn e.2.core e.1, .l1DataFill e.2.core e.1, .homeSliceAccess e.2.core e.1])
    ++ s.ex.fills.map (fun e => .l1DataFill e.2.core e.1)
    ++ s.ex.longs.map (fun e => .longLatencyResult e.2.core e.1)
    ++ s.ex.copies.flatMap (fun e => [.homeSliceAccess e.2.core e.1, .copyRequestComplete e.2.core e.1])
    ++ s.ex.qlds.flatMap (fun e => [.homeSliceAccess e.2.core e.1, .qldPush e.2.core e.1])
    ++ s.ex.fences.map (fun e => .fenceComplete e.2.core e.1)
    ++ s.ex.mq.flatMap (fun e => [.mmaChunkFetch e.1, .mmaChunkAdd e.1])
    ++ s.ex.arrays.map (fun e => .sweepColourPhase e.1)
    ++ s.mem.base.map (fun e => .baseDieRequest e.1)
    ++ s.mem.walks.map (fun e => .tableWalk e.1)
    ++ s.dev.gops.map (fun e => .gateUnitOperation e.1)

/-- The events of teams, the scheduler and contexts. A resume that no input asks for is one of a context whose faults are resolved. -/
def State.orgEvents (s : State) : List Instr :=
  s.ex.teams.flatMap (fun e => [.barrierComplete e.2.core e.1, .teamRetire e.2.core e.1, .kernelPrefetchComplete e.2.core e.1,
        .translationSwap e.2.core e.1])
    ++ s.org.ctxs.flatMap (fun e => [.stopRecordsComplete e.1, .drainExpiry e.1, .forceExpiry e.1, .contextSaveComplete e.1]
        ++ if !e.2.faulted && (e.2.saved || !e.2.halted) then [.contextResume e.1] else [])
    ++ s.org.pairs.map (fun e => .signatureMatch e.1)
    ++ s.dev.ports.map (fun e => .linkRetrainComplete e.1)
    ++ [.powerStateEntryComplete, .powerStateExit]

/-- Whether a power state lets an event happen (Table 20.2): from PS1 on the clocks of the compute dies, with their L1s, scratchpads, walkers, gate units and L2
slices, are gated; from PS2 on HBM refreshes itself; from PS3 on the memory-side cache is off; in PS4 no Helm core but 0 runs. -/
def State.powered (s : State) (i : Instr) : Bool :=
  let p := s.dev.power
  match i with
  | .gateUnitOperation _ | .tableWalk _ | .scrubPeriodExpiry .l1 | .scrubPeriodExpiry .scratch | .scrubPeriodExpiry .l2 => p == 0
  | .baseDieRequest _ | .scrubPeriodExpiry .hbm | .scrubPeriodExpiry .metadata => decide (p < 2)
  | .scrubPeriodExpiry .msc => decide (p < 3)
  | .runStart c _ => p == 0 || (decide (640 ≤ c) && (decide (p < 4) || c == 640))
  | _ => true

/-- Every event that may be pending. -/
def State.events (s : State) : List Instr :=
  (s.slotEvents ++ s.fetchEvents ++ s.ex.groups.flatMap (fun e => groupEvents e.1 e.2) ++ s.flightEvents ++ s.orgEvents).filter s.powered

/-- Whether the module sleeps or is on its way there. -/
def State.asleep (s : State) : Bool := s.dev.power != 0 || s.dev.entering.isSome

/-- Whether the next input may be taken: once boot has ended well; one that meets the module asleep wakes it first (R351). -/
def State.inputTurns (s : State) : List Turn :=
  if s.dev.boot == .done && !s.inputs.isEmpty && !(s.asleep && s.dev.exiting) then [.input] else []

/-- What may happen next: the performing of a write at its core's L1 (log 9), the eviction of any L1 line, which comes at no time a program can choose
(R108), and the clock among it. -/
def State.turns (s : State) : List Turn :=
  s.issueTurns ++ ((s.events.filter s.due).map Turn.event) ++ s.inputTurns
    ++ (s.ex.reqs.filter fun e => s.mayPerform e.1 e.2).map (fun e => .perform e.1) ++ (if s.dev.power == 0 then s.mem.l1d.map (fun e => .evict e.1) else []) ++ [.tick]

/-- What happens at once: waiting writes of the scratchpads, array and matrix instructions that need no event, bins that a context freed lets in, and
GWAITs that are decided (log 10). -/
def State.settleAll (s : State) : State :=
  let s := s.settle.drainArrays.settleBins.settleTiles
  let s := (s.ex.mq.map (·.1)).foldl (fun s c => s.drainMatrix c 4) s
  let s := s.ex.groups.foldl (fun s e => if s.groupMoves e.1 then s.settleJoin e.1 else s) s
  let waits := s.ex.groups.flatMap fun e => (List.range e.2.splits.length).map fun i => (e.1, i)
  waits.foldl (fun s w => (s.endGwait w.1 w.2).getD s) s

/-- What no choice delays: a split whose await set is full leaves its state (Table 14.2, R262), and a released frame's bytes return to the heap (R139, R369). -/
def State.atOnce (s : State) : List Instr :=
  (s.org.frames.filter (·.2.discarding)).map (fun e => .frameDiscard e.2.part e.2.base) ++ s.ex.groups.flatMap fun e => (List.range e.2.splits.length).flatMap fun i =>
    [.awaitSetSatisfied (coreOf e.1) (e.1 % 256) i, .splitFiling (coreOf e.1) (e.1 % 256) i]

/-! ### Deferral at a base die (R316, log 45) -/

/-- Ask the base die for a block that it has deferred, unless a read of it waits there already or its home slice has it. -/
def State.askBlock (s : State) (block : Nat) : State :=
  if s.mem.l2.has block || s.mem.base.any (fun e => e.2.block == block && e.2.kind == .read) then s else s.enqueueBase block .read

/-- The block that the base die would defer an event for. -/
def State.lateOf (s : State) (i : Instr) : Option Nat := match exec i s with | .next t => t.mem.late | _ => none

/-- Of some events that are due, the first that nothing defers; and, where all are deferred, the state that asks for their blocks. -/
def State.firstOf (s : State) (l : List Instr) : Option Instr × State :=
  match l.find? fun i => (s.lateOf i).isNone with
  | some i => (some i, s)
  | none => (none, l.foldl (fun s i => match s.lateOf i with | some b => s.askBlock b | none => s) s)

/-- What a step that led to a state comes to: that state; or, where the base die defers a block that it reads, nothing but the request for the block, and the
step is taken again later. -/
def State.orDefer (s t : State) : State :=
  match t.mem.late with
  | none => t
  | some b => { (s.askBlock b).idle with turn := .arbitrate }

/-- Choose what happens next (log 1): a boot that is under way goes on; then what happens at once; else a free choice where there is
one. -/
def State.arbitrate (s : State) : State :=
  match s.dev.boot with
  | .off | .running _ => { s with turn := .event .powerOnBoot }
  | .done | .failed _ _ =>
    let s := s.orDefer s.settleAll
    match s.firstOf (s.atOnce.filter s.due) with
    | (some i, s) => { s with turn := .event i }
    | (none, s) =>
      match s.turns with
      | [t] => { s with turn := t }
      | l =>
        let (n, s) := s.free
        { s with turn := l.getD (Config.pick n % l.length) .tick }

/-! ### The clock -/

/-- The timers of a split. -/
def splitTimers (gk : Nat) (e : Split × Nat) : List Instr :=
  let c := coreOf gk
  let n := gk % 256
  e.1.laneWaits.flatMap (fun l => [.mwaitTimeout c n e.2 l, .sleepWake c n e.2 l]) ++ [.gwaitTimeout c n e.2, .promiseExpiry c n e.2]

/-- The timers of contexts: a stop record is written within 128 clk of the halt (R294). -/
def State.ctxTimers (s : State) : List Instr :=
  (s.org.parts.filter fun e => e.2.chart.isSome).map (fun e => .switchTick e.1)
    ++ s.org.ctxs.flatMap fun e => (if e.2.haltClk + 128 ≤ s.dev.clock then [.stopRecordsComplete e.1] else [])
        ++ [.drainExpiry e.1, .forceExpiry e.1, .deadlineExpiry e.1]

/-- What may happen at the end of a clk, in the model's order (log 2): the timers that have run out, the launches of bins (R284) and the
dispatch choices (R278); the eye margin of a link is a free choice. -/
def State.timers (s : State) (lowMargin : Bool) : List Instr :=
  s.ex.bins.map (fun e => .binProofTimerExpiry (e.1 / 32) (e.1 % 32))
    ++ s.ex.bins.map (fun e => .binLaunch (e.1 / 32) (e.1 % 32))
    ++ s.ex.groups.map (fun e => .joinwTimeout (coreOf e.1) (e.1 % 256))
    ++ s.ex.groups.flatMap (fun e => (e.2.allSplits.zipIdx).flatMap (splitTimers e.1))
    ++ s.ctxTimers
    ++ s.org.pairs.map (fun e => .staggerExpiry e.1)
    ++ s.mem.openRecs.map (fun e => .errorRecordTimeout e.1)
    ++ [.hbm, .msc, .metadata, .l2, .l1, .scratch].map (fun l => .scrubPeriodExpiry l)
    ++ [.tokenBucketRefill]
    ++ (List.range 12).map (fun p => .linkMarginEvaluation p lowMargin)
    ++ (s.dev.ports.filter fun e => e.2.retraining && e.2.retrainAt ≤ s.dev.clock).map (fun e => .linkRetrainComplete e.1)
    ++ s.org.parts.map (fun e => .dispatchChoice e.1)

/-- The end of a clk: what is due then, one event in each step; then emptied groups retire, what was written to PRIO, CMDTAIL and CPLHEAD takes effect (R281, R342), and
the clock goes on (R7). -/
def State.tick (s : State) : State :=
  match s.firstOf ((s.timers (Config.pick s.freeCount % 2 == 1)).filter fun i => s.powered i && s.due i) with
  | (some i, s) => { performEvent i s.free.2 with turn := .tick }
  | (none, s) => { (s.retireEmpty.latchWrites.modDev fun d => { d with clock := d.clock + 1 }) with turn := .arbitrate }

/-! ### One turn -/

/-- The next input is taken, or wakes the module that sleeps (R351). -/
def State.takeInput (s : State) : State :=
  match s.inputs with
  | [] => s
  | i :: r => if s.asleep then s.modDev fun d => { d with exiting := true } else performEvent i { s with inputs := r }.idle

/-- The agent whose turn it is acts, and the next turn is the arbiter's. -/
def State.act (s : State) : Result :=
  let next : State := { s with turn := .arbitrate }
  match s.turn with
  | .arbitrate => .next s.arbitrate
  | .issue core slot => issueNext core slot next
  | .event i => .next (performEvent i next)
  | .input => .next next.takeInput
  | .perform id => .next (next.performLocal id)
  | .evict k => .next (next.l1Evict k)
  | .tick => .next s.tick

end Sys2Proof.Machine
end

