-- ==== Sys2Proof/Machine/Step.lean ====
section
/-! DEFINITION. One step of the machine, and the placing of a word for the host. -/

namespace Sys2Proof.Machine

/-- One step: the agent whose turn it is acts; where a base die defers a block that it needs, it waits for it (R316). -/
def step (s : State) : Host.Outcome State Fault Refusal :=
  match s.act with
  | .next t => .next (s.orDefer t)
  | r => r

/-- The state with an instruction stored where the next step fetches (log 23). -/
def State.withFetchWord (s : State) (nbits w : Nat) : State :=
  let iw : IWord := BitVec.ofNat 96 (w % 2 ^ nbits)
  s.placeWord (engineFor iw) iw

end Sys2Proof.Machine
end

