-- ==== Sys2Proof/Safety.lean ====
section
/-! DEFINITION. What counts as a safe machine, and the terms in which claims speak of one instruction: what a register reads as,
that the executing lanes hold live strands, and what an instruction leaves alone. -/

namespace Sys2Proof.Machine

/-- The invariant of memory: storage bytes and scratchpad words are canonical. -/
def State.Sound (s : State) : Prop := Memory.wf s.mem = true ∧ AMap.wf ({} : TWord) s.mem.scratch = true

/-- The lanes of the executing split hold live strands, no two the same (R246, R254). -/
structure View.Placed (v : View) (s : State) : Prop where
  live : ∀ l ∈ v.lanes, ∃ a, s.ex.strands.find (v.key l) = some a
  apart : ∀ l ∈ v.lanes, ∀ k ∈ v.lanes, v.key l = v.key k → l = k

/-- Nothing stops an instruction: its operands exist (R31), its guard is not poisoned (R32), no source or destination is empty (R34,
R131), no register or predicate read has an error (R132), no queue entry that it pops fails its code (R149). act are its active lanes. -/
def View.Issues (v : View) (s : State) (g : Guard) (srcs : List Use) (dsts : List (Reg × Bool)) (act : List Nat) (bad : Bool := false)
    (preds : List (BitVec 4) := []) : Prop := prologue v s g srcs dsts bad (preds := preds) = .ok (act, [])

/-- A register element as a lane of a view reads it in a state: its own strand's, its group's as that now stands, or a display register. -/
def State.elemNow (s : State) (v : View) (l r : Nat) : Elem :=
  readElem { v with grp := (s.ex.groups.find v.gk).getD v.grp } s l r

/-- A predicate as a lane of a view reads it in a state: its value and poison. -/
def State.predNow (s : State) (v : View) (l : Nat) (p : BitVec 4) : Bool × Bool := readPred v s l p

/-- What a register destination holds after an instruction: x0 discards; an x or t register has each active lane's element; a g register
has that of the highest-numbered active lane, for every lane (R131). -/
def Holds (v : View) (t : State) (act : List Nat) (r : Nat) (e : Nat → Elem) : Prop :=
  (r = 0 → ∀ l, t.elemNow v l r = {}) ∧
  (0 < r → r < 200 → ∀ l ∈ act, t.elemNow v l r = e l) ∧
  (216 ≤ r → r < 248 → ∀ h, act.getLast? = some h → ∀ l, t.elemNow v l r = e h)

/-- The registers of a destination. -/
def regsOf (d : Reg) (pair : Bool) : List Nat := if pair then [d.toNat, d.toNat + 1] else [d.toNat]

/-- A written element: full, without error. -/
def full (w : Word) (poison : Bool) : Elem := { val := w, poison := poison, full := true }

/-- What an instruction of a lane leaves alone in the lane's strand: all but the x registers of its destination, the predicates that it
names, with their parities, and %fmode, in which it only sets sticky flags (R161). -/
structure StrandKeeps (regs : List Nat) (preds : BitVec 16) (a b : Strand) : Prop where
  rest : b = { a with x := b.x, p := b.p, pp := b.pp, pe := b.pe, fmode := b.fmode }
  x : ∀ r, r = 0 ∨ r ∉ regs → AMap.get {} b.x r = AMap.get {} a.x r
  p : b.p &&& ~~~preds = a.p &&& ~~~preds
  pp : b.pp &&& ~~~preds = a.pp &&& ~~~preds
  pe : b.pe &&& ~~~preds = a.pe &&& ~~~preds
  fmode : ∃ f : BitVec 5, b.fmode = a.fmode ||| (f.setWidth 32 <<< 8)

/-- What an instruction leaves alone in its group: all but the g and t registers of its destination, the written flags of temporaries, the
run's count, which rises by one, and the PC of its split, which moves on in sequential order. -/
structure GroupKeeps (v : View) (next : Word64) (act : List Nat) (regs : List Nat) (b : Group) : Prop where
  rest : b = { (v.grp.modSplit v.idx fun sp => { sp with pc := next }) with
    g := b.g, run := { v.grp.run with t := b.run.t, tw := b.run.tw, count := v.grp.run.count + 1 } }
  g : ∀ r, 216 ≤ r → r < 248 → r ∉ regs → AMap.get {} b.g (r - 216) = AMap.get {} v.grp.g (r - 216)
  t : ∀ l r, l < 32 → 192 ≤ r → r < 200 → (r ∉ regs ∨ l ∉ act) →
    AMap.get {} b.run.t (l * 8 + (r - 192)) = AMap.get {} v.grp.run.t (l * 8 + (r - 192))
  tw : ∀ r, 192 ≤ r → r < 200 → b.run.tw.getLsbD (r - 192) = (v.grp.run.tw.getLsbD (r - 192) || regs.contains r)

/-- The queues of a team once an instruction has popped the entry that each of its queue sources reads (R149). -/
def popped (v : View) (s : State) (srcs : List Use) (q : Nat) : List QEntry :=
  let old := AMap.get [] v.team.queues q
  if srcs.any fun u => isQueue u.reg && queueKey v u.reg == q && (queueHead v s u.reg).isSome then old.tail else old

/-- THE FRAME of an instruction of the register file: of the whole machine it changes its active lanes' strands and its group as above,
and the queues that it pops, whose entries a speculating group keeps (R242); next is the PC that follows in sequential order. Memory, scratchpad, device, organisation, and every other strand, group and team are as they were. -/
structure RegisterFrame (v : View) (next : Word64) (s t : State) (act : List Nat) (regs : List Nat) (preds : BitVec 16) (srcs : List Use) : Prop where
  mem : t.mem = s.mem
  dev : t.dev = s.dev
  org : t.org = s.org
  freeCount : t.freeCount = s.freeCount
  nextId : t.nextId = s.nextId
  cur : t.cur = none
  turn : t.turn = s.turn
  inputs : t.inputs = s.inputs
  ex : t.ex = { s.ex with strands := t.ex.strands, groups := t.ex.groups, teams := t.ex.teams, specs := t.ex.specs }
  specs : t.ex.specs = (s.keepPops v.gk (popHeads v s srcs)).ex.specs
  strands : ∀ n, (∀ l ∈ act, v.key l ≠ n) → t.ex.strands.find n = s.ex.strands.find n
  own : ∀ l ∈ act, ∀ a, s.ex.strands.find (v.key l) = some a →
    ∃ b, t.ex.strands.find (v.key l) = some b ∧ StrandKeeps regs preds a b
  groups : ∀ n, n ≠ v.gk → t.ex.groups.find n = s.ex.groups.find n
  group : ∃ b, t.ex.groups.find v.gk = some b ∧ GroupKeeps v next act regs b
  teams : ∀ n, n ≠ v.teamKey → t.ex.teams.find n = s.ex.teams.find n
  team : ∃ m, t.ex.teams.find v.teamKey = some m ∧ m = { v.team with queues := m.queues } ∧
    ∀ q, AMap.get [] m.queues q = popped v s srcs q

/-- An instruction that computes COMPLETES with a result for each active lane: the destination, or its pair with the low word in the even
register (R30), holds it; its exceptions are set in %fmode (R161) and poison it where they are enabled; nothing else changes. -/
def Computes (v : View) (s : State) (act : List Nat) (srcs : List Use) (d : Reg) (pair : Bool) (out : Nat → LaneOut) (r : Result) : Prop :=
  let poison (l : Nat) : Bool := (out l).poison || enabledPoison v.grid.hdr (out l).flags
  ∃ t, r = .next t ∧ RegisterFrame v (v.nextPc s) s t act (regsOf d pair) 0 srcs
    ∧ Holds v t act d.toNat (fun l => full (lo (out l).val) (poison l))
    ∧ (pair → Holds v t act (d.toNat + 1) (fun l => full (hi (out l).val) (poison l)))
    ∧ ∀ l ∈ act, (t.strandAt (v.key l)).fmode = fmodeWith (s.strandAt (v.key l)).fmode (out l).flags

/-- An instruction that writes a predicate COMPLETES with a value and a poison for each active lane. -/
def ComputesPred (v : View) (s : State) (act : List Nat) (srcs : List Use) (p : BitVec 4) (out : Nat → Bool × LaneOut) (r : Result) : Prop :=
  ∃ t, r = .next t ∧ RegisterFrame v (v.nextPc s) s t act [] (1#16 <<< p.toNat) srcs
    ∧ (∀ l ∈ act, t.predNow v l p = ((out l).1, (out l).2.poison || enabledPoison v.grid.hdr (out l).2.flags))
    ∧ ∀ l ∈ act, (t.strandAt (v.key l)).fmode = fmodeWith (s.strandAt (v.key l)).fmode (out l).2.flags

/-- A destination is empty in every active lane: an x or t register in each, a g register for all (R177). -/
def Emptied (v : View) (t : State) (act : List Nat) (r : Nat) : Prop :=
  (0 < r → r < 200 → ∀ l ∈ act, (t.elemNow v l r).full = false) ∧
  (216 ≤ r → r < 248 → act ≠ [] → ∀ l, (t.elemNow v l r).full = false)

/-- A state with other results in flight. -/
def State.withLongs (s t : State) : State := { s with ex := { s.ex with longs := t.ex.longs }, nextId := t.nextId }

/-- An instruction of long latency COMPLETES (R177): the i-th active lane's result is in flight under the i-th fresh number, the destination is
empty meanwhile, %fmode has the exceptions; nothing else changes. -/
def ComputesLater (v : View) (s : State) (act : List Nat) (srcs : List Use) (d : Reg) (pair : Bool) (out : Nat → LaneOut) (r : Result) : Prop :=
  ∃ t, r = .next t ∧ RegisterFrame v (v.nextPc s) (s.withLongs t) t act (regsOf d pair) 0 srcs
    ∧ (∀ n ∈ regsOf d pair, Emptied v t act n)
    ∧ (∀ i, ∀ h : i < act.length, t.ex.longs.find (s.nextId + i) = some
        { core := v.core, dest := destOf v s act s.nextId act[i] d pair, vals := wordsOf pair (out act[i]).val,
          poison := (out act[i]).poison || enabledPoison v.grid.hdr (out act[i]).flags })
    ∧ (∀ n, (n < s.nextId ∨ s.nextId + act.length ≤ n) → t.ex.longs.find n = s.ex.longs.find n)
    ∧ ∀ l ∈ act, (t.strandAt (v.key l)).fmode = fmodeWith (s.strandAt (v.key l)).fmode (out l).flags

end Sys2Proof.Machine
end

