-- ==== Sys2Proof/Certificates/Slice0/Obligations.lean ====
section
/-! DEFINITION. The statements for the provers, and the terms in which they are said. A statement about one instruction says that it
completes, what it leaves, and that it leaves the rest alone; Computes, ComputesPred and ComputesLater of Safety.lean carry the frame. -/

namespace Sys2Proof.Claim

open Sys2Proof.Machine

/-! ### Operands -/

/-- Source a of a lane as a word, as the state stands. -/
def word (v : View) (s : State) (a : Src) (l : Nat) : Word := srcW v s l a.use
/-- A pair source of a lane: the even register holds the low word (R30). -/
def pair (v : View) (s : State) (a : Src) (l : Nat) : Word64 := srcW64 v s l (a.use true)
/-- Whether a source is poisoned in a lane. -/
def bad (v : View) (s : State) (a : Src) (l : Nat) (wide : Bool := false) : Bool := srcPoison v s l (a.use wide)
/-- Operand b of a lane as a word: a register's, or IMM widened by TYPE (R33). -/
def wordB (v : View) (s : State) (t : OpType) (b : SrcB) (l : Nat) : Word :=
  match b with
  | .reg r => word v s r l
  | .imm i => (immValue t i).extractLsb' 0 32
/-- Operand b of a lane as 64 bits. -/
def pairB (v : View) (s : State) (t : OpType) (b : SrcB) (l : Nat) : Word64 :=
  match b with
  | .reg r => pair v s r l
  | .imm i => immValue t i
/-- Whether operand b is poisoned in a lane; an immediate never is (R176). -/
def badB (v : View) (s : State) (b : SrcB) (l : Nat) (wide : Bool := false) : Bool :=
  match b with
  | .reg r => bad v s r l wide
  | .imm _ => false

/-- A word as an integer of the type's signedness (R179). -/
def int (t : OpType) (w : Word) : Int := if t = .s32 then w.toInt else w.toNat
/-- The range of an integer type of 32 bits. -/
def least (t : OpType) : Int := if t = .s32 then -2147483648 else 0
/-- The top of the range. -/
def most (t : OpType) : Int := if t = .s32 then 2147483647 else 4294967295

/-! ### Shapes: an instruction completes in every state in which nothing stops it, with the results that a relation allows -/

/-- One source of 32 bits. -/
def OneSource (i : FA → Instr) (ok : OpType → Bool) (R : OpType → Word → Word → Prop) : Prop :=
  ∀ (x : FA) (s : State) (v : View) (act : List Nat), ok x.ty = true → s.view = some v → v.Placed s → v.Issues s x.g [x.a.use] [(x.d, false)] act →
    ∃ r : Nat → Word, (∀ l, R x.ty (word v s x.a l) (r l)) ∧
      Computes v s act [x.a.use] x.d false (fun l => { val := (r l).setWidth 64, poison := bad v s x.a l }) (exec (i x) s)

/-- Two sources of 32 bits. -/
def TwoSource (i : FAB → Instr) (ok : OpType → Bool) (R : OpType → Word → Word → Word → Prop) : Prop :=
  ∀ (x : FAB) (s : State) (v : View) (act : List Nat), ok x.ty = true → s.view = some v → v.Placed s →
    v.Issues s x.g (x.a.use :: x.b.uses) [(x.d, false)] act →
    ∃ r : Nat → Word, (∀ l, R x.ty (word v s x.a l) (wordB v s x.ty x.b l) (r l)) ∧
      Computes v s act (x.a.use :: x.b.uses) x.d false
        (fun l => { val := (r l).setWidth 64, poison := bad v s x.a l || badB v s x.b l }) (exec (i x) s)

/-- Three sources of 32 bits. -/
def ThreeSource (i : FABC → Instr) (ok : OpType → Bool) (R : OpType → Word → Word → Word → Word → Prop) : Prop :=
  ∀ (x : FABC) (s : State) (v : View) (act : List Nat), ok x.ty = true → s.view = some v → v.Placed s →
    v.Issues s x.g (x.a.use :: x.b.uses ++ [x.c.use]) [(x.d, false)] act →
    ∃ r : Nat → Word, (∀ l, R x.ty (word v s x.a l) (wordB v s x.ty x.b l) (word v s x.c l) (r l)) ∧
      Computes v s act (x.a.use :: x.b.uses ++ [x.c.use]) x.d false
        (fun l => { val := (r l).setWidth 64, poison := bad v s x.a l || badB v s x.b l || bad v s x.c l }) (exec (i x) s)

/-- Two pairs. -/
def PairSource (i : FAB → Instr) (f : Word64 → Word64 → Word64) : Prop :=
  ∀ (x : FAB) (s : State) (v : View) (act : List Nat), x.ty.within 2 3 = true → s.view = some v → v.Placed s →
    v.Issues s x.g (x.a.use true :: x.b.uses true) [(x.d, true)] act →
    Computes v s act (x.a.use true :: x.b.uses true) x.d true
      (fun l => { val := f (pair v s x.a l) (pairB v s x.ty x.b l), poison := bad v s x.a l true || badB v s x.b l true }) (exec (i x) s)

/-- BFX of R181. -/
def Bfx (t : OpType) (a b r : Word) : Prop :=
  let pos := b.toNat % 256
  let len := min (b.toNat / 256 % 256) 32
  let above : Bool := t == .s32 && a.getLsbD 31
  let field (i : Nat) : Bool := if pos + i < 32 then a.getLsbD (pos + i) else above
  ∀ i, i < 32 → r.getLsbD i = if len = 0 then false else if i < len then field i else t == .s32 && field (len - 1)

/-- BFI of R181. -/
def Bfi (a b c r : Word) : Prop :=
  let pos := b.toNat % 256
  let n := min (min (b.toNat / 256 % 256) 32) (32 - pos)
  ∀ i, i < 32 → r.getLsbD i = if pos ≤ i ∧ i < pos + n then a.getLsbD (i - pos) else c.getLsbD i

/-- Byte i of a word. -/
def byte (w : Word) (i : Nat) : Nat := w.toNat / 2 ^ (8 * i) % 256
/-- A byte as an integer: signed for .s8. -/
def byteInt (t : OpType) (w : Word) (i : Nat) : Int := if t = .s8 ∧ 128 ≤ byte w i then byte w i - 256 else byte w i

/-- BSEL of R182. -/
def Bsel (a b c r : Word) : Prop :=
  ∀ i, i < 4 →
    let sel := byte b i
    let y := if sel % 8 < 4 then byte a (sel % 8) else byte c (sel % 8 - 4)
    byte r i = if sel / 8 % 4 = 0 then y else if sel / 8 % 4 = 1 then 0 else if sel / 8 % 4 = 2 then 255 else if 128 ≤ y then 255 else 0

/-- The sum of DOT4: c and four products of bytes. -/
def dot (t : OpType) (a b c : Word) : Int :=
  (if t = .s8 then c.toInt else c.toNat) + byteInt t a 0 * byteInt t b 0 + byteInt t a 1 * byteInt t b 1 + byteInt t a 2 * byteInt t b 2
    + byteInt t a 3 * byteInt t b 3

/-- The number of ones among the low n bits. -/
def ones (w : Word) : Nat → Nat
  | 0 => 0
  | n + 1 => ones w n + (if w.getLsbD n then 1 else 0)

/-- A source as 64 bits: a pair, or a register's word zero-extended. -/
def valueR (v : View) (s : State) (wide : Bool) (a : Src) (l : Nat) : Word64 := if wide then pair v s a l else (word v s a l).setWidth 64
/-- Operand b as 64 bits. -/
def valueB (v : View) (s : State) (t : OpType) (wide : Bool) (b : SrcB) (l : Nat) : Word64 :=
  match b with
  | .reg r => valueR v s wide r l
  | .imm i => immValue t i

/-- DIV of R180: quotient toward zero, and the exception. -/
def Quotient (t : OpType) (a b : Word) (q : Word × BitVec 5) : Prop :=
  if b = 0 then q = (0xFFFFFFFF, fDZ)
  else if t = .s32 ∧ a = 0x80000000 ∧ b = 0xFFFFFFFF then q = (0x80000000, fOF)
  else q.2 = 0 ∧ ∃ r : Int, int t a = int t q.1 * int t b + r ∧ r.natAbs < (int t b).natAbs ∧ (r = 0 ∨ (r < 0 ↔ int t a < 0))
/-- REM of R180: the sign of a. -/
def Remainder (t : OpType) (a b : Word) (r : Word × BitVec 5) : Prop :=
  if b = 0 then r = (a, fDZ)
  else if t = .s32 ∧ a = 0x80000000 ∧ b = 0xFFFFFFFF then r = (0, fOF)
  else r.2 = 0 ∧ (int t r.1).natAbs < (int t b).natAbs ∧ (r.1 = 0 ∨ (int t r.1 < 0 ↔ int t a < 0)) ∧ ∃ q : Int, int t a = q * int t b + int t r.1

/-- Two sources of 32 bits and a late result. -/
def LaterSource (i : FAB → Instr) (R : OpType → Word → Word → Word × BitVec 5 → Prop) : Prop :=
  ∀ (x : FAB) (s : State) (v : View) (act : List Nat), x.ty.i32 = true → s.view = some v → v.Placed s →
    v.Issues s x.g (x.a.use :: x.b.uses) [(x.d, false)] act →
    ∃ r : Nat → Word × BitVec 5, (∀ l, R x.ty (word v s x.a l) (wordB v s x.ty x.b l) (r l)) ∧
      ComputesLater v s act (x.a.use :: x.b.uses) x.d false
        (fun l => { val := (r l).1.setWidth 64, poison := bad v s x.a l || badB v s x.b l, flags := (r l).2 }) (exec (i x) s)

/-- The integer of a value of TYPE's width and signedness. -/
def intAt (t : OpType) (x : Word64) : Int :=
  match t with
  | .s64 => x.toInt
  | .z64 => x.toNat
  | .s32 => (lo x).toInt
  | _ => (lo x).toNat

/-- Conditions 0 to 5 of Table 2.6. -/
def Ordered (c : Cond) (a b : Int) : Prop :=
  match c with
  | .eq => a = b | .ne => a ≠ b | .lt => a < b | .le => a ≤ b | .gt => b < a | .ge => b ≤ a | _ => False

/-! ### Floating point -/

/-- An instruction of two sources with a rounding and .sat, whose element results are given. -/
def FloatTwo (i : FABR → Instr) (op : FFmt → Rounding → Nat → Nat → FRes) : Prop :=
  ∀ (x : FABR) (s : State) (v : View) (act : List Nat), x.ty.fp = true → s.view = some v → v.Placed s →
    let w := x.ty.wide
    v.Issues s x.g (x.a.use w :: x.b.uses w) [(x.d, w)] act →
    Computes v s act (x.a.use w :: x.b.uses w) x.d w (fun l =>
      map2 x.ty (fun f a b => satRes f x.sat (op f (laneRm v s l x.rm) a b)) (valueR v s w x.a l, bad v s x.a l w)
        (valueB v s x.ty w x.b l, badB v s x.b l w)) (exec (i x) s)

/-- An instruction of two sources without rounding. -/
def FloatPick (i : FAB → Instr) (op : FFmt → Nat → Nat → FRes) : Prop :=
  ∀ (x : FAB) (s : State) (v : View) (act : List Nat), x.ty.fp = true → s.view = some v → v.Placed s →
    let w := x.ty.wide
    v.Issues s x.g (x.a.use w :: x.b.uses w) [(x.d, w)] act →
    Computes v s act (x.a.use w :: x.b.uses w) x.d w (fun l =>
      map2 x.ty op (valueR v s w x.a l, bad v s x.a l w) (valueB v s x.ty w x.b l, badB v s x.b l w)) (exec (i x) s)

/-- An instruction that changes only sign bits. -/
def FloatSign (i : FA → Instr) (f : OpType → Word64 → Word64) : Prop :=
  ∀ (x : FA) (s : State) (v : View) (act : List Nat), x.ty.fp = true → s.view = some v → v.Placed s →
    let w := x.ty.wide
    v.Issues s x.g [x.a.use w] [(x.d, w)] act →
    Computes v s act [x.a.use w] x.d w
      (fun l => { val := f x.ty (valueR v s w x.a l), poison := bad v s x.a l w }) (exec (i x) s)

/-- The sign bits of a type's elements, and the bits that its elements hold (Table 9.1). -/
def signs (t : OpType) : Word64 :=
  match t with
  | .f64 => 0x8000000000000000 | .f32 => 0x80000000 | .f16 | .bf16 => 0x8000 | _ => 0x80008000
/-- The bits of a type's elements. -/
def elements (t : OpType) : Word64 :=
  match t with
  | .f64 => 0xFFFFFFFFFFFFFFFF | .f16 | .bf16 => 0xFFFF | _ => 0xFFFFFFFF

/-- An instruction of one source, a rounding and a late result. -/
def FloatLater (i : FAR → Instr) (op : FFmt → Rounding → Nat → FRes) : Prop :=
  ∀ (x : FAR) (s : State) (v : View) (act : List Nat), x.ty.fp1 = true → s.view = some v → v.Placed s →
    let w := x.ty.wide
    v.Issues s x.g [x.a.use w] [(x.d, w)] act →
    ComputesLater v s act [x.a.use w] x.d w
      (fun l => map1 x.ty (fun f a => op f (laneRm v s l x.rm) a) (valueR v s w x.a l, bad v s x.a l w)) (exec (i x) s)

/-- A transcendental function. -/
def FloatFunction (i : FA → Instr) (op : FFmt → Nat → FRes) : Prop :=
  ∀ (x : FA) (s : State) (v : View) (act : List Nat), x.ty.trans = true → s.view = some v → v.Placed s →
    v.Issues s x.g [x.a.use] [(x.d, false)] act →
    ComputesLater v s act [x.a.use] x.d false (fun l => map1 x.ty op (valueR v s false x.a l, bad v s x.a l)) (exec (i x) s)

/-- The class of an element by its fields (R186): sign, exponent field and fraction field. -/
def classBit (f : FFmt) (b : Nat) : Nat :=
  let e := b / 2 ^ f.mb % 2 ^ f.eb
  let m := b % 2 ^ f.mb
  let neg : Bool := b / 2 ^ (f.eb + f.mb) % 2 == 1
  if e = 2 ^ f.eb - 1 then (if m = 0 then (if neg then 0 else 7) else if m < 2 ^ (f.mb - 1) then 8 else 9)
  else if e = 0 then (if m = 0 then (if neg then 3 else 4) else if neg then 2 else 5)
  else if neg then 1 else 6

/-! ### Predicates and lanes -/

/-- The predicates that an optional predicate result names (R193). -/
def predsOf (p : Option (BitVec 4)) : BitVec 16 := match p with | some n => 1#16 <<< n.toNat | none => 0

/-- An instruction COMPLETES with a value, a poison and an optional predicate for each active lane; no exception is raised. -/
def WritesBoth (v : View) (s : State) (act : List Nat) (srcs : List Use) (d : Reg) (wide : Bool) (p : Option (BitVec 4))
    (val : Nat → Word64 × Bool) (ok : Nat → Bool × Bool) (r : Result) : Prop :=
  ∃ t, r = .next t ∧ RegisterFrame v (v.nextPc s) s t act (regsOf d wide) (predsOf p) srcs
    ∧ Holds v t act d.toNat (fun l => full (lo (val l).1) (val l).2)
    ∧ (wide → Holds v t act (d.toNat + 1) (fun l => full (hi (val l).1) (val l).2))
    ∧ (∀ n, p = some n → ∀ l ∈ act, t.predNow v l n = ok l)
    ∧ ∀ l ∈ act, (t.strandAt (v.key l)).fmode = (s.strandAt (v.key l)).fmode

/-- An instruction COMPLETES with a predicate alone for each active lane. -/
def WritesPred (v : View) (s : State) (act : List Nat) (srcs : List Use) (p : BitVec 4) (ok : Nat → Bool × Bool) (r : Result) : Prop :=
  ∃ t, r = .next t ∧ RegisterFrame v (v.nextPc s) s t act [] (1#16 <<< p.toNat) srcs
    ∧ (∀ l ∈ act, t.predNow v l p = ok l) ∧ ∀ l ∈ act, (t.strandAt (v.key l)).fmode = (s.strandAt (v.key l)).fmode

/-- How many slots a lane argument names (R195, R200). -/
def slots (v : View) : Nat := if v.lanePair then 16 else 32

/-- The source slot of SHFL (R195). -/
def shuffled (v : View) (m : ShflMode) (l b : Nat) : Int :=
  match m with
  | .at => (b % slots v : Nat)
  | .back => (l : Int) - b
  | .fwd => (l : Int) + b
  | .flip => (l ^^^ (b % slots v) : Nat)

/-- SHFL and SHFLR of R195: lane l takes the value of the active lane that src gives, else its own. -/
def Takes (i : FX → Instr) (src : FX → View → Nat → Nat → Nat → Prop) : Prop :=
  ∀ (x : FX) (s : State) (v : View) (act : List Nat), x.ty.w3264 = true → s.view = some v → v.Placed s →
    let w := x.ty.wide
    v.Issues s x.g (x.a.use w :: x.b.uses) [(x.d, w)] act →
    ∃ from_ : Nat → Option Nat,
      (∀ l k, from_ l = some k → k ∈ act ∧ src x v l (wordB v s .z32 x.b l).toNat k) ∧
      (∀ l, from_ l = none → ∀ k ∈ act, ¬ src x v l (wordB v s .z32 x.b l).toNat k) ∧
      WritesBoth v s act (x.a.use w :: x.b.uses) x.d w x.p
        (fun l => let k := (from_ l).getD l; (valueR v s w x.a k, bad v s x.a k w || badB v s x.b l))
        (fun l => ((from_ l).isSome, badB v s x.b l)) (exec (i x) s)

/-- The identities of Table 10.9. -/
def identity (t : OpType) (op : RedOp) : Word :=
  match op with
  | .add | .or | .xor => 0
  | .and => 0xFFFFFFFF
  | .min => if t = .s32 then 0x7FFFFFFF else if t = .f32 then 0x7F800000 else 0xFFFFFFFF
  | .max => if t = .s32 then 0x80000000 else if t = .f32 then 0xFF800000 else 0

/-- The combination of the included lanes' values in ascending slot (R198). -/
def Reduces (t : OpType) (op : RedOp) (rm : Rounding) (xs : List Word) (r : Word × BitVec 5) : Prop :=
  match xs with
  | [] => r = (identity t op, 0)
  | x :: rest =>
    if t = .f32 then r = rest.foldl (fun r y => let n := redStep .f32 op rm r.1 y; (n.1, r.2 ||| n.2)) (x, 0)
    else r.2 = 0 ∧ match op with
      | .add => r.1 = (x :: rest).foldl (· + ·) 0
      | .xor => r.1 = (x :: rest).foldl (· ^^^ ·) 0
      | .and => ∀ i, i < 32 → r.1.getLsbD i = (x :: rest).all (·.getLsbD i)
      | .or => ∀ i, i < 32 → r.1.getLsbD i = (x :: rest).any (·.getLsbD i)
      | .min => r.1 ∈ x :: rest ∧ ∀ y ∈ x :: rest, int t r.1 ≤ int t y
      | .max => r.1 ∈ x :: rest ∧ ∀ y ∈ x :: rest, int t y ≤ int t r.1

/-- REDL and SCANL over the active lanes that incl names for a lane. -/
def Combines (i : FRed → Instr) (incl : Nat → Nat → Bool) : Prop :=
  ∀ (x : FRed) (s : State) (v : View) (act : List Nat), WellFormed (i x) = true → s.view = some v → v.Placed s →
    v.Issues s x.g [x.a.use] [(x.d, false)] act →
    ∃ r : Nat → Word × BitVec 5,
      (∀ l, Reduces x.ty x.op (laneRm v s (act.headD 0) x.rm) ((act.filter (incl l)).map (word v s x.a)) (r l)) ∧
      Computes v s act [x.a.use] x.d false
        (fun l => { val := (r l).1.setWidth 64, poison := (act.filter (incl l)).any (bad v s x.a ·), flags := (r l).2 }) (exec (i x) s)

/-- The mask of the active lanes that satisfy a condition. -/
def maskOf (act : List Nat) (c : Nat → Bool) : Word := BitVec.ofNat 32 ((act.filter c).map (2 ^ ·)).sum

/-! ### Rounding, in units of the smallest subnormal of a format -/

/-- The magnitude of a finite code (without its sign), as a multiple of the smallest subnormal (Table 9.2); the code of ∞ counts as
the value that would follow the largest finite one. -/
def units (f : FFmt) (c : Nat) : Nat :=
  if c / 2 ^ f.mb = 0 then c % 2 ^ f.mb else (c % 2 ^ f.mb + 2 ^ f.mb) * 2 ^ (c / 2 ^ f.mb - 1)

/-- Where rounding up is asked for the magnitude x ÷ y between the codes k and k + 1 (R36). -/
def RoundsUp (f : FFmt) (rm : Rounding) (neg : Bool) (x y k : Nat) : Prop :=
  match rm with
  | .rz => False
  | .rd => neg = true ∧ units f k * y ≠ x
  | .ru => neg = false ∧ units f k * y ≠ x
  | .rna => (units f k + units f (k + 1)) * y ≤ 2 * x
  | _ => (units f k + units f (k + 1)) * y < 2 * x ∨ ((units f k + units f (k + 1)) * y = 2 * x ∧ k % 2 = 1)

/-- Whether x ÷ y units lies below the smallest normal value and stays there when it is rounded to the format's precision whatever its exponent (R161: underflow
is detected after rounding): just below it the codes would stand half a unit apart. -/
def Tiny (f : FFmt) (rm : Rounding) (neg : Bool) (x y : Nat) : Prop :=
  x < 2 ^ f.mb * y ∧ ¬ match rm with
    | .rz => False
    | .rd => neg = true ∧ (2 ^ (f.mb + 1) - 1) * y < 2 * x
    | .ru => neg = false ∧ (2 ^ (f.mb + 1) - 1) * y < 2 * x
    | _ => (2 ^ (f.mb + 2) - 1) * y ≤ 4 * x

/-- r is the magnitude x ÷ y units, rounded (R36, R161): the code below it or the next; past the largest finite value ∞, or that value
where the rounding points to it. It is inexact exactly where it differs, overflows exactly where no finite code is its rounding, and underflows exactly where it is
inexact and tiny. -/
def Rounded (f : FFmt) (rm : Rounding) (neg : Bool) (x y : Nat) (r : FRes) : Prop :=
  if x < units f f.inf * y then
    ∃ k, k < f.inf ∧ units f k * y ≤ x ∧ x < units f (k + 1) * y ∧
      ((RoundsUp f rm neg x y k ∧ r.1 = f.signed neg (k + 1)) ∨ (¬ RoundsUp f rm neg x y k ∧ r.1 = f.signed neg k)) ∧
      (r.2.getLsbD 4 = true ↔ units f k * y ≠ x) ∧ (r.2.getLsbD 2 = true ↔ r.1 = f.signed neg f.inf) ∧
      (r.2.getLsbD 3 = true ↔ units f k * y ≠ x ∧ Tiny f rm neg x y) ∧ r.2.getLsbD 0 = false ∧ r.2.getLsbD 1 = false
  else r.2 = fOF ||| fNX ∧
    r.1 = f.signed neg (if rm = .rz ∨ (rm = .rd ∧ neg = false) ∨ (rm = .ru ∧ neg = true) then f.maxFin else f.inf)

/-! ### The exact values behind the floating-point instructions -/

/-- The formats of Table 9.2. -/
def formats : List FFmt := [fmt16, fmtB16, fmt32, fmt64]

/-- A code of a format that is a finite number. -/
def FiniteCode (f : FFmt) (c : Nat) : Prop := c < 2 ^ f.width ∧ c % 2 ^ (f.eb + f.mb) < f.inf
/-- Whether a code is a NaN, and whether it signals (R159). -/
def nan (f : FFmt) (c : Nat) : Bool := decide (f.inf < c % 2 ^ (f.eb + f.mb))
/-- Whether a code is a signalling NaN. -/
def snan (f : FFmt) (c : Nat) : Bool := nan f c && c / 2 ^ (f.mb - 1) % 2 == 0
/-- The sign of a code. -/
def negative (f : FFmt) (c : Nat) : Bool := c / 2 ^ (f.eb + f.mb) % 2 == 1
/-- A code that is no NaN, as a signed number of units; ±∞ as the value that would follow the largest finite one. -/
def signedUnits (f : FFmt) (c : Nat) : Int := if negative f c then -(units f (c % 2 ^ (f.eb + f.mb)) : Int) else units f (c % 2 ^ (f.eb + f.mb))
/-- How many units 1.0 is. -/
def perOne (f : FFmt) : Nat := 2 ^ (f.mb + f.bias - 1)

/-- r is x ÷ y units, rounded; of an exact zero the sign is given. -/
def RoundsTo (f : FFmt) (rm : Rounding) (x : Int) (y : Nat) (zero : Bool) (r : FRes) : Prop :=
  if x = 0 then r = (f.signed zero 0, 0) else Rounded f rm (decide (x < 0)) x.natAbs y r

/-- The NaN rule of R184 where some operand is a NaN: the first of them made quiet; invalid where one signals. -/
def firstNan (f : FFmt) (ops : List Nat) : FRes :=
  (((ops.find? (nan f)).getD 0) ||| 2 ^ (f.mb - 1), if ops.any (snan f) then fNV else 0)

/-- Whether a magnitude x ÷ y between the integers n and n + 1 rounds to the upper one (R36). -/
def UpToInt (rm : Rounding) (neg : Bool) (x y n : Nat) : Prop :=
  match rm with
  | .rz => False
  | .rd => neg = true ∧ n * y ≠ x
  | .ru => neg = false ∧ n * y ≠ x
  | .rna => (2 * n + 1) * y ≤ 2 * x
  | _ => (2 * n + 1) * y < 2 * x ∨ ((2 * n + 1) * y = 2 * x ∧ n % 2 = 1)

/-- k is the magnitude x ÷ y rounded to an integer. -/
def IntOf (rm : Rounding) (neg : Bool) (x y k : Nat) : Prop :=
  ∃ n, n * y ≤ x ∧ x < (n + 1) * y ∧ ((UpToInt rm neg x y n ∧ k = n + 1) ∨ (¬ UpToInt rm neg x y n ∧ k = n))

/-- r is the positive square root of x ÷ y square units, rounded (R189); no root of a format's values overflows or underflows in it. -/
def RootOf (f : FFmt) (rm : Rounding) (x y : Nat) (r : FRes) : Prop :=
  ∃ k, k < f.inf ∧ units f k * units f k * y ≤ x ∧ x < units f (k + 1) * units f (k + 1) * y ∧
    let up : Prop := match rm with
      | .rz | .rd => False
      | .ru => units f k * units f k * y ≠ x
      | .rna => (units f k + units f (k + 1)) * (units f k + units f (k + 1)) * y ≤ 4 * x
      | _ => (units f k + units f (k + 1)) * (units f k + units f (k + 1)) * y < 4 * x ∨
          ((units f k + units f (k + 1)) * (units f k + units f (k + 1)) * y = 4 * x ∧ k % 2 = 1)
    ((up ∧ r.1 = k + 1) ∨ (¬ up ∧ r.1 = k)) ∧ (units f k * units f k * y = x → r.2 = 0) ∧ (units f k * units f k * y ≠ x → r.2 = fNX)

/-- Whether a stands below b, −0 below +0 (R185). -/
def Below (f : FFmt) (a b : Nat) : Prop := signedUnits f a < signedUnits f b ∨ (signedUnits f a = signedUnits f b ∧ negative f a = true ∧ negative f b = false)

/-! ### The end of an instruction, and of a trailer -/

/-- The state after an instruction that is no trailer, whose own effect leads to u: its queue sources popped, the count one higher, the
PC moved on in sequential order, nothing executing. -/
def ends (v : View) (s : State) (srcs : List Use) (u : State) : State := (advance v (v.nextPc s) (popQueues v srcs u)).idle

/-- A state with the strands of another. -/
def withStrands (s t : State) : State := { s with ex := { s.ex with strands := t.ex.strands } }

/-- Every strand but those of some lanes is as it was, and each of these has changed as f says. -/
def StrandsBecome (v : View) (s t : State) (act : List Nat) (f : Nat → Strand → Strand) : Prop :=
  (∀ n, (∀ l ∈ act, v.key l ≠ n) → t.ex.strands.find n = s.ex.strands.find n) ∧
  ∀ l ∈ act, t.ex.strands.find (v.key l) = (s.ex.strands.find (v.key l)).map (f l)

/-- A lane stands in a split of its group with a PC and a state, and its await set and its run's batch waits hold it there (R44, R97). -/
def LaneAt (v : View) (t : State) (aw : Await) (l : Nat) (pc : Word64) (st : SplitState) : Prop :=
  ∃ g sp, t.ex.groups.find v.gk = some g ∧ sp ∈ g.splits ∧ sp.mask.getLsbD l = true ∧ sp.pc = pc ∧ sp.st = st ∧
    (awaitRegs aw ≠ [] → ∃ m, (m, awaitRegs aw) ∈ sp.awaits ∧ m.getLsbD l = true) ∧
    ∀ w ∈ v.grp.run.bwait.getD [], w.lane = l → w ∈ sp.bw

/-- A trailer COMPLETES (R40, R41, R45, R247, R264): its active lanes go where it sends them; lanes whose guard fails continue in
sequential order; skipping lanes go to their skip targets. Its run has ended: the group has a fresh run, its slot none, and nothing else
of the group changes; u is the state after the trailer's own effect on strands. -/
structure TrailerEnds (v : View) (s u t : State) (act : List Nat) (aw : Await) (pc : Nat → Word64) (st : SplitState) : Prop where
  active : ∀ l ∈ act, LaneAt v t aw l (pc l) st
  others : ∀ l ∈ liveLanes v, l ∉ act → LaneAt v t aw l (v.nextPc s) .awaiting
  skipping : ∀ e ∈ v.grp.run.skip, v.split.mask.getLsbD e.1 = true → e.1 < 32 → LaneAt v t aw e.1 e.2 .awaiting
  rest : t = { u with cur := none, nextId := u.nextId + 1, ex := { u.ex with groups := t.ex.groups, runs := (u.endRun v.gk).ex.runs } }
  groups : ∀ n, n ≠ v.gk → t.ex.groups.find n = u.ex.groups.find n
  group : ∃ b, t.ex.groups.find v.gk = some b ∧ b = { v.grp with splits := b.splits, run := freshRun u.nextId }

/-- What holds where a trailer is judged: it may issue, its group's other splits are not parked in JOINW, and its lanes are not
compared in pairs (R300). -/
structure TrailerReady (v : View) (s : State) (g : Guard) (ops : List Use) (act : List Nat) (aw : Await) : Prop where
  view : s.view = some v
  placed : v.Placed s
  issues : v.Issues s g ops [] act (badAwait v aw)
  alone : ∀ sp ∈ v.grp.splits, ∀ q p d n, sp.st ≠ .parked (.joinw q p d n)
  single : v.lanePair = false

/-- The pair that a trailer names in D, in a lane. -/
def target (v : View) (s : State) (d : Reg) (l : Nat) : Word64 := srcW64 v s l { reg := d.toNat, pair := true }
/-- Whether that pair is poisoned. -/
def targetBad (v : View) (s : State) (d : Reg) (l : Nat) : Bool := srcPoison v s l { reg := d.toNat, pair := true }

/-- The operand of a trailer with a pair in D. -/
def pairD (d : Reg) : List Use := [{ reg := d.toNat, pair := true }]

/-- The loop stack of a lane. -/
def loopsOf (v : View) (s : State) (l : Nat) : List LoopEntry := (s.strandAt (v.key l)).loops
/-- The return stack of a lane. -/
def retsOf (v : View) (s : State) (l : Nat) : List Word64 := (s.strandAt (v.key l)).rets

/-! ### Memory accesses -/

/-- LD as its fields give it. -/
def loadOf (m : FMem) (d : Reg) : MemUse :=
  { g := m.g, ty := m.ty, space := m.space, scope := m.scope, order := m.order, hint := m.hint, a := m.a, off := m.off, kind := .load, d := some d }
/-- ST: its data is a register, or a pair for a type of 64 bits (Table 6.6). -/
def storeOf (m : FMem) (b : Src) : MemUse :=
  { g := m.g, ty := m.ty, space := m.space, scope := m.scope, order := m.order, hint := m.hint, a := m.a, off := m.off, kind := .store
    b := some (b.use m.ty.wide), words := if m.ty.wide then 2 else 1 }
/-- The words of an atomic's operand (R120): cas names the compare value and the new one. -/
def atomWords (m : FAtom) : Nat := (if m.op = .cas then 2 else 1) * (if m.ty.wide then 2 else 1)
/-- RED. -/
def redOf (m : FAtom) : MemUse :=
  { g := m.g, ty := m.ty, space := m.space, scope := m.scope, order := m.order, a := m.a, off := m.off, kind := .red m.op
    b := some (m.b.use (m.op == .cas || m.ty.wide)), words := atomWords m }
/-- ATOM. -/
def atomOf (m : FAtom) (d : Reg) : MemUse := { redOf m with kind := .atom m.op, d := some d }

/-- Whether an access reads its old value for its strand, or writes. -/
def isAtomic (m : MemUse) : Bool := match m.kind with | .atom _ | .red _ => true | _ => false

/-- The sources, and the destination, of an access. -/
def accSources (m : MemUse) : List Use := addrUse m.space m.a :: dataUses m
/-- Its destination. -/
def accDest (m : MemUse) : List (Reg × Bool) := match m.d with | some d => [(d, m.ty.wide)] | none => []
/-- The registers of its destination. -/
def accRegs (m : MemUse) : List Nat := match m.d with | some d => regsOf d m.ty.wide | none => []

/-- The right that an access needs (R72). -/
def accRight (m : MemUse) : BitVec 3 := match m.kind with | .load => 1 | .store => 2 | _ => 3

/-- AN ACCESS THAT NOTHING STOPS: no core pair, no lane pair, no speculation; nothing waits at the core's own units; operands allowed (R113,
R120), full and unpoisoned; every active lane's address good (R115) and, in spaces .g and .f, translated with the needed right (R72). as are the lanes'
addresses and units in ascending lane, u the state once they are translated. -/
structure Access (v : View) (s u : State) (m : MemUse) (act : List Nat) (as : List LaneAcc) : Prop where
  view : s.view = some v
  placed : v.Placed s
  pair : v.team.pair = none
  single : v.lanePair = false
  calm : s.ex.specs.find v.gk = none
  idle : ∀ e ∈ s.ex.reqs, e.2.localWrite = false
  named : badAddress m.space m.a = false
  data : ∀ w, m.b = some w → (m.words = 4 → w.reg % 4 = 0) ∧ (m.kind = .atom .cas → isQueue w.reg = false)
  issues : v.Issues s m.g (accSources m) (accDest m) act
  some_ : act ≠ []
  clean : poisonCauses v s act (accSources m) = []
  good : resolve v m.space m.scope.wide m.hint (accRight m) (accWidth m.ty) false
    (fun l => effAddr v s l m.space m.a m.off (accWidth m.ty) (m.kind != .load)) act s = ((as, []), u)

/-- The state that an access starts from: its addresses translated, a guest's .sys counted (R232). -/
def accState (v : View) (u : State) (m : MemUse) (act : List Nat) : State := clampSys v m.scope act u

/-- The request of a lane, as the spec's pseudocode asks for it; a load of the scratchpad that a rollback of its run's speculation left done is not made
again (R242). -/
def reqOf (v : View) (s u : State) (m : MemUse) (act : List Nat) (isn : Nat) (a : LaneAcc) : Req :=
  let n := if accWidth m.ty = 8 then 2 else 1
  let r : Req :=
    { core := v.core, asid := v.asid, kind := m.kind, unit := a.unit, ty := m.ty, addr := a.pa,
      va := if m.space = .s then a.va.toNat else va57 a.va, width := accWidth m.ty, data := laneData v u m a.lane, hint := m.hint,
      rel := m.order.releases, acq := m.order.acquires, wide := m.scope.wide, dest := destOf v s act isn a.lane (m.d.getD 0) m.ty.wide,
      got := List.replicate n none, rights := a.rights, pc := v.split.pc, sub := decide (accWidth m.ty < 4), hit := a.hit,
      fenced := m.kind != .load && (s.strandAt (v.key a.lane)).fenced, owed := m.kind != .load && (s.strandAt (v.key a.lane)).released }
  r.again v

/-- A state with the requests of another. -/
def withReqs (s t : State) : State := { s with ex := { s.ex with reqs := t.ex.reqs }, nextId := t.nextId }

/-- Whether an access reads, as it issues, what it merges with or operates on at its core's own unit, and raises a failed check there (R82, R83). -/
def consumesAtIssue (m : MemUse) : Bool := match m.kind with | .store => decide (accWidth m.ty < 4) | .red _ => true | _ => false

/-- An access COMPLETES AT ISSUE: one request for each active lane is in flight, the destination is empty meanwhile (R117), and no other
register, flag or queue changes but those that the frame names; translation changes neither execution nor organisation. -/
def InFlight (i : Instr) (m : MemUse) : Prop :=
  ∀ (v : View) (s u : State) (act : List Nat) (as : List LaneAcc), Access v s u m act as →
    (m.kind = .load ∨ ∀ a ∈ as, a.unit ≠ .scratch) →
    (consumesAtIssue m = true → (badNow v (accWidth m.ty) (as.filter fun a => !u.strandHeld v a.lane (m.kind != .load)) u).1 = []) →
    ∃ t, exec i s = .next t ∧ u.ex = s.ex ∧ u.org = s.org ∧ as.map LaneAcc.lane = act ∧ t.nextId = u.nextId + act.length ∧
      RegisterFrame v (v.nextPc s) (withReqs (accState v u m act) t) t act (accRegs m) 0 (accSources m) ∧
      (∀ n ∈ accRegs m, Emptied v t act n) ∧
      (∀ k, ∀ h : k < as.length, t.ex.reqs.find (u.nextId + k) = some (reqOf v s u m act u.nextId as[k])) ∧
      ∀ n, (n < u.nextId ∨ u.nextId + act.length ≤ n) → t.ex.reqs.find n = u.ex.reqs.find n

/-- A request that has its translation and is performed now, no error standing in memory and no eviction owed before it: no release or acquire of wide scope. -/
structure Performing (s : State) (id : Nat) (r : Req) : Prop where
  here : s.ex.reqs.find id = some r
  due : r.done = false
  calm : s.mem.errors = [] ∧ s.mem.owing = [] ∧ r.owed = false
  plain : r.wide = false ∨ (r.rel = false ∧ r.acq = false)
  sized : r.width = accWidth r.ty ∧ r.got.length = r.count
  aligned : r.va % r.width = 0 ∧ r.addr % 128 = r.va % 128

/-- Words with some replaced, under fresh codes, from an index on. -/
def spliced (old : List TWord) (at_ : Nat) (new : List Word) : List TWord :=
  (List.range old.length).map fun i => if at_ ≤ i ∧ i < at_ + new.length then TWord.fresh (new.getD (i - at_) 0) else old.getD i {}

/-- What an access leaves of the L1s and the rest of the machine, but for its request and its team: words of the line at k are replaced and dirty from an index on; the
line's other words, every other line, and all else in memory are as they were (which lines a victim is chosen by aside, R109). -/
def L1Wrote (s t : State) (k at_ : Nat) (new : List Word) : Prop :=
  t = { s with mem := { s.mem with l1d := t.mem.l1d }, ex := t.ex } ∧
  (∀ j, j ≠ k → (t.mem.l1d.find j).map (fun l => { l with nru := false }) = (s.mem.l1d.find j).map fun l => { l with nru := false }) ∧
  ∃ l m, s.mem.l1d.find k = some l ∧ t.mem.l1d.find k = some m ∧ m = { l with words := spliced l.words at_ new, dirty := m.dirty, keep := m.keep, nru := m.nru } ∧
    ∀ i, i < 32 → (m.isDirty i = true ↔ l.isDirty i = true ∨ (at_ ≤ i ∧ i < at_ + new.length))

/-- Nothing is in flight that a new access could wait for. -/
def Quiet (s : State) : Prop := s.ex.reqs = [] ∧ s.ex.fences = [] ∧ s.ex.qlds = [] ∧ s.ex.mq = [] ∧ s.ex.copies = []

/-- The offset of a lane in the team's scratchpad (R86, R115). -/
def offset (v : View) (s : State) (a : Src) (off : Word) (l : Nat) : Nat := (word v s a l + off).toNat

/-- The number of the scratchpad word that a lane's offset names. -/
def scratchWord (v : View) (s : State) (a : Src) (off : Word) (l : Nat) : Nat := v.core * 98304 + (v.team.scratchBase + offset v s a off l) / 4

/-! ### Engines -/

/-- A group outside the redundancy modes (R300, R301): its instructions are neither compared, signed nor forwarded. -/
structure Solo (v : View) (s : State) : Prop where
  view : s.view = some v
  placed : v.Placed s
  pair : v.team.pair = none
  single : v.lanePair = false

/-- An instruction that writes each active lane's D from a state u that its own effect has led to; the frame is relative to u. -/
def WritesFrom (v : View) (s u : State) (act : List Nat) (srcs : List Use) (d : Reg) (wide : Bool) (val : Nat → Word64) (r : Result) : Prop :=
  ∃ t, r = .next t ∧ RegisterFrame v (v.nextPc s) u t act (regsOf d wide) 0 srcs
    ∧ Holds v t act d.toNat (fun l => full (lo (val l)) false)
    ∧ (wide → Holds v t act (d.toNat + 1) (fun l => full (hi (val l)) false))

/-- The four registers of a descriptor (R205, Table 5.2). -/
def quad (r : Reg) (ea : Bool) : List Use := (List.range 4).map fun i => { reg := r.toNat + i, ea := ea }

/-- The sources of COPY. -/
def copySources (form : CopyForm) (a b c : Src) : List Use := [a.use true, b.use (form == .gg)] ++ quad c.reg c.ea

/-- A copy request as the lane's descriptor gives it (R90, R91). -/
def copyRequest (v : View) (s : State) (form : CopyForm) (a b c : Src) (l : Nat) : CopyReq :=
  let w (i : Nat) : Word := (s.elemNow v l (c.reg.toNat + i)).val
  { core := v.core, team := v.teamKey, strand := v.key l, uid := (s.strandAt (v.key l)).uid, lane := l, pilot := v.pilot, form := form,
    strided := (pair v s a l).toNat, packed := (if form = .gg then (pair v s b l).toNat else (word v s b l).toNat),
    words := (w 0).toNat % 2 ^ 24 / 4, rows := (w 1).toNat % 2 ^ 16 + 1, planes := (w 1).toNat / 2 ^ 16 + 1,
    rstride := (w 2).toInt, pstride := (w 3).toInt, dims := (w 0).toNat / 2 ^ 30
    fenced := (s.strandAt (v.key l)).fenced, owed := (s.strandAt (v.key l)).released }

/-- The checks of R92 on a request that is not empty: its shape, alignment, and for scratchpad forms its allocation. -/
def copyOk (v : View) (s : State) (form : CopyForm) (a b c : Src) (l : Nat) : Prop :=
  let w (i : Nat) : Word := (s.elemNow v l (c.reg.toNat + i)).val
  let r := copyRequest v s form a b c l
  let dims := (w 0).toNat / 2 ^ 30
  let bytes := (w 0).toNat % 2 ^ 24 * r.rows * r.planes
  dims ≠ 0 ∧ (w 0).toNat / 2 ^ 24 % 64 = 0 ∧ (w 0).toNat % 4 = 0 ∧ (r.planes = 1 ∨ dims = 3) ∧ (r.rows = 1 ∨ dims ≠ 1) ∧ bytes ≤ 2 ^ 24 ∧
    r.strided % 4 = 0 ∧ r.packed % 4 = 0 ∧ r.rstride % 4 = 0 ∧ r.pstride % 4 = 0 ∧ (form ≠ .gg → r.packed + bytes ≤ v.scratch)

/-- A matrix instruction of some lanes, entered into its core's unit (R201, R204). -/
def matrixOp (v : View) (s : State) (act : List Nat) (tile : BitVec 3) (op : MOp) : MInstr :=
  { team := v.teamKey, gk := v.gk, pc := v.split.pc, isn := s.nextId, tile := tile.toNat,
    strands := act.foldl (fun m l => AMap.put m l (v.key l)) [], four := false, op := op
    fenced := (act.map v.key).filter fun k => (s.strandAt k).fenced, owed := (act.map v.key).filter fun k => (s.strandAt k).released }

/-- A state whose core's matrix queue ends with one more instruction, under the next number. -/
def queued (v : View) (s : State) (i : MInstr) : State :=
  { s with nextId := s.nextId + 1, ex := { s.ex with mq := s.ex.mq.put v.core (AMap.get [] s.ex.mq v.core ++ [i]) } }

/-- A tile once a claim has been made, where one is due (R202, R203). -/
def claimed (v : View) (s : State) (tile : BitVec 3) : State :=
  if s.checkTile v.teamKey v.team tile.toNat .claim = .claim then s.claimTile v.teamKey v.team tile.toNat else s

/-- The unit has room: fewer than four instructions are in flight (R201). -/
def Room (v : View) (s : State) : Prop := (s.matrixInFlight v.core).length < 4

/-- Nothing stands in a core's matrix queue, and the team of a view may go on there. -/
def UnitIdle (v : View) (s : State) : Prop :=
  AMap.get [] s.ex.mq v.core = [] ∧ v.team.core = v.core ∧ v.team.saved = false ∧ v.ctx.halted = false

/-- What a core's unit does with an instruction that has entered its queue: an idle unit takes it up at once. -/
def started (v : View) (s u : State) : State := if s.matrixInFlight v.core = [] then u.drainMatrix v.core 1 else u

/-- The descriptor of R205 in a lane. -/
def descriptor (v : View) (s : State) (a : Src) (l : Nat) : TileDesc := descOf v s l a

/-- The lanes agree on a descriptor and no check of R205 and R206 fails for the rows of the active lanes. -/
def DescOk (v : View) (s : State) (act : List Nat) (a : Src) (n : Nat) : Prop :=
  badDesc a = false ∧ descCauses v s act [a] (quad a.reg a.ea) = [] ∧
    rangeCauses v act (descriptor v s a (act.headD 0)) n = []

/-- A gate that a handle names may be used (R319, R322): the handle is current, and the right is granted to the partition. -/
def GateOpen (s : State) (n part right : Nat) (h : Word) : Prop := s.gateCurrent h = true ∧ (s.gate n).allows part right = true

/-- A team that can no longer roll back (R298). -/
def irrevocable (v : View) (s : State) : State := s.modTeam v.teamKey fun t => { t with irrevocable := true }

/-- A group that waits within its run. -/
def blocked (v : View) (s : State) (b : Block) : State := s.modGroup v.gk fun g => { g with block := some b }

/-! ### Events -/

/-- A state with the groups counted that a slot passes over in another state for a group (R285). -/
def passedOver (s : State) (core slot gk : Nat) (t : State) : State :=
  (((s.startable core slot).filter fun e => e.1 != gk).map (·.1)).foldl (fun s k => s.modGroup k fun g => { g with passed := g.passed + 1 }) t

/-- A group is in no core pair, so that no result is forwarded or taken. -/
def Alone (s : State) (d : Dest) : Prop := (s.ex.teams.find (d.strand / 2048)).bind (·.pair) = none

/-- A request's words as they have come. -/
def wordsOfReq (r : Req) : List TWord := r.got.map (·.getD {})

/-- A group as it stands once what held its issuing split is over. -/
def unblocked (s : State) (gk : Nat) : State := s.modGroup gk fun g => { g with block := none }

/-- The position of the operation that a gate unit performs next: of the earliest of each group's, the one that the schedule takes. -/
def arrives (s : State) (n : Nat) : Nat :=
  let c := gateNext (AMap.get [] s.dev.gops n)
  c.getD (Config.pick s.freeCount % c.length) 0

/-- The state in which a gate unit has taken its next operation. -/
def taken (s : State) (n : Nat) : State :=
  let rest := (AMap.get [] s.dev.gops n).eraseIdx (arrives s n)
  s.free.2.modDev fun d => { d with gops := if rest.isEmpty then d.gops.del n else AMap.put d.gops n rest }

/-- Whether a queue has a head team that fits a core and may be dispatched (R277 to R279). -/
def Eligible (s : State) (part q : Nat) : Prop := q < 64 ∧ s.headFits part q = true ∧ 0 ≤ (s.lqueue part q).deficit

/-- The clk of S3 of a ladder that began at t (R306): DRAIN and SOFT after the tick, and never after DEADLINE. -/
def forced (c : Ctx) (t : Nat) : Nat := min (t + (c.preempt.extractLsb' 2 20).toNat + (c.preempt.extractLsb' 22 20).toNat) (t + (c.preempt.extractLsb' 42 20).toNat)

/-- A context's ladder at a stage. -/
def onLadder (s : State) (asid t : Nat) (g : Stage) : State := s.modCtx asid fun c => { c with ladder := some (t, g) }

/-- A command slot that holds a command of a kind, as R343 lays it out, with its sequence in the first word and no word that must be zero set. -/
def commandWords (seq : Word) (kind : Nat) (va : Word64) (bus : Word64) (bytes queue : Word) : List Word :=
  [seq, BitVec.ofNat 32 kind, va.extractLsb' 0 32, va.extractLsb' 32 32, bus.extractLsb' 0 32, bus.extractLsb' 32 32, bytes, queue, 0, 0, 0, 0, 0, 0, 0, 0]

/-- A channel that may consume a command (R342): enabled, with one pending and room for its completion. -/
def Serves (s : State) (part ch : Nat) : Prop :=
  s.hasVf part = true ∧ (s.channel part ch).en = true ∧ (s.channel part ch).pending ≠ 0 ∧ (s.channel part ch).cplFull = false

/-- The state once a channel's next command is taken. -/
def consumed (s : State) (part ch : Nat) : State := s.modChannel part ch fun c => { c with cmdhead := c.cmdhead + 1 }

/-- A flit that its CRC, in its last four bytes, does not accuse. -/
def Sound (f : Flit) : Prop := f.fecFailed = false ∧ f.bytes.length = 256 ∧ leNat (f.bytes.drop 252) = (Config.linkCrc (f.bytes.take 252)).toNat

/-! ### Steps and encodings -/

/-- A split that may issue now, as an issue slot finds it, no error standing in an instruction line: u is the state in which it executes (R40, R242). -/
structure Issuing (s u : State) (v : View) : Prop where
  turn : ∃ core slot, s.turn = .issue core slot ∧ s.slotGroup core slot = some v.gk
  state : u = { s with turn := .arbitrate, cur := some v.gk }
  view : u.view = some v
  may : u.mayIssue v = true
  clean : ∀ e ∈ s.mem.errors, e.level ≠ 4

/-- The native word at a split's PC (R22, R23, R24, R333): its line is in the segment, resident and passed its check, its line word's must-be-zero bits are zero, and the slot that the PC names is valid and holds w. -/
def NativeAt (u : State) (v : View) (w : IWord) : Prop :=
  v.team.inNative = true ∧ pcForm v.split.pc = true ∧ nativeOutside v.team (lineVa v.split.pc) = false ∧ ∃ ws, u.goodLine v (lineVa v.split.pc) = some ws ∧
    lineIllegal ws = false ∧ slotValid ws (slotNo v.split.pc) = true ∧ slotWord ws (slotNo v.split.pc) = w

/-- The syllables of DPF code at a split's PC (R333, R335): S2 stands there where S0 asks for it, and is zero otherwise. -/
def SyllablesAt (u : State) (v : View) (s0 s1 s2 : Word) : Prop :=
  let at_ (va : Word64) (w : Word) : Prop := dpfOutside v.team va = false ∧ ∃ x, u.syllable v va = some x ∧ x.data = w
  v.team.inNative = false ∧ v.split.pc.extractLsb' 0 2 = 0 ∧ at_ v.split.pc s0 ∧ at_ (v.split.pc + 4) s1 ∧
    if s0.getLsbD 30 = true ∧ s0.getLsbD 31 = true then at_ (v.split.pc + 8) s2 else s2 = 0

end Sys2Proof.Claim

section
open Sys2Proof Sys2Proof.Machine Sys2Proof.Claim

/-! ### The integer instructions (class 0) -/

/-- Table 10.3 for the instructions of two sources: ADD, SUB, ADDS, MUL, MULH, MIN, MAX, AND, OR, XOR, ANDN, SHL, SHR, SAR and ROL complete
with these results in every active lane, for every operand form, poisoned as R176 says; nothing else changes. Table 10.3 for the instructions of one source: NEG, NOT, ABS, POPC, CLZ, CTZ and BREV. -/
def Obligations.IntegerArithmetic : Prop :=
  (TwoSource .add OpType.i32 (fun _ a b r => r = a + b) ∧
   TwoSource .sub OpType.i32 (fun _ a b r => r = a - b) ∧
   TwoSource .adds OpType.i32 (fun t a b r => r = BitVec.ofInt 32 (max (least t) (min (most t) (int t a + int t b)))) ∧
   TwoSource .mul OpType.i32 (fun _ a b r => r = a * b) ∧
   TwoSource .mulh OpType.i32 (fun t a b r => r = BitVec.ofInt 32 (int t a * int t b / 4294967296)) ∧
   TwoSource .min OpType.i32 (fun t a b r => (r = a ∨ r = b) ∧ int t r ≤ int t a ∧ int t r ≤ int t b) ∧
   TwoSource .max OpType.i32 (fun t a b r => (r = a ∨ r = b) ∧ int t a ≤ int t r ∧ int t b ≤ int t r) ∧
   TwoSource .and OpType.i32 (fun _ a b r => r = a &&& b) ∧
   TwoSource .or OpType.i32 (fun _ a b r => r = a ||| b) ∧
   TwoSource .xor OpType.i32 (fun _ a b r => r = a ^^^ b) ∧
   TwoSource .andn OpType.i32 (fun _ a b r => r = a &&& ~~~b) ∧
   TwoSource .shl OpType.i32 (fun _ a b r => r = a <<< b.toNat) ∧
   TwoSource .shr OpType.i32 (fun _ a b r => r = a >>> b.toNat) ∧
   TwoSource .sar OpType.i32 (fun _ a b r => ∀ i, i < 32 → r.getLsbD i = if i + b.toNat < 32 then a.getLsbD (i + b.toNat) else a.getLsbD 31) ∧
   TwoSource .rol OpType.i32 (fun _ a b r => ∀ i, i < 32 → r.getLsbD ((i + b.toNat) % 32) = a.getLsbD i)) ∧
  OneSource .neg OpType.i32 (fun _ a r => r = 0 - a) ∧
  OneSource .not OpType.i32 (fun _ a r => ∀ i, i < 32 → r.getLsbD i = !a.getLsbD i) ∧
  OneSource .abs (· == .s32) (fun _ a r => r = BitVec.ofNat 32 a.toInt.natAbs) ∧
  OneSource .popc OpType.i32 (fun _ a r => r.toNat = ones a 32) ∧
  OneSource .clz OpType.i32 (fun _ a r => (∀ i, i < r.toNat → a.getLsbD (31 - i) = false) ∧
    (r.toNat = 32 ∨ (r.toNat < 32 ∧ a.getLsbD (31 - r.toNat) = true))) ∧
  OneSource .ctz OpType.i32 (fun _ a r => (∀ i, i < r.toNat → a.getLsbD i = false) ∧
    (r.toNat = 32 ∨ (r.toNat < 32 ∧ a.getLsbD r.toNat = true))) ∧
  OneSource .brev OpType.i32 (fun _ a r => ∀ i, i < 32 → r.getLsbD i = a.getLsbD (31 - i))

/-- R181: BFX and BFI. R182: BSEL. -/
def Obligations.FieldsAndBytes : Prop :=
  (TwoSource .bfx OpType.i32 Bfx ∧ ThreeSource .bfi OpType.i32 (fun _ => Bfi)) ∧
  ThreeSource .bsel (· == .z32) (fun _ => Bsel)

/-- Table 10.3 for MAD and DOT4: the total of DOT4 is reduced, or clamped with .sat. Table 10.3 for the pairs: ADD64, SUB64, and LEA, whose index is extended by TYPE and shifted. -/
def Obligations.MultiplyAddAndPairs : Prop :=
  (ThreeSource .mad OpType.i32 (fun _ a b c r => r = a * b + c) ∧
   ThreeSource (.dot4 · false) (OpType.within · 10 11) (fun t a b c r => r = BitVec.ofInt 32 (dot t a b c)) ∧
   ThreeSource (.dot4 · true) (OpType.within · 10 11) (fun t a b c r => r = BitVec.ofInt 32
     (if t = .s8 then max (-2147483648) (min 2147483647 (dot t a b c)) else min 4294967295 (dot t a b c)))) ∧
  PairSource .add64 (fun a b => a + b) ∧ PairSource .sub64 (fun a b => a - b) ∧
  ∀ (x : FAB) (sh : BitVec 5) (s : State) (v : View) (act : List Nat), x.ty.i32 = true → s.view = some v → v.Placed s →
    v.Issues s x.g (x.a.use true :: x.b.uses) [(x.d, true)] act →
    Computes v s act (x.a.use true :: x.b.uses) x.d true (fun l =>
      let b := wordB v s x.ty x.b l
      { val := pair v s x.a l + BitVec.ofInt 64 ((if x.ty = .s32 then b.toInt else b.toNat) * 2 ^ sh.toNat),
        poison := bad v s x.a l true || badB v s x.b l }) (exec (.lea x sh) s)

/-- R180: DIV and REM truncate toward zero; the corner cases of Table 10.4 set their sticky flag and poison where the mask enables it. ISETP (R37, Table 10.3): the condition on integers of the type's width and signedness. -/
def Obligations.DivisionAndCompare : Prop :=
  (LaterSource .div Quotient ∧ LaterSource .rem Remainder) ∧
  ∀ (x : FCmp) (s : State) (v : View) (act : List Nat), WellFormed (.isetp x) = true → s.view = some v → v.Placed s →
    let w := x.ty.wide
    v.Issues s x.g (x.a.use w :: x.b.uses w) [] act →
    ∃ r : Nat → Bool, (∀ l, r l = true ↔ Ordered x.cond (intAt x.ty (valueR v s w x.a l)) (intAt x.ty (valueB v s x.ty w x.b l))) ∧
      ComputesPred v s act (x.a.use w :: x.b.uses w) x.p (fun l => (r l, { poison := bad v s x.a l w || badB v s x.b l w })) (exec (.isetp x) s)

/-- Table 10.3: MOV moves b, and SEL a or b by the predicate, with the fill of Table 9.1; SEL ignores the poison of the source that is
not selected. NOP (R48) completes in every state that has an executing split: nothing changes but its run's count and its split's PC. -/
def Obligations.MovesAndNop : Prop :=
  ((∀ (x : FB) (s : State) (v : View) (act : List Nat), x.ty.plain = true → s.view = some v → v.Placed s →
     let w := x.ty.wide
     v.Issues s x.g (x.b.uses w) [(x.d, w)] act →
     Computes v s act (x.b.uses w) x.d w (fun l => { val := fillOf x.ty (valueB v s x.ty w x.b l), poison := badB v s x.b l w }) (exec (.mov x) s)) ∧
   ∀ (x : FAB) (p : BitVec 4) (s : State) (v : View) (act : List Nat), x.ty.plain = true → s.view = some v → v.Placed s →
     let w := x.ty.wide
     v.Issues s x.g (x.a.use w :: x.b.uses w) [(x.d, w)] act (preds := [p]) →
     Computes v s act (x.a.use w :: x.b.uses w) x.d w (fun l =>
       if (s.predNow v l p).1 then { val := fillOf x.ty (valueR v s w x.a l), poison := (s.predNow v l p).2 || bad v s x.a l w }
       else { val := fillOf x.ty (valueB v s x.ty w x.b l), poison := (s.predNow v l p).2 || badB v s x.b l w }) (exec (.sel x p) s)) ∧
  ∀ (s : State) (v : View), s.view = some v → exec .nop s = .next (advance v (v.nextPc s) s).idle ∧
    ∀ t, exec .nop s = .next t → RegisterFrame v (v.nextPc s) s t [] [] 0 []

/-! ### The floating-point instructions (class 1) -/

/-- FADD, FSUB, FMUL, FFMA, FSCALE and FRND complete with their element results for every type, rounding (.rdyn takes the lane's
%fmode.RM) and .sat. The element results are right (R184, R188): in each format of Table 9.2, of finite operands the exact sum, difference, product, a × b + c or a × 2^b
rounded once, an exact zero with its sign; the first NaN made quiet; the canonical NaN with invalid for ∞ − ∞ and 0 × ∞; FRND the integral neighbour that the rounding asks
for. .sat clamps to +0 … 1.0, and of packed types each half is an element. -/
def Obligations.FloatArithmetic : Prop :=
  (∀ f ∈ formats, ∀ (rm : Rounding) (a b c : Nat), a < 2 ^ f.width → b < 2 ^ f.width → c < 2 ^ f.width →
    let neg := negative f
    let z (p q : Bool) : Bool := if p = q then p else rm == .rd
    let inf (x : Nat) : Prop := x % 2 ^ (f.eb + f.mb) = f.inf
    let zero (x : Nat) : Prop := x % 2 ^ (f.eb + f.mb) = 0
    (FiniteCode f a → FiniteCode f b →
      RoundsTo f rm (signedUnits f a + signedUnits f b) 1 (z (neg a) (neg b)) (f.add rm a b) ∧
      RoundsTo f rm (signedUnits f a - signedUnits f b) 1 (z (neg a) (!neg b)) (f.sub rm a b) ∧
      RoundsTo f rm (signedUnits f a * signedUnits f b) (perOne f) (neg a != neg b) (f.mul rm a b) ∧
      (FiniteCode f c → RoundsTo f rm (signedUnits f a * signedUnits f b + signedUnits f c * perOne f) (perOne f) (z (neg a != neg b) (neg c)) (f.fma rm a b c))) ∧
    ((nan f a || nan f b) = true → f.add rm a b = firstNan f [a, b] ∧ f.sub rm a b = firstNan f [a, b] ∧ f.mul rm a b = firstNan f [a, b]) ∧
    ((nan f a || nan f b || nan f c) = true → (f.fma rm a b c).1 = (firstNan f [a, b, c]).1 ∧
      (f.fma rm a b c).2 = (firstNan f [a, b, c]).2 ||| (if (inf a ∧ zero b) ∨ (zero a ∧ inf b) then fNV else 0)) ∧
    (inf a → nan f b = false →
      f.add rm a b = (if inf b ∧ neg a ≠ neg b then (f.qnan, fNV) else (a, 0)) ∧
      f.sub rm a b = (if inf b ∧ neg a = neg b then (f.qnan, fNV) else (a, 0)) ∧
      f.mul rm a b = (if zero b then (f.qnan, fNV) else (f.signed (neg a != neg b) f.inf, 0))) ∧
    (FiniteCode f a → inf b → f.add rm a b = (b, 0) ∧ f.sub rm a b = (f.signed (!neg b) f.inf, 0) ∧
      f.mul rm a b = (if zero a then (f.qnan, fNV) else (f.signed (neg a != neg b) f.inf, 0))) ∧
    (∀ n : Int, FiniteCode f a → (zero a → f.scale rm a n = (a, 0)) ∧
      (¬ zero a → RoundsTo f rm (signedUnits f a * 2 ^ n.toNat) (2 ^ (-n).toNat) false (f.scale rm a n))) ∧
    (FiniteCode f a → ∃ k d, IntOf rm (neg a) (units f (a % 2 ^ (f.eb + f.mb))) (perOne f) k ∧ units f d = k * perOne f ∧ d < f.inf ∧ f.rnd rm a = (f.signed (neg a) d, 0)) ∧
    (nan f a = true → f.rnd rm a = firstNan f [a] ∧ ∀ n, f.scale rm a n = firstNan f [a]) ∧ (inf a → f.rnd rm a = (a, 0) ∧ ∀ n, f.scale rm a n = (a, 0)) ∧
    (∀ e, satRes f true (a, e) = (if nan f a = true ∨ neg a = true then 0 else min a f.one, e)) ∧ ∀ e, satRes f false (a, e) = (a, e)) ∧
  (∀ t ∈ [OpType.f16x2, .bf16x2], ∀ (op : FFmt → Nat → Nat → FRes) (a b : Word64 × Bool),
    let e (x : Word64 × Bool) (i : Nat) : Nat := x.1.toNat / 65536 ^ i % 65536
    let r (i : Nat) : FRes := op (fmtOf t) (e a i) (e b i)
    map2 t op a b = { val := BitVec.ofNat 64 ((r 0).1 + (r 1).1 * 65536), poison := a.2 || b.2, flags := (r 0).2 ||| (r 1).2 }) ∧
  FloatTwo .fadd FFmt.add ∧ FloatTwo .fsub FFmt.sub ∧ FloatTwo .fmul FFmt.mul ∧
  (∀ (x : FABR) (c : Src) (s : State) (v : View) (act : List Nat), x.ty.fp = true → s.view = some v → v.Placed s →
    let w := x.ty.wide
    v.Issues s x.g (x.a.use w :: x.b.uses w ++ [c.use w]) [(x.d, w)] act →
    Computes v s act (x.a.use w :: x.b.uses w ++ [c.use w]) x.d w (fun l =>
      map3 x.ty (fun f a b c => satRes f x.sat (f.fma (laneRm v s l x.rm) a b c)) (valueR v s w x.a l, bad v s x.a l w)
        (valueB v s x.ty w x.b l, badB v s x.b l w) (valueR v s w c l, bad v s c l w)) (exec (.ffma x c) s)) ∧
  (∀ (x : FABR) (s : State) (v : View) (act : List Nat), x.ty.fp1 = true → s.view = some v → v.Placed s →
    let w := x.ty.wide
    v.Issues s x.g (x.a.use w :: x.b.uses) [(x.d, w)] act →
    Computes v s act (x.a.use w :: x.b.uses) x.d w (fun l =>
      map1 x.ty (fun f a => satRes f x.sat (f.scale (laneRm v s l x.rm) a (wordB v s .s32 x.b l).toInt))
        (valueR v s w x.a l, bad v s x.a l w || badB v s x.b l)) (exec (.fscale x) s)) ∧
  ∀ (x : FAR) (s : State) (v : View) (act : List Nat), x.ty.fp1 = true → s.view = some v → v.Placed s →
    let w := x.ty.wide
    v.Issues s x.g [x.a.use w] [(x.d, w)] act →
    Computes v s act [x.a.use w] x.d w
      (fun l => map1 x.ty (fun f a => f.rnd (laneRm v s l x.rm) a) (valueR v s w x.a l, bad v s x.a l w)) (exec (.frnd x) s)

/-- R186: FABS clears and FNEG inverts the sign bit of each element and nothing else; FCLASS sets exactly the bit of the class. FMIN, FMAX, FMINM, FMAXM and FSETP complete with
their element results, and these are right (R185, R187, R37): the smaller or larger operand, −0 below +0, NaNs as each instruction treats them; the condition on the values, unordered
where an operand is a NaN; invalid for a signalling NaN, and for a quiet one under .lt, .le, .gt and .ge. -/
def Obligations.FloatSignClassAndCompare : Prop :=
  (∀ f ∈ formats, ∀ a b : Nat, a < 2 ^ f.width → b < 2 ^ f.width →
    let un : Bool := nan f a || nan f b
    let nv : BitVec 5 := if snan f a || snan f b then fNV else 0
    (un = false → (Below f a b → f.minMax false a b = (a, 0) ∧ f.minMax true a b = (b, 0) ∧ f.minMaxM false a b = (a, 0) ∧ f.minMaxM true a b = (b, 0)) ∧
      (¬ Below f a b → f.minMax false a b = (b, 0) ∧ f.minMax true a b = (a, 0) ∧ f.minMaxM false a b = (b, 0) ∧ f.minMaxM true a b = (a, 0))) ∧
    (un = true → ∀ large, f.minMax large a b = (if nan f a && nan f b then f.qnan else if nan f a then b else a, nv) ∧ f.minMaxM large a b = firstNan f [a, b]) ∧
    ∀ c : Cond, ((f.cond c a b).1 = true ↔ match c with
        | .num => un = false
        | .nan => un = true
        | .equ => un = true ∨ signedUnits f a = signedUnits f b
        | .neu => un = true ∨ signedUnits f a ≠ signedUnits f b
        | .ltu => un = true ∨ signedUnits f a < signedUnits f b
        | .leu => un = true ∨ signedUnits f a ≤ signedUnits f b
        | .gtu => un = true ∨ signedUnits f b < signedUnits f a
        | .geu => un = true ∨ signedUnits f b ≤ signedUnits f a
        | c => un = false ∧ Ordered c (signedUnits f a) (signedUnits f b)) ∧
      (f.cond c a b).2 = if c ∈ [Cond.lt, .le, .gt, .ge] ∧ un = true then fNV else nv) ∧
  (FloatSign .fabs (fun t a => a &&& elements t &&& ~~~signs t) ∧ FloatSign .fneg (fun t a => (a &&& elements t) ^^^ signs t) ∧
   ∀ (x : FA) (s : State) (v : View) (act : List Nat), x.ty.fp1 = true → s.view = some v → v.Placed s →
     let w := x.ty.wide
     v.Issues s x.g [x.a.use w] [(x.d, false)] act →
     Computes v s act [x.a.use w] x.d false (fun l =>
       { val := 1 <<< classBit (fmtOf x.ty) ((valueR v s w x.a l).toNat % 2 ^ (fmtOf x.ty).width), poison := bad v s x.a l w }) (exec (.fclass x) s)) ∧
  FloatPick .fmin (fun f => f.minMax false) ∧ FloatPick .fmax (fun f => f.minMax true) ∧
  FloatPick .fminm (fun f => f.minMaxM false) ∧ FloatPick .fmaxm (fun f => f.minMaxM true) ∧
  ∀ (x : FCmp) (s : State) (v : View) (act : List Nat), x.ty.fp1 = true → s.view = some v → v.Placed s →
    let w := x.ty.wide
    v.Issues s x.g (x.a.use w :: x.b.uses w) [] act →
    ComputesPred v s act (x.a.use w :: x.b.uses w) x.p (fun l =>
      let el (y : Word64) : Nat := y.toNat % 2 ^ (fmtOf x.ty).width
      let r := (fmtOf x.ty).cond x.cond (el (valueR v s w x.a l)) (el (valueB v s x.ty w x.b l))
      (r.1, { poison := bad v s x.a l w || badB v s x.b l w, flags := r.2 })) (exec (.fsetp x) s)

/-- FDIV, FSQRT, FRCP, FRSQ and the transcendental functions mark the destination empty and put one result per lane in flight. The results of the first four are right (R189): in
each format of Table 9.2, of finite operands the exact quotient, root, reciprocal or reciprocal root, rounded once; Table 10.6 for the special cases; the first NaN made quiet. -/
def Obligations.FloatLongLatency : Prop :=
  (∀ f ∈ formats, ∀ (rm : Rounding) (a b : Nat), a < 2 ^ f.width → b < 2 ^ f.width →
    let neg := negative f
    let mag (x : Nat) : Nat := units f (x % 2 ^ (f.eb + f.mb))
    let inf (x : Nat) : Prop := x % 2 ^ (f.eb + f.mb) = f.inf
    let zero (x : Nat) : Prop := x % 2 ^ (f.eb + f.mb) = 0
    let s := neg a != neg b
    ((nan f a || nan f b) = true → f.div rm a b = firstNan f [a, b]) ∧
    (nan f a = true → f.sqrt rm a = firstNan f [a] ∧ f.rcp rm a = firstNan f [a] ∧ f.rsq rm a = firstNan f [a]) ∧
    (FiniteCode f a → FiniteCode f b → ¬ zero a → ¬ zero b → Rounded f rm s (mag a * perOne f) (mag b) (f.div rm a b)) ∧
    (FiniteCode f a → zero b → f.div rm a b = if zero a then (f.qnan, fNV) else (f.signed s f.inf, fDZ)) ∧
    (zero a → FiniteCode f b → ¬ zero b → f.div rm a b = (f.signed s 0, 0)) ∧ (inf a → inf b → f.div rm a b = (f.qnan, fNV)) ∧
    (inf a → FiniteCode f b → f.div rm a b = (f.signed s f.inf, 0)) ∧ (FiniteCode f a → inf b → f.div rm a b = (f.signed s 0, 0)) ∧
    (FiniteCode f a → ¬ zero a → neg a = false → RootOf f rm (mag a * perOne f) 1 (f.sqrt rm a) ∧ RootOf f rm (perOne f * perOne f * perOne f) (mag a) (f.rsq rm a)) ∧
    (FiniteCode f a → ¬ zero a → Rounded f rm (neg a) (perOne f * perOne f) (mag a) (f.rcp rm a)) ∧
    (zero a → f.sqrt rm a = (a, 0) ∧ f.rcp rm a = (f.signed (neg a) f.inf, fDZ) ∧ f.rsq rm a = (f.signed (neg a) f.inf, fDZ)) ∧
    (inf a → f.rcp rm a = (f.signed (neg a) 0, 0) ∧ (neg a = false → f.sqrt rm a = (a, 0) ∧ f.rsq rm a = (0, 0))) ∧
    (nan f a = false → ¬ zero a → neg a = true → f.sqrt rm a = (f.qnan, fNV) ∧ f.rsq rm a = (f.qnan, fNV))) ∧
  (∀ (x : FABR) (s : State) (v : View) (act : List Nat), x.ty.fp1 = true → s.view = some v → v.Placed s →
    let w := x.ty.wide
    v.Issues s x.g (x.a.use w :: x.b.uses w) [(x.d, w)] act →
    ComputesLater v s act (x.a.use w :: x.b.uses w) x.d w (fun l =>
      map2 x.ty (fun f a b => f.div (laneRm v s l x.rm) a b) (valueR v s w x.a l, bad v s x.a l w)
        (valueB v s x.ty w x.b l, badB v s x.b l w)) (exec (.fdiv x) s)) ∧
  FloatLater .fsqrt FFmt.sqrt ∧ FloatLater .frcp FFmt.rcp ∧ FloatLater .frsq FFmt.rsq ∧
  FloatFunction .fexp2 FFmt.exp2 ∧ FloatFunction .flog2 FFmt.log2 ∧ FloatFunction .fsin (fun f => f.trig false) ∧
  FloatFunction .fcos (fun f => f.trig true) ∧ FloatFunction .ftanh FFmt.tanh

/-- Rounding is right: in each format of Table 9.2 and under each rounding of R36, an exact value m × 2^e rounds to the neighbour that the
rounding asks for, with inexact, overflow and underflow exactly where R161 puts them. -/
def Obligations.RoundingIsRight : Prop :=
  ∀ f ∈ [fmt16, fmtB16, fmt32, fmt64], ∀ (rm : Rounding) (neg : Bool) (m : Nat) (e : Int), m ≠ 0 →
    let d : Int := e - (f.emin - f.mb)
    Rounded f rm neg (m * 2 ^ d.toNat) (2 ^ (-d).toNat) (f.round rm neg m e)

/-! ### Poison, conversions, slots -/

/-- R191: PCLR clears an operand's poison bit and leaves value and full bit; PTST writes the poison of its operand to a predicate. -/
def Obligations.PoisonClearAndTest : Prop :=
  (∀ (g : Guard) (wide : Bool) (d : Reg) (s : State) (v : View) (act : List Nat), s.view = some v → v.Placed s →
    v.Issues s g [] [(d, wide)] act →
    ∃ t, exec (.pclr g (if wide then .pair else .reg) d) s = .next t ∧ RegisterFrame v (v.nextPc s) s t act (regsOf d wide) 0 [] ∧
      ∀ r ∈ regsOf d wide, Holds v t act r (fun l => { s.elemNow v l r with poison := false })) ∧
  (∀ (g : Guard) (d : Reg) (s : State) (v : View) (act : List Nat), d.toNat < 16 → s.view = some v → v.Placed s → v.Issues s g [] [] act (preds := [d.setWidth 4]) →
    WritesPred v s act [] (d.setWidth 4) (fun l => ((s.predNow v l (d.setWidth 4)).1, false)) (exec (.pclr g .pred d) s)) ∧
  (∀ (g : Guard) (wide : Bool) (p : BitVec 4) (a : Src) (s : State) (v : View) (act : List Nat), s.view = some v → v.Placed s →
    a.reg.toNat < 248 → (a.reg.toNat < 200 ∨ 216 ≤ a.reg.toNat) → v.Issues s g [a.use wide] [] act →
    WritesPred v s act [] p (fun l => ((regsOf a.reg wide).any fun r => (s.elemNow v l r).poison, false))
      (exec (.ptst g (if wide then .pair else .reg) p a) s)) ∧
  ∀ (g : Guard) (p : BitVec 4) (a : Src) (s : State) (v : View) (act : List Nat), a.reg.toNat < 16 → s.view = some v → v.Placed s →
    v.Issues s g [] [] act (preds := [a.reg.setWidth 4]) → WritesPred v s act [] p (fun l => ((s.predNow v l (a.reg.setWidth 4)).2, false)) (exec (.ptst g .pred p a) s)

/-- CVT and PACK2 complete with their results for every pair of types, rounding, .sat and slot (R170, R172). The results of CVT between types that are no slots are right (R160, R170): a
finite value rounded once to a floating-point type; a NaN with its sign, its fraction fitted and made quiet; to an integer type the rounded value held in range, with
invalid or inexact; an integer reduced, or clamped under .sat. -/
def Obligations.Conversions : Prop :=
  (∀ (dst src : OpType) (slot : Word) (rm : Rounding) (x : Word64),
    let f := fmtOf dst
    let g := fmtOf src
    let a := x.toNat % 2 ^ g.width
    let range := intRange dst
    (dst.fp1 = true → src.fp1 = true →
      (FiniteCode g a → ∃ r, RoundsTo f rm (signedUnits g a * perOne f) (perOne g) (negative g a) r ∧
        cvtResult dst src slot rm false x = (BitVec.ofNat 64 r.1, r.2) ∧ cvtResult dst src slot rm true x = (BitVec.ofNat 64 (satRes f true r).1, r.2)) ∧
      (a % 2 ^ (g.eb + g.mb) = g.inf → cvtResult dst src slot rm false x = (BitVec.ofNat 64 (f.signed (negative g a) f.inf), 0)) ∧
      (nan g a = true →
        let frac := if g.mb ≤ f.mb then a % 2 ^ g.mb * 2 ^ (f.mb - g.mb) else a % 2 ^ g.mb / 2 ^ (g.mb - f.mb)
        cvtResult dst src slot rm false x = (BitVec.ofNat 64 ((f.signed (negative g a) (f.inf + frac)) ||| 2 ^ (f.mb - 1)), if snan g a then fNV else 0))) ∧
    (dst.fp1 = true → isInt src = true → ∃ r, RoundsTo f rm (intSource src x * perOne f) 1 false r ∧ cvtResult dst src slot rm false x = (BitVec.ofNat 64 r.1, r.2)) ∧
    (isInt dst = true → isInt src = true → ∀ sat, cvtResult dst src slot rm sat x =
      (fillOf dst (BitVec.ofInt 64 (if sat = true then max range.1 (min range.2 (intSource src x)) else intSource src x)), 0)) ∧
    (isInt dst = true → src.fp1 = true → ∀ sat,
      (nan g a = true → cvtResult dst src slot rm sat x = (fillOf dst 0, fNV)) ∧
      (a % 2 ^ (g.eb + g.mb) = g.inf →
        cvtResult dst src slot rm sat x = (fillOf dst (BitVec.ofInt 64 (if negative g a then range.1 else range.2)), if sat then fNX else fNV)) ∧
      (FiniteCode g a → ∃ k, IntOf rm (negative g a) (units g (a % 2 ^ (g.eb + g.mb))) (perOne g) k ∧
        let i : Int := if negative g a then -(k : Int) else k
        let out := i < range.1 ∨ range.2 < i
        cvtResult dst src slot rm sat x = (fillOf dst (BitVec.ofInt 64 (max range.1 (min range.2 i))),
          if out then (if sat then fNX else fNV) else if k * perOne g = units g (a % 2 ^ (g.eb + g.mb)) then 0 else fNX)))) ∧
  (∀ (x : FAR) (sty : OpType) (sat : Bool) (slot : BitVec 3) (s : State) (v : View) (act : List Nat),
    WellFormed (.cvt x sty sat slot) = true → s.view = some v → v.Placed s → v.Issues s x.g [x.a.use sty.wide] [(x.d, x.ty.wide)] act →
    Computes v s act [x.a.use sty.wide] x.d x.ty.wide (fun l =>
      let r := cvtResult x.ty sty (v.grid.slots.getD slot.toNat 0) (laneRm v s l x.rm) sat (valueR v s sty.wide x.a l)
      { val := r.1, poison := bad v s x.a l sty.wide, flags := r.2 }) (exec (.cvt x sty sat slot) s)) ∧
  ∀ (x : FABR) (s : State) (v : View) (act : List Nat), x.ty.packed = true → s.view = some v → v.Placed s →
    v.Issues s x.g (x.a.use :: x.b.uses) [(x.d, false)] act →
    Computes v s act (x.a.use :: x.b.uses) x.d false (fun l =>
      let one (y : Word) : FRes := cvtResult (if x.ty = .f16x2 then .f16 else .bf16) .f32 0 (laneRm v s l x.rm) x.sat (y.setWidth 64) |>.map (·.toNat) id
      let e := one (word v s x.a l)
      let h := one (wordB v s .f32 x.b l)
      { val := BitVec.ofNat 64 (e.1 + h.1 * 65536), poison := bad v s x.a l || badB v s x.b l, flags := e.2 ||| h.2 }) (exec (.pack2 x) s)

/-- TFPK and TFUNPK (R171), on a slot whose format has 8 bits or fewer: two codes in the low half or, with .hi, the high half of D, whose
other half is c's; and two codes of a read back as .f32. -/
def Obligations.TaperedPacking : Prop :=
  (∀ (g : Guard) (slot : BitVec 3) (high : Bool) (d : Reg) (a b c : Src) (s : State) (v : View) (act : List Nat),
    let desc := v.grid.slots.getD slot.toNat 0
    slotNarrow desc = true → s.view = some v → v.Placed s → v.Issues s g [a.use, b.use, c.use] [(d, false)] act →
    Computes v s act [a.use, b.use, c.use] d false (fun l =>
      let code (y : Src) : FRes := slotEncode desc (fmt32.value (word v s y l).toNat)
      let two := (code a).1 % 256 + (code b).1 % 256 * 256
      let other := (word v s c l).toNat
      { val := BitVec.ofNat 64 (if high then two * 65536 + other % 65536 else other / 65536 * 65536 + two)
        poison := bad v s a l || bad v s b l || bad v s c l, flags := (code a).2 ||| (code b).2 }) (exec (.tfpk g slot high d a b c) s)) ∧
  ∀ (g : Guard) (slot : BitVec 3) (high : Bool) (d : Reg) (a : Src) (s : State) (v : View) (act : List Nat),
    let desc := v.grid.slots.getD slot.toNat 0
    slotNarrow desc = true → s.view = some v → v.Placed s → v.Issues s g [a.use] [(d, true)] act →
    Computes v s act [a.use] d true (fun l =>
      let read (j : Nat) : FRes := fmt32.ofVal .rn (slotValue desc (byte (word v s a l) (if high then j + 2 else j)))
      { val := BitVec.ofNat 64 ((read 0).1 % 4294967296 + (read 1).1 % 4294967296 * 4294967296), poison := bad v s a l
        flags := (read 0).2 ||| (read 1).2 }) (exec (.tfunpk g slot high d a) s)

/-- R173: SLOTQ writes the slot's descriptor, as the grid holds it, to every active lane; the result is full and unpoisoned. -/
def Obligations.SlotQuery : Prop :=
  ∀ (g : Guard) (slot : BitVec 3) (d : Reg) (s : State) (v : View) (act : List Nat), s.view = some v → v.Placed s →
    v.Issues s g [] [(d, false)] act →
    Computes v s act [] d false (fun _ => { val := (v.grid.slots.getD slot.toNat 0).setWidth 64 }) (exec (.slotq g slot d) s)

/-! ### Lanes and predicates (class 3) -/

/-- R195 (R192, R200): SHFL takes from the slot of its mode, SHFLR from the slot that holds the rank; out of range or absent, a lane keeps
its own value and its predicate is false. -/
def Obligations.Shuffles : Prop :=
  (∀ m, Takes (.shfl · m) (fun _ v l b k => (k : Int) = shuffled v m l b)) ∧
  Takes .shflr (fun _ v _ b k => (v.grp.remap.find? fun e => e.2 == b).map (·.1) = some k)

/-- R196: XPUT gives lane k the value of the highest-numbered active lane that names it; a lane that receives nothing keeps its D. R197: POLL gives every active lane the same result; KIN gives each lane the mask of the active lanes that hold its pattern. -/
def Obligations.PushPollAndKin : Prop :=
  (∀ (x : FX) (s : State) (v : View) (act : List Nat), x.ty.w3264 = true → s.view = some v → v.Placed s →
     let w := x.ty.wide
     let names (k l : Nat) : Bool := (wordB v s .z32 x.b l).toNat % slots v == k
     let got := act.filter fun k => act.any (names k)
     (x.d.toNat < 200) → badOperands v [] [(x.d, w)] = false → v.Issues s x.g (x.a.use w :: x.b.uses) [] act → destEmpty v s got (x.d, w) = false →
     ∃ (t : State) (src : Nat → Nat), exec (.xput x) s = .next t ∧
       (∀ k ∈ got, src k ∈ act ∧ names k (src k) = true ∧ ∀ l ∈ act, names k l = true → l ≤ src k) ∧
       RegisterFrame v (v.nextPc s) s t act (regsOf x.d w) (predsOf x.p) (x.a.use w :: x.b.uses) ∧
       Holds v t got x.d.toNat (fun k => full (lo (valueR v s w x.a (src k))) (bad v s x.a (src k) w || badB v s x.b (src k))) ∧
       (w → Holds v t got (x.d.toNat + 1) (fun k => full (hi (valueR v s w x.a (src k))) (bad v s x.a (src k) w || badB v s x.b (src k)))) ∧
       (∀ l ∈ act, l ∉ got → ∀ r ∈ regsOf x.d w, t.elemNow v l r = s.elemNow v l r) ∧
       ∀ n, x.p = some n → ∀ l ∈ act, t.predNow v l n = (decide (l ∈ got), decide (l ∈ got) && badB v s x.b (src l))) ∧
  (∀ (g : Guard) (m : PollMode) (d : Reg) (p : BitVec 4) (s : State) (v : View) (act : List Nat), m ≠ .mask → d.toNat < 16 → s.view = some v →
    v.Placed s → v.Issues s g [] [] act (preds := [p]) →
    let one (l : Nat) : Bool := (s.predNow v l p).1
    WritesPred v s act [] (d.setWidth 4) (fun _ =>
      (match m with | .every => act.all one | .some => act.any one | _ => act.all one || act.all (!one ·), act.any fun l => (s.predNow v l p).2))
      (exec (.poll g m d p) s)) ∧
  (∀ (g : Guard) (d : Reg) (p : BitVec 4) (s : State) (v : View) (act : List Nat), s.view = some v → v.Placed s → v.Issues s g [] [(d, false)] act (preds := [p]) →
    WritesBoth v s act [] d false none (fun _ => ((maskOf act fun l => (s.predNow v l p).1).setWidth 64, act.any fun l => (s.predNow v l p).2))
      (fun _ => (false, false)) (exec (.poll g .mask d p) s)) ∧
  ∀ (x : FA) (p : Option (BitVec 4)) (leader : Bool) (s : State) (v : View) (act : List Nat), x.ty.w3264 = true → s.view = some v → v.Placed s →
    let w := x.ty.wide
    v.Issues s x.g [x.a.use w] [(x.d, false)] act →
    let same (l k : Nat) : Bool := valueR v s w x.a k == valueR v s w x.a l
    let poison : Bool := act.any fun l => bad v s x.a l w
    WritesBoth v s act [x.a.use w] x.d false p (fun l => ((maskOf act (same l)).setWidth 64, poison))
      (fun l => (if leader then act.all (fun k => !same l k || decide (l ≤ k)) else act.all (same l), poison)) (exec (.kin x p leader) s)

/-- R198: REDL combines the active lanes, SCANL those at or below a lane, or with .excl strictly below, in ascending slot. -/
def Obligations.Reductions : Prop :=
  Combines .redl (fun _ _ => true) ∧ Combines (.scanl · false) (fun l k => decide (k ≤ l)) ∧ Combines (.scanl · true) (fun l k => decide (k < l))

/-- R199: PLOP looks the three predicates up in its table, PGET gathers the 16 predicates, PPUT writes those of its mask. -/
def Obligations.PredicateMoves : Prop :=
  (∀ (g : Guard) (d a b c : BitVec 4) (table : BitVec 8) (s : State) (v : View) (act : List Nat), s.view = some v → v.Placed s →
    v.Issues s g [] [] act (preds := [a, b, c]) →
    let n (l : Nat) (p : BitVec 4) : Nat := (s.predNow v l p).1.toNat
    WritesPred v s act [] d (fun l => (table.getLsbD (4 * n l a + 2 * n l b + n l c),
      (s.predNow v l a).2 || (s.predNow v l b).2 || (s.predNow v l c).2)) (exec (.plop g d a b c table) s)) ∧
  (∀ (x : FD) (s : State) (v : View) (act : List Nat), s.view = some v → v.Placed s → v.Issues s x.g [] [(x.d, false)] act (preds := allPreds) →
    ∃ r : Nat → Word × Bool,
      (∀ l, (∀ i, i < 32 → (r l).1.getLsbD i = (decide (i < 16) && (s.predNow v l (BitVec.ofNat 4 i)).1)) ∧
        ((r l).2 = true ↔ ∃ i, i < 16 ∧ (s.predNow v l (BitVec.ofNat 4 i)).2 = true)) ∧
      Computes v s act [] x.d false (fun l => { val := (r l).1.setWidth 64, poison := (r l).2 }) (exec (.pget x) s)) ∧
  ∀ (x : FS) (mask : BitVec 16) (s : State) (v : View) (act : List Nat), s.view = some v → v.Placed s → v.Issues s x.g [x.a.use] [] act →
    ∃ t, exec (.pput x mask) s = .next t ∧ RegisterFrame v (v.nextPc s) s t act [] mask [x.a.use] ∧
      ∀ l ∈ act, ∀ i, i < 16 → mask.getLsbD i = true →
        t.predNow v l (BitVec.ofNat 4 i) = ((word v s x.a l).getLsbD i, bad v s x.a l)

/-! ### Special registers, frame addresses, SWI -/

/-- MOVS (R134): each active lane's register, or pair for a register of 64 bits, gets the special register's value, full and unpoisoned.
A read of %clock is an input, so that case is stated where no log records or replays it and no core pair forwards it. What the special registers hold is Table 7.2's, and the fields of
%pstat and %context are those of Tables 7.4 and 7.5. -/
def Obligations.SpecialRegisterReads : Prop :=
  (∀ (v : View) (s : State) (l : Nat),
    let val := specialValue v s l
    val 0x00 = BitVec.ofNat 64 s.dev.clock ∧ (∀ r, v.grp.remap.find l = some r → val 0x01 = BitVec.ofNat 64 r) ∧ val 0x02 = BitVec.ofNat 64 l ∧
    val 0x03 = BitVec.ofNat 64 (v.gk % 256) ∧ val 0x04 = BitVec.ofNat 64 v.team.num ∧ val 0x05 = BitVec.ofNat 64 v.grid.num ∧
    (v.core < 640 → val 0x06 = BitVec.ofNat 64 v.core ∧ val 0x07 = BitVec.ofNat 64 (v.core / 16) ∧ val 0x08 = BitVec.ofNat 64 (v.core / 160)) ∧
    val 0x09 = BitVec.ofNat 64 v.grid.hdr.level ∧
    (v.asid < 4096 → v.ctx.num < 16 → ((val 0x0A).extractLsb' 0 4).toNat = v.ctx.num ∧ (val 0x0A).extractLsb' 4 12 = 0 ∧
      ((val 0x0A).extractLsb' 16 12).toNat = v.asid ∧ (val 0x0A).extractLsb' 28 36 = 0) ∧
    val 0x0B = BitVec.ofNat 64 v.grid.part ∧ val 0x0C = (s.strandAt (v.key l)).fmode.setWidth 64 ∧
    (v.grid.hdr.prot < 4 → v.grp.saved = none → v.grp.splits.length ≤ 32 →
      let p := val 0x0D
      p.getLsbD 0 = v.grp.hm ∧ (p.getLsbD 1 = true ↔ v.team.sup ≠ 0) ∧ p.getLsbD 2 = false ∧ (p.extractLsb' 3 2).toNat = v.grid.hdr.prot ∧
      (p.getLsbD 5 = true ↔ ∃ k, v.team.pair = some (false, k)) ∧ p.extractLsb' 6 2 = 0 ∧ (p.extractLsb' 8 6).toNat = v.grp.splits.length ∧ p.extractLsb' 14 50 = 0) ∧
    val 0x0E = BitVec.ofNat 64 ((s.partOf v).free.map (·.2)).sum ∧ val 0x0F = (AMap.get {} (s.partOf v).qs v.grid.queue).wake.setWidth 64 ∧
    val 0x10 = v.ctx.clamps.setWidth 64 ∧ val 0x18 = v.grp.cause.setWidth 64 ∧ val 0x19 = v.grp.causebits.setWidth 64 ∧ val 0x1A = v.grp.epc ∧
    val 0x1B = v.grp.tval ∧ val 0x1C = v.team.trapent) ∧
  (∀ (x : FD) (n : BitVec 8) (s : State) (v : View) (act : List Nat), specialOk n = true → n ≠ 0 → s.view = some v → v.Placed s →
    v.Issues s x.g [] [(x.d, specialWide n.toNat)] act →
    WritesBoth v s act [] x.d (specialWide n.toNat) none (fun l => (specialValue v s l n.toNat, false)) (fun _ => (false, false)) (exec (.movs x n) s)) ∧
  ∀ (x : FD) (s : State) (v : View) (act : List Nat), s.view = some v → v.Placed s → v.team.pair = none → v.ctx.vmode = 0 → v.grp.run.inputs = none →
    v.Issues s x.g [] [(x.d, true)] act →
    WritesBoth v s act [] x.d true none (fun _ => (BitVec.ofNat 64 s.dev.clock, false)) (fun _ => (false, false)) (exec (.movs x 0) s)

/-- MOVSW (R135): %fmode per lane, with bits 8 to 12 and 0 to 2 alone; %wake clears the bits that any active lane holds; the others take the
value of the highest active lane: %clamps only from a supervisor, the trap registers only in handler mode. -/
def Obligations.SpecialRegisterWrites : Prop :=
  ∀ (x : FS) (s : State) (v : View) (act : List Nat), s.view = some v → v.Placed s →
    (v.Issues s x.g [x.a.use] [] act → (∀ l ∈ act, bad v s x.a l = false) →
      ((∀ l ∈ act, (word v s x.a l).toNat % 8 ≤ 4) →
        ∃ t, exec (.movsw x 0x0C) s = .next t ∧ t = ends v s [x.a.use] (withStrands s t) ∧
          StrandsBecome v s t act (fun l a => { a with fmode := word v s x.a l &&& 0x1F07 })) ∧
      ∀ top, act.getLast? = some top →
        exec (.movsw x 0x0F) s = .next (ends v s [x.a.use] (s.modPart v.grid.part fun p =>
          { p with qs := p.qs.modify v.grid.queue fun q => { q with wake := q.wake &&& ~~~(act.map (word v s x.a)).foldl (· ||| ·) 0 } })) ∧
        (v.sup ≠ 0 → exec (.movsw x 0x10) s = .next (ends v s [x.a.use] (s.modCtx v.asid fun c => { c with clamps := word v s x.a top }))) ∧
        (v.grp.hm = true →
          exec (.movsw x 0x18) s = .next (ends v s [x.a.use] (s.modGroup v.gk fun g => { g with cause := word v s x.a top &&& 0x1F })) ∧
          exec (.movsw x 0x19) s = .next (ends v s [x.a.use] (s.modGroup v.gk fun g => { g with causebits := word v s x.a top })))) ∧
    (v.Issues s x.g [x.a.use true] [] act → (∀ l ∈ act, bad v s x.a l true = false) → v.grp.hm = true → ∀ top, act.getLast? = some top →
      exec (.movsw x 0x1A) s = .next (ends v s [x.a.use true] (s.modGroup v.gk fun g => { g with epc := pair v s x.a top })) ∧
      exec (.movsw x 0x1B) s = .next (ends v s [x.a.use true] (s.modGroup v.gk fun g => { g with tval := pair v s x.a top })))

/-- FADDR (R138, R142) on a frame address within its frame, or one past its end: the frame's base plus the offset. FEATQ (R326): the
feature word of the partition, 0 beyond its list. SWI (R293): with an active lane, outside a core pair's trailer and with no release fence of the group in flight, one bit is set once: in
the queue's WAKE whatever its EN, or in the wake register of the partition's first Helm core, which raises its interrupt. With no active lane nothing is set. -/
def Obligations.FrameFeaturesAndInterrupts : Prop :=
  ((∀ (x : FDS) (off : Word) (s : State) (v : View) (act : List Nat), s.view = some v → v.Placed s → v.Issues s x.g [x.a.use] [(x.d, true)] act →
     isQueue x.a.reg.toNat = false → (∀ l ∈ act, bad v s x.a l = false) →
     let level (l : Nat) : Nat := (word v s x.a l).toNat / 2 ^ 29
     let at_ (l : Nat) : Int := ((word v s x.a l).toNat % 2 ^ 29 : Nat) + off.toInt
     (∀ l ∈ act, level l ≤ v.grid.hdr.level ∧ 0 ≤ at_ l ∧ at_ l ≤ v.grid.fsizes.getD (level l) 0) →
     WritesBoth v s act [x.a.use] x.d true none (fun l => (v.grid.display.getD (level l) 0 + BitVec.ofInt 64 (at_ l), false))
       (fun _ => (false, false)) (exec (.faddr x off) s)) ∧
   ∀ (g : Guard) (d : Reg) (k : BitVec 4) (s : State) (v : View) (act : List Nat), s.view = some v → v.Placed s → v.Issues s g [] [(d, false)] act →
     Computes v s act [] d false (fun _ => { val := ((s.partOf v).features.getD k.toNat 0).setWidth 64 }) (exec (.featq g d k) s)) ∧
  ∀ (g : Guard) (b : BitVec 5) (q : BitVec 6) (s : State) (v : View) (act : List Nat), s.view = some v → v.Issues s g [] [] act →
    (act = [] → ∀ helm, exec (.swi g helm b q) s = .next (ends v s [] s)) ∧
    (act ≠ [] → v.trails = false → (∀ e ∈ s.ex.fences, e.2.gk = v.gk → e.2.rel = false) →
      exec (.swi g false b q) s = .next (ends v s [] (s.modPart v.grid.part fun p =>
        { p with qs := p.qs.put q.toNat { AMap.get {} p.qs q.toNat with wake := (AMap.get {} p.qs q.toNat).wake ||| (1#32 <<< b.toNat) } })) ∧
      exec (.swi g true b 0) s = .next (ends v s [] (s.modDev fun d =>
        let k := (s.partOf v).helm.headD 0
        { d with helm := d.helm.put k { AMap.get {} d.helm k with wake := (AMap.get {} d.helm k).wake ||| (1#32 <<< b.toNat), wakeIrq := true } })))

/-! ### Exceptions -/

/-- TAKING A GROUP TRAP (R289): in a group that is not in handler mode, the cause, %epc and %tval are written, HM is 1, the splits are kept
with the interrupted one's run state, and a fresh run begins at the trap entry with the raising lanes alone. In handler mode it is held instead (R290): the
first of each cause stands. Neither touches another group, a strand or memory. -/
def Obligations.GroupTrapEntry : Prop :=
  ∀ (v : View) (c : Nat) (epc tval : Word64) (lanes : Lanes) (s : State), s.ex.groups.find v.gk = some v.grp → v.ctx.halted = false →
    let t := takeGroupTrap v c epc tval lanes true s
    t = { s with nextId := s.nextId + 1, ex := { s.ex with groups := t.ex.groups, runs := t.ex.runs } } ∧
    (∀ n, n ≠ v.gk → t.ex.groups.find n = s.ex.groups.find n) ∧
    ∃ b, t.ex.groups.find v.gk = some b ∧
      (v.grp.hm = false → b = { v.grp with
        cause := BitVec.ofNat 32 c, epc := epc, tval := tval, hm := true, run := { id := s.nextId }, splits := [{ pc := v.team.trapent, mask := lanes, entry := true }],
        saved := some { splits := v.grp.splits.map (fun sp => if sp.st = .running then { sp with st := .ready, cont := some v.grp.run } else sp), idx := v.idx } }) ∧
      (v.grp.hm = true → t.ex.runs = s.ex.runs ∧ (v.grp.causebits.getLsbD c = true → b = v.grp) ∧
        (v.grp.causebits.getLsbD c = false → b = { v.grp with
          causebits := v.grp.causebits ||| (1#32 <<< c), held := v.grp.held ++ [{ cause := c, epc := epc, tval := tval, lanes := lanes }] }))

/-- TRAP (R288, R292): with an active lane, in an execute group with a trap entry, it is performed and takes SOFT in every active lane with IMM
zero-extended in %tval and the next instruction in %epc; with none it does nothing. -/
def Obligations.SoftTrap : Prop :=
  ∀ (g : Guard) (imm : Word) (s : State) (v : View) (act : List Nat), s.view = some v → v.Issues s g [] [] act → s.ex.specs.find v.gk = none →
    (act = [] → exec (.trap g imm) s = .next (ends v s [] s)) ∧
    (act ≠ [] → v.pilot = false → v.team.trapent ≠ 0 →
      exec (.trap g imm) s = .next (takeGroupTrap v 20 (v.nextPc s) (imm.setWidth 64) (lanesOf act) true (advance v (v.nextPc s) s)).idle)

/-- WHICH ROUTE A CAUSE TAKES (R287, R288, R298, Table 17.1): EMPTY_REGISTER, POISON, PROMISE_MISSED, GATE_RATE and SOFT trap the group, and
MISALIGNED where the header says so, unless the trap entry is 0 or the group is the pilot's; CHECK_CODE, UNCORRECTABLE other than of a fetch, and
REDUNDANCY_MISMATCH roll the team back, up to three times, never past an irrevocable operation and never for the pilot (R145); everything else raises the context's halt line with the cause. A CAUSE IS PRECISE (R288): the shapes in which instructions run deliver a cause that stops the body, outside speculation, from the
state before it, and perform nothing of it; and so it is of the integer instructions of two sources, whole, with a cause that their operands' checks find. -/
def Obligations.CauseRoutesAndPrecision : Prop :=
  (∀ (v : View) (f : Fail) (inRun : Bool) (s : State), f.clearArm = false →
     let lanes := if f.lanes = 0 then v.split.mask else f.lanes
     let group : Prop := (f.cause ∈ [4, 5, 13, 15, 20] ∨ (f.cause = 6 ∧ v.grid.hdr.misgrp = true)) ∧ v.pilot = false ∧ v.team.trapent ≠ 0
     let back : Prop := f.cause ∈ [11, 12, 18] ∧ f.fetch = false ∧ v.pilot = false ∧ v.team.irrevocable = false ∧ v.team.rollbacks < 3
     let raised : Raised :=
       { engine := (if v.pilot then 2 else 0), unit_ := v.core, group := (if v.pilot then 0xFF else v.gk % 256), cause := f.cause,
         epc := f.epc.getD v.split.pc, tval := f.tval, hm := v.grp.hm,
         lcause := if f.lcause = [] then (lanesIn lanes).map (fun l => (l, f.cause)) else f.lcause }
     (group → raise v f inRun s = takeGroupTrap v f.cause (f.epc.getD v.split.pc) f.tval lanes inRun s) ∧
     (¬ group → back → raise v f inRun s = s.rollback v f) ∧
     (¬ group → ¬ back → raise v f inRun s = s.halt v.asid (some raised))) ∧
  (∀ (body : View → State → Body) (s : State) (v : View) (f : Fail), s.view = some v → s.ex.specs.find v.gk = none → body v s = .error (.fail f) →
    ∃ n, runBody s body = .next { raise v f true s with cur := none, freeCount := n } ∧ runTrailer s body = .next { raise v f true s with cur := none, freeCount := n }) ∧
  ∀ (x : FAB) (s : State) (v : View) (f : Fail), s.view = some v → s.ex.specs.find v.gk = none →
    prologue v s x.g (x.a.use :: x.b.uses) [(x.d, false)] = .error (.fail f) →
    ∀ i ∈ [Instr.add x, .sub x, .adds x, .mul x, .mulh x, .min x, .max x, .and x, .or x, .xor x, .andn x, .div x, .rem x, .shl x, .shr x, .sar x, .rol x, .bfx x],
      ∃ n, exec i s = .next { raise v f true s with cur := none, freeCount := n }

/-- RTE (R291) in handler mode. With no held trap and an %epc that names a valid slot, HM clears and the interrupted split continues at %epc, or files its strands there if it was filing,
merged as after any trailer (R249); with held traps the lowest is entered next. The await set and the batch waits of the handler's run hold the split that continues. -/
def Obligations.ReturnFromTrap : Prop :=
  ∀ (aw : Await) (s : State) (v : View) (act : List Nat), s.view = some v → v.grp.hm = true → v.lanePair = false →
    v.Issues s .always [] [] act (badAwait v aw) →
    let hold (sp : Split) : Split := { sp with
      st := (match sp.st with | .filing _ => .filing sp.pc | _ => .awaiting), awaits := sp.awaits ++ (if awaitRegs aw = [] then [] else [(v.split.mask, awaitRegs aw)]), bw := sp.bw ++ v.grp.run.bwait.getD [] }
    let back (sv : SavedRun) : List Split :=
      mergeSplits ((sv.splits[sv.idx]?.map (·.mask)).getD 0) (sv.splits.modify sv.idx fun sp => hold { sp with pc := v.grp.epc })
    (∀ sv, v.grp.causebits = 0 → v.grp.saved = some sv → validPc v s v.grp.epc = true → (∀ sp ∈ sv.splits, sp.mask ≠ 0) → sv.idx < sv.splits.length →
      ∃ t, exec (.rte aw) s = .next t ∧ ∃ b, t.ex.groups.find v.gk = some b ∧
        b = { v.grp with hm := false, saved := none, splits := back sv } ∧
        t = { s with cur := none, nextId := s.nextId + 1, ex := { s.ex with groups := s.ex.groups.modify v.gk (fun _ => b), runs := (s.endRun v.gk).ex.runs } }) ∧
    ∀ n h, (∀ i, i < n → v.grp.causebits.getLsbD i = false) → n < 32 → v.grp.causebits.getLsbD n = true → v.grp.held.find? (·.cause == n) = some h →
      ∃ t, exec (.rte aw) s = .next t ∧ ∃ b, t.ex.groups.find v.gk = some b ∧
        b = { v.grp with cause := BitVec.ofNat 32 n, epc := h.epc, tval := h.tval, causebits := v.grp.causebits &&& ~~~(1#32 <<< n),
                         held := v.grp.held.filter (fun h => h.cause != n), run := freshRun s.nextId,
                         splits := [hold { pc := v.team.trapent, mask := h.lanes, entry := true }] } ∧
        t = { s with cur := none, nextId := s.nextId + 1, ex := { s.ex with groups := s.ex.groups.modify v.gk (fun _ => b), runs := (s.endRun v.gk).ex.runs } }

/-! ### Trailers -/

/-- TRAIL, BR, BRX (R260), REFORM (R262), EXIT (R263) and BAR (R267) send their active lanes on: to the next instruction, the direct target,
the pair's target; to filing, ending, or arriving as their await sets fill. A target is one that R25 admits. -/
def Obligations.Branches : Prop :=
  (∀ (x : FTr) (s : State) (v : View) (act : List Nat), TrailerReady v s x.g [] act x.aw →
    ∃ t, exec (.trail x) s = .next t ∧ TrailerEnds v s s t act x.aw (fun _ => v.nextPc s) .awaiting) ∧
  (∀ (x : FTrT) (s : State) (v : View) (act : List Nat), TrailerReady v s x.g [] act x.aw →
    let to_ := directTarget v.team v.split.pc x.tgt
    s.badTarget v.core v.asid v.team to_ = none →
    (∃ t, exec (.br x) s = .next t ∧ TrailerEnds v s s t act x.aw (fun _ => to_) .awaiting) ∧
    ∃ t, exec (.reform x) s = .next t ∧ TrailerEnds v s s t act x.aw (fun _ => to_) (.filing to_)) ∧
  (∀ (x : FTrD) (s : State) (v : View) (act : List Nat), TrailerReady v s x.g (pairD x.d) act x.aw →
    (∀ l ∈ act, s.badTarget v.core v.asid v.team (target v s x.d l) = none ∧ targetBad v s x.d l = false) →
    ∃ t, exec (.brx x) s = .next t ∧ TrailerEnds v s s t act x.aw (target v s x.d) .awaiting) ∧
  ∀ (aw : Await) (s : State) (v : View) (act : List Nat), TrailerReady v s .always [] act aw →
    (∃ t, exec (.exit aw) s = .next t ∧ TrailerEnds v s s t act aw (fun _ => v.split.pc) .exiting) ∧
    ∃ t, exec (.bar aw) s = .next t ∧ TrailerEnds v s s t act aw (fun _ => v.nextPc s) .arriving

/-- CALL, CALLX and RET (R260, R261): a call pushes the next PC in sequential order on each active lane's return stack, which must hold fewer than
64, and goes to its target; RET pops it and goes there. -/
def Obligations.Calls : Prop :=
  (∀ (x : FTrT) (s : State) (v : View) (act : List Nat), TrailerReady v s x.g [] act x.aw →
    let to_ := directTarget v.team v.split.pc x.tgt
    s.badTarget v.core v.asid v.team to_ = none → (∀ l ∈ act, (retsOf v s l).length < 64) →
    ∃ t u, exec (.call x) s = .next t ∧ u = withStrands s u ∧ StrandsBecome v s u act (fun _ a => { a with rets := v.nextPc s :: a.rets }) ∧
      TrailerEnds v s u t act x.aw (fun _ => to_) .awaiting) ∧
  (∀ (x : FTrD) (s : State) (v : View) (act : List Nat), TrailerReady v s x.g (pairD x.d) act x.aw →
    (∀ l ∈ act, s.badTarget v.core v.asid v.team (target v s x.d l) = none ∧ targetBad v s x.d l = false ∧ (retsOf v s l).length < 64) →
    ∃ t u, exec (.callx x) s = .next t ∧ u = withStrands s u ∧ StrandsBecome v s u act (fun _ a => { a with rets := v.nextPc s :: a.rets }) ∧
      TrailerEnds v s u t act x.aw (target v s x.d) .awaiting) ∧
  ∀ (x : FTr) (s : State) (v : View) (act : List Nat), TrailerReady v s x.g [] act x.aw →
    (∀ l ∈ act, ∃ pc r, retsOf v s l = pc :: r ∧ s.badTarget v.core v.asid v.team pc = none) →
    ∃ t u, exec (.ret x) s = .next t ∧ u = withStrands s u ∧ StrandsBecome v s u act (fun _ a => { a with rets := a.rets.tail }) ∧
      TrailerEnds v s u t act x.aw (fun l => (retsOf v s l).headD 0) .awaiting

/-- R264 and R265. LOOP pushes a count and the next PC in each active lane whose count is not 0, and marks the others skipping; LEND counts down
and goes to its target, or pops and goes on. -/
def Obligations.Loops : Prop :=
  (∀ (g : Guard) (a : Src) (tgt : BitVec 20) (s : State) (v : View) (act : List Nat), s.view = some v → v.Placed s → v.Issues s g [a.use] [] act →
    let to_ := directTarget v.team v.split.pc tgt
    act ≠ [] → s.badTarget v.core v.asid v.team to_ = none →
    (∀ l ∈ act, bad v s a l = false ∧ (word v s a l ≠ 0 → (loopsOf v s l).length < 4)) →
    ∃ t u, exec (.loop g a tgt) s = .next t ∧ u = withStrands s u ∧
      StrandsBecome v s u (act.filter fun l => word v s a l != 0) (fun l b => { b with loops := { count := word v s a l, start := v.nextPc s } :: b.loops }) ∧
      t = ends v s [a.use] (u.modGroup v.gk fun g => { g with run := { g.run with
        skip := g.run.skip ++ (act.filter fun l => word v s a l == 0).map fun l => (l, to_) } })) ∧
  ∀ (x : FTrT) (s : State) (v : View) (act : List Nat), TrailerReady v s x.g [] act x.aw →
    let to_ := directTarget v.team v.split.pc x.tgt
    (∀ l ∈ act, ∃ e r, loopsOf v s l = e :: r ∧ e.start = to_) → s.badTarget v.core v.asid v.team to_ = none →
    let again (l : Nat) : Bool := match loopsOf v s l with | e :: _ => e.count != 1 | [] => false
    ∃ t u, exec (.lend x) s = .next t ∧ u = withStrands s u ∧
      StrandsBecome v s u act (fun l a => 
        let next : List LoopEntry := match a.loops with
          | e :: r => if again l then { e with count := e.count - 1 } :: r else r
          | [] => []
        { a with loops := next }) ∧
      TrailerEnds v s u t act x.aw (fun l => if again l then to_ else v.nextPc s) .awaiting

/-- The lines that MWAIT has its lanes watch (R270): each lane's address is translated in ascending lane, and one that fails watches none; writes count from those that the lane's
.ld of a wider scope saw, where it read this line, else from now. -/
def Sys2Proof.Claim.watched (v : View) (s : State) (x : FTrDT) : List Nat → State → List LaneWait × State
  | [], u => ([], u)
  | l :: ls, u =>
    let r := u.translate (cacheOf v.core) v.asid (target v s x.d l) 1
    let line := match r.1 with | .ok e => some (e.paOf (va57 (target v s x.d l)) / 64) | .error _ => none
    let seq := match line, (r.2.strandAt (v.key l)).reservation with
      | none, _ => 0
      | some n, some w => if w.line = n then w.seq else AMap.get 0 r.2.mem.wseq n
      | some n, none => AMap.get 0 r.2.mem.wseq n
    let w : LaneWait := { lane := l, line := line, seq := seq, deadline := if x.tmo = 0 then none else some (s.dev.clock + x.tmo.toNat), order := s.nextId }
    let rest := watched v s x ls r.2
    (w :: rest.1, rest.2)

/-- JOINW (R266) completes: where another split of the group is neither filing nor parked, the active lanes park at the JOINW's own PC with a timer, unless IMM[19:0] is
0; where no split of the group but this one is left, they leave at once with pD := 1, unpoisoned. SLEEP (R271) completes: it parks each active lane until its pair's time; MWAIT (R270) completes:
it parks each active lane until a write to the 64-byte line at its pair's address, or its timeout. Neither changes a register. -/
def Obligations.JoinsAndTimedWaits : Prop :=
  ((∀ (g : Guard) (p : BitVec 4) (tmo : BitVec 20) (aw : Await) (s : State) (v : View) (act : List Nat), TrailerReady v s g [] act aw →
     (∃ i sp, i ≠ v.idx ∧ v.grp.splits[i]? = some sp ∧ sp.st = .ready ∧ sp.mask ≠ 0) → v.ctx.vmode ≠ 2 →
     ∃ t, exec (.joinw g p tmo aw) s = .next t ∧ TrailerEnds v s s t act aw (fun _ => v.split.pc)
       (.parked (.joinw v.split.pc p (if tmo = 0 then none else some (s.dev.clock + tmo.toNat)) tmo.toNat))) ∧
   ∀ (p : BitVec 4) (tmo : BitVec 20) (aw : Await) (s : State) (v : View) (act : List Nat), TrailerReady v s .always [] act aw →
     v.grp.splits = [v.split] → v.grp.run.skip = [] → v.grp.saved = none → v.ctx.vmode = 0 → act ≠ [] →
     ∃ t u, exec (.joinw .always p tmo aw) s = .next t ∧ u = withStrands s u ∧
       StrandsBecome v s u act (fun _ a => { a with p := a.p ||| (1#16 <<< p.toNat), pp := a.pp &&& ~~~(1#16 <<< p.toNat), pe := a.pe &&& ~~~(1#16 <<< p.toNat) }) ∧
       TrailerEnds v s u t act aw (fun _ => v.nextPc s) .awaiting) ∧
  (∀ (x : FTrD) (s : State) (v : View) (act : List Nat), TrailerReady v s x.g (pairD x.d) act x.aw → (∀ l ∈ act, targetBad v s x.d l = false) →
    ∃ t, exec (.sleep x) s = .next t ∧
      TrailerEnds v s s t act x.aw (fun _ => v.nextPc s) (.parked (.sleep (act.map fun l => (l, target v s x.d l))))) ∧
  ∀ (x : FTrDT) (s : State) (v : View) (act : List Nat), TrailerReady v s x.g (pairD x.d) act x.aw →
    (∀ l ∈ act, targetBad v s x.d l = false ∧ canonical (target v s x.d l) = true) →
    let r := watched v s x act s
    ∃ t, exec (.mwait x) s = .next t ∧ r.2.ex = s.ex ∧ r.2.org = s.org ∧ r.1.map LaneWait.lane = act ∧
      TrailerEnds v s r.2 t act x.aw (fun _ => v.nextPc s) (.parked (.mwait r.1))

/-! ### Memory (class 4) -/

/-- R115: the effective address in each space, or the lowest-numbered cause with its %tval. -/
def Obligations.EffectiveAddresses : Prop :=
  ∀ (v : View) (s : State) (l : Nat) (a : Src) (off : Word) (t : OpType) (writes : Bool),
    let w := accWidth t
    (let va := pair v s a l + off.signExtend 64
     effAddr v s l .g a off w writes =
      if va.toNat % w ≠ 0 then .error (6, va) else if va.toNat / 2 ^ 57 ≠ 127 * (va.toNat / 2 ^ 56 % 2) then .error (8, va) else .ok va) ∧
    (let o := offset v s a off l
     effAddr v s l .s a off w writes =
      if o % w ≠ 0 then .error (6, BitVec.ofNat 64 o)
      else if (v.grid.hdr.scratchb + 1023) / 1024 * 1024 < o + w then .error (9, BitVec.ofNat 64 o) else .ok (BitVec.ofNat 64 o)) ∧
    (let fa := (word v s a l).toNat
     let k := fa / 2 ^ 29
     let o : Int := (fa % 2 ^ 29 : Nat) + off.toInt
     let tval : Word64 := BitVec.ofNat 64 (k * 2 ^ 29 + (o % 2 ^ 29).toNat)
     effAddr v s l .f a off w writes =
      if o % w ≠ 0 then .error (6, tval)
      else if v.grid.hdr.level < k then .error (7, tval)
      else if o < 0 ∨ (v.grid.fsizes.getD k 0 : Int) < o + w ∨ (writes = true ∧ o < 64) then .error (9, tval)
      else .ok (v.grid.display.getD k 0 + BitVec.ofInt 64 o))

/-- LD, and ST, ATOM and RED in spaces .g and .f (R111, R113 to R121): what they put in flight, and what they leave alone. Performed at its core's own L1 (R106, R107, R121), a store leaves its words in the line under
fresh codes and dirty, a sub-word store the word with its own bytes in it, an atomic the result of its operation on the line's words; a load takes the line's words, which a miss takes from the home slice
but where they are dirty; every other word and byte stays. At its home slice (R66, R67, R116) the same is true of the block's words, and of a clean copy in the own L1; a block that is there stays as it was. That a write is performed at the own
L1 in a turn of its own is the model's choice (log 9). -/
def Obligations.AccessesInFlight : Prop :=
  (∀ m d, InFlight (.ld m d) (loadOf m d)) ∧ (∀ m b, InFlight (.st m b) (storeOf m b)) ∧
  (∀ m d, InFlight (.atom m d) (atomOf m d)) ∧ (∀ m, InFlight (.red m) (redOf m)) ∧
  (∀ (id : Nat) (s : State), s.turn = .perform id → step s = .next (s.orDefer ({ s with turn := .arbitrate }.performLocal id))) ∧
  (∀ (id : Nat) (s : State) (r : Req), s.ex.reqs.find id = some r →
    (s.mayPerform id r = true → s.performLocal id = s.runReq id r 0) ∧
    (r.hit = false → ∀ i, s.runReq id r i = s.takeReq id r i) ∧
    ∀ k, r.hit = true → r.unit = .l1 → r.wide = false → r.pilot = false → s.mem.errors = [] → s.mem.owing = [] → s.l1Key r.core r.asid r.va = some k → s.reqHits r = true →
      let l := s.l1Line k
      let q := { r with addr := l.pa + r.va % 128, rights := l.rights }
      l.rights &&& r.right = r.right → s.runReq id r 0 = (s.modReq id fun _ => q).takeReq id q 0) ∧
  (∀ (old d : Word) (byte width p : Nat), (width = 1 ∨ width = 2) → byte % width = 0 → p < 4 → (mergeWord old d byte width).extractLsb' (8 * p) 8 =
    if byte % 4 ≤ p ∧ p < byte % 4 + width then d.extractLsb' (8 * (p - byte % 4)) 8 else old.extractLsb' (8 * p) 8) ∧
  (∀ (id : Nat) (s : State) (r : Req), Performing s id r → r.unit = .l1 →
    let at_ := r.va % 128 / 4
    let t := s.takeReq id r 0
    let gone (e : Exec) : Exec := { e with reqs := e.reqs.del id }
    let came (e : Exec) (ws : List TWord) : Exec := { e with reqs := e.reqs.put id { r with got := ws.map some, done := true } }
    (∀ k, s.l1Key r.core r.asid r.va = some k → (s.l1Line k).words.length = 32 →
      let l := s.l1Line k
      let old := (List.range r.count).map fun i => l.words.getD (at_ + i) {}
      let there : Prop := ∀ i, i < r.count → l.filled = true ∨ l.isDirty (at_ + i) = true
      (r.kind = .store → 4 ≤ r.width → r.data.length = r.count → L1Wrote s t k at_ r.data ∧ t.ex = gone s.ex) ∧
      (r.kind = .store → r.width < 4 → there → (old.getD 0 {}).judge = none →
        L1Wrote s t k at_ [mergeWord (old.getD 0 {}).data (r.data.getD 0 0) r.addr r.width] ∧ t.ex = gone s.ex) ∧
      (r.kind = .load → there → L1Wrote s t k at_ [] ∧ t.ex = came s.ex old) ∧
      (∀ op, there → judgeWords old = none →
        let new := (atomResult op r.ty (old.map (·.data)) r.data).getD []
        let u := s.setIrrevocable (r.dest.strand / 2048)
        (r.kind = .red op → L1Wrote s t k at_ new ∧ t.ex = gone u.ex) ∧ (r.kind = .atom op → L1Wrote s t k at_ new ∧ t.ex = came u.ex old)) ∧
      ∀ b, r.kind = .load → ¬ there → s.mem.l2.find (r.addr / 256) = some b → (∀ a, r.addr / 128 = a / 128 → s.remoteAt a = none) →
        let ws := (List.range 32).map fun i => if l.isDirty i then l.words.getD i {} else b.words.getD (r.addr / 128 % 2 * 32 + i) {}
        t.mem.l2 = s.mem.l2 ∧ t.ex = came s.ex ((List.range r.count).map fun i => ws.getD (at_ + i) {}) ∧
          ∃ m, t.mem.l1d.find k = some m ∧ m.words = ws ∧ m.dirty = l.dirty ∧ m.filled = true) ∧
    (s.l1Key r.core r.asid r.va = none → r.kind = .store → 4 ≤ r.width → r.data.length = r.count →
      t.ex.reqs = s.ex.reqs.del id ∧ ∃ k m, t.l1Key r.core r.asid r.va = some k ∧ t.mem.l1d.find k = some m ∧ m.pa = r.addr / 128 * 128 ∧ m.rights = r.rights ∧ m.filled = false ∧
        m.words = spliced (List.replicate 32 {}) at_ r.data ∧ ∀ i, i < 32 → (m.isDirty i = true ↔ at_ ≤ i ∧ i < at_ + r.count))) ∧
  (∀ (id i : Nat) (s : State) (r : Req) (l : L2Line), Performing s id r → r.unit = .slice → i < r.count → (∀ j, j < r.count → s.remoteAt (r.wordAt j) = none) →
    (∀ j k, j < r.count → s.l1Key r.core r.asid (r.va / 4 * 4 + 4 * j) = some k → (s.l1Line k).isDirty ((r.va / 4 + j) % 32) = false) →
    let block := r.addr / 256
    let at_ := r.addr % 256 / 4
    let u := s.l2Ensure block r.asid 0 [r.wordAt i % 256 / 8]
    let t := s.takeReq id r i
    let wrote (n : Nat) (new : List Word) : Prop := t.mem.l2.find block = some { l with words := spliced l.words n new, dirty := l.dirty || !new.isEmpty } ∧
      (∀ b, b ≠ block → t.mem.l2.find b = u.mem.l2.find b) ∧ AMap.get 0 t.mem.wseq (r.addr / 64) = AMap.get 0 u.mem.wseq (r.addr / 64) + new.length
    u.mem.l2.find block = some l → l.words.length = 64 → u.mem.errors = [] →
    (s.mem.l2.has block = true → u = s) ∧
    (r.kind = .store → 4 ≤ r.width →
      let w := r.data.getD i 0
      wrote (at_ + i) [w] ∧
      (∀ k, u.l1Key r.core r.asid (r.va / 4 * 4 + 4 * i) = some k → (t.l1Line k).words = (u.l1Line k).words.set ((r.va / 4 + i) % 32) (TWord.fresh w) ∧
        (t.l1Line k).isDirty ((r.va / 4 + i) % 32) = false) ∧
      let got := r.got.set i (some {})
      t.ex.reqs = if got.all (·.isSome) then s.ex.reqs.del id else s.ex.reqs.put id { r with got := got, done := false }) ∧
    (r.kind = .store → r.width < 4 →
      (r.got = [none] → (l.words.getD at_ {}).judge = none → t.mem = u.mem ∧ t.ex.reqs = s.ex.reqs.put id { r with got := [some (l.words.getD at_ {})] }) ∧
      ∀ x, r.got = [some x] → wrote at_ [mergeWord x.data (r.data.getD 0 0) r.addr r.width] ∧ t.ex.reqs = s.ex.reqs.del id) ∧
    (r.kind = .load → t.mem = u.mem ∧ ∃ q, t.ex.reqs.find id = some q ∧ q.got = r.got.set i (some (l.words.getD (at_ + i) {})) ∧ q.done = q.got.all (·.isSome)) ∧
    ∀ op, i = 0 →
      let old := (List.range r.count).map fun j => l.words.getD (at_ + j) {}
      let new := (atomResult op r.ty (old.map (·.data)) r.data).getD []
      judgeWords old = none → (r.kind = .red op ∨ r.kind = .atom op) → wrote at_ new ∧
        (r.kind = .red op → t.ex.reqs = s.ex.reqs.del id) ∧
        (r.kind = .atom op → t.ex.reqs = s.ex.reqs.put id { r with got := old.map some, done := true }) ∧
        ∀ x, s.ex.teams.find (r.dest.strand / 2048) = some x → x.pair = none → (t.ex.teams.find (r.dest.strand / 2048)).map (·.irrevocable) = some true)

/-- What the atomics of some lanes do to words, one lane at a time in ascending slot (R121): each lane's old words, and all words afterwards. -/
def atomSteps (m : FAtom) (at_ : Nat → Nat) (data : Nat → List Word) : List Nat → (Nat → Word) → List (List Word) × (Nat → Word)
  | [], f => ([], f)
  | l :: ls, f =>
    let n := if m.ty.wide then 2 else 1
    let old := (List.range n).map fun i => f (at_ l + i)
    let new := (atomResult m.op m.ty old (data l)).getD old
    let r := atomSteps m at_ data ls fun k => if at_ l ≤ k ∧ k < at_ l + n then new.getD (k - at_ l) 0 else f k
    (old :: r.1, r.2)

/-- ST to the scratchpad (R82, R86, R119): each byte that an active lane's access covers becomes that of the highest-numbered lane that covers it, in a word with fresh codes; every other byte,
word and register, and the rest of memory, is as it was. ATOM and RED in the scratchpad (R83, R121): the lanes' operations one at a time in ascending slot; ATOM's old values are in flight; every
other word, register and byte of memory is as it was, and the team is irrevocable. R121 and R122: what an atomic writes, on the old value o and the operand. Nothing is written only by a cas that
does not match. That an access of the scratchpad that nothing holds back is performed in the issuing step is the model's choice (log 10). -/
def Obligations.ScratchpadAccesses : Prop :=
  (∀ (m : FMem) (b : Src) (v : View) (s u : State) (act : List Nat) (as : List LaneAcc), m.space = .s → m.scope.wide = false →
     Access v s u (storeOf m b) act as → Quiet s → s.Sound → s.mem.errors = [] →
     let n := accWidth m.ty
     let start (l : Nat) : Nat := v.team.scratchBase + offset v s m.a m.off l
     let first (l : Nat) : Nat := if n < 4 then start l else start l / 4 * 4
     let covers (l p : Nat) : Prop := first l ≤ p ∧ p < first l + n ∧ (n < 4 → p / 4 = first l / 4)
     let word_ (x : State) (p : Nat) : TWord := AMap.get {} x.mem.scratch (v.core * 98304 + p / 4)
     (n < 4 → ∀ l ∈ act, (word_ s (start l)).judge = none) →
     ∃ t, exec (.st m b) s = .next t ∧ u = s ∧
       t = ends v s (accSources (storeOf m b)) { s with mem := { s.mem with scratch := t.mem.scratch }, nextId := s.nextId + act.length } ∧
       (∀ k, (∀ l ∈ act, ∀ p, covers l p → v.core * 98304 + p / 4 ≠ k) → AMap.get {} t.mem.scratch k = AMap.get {} s.mem.scratch k) ∧
       ∀ p, ((∀ l ∈ act, ¬ covers l p) → byte (word_ t p).data (p % 4) = byte (word_ s p).data (p % 4)) ∧
         ∀ l ∈ act, covers l p → word_ t p = TWord.fresh (word_ t p).data ∧
           ((∀ k ∈ act, covers k p → k ≤ l) → byte (word_ t p).data (p % 4) = (valueR v s m.ty.wide b l).toNat / 2 ^ (8 * (p - first l)) % 256)) ∧
  (∀ (m : FAtom) (d : Reg) (v : View) (s u : State) (act : List Nat) (as : List LaneAcc), m.space = .s → m.scope.wide = false → Quiet s → s.Sound →
     s.mem.errors = [] → (∀ l ∈ act, v.key l / 2048 = v.teamKey) →
     let at_ := scratchWord v s m.a m.off
     let mine (k : Nat) : Prop := ∃ l ∈ act, at_ l ≤ k ∧ k < at_ l + if m.ty.wide then 2 else 1
     let r := atomSteps m at_ (laneData v s (redOf m)) act fun k => (AMap.get {} s.mem.scratch k).data
     let done (t : State) : Prop := ∀ k, (¬ mine k → AMap.get {} t.mem.scratch k = AMap.get {} s.mem.scratch k) ∧
       (mine k → (AMap.get {} t.mem.scratch k).data = r.2 k ∧ (AMap.get {} t.mem.scratch k).judge = none)
     (∀ k, mine k → (AMap.get {} s.mem.scratch k).judge = none) →
     (Access v s u (redOf m) act as → ∃ t, exec (.red m) s = .next t ∧ done t ∧
       t = irrevocable v (ends v s (accSources (redOf m)) { s with mem := { s.mem with scratch := t.mem.scratch }, nextId := s.nextId + act.length })) ∧
     (Access v s u (atomOf m d) act as → ∃ t f, exec (.atom m d) s = .next t ∧ done t ∧ t = irrevocable v f ∧ (∀ n ∈ accRegs (atomOf m d), Emptied v t act n) ∧
       RegisterFrame v (v.nextPc s)
         { s with mem := { s.mem with scratch := t.mem.scratch }, nextId := s.nextId + act.length, ex := { s.ex with reqs := t.ex.reqs } } f act
         (accRegs (atomOf m d)) 0 (accSources (atomOf m d)) ∧
       (∀ n, (n < s.nextId ∨ s.nextId + act.length ≤ n) → t.ex.reqs.find n = none) ∧
       ∀ k, ∀ h : k < as.length, ∃ ts : List TWord, ts.map TWord.data = r.1.getD k [] ∧
         t.ex.reqs.find (s.nextId + k) = some { reqOf v s u (atomOf m d) act s.nextId as[k] with got := ts.map some, done := true })) ∧
  (∀ (t : OpType) (o b c : Word64), t = .s64 ∨ t = .z64 →
    let val (x : Word64) : Int := if t = .s64 then x.toInt else x.toNat
    (∀ op, op ≠ .cas → ∃ r, atomResult op t (twoWords o) (twoWords b) = some (twoWords r) ∧ match op with
      | .add => r = o + b
      | .min => (r = o ∨ r = b) ∧ val r ≤ val o ∧ val r ≤ val b
      | .max => (r = o ∨ r = b) ∧ val o ≤ val r ∧ val b ≤ val r
      | .and => r = o &&& b | .or => r = o ||| b | .xor => r = o ^^^ b | _ => r = b) ∧
    atomResult .cas t (twoWords o) (twoWords b ++ twoWords c) = if o = b then some (twoWords c) else none) ∧
  (∀ (o b : Word), atomResult .add .f32 [o] [b] = some [BitVec.ofNat 32 (fmt32.add .rn o.toNat b.toNat).1]) ∧
  (∀ (o b : Word64), atomResult .add .f64 (twoWords o) (twoWords b) = some (twoWords (BitVec.ofNat 64 (fmt64.add .rn o.toNat b.toNat).1))) ∧
  ∀ (t : OpType) (o b c : Word), t.i32 = true →
    (∀ op, op ≠ .cas → ∃ r, atomResult op t [o] [b] = some [r] ∧ match op with
      | .add => r = o + b
      | .min => (r = o ∨ r = b) ∧ int t r ≤ int t o ∧ int t r ≤ int t b
      | .max => (r = o ∨ r = b) ∧ int t o ≤ int t r ∧ int t b ≤ int t r
      | .and => r = o &&& b | .or => r = o ||| b | .xor => r = o ^^^ b | _ => r = b) ∧
    atomResult .cas t [o] [b, c] = if o = b then some [c] else none

/-- PREF, CWB and CINV (R124 to R127), outside lane-pair mode. PREF of one lane whose address is good starts a walk that raises nothing, unless the L1 has the
line filled; CWB, with no write of its lanes still to be performed at the core's own L1, writes back the dirty lines of its ranges and holds the split until that is complete; CINV
sweeps the lines of its ranges, and fills in flight for them install nothing. No register changes. -/
def Obligations.CacheInstructions : Prop :=
  (∀ (g : Guard) (sp : Space) (h : Hint) (a : Src) (off : Word) (s : State) (v : View) (l : Nat) (va : Word64), s.view = some v →
    badAddress sp a = false → v.Issues s g [addrUse sp a] [] [l] → srcPoison v s l (addrUse sp a) = false → effAddr v s l sp a off 1 false = .ok va →
    v.lanePair = false →
    let w : Walk := { cache := cacheOf v.core, asid := v.asid, va := va57 va, right := 1, core := v.core, toL1 := decide (h ≠ .nol1), hint := h, pref := true }
    let there : Prop := ∃ k, s.l1Key v.core v.asid (va57 va) = some k ∧ (s.l1Line k).filled = true
    (there → exec (.pref g sp h a off) s = .next (ends v s [addrUse sp a] s)) ∧
    (¬ there → exec (.pref g sp h a off) s =
      .next (ends v s [addrUse sp a] { s with nextId := s.nextId + 1, mem := { s.mem with walks := s.mem.walks.put s.nextId w } }))) ∧
  ∀ (x : FRange) (s : State) (v : View) (act : List Nat), s.view = some v → act ≠ [] → v.lanePair = false → badAddress .g x.a = false →
    let srcs := [x.a.use true, x.b.use]
    v.Issues s x.g srcs [] act → poisonCauses v s act srcs = [] →
    let ranges := act.map fun l => (va57 (pair v s x.a l + x.off.signExtend 64), (word v s x.b l).toNat)
    ((∀ l ∈ act, ∀ e ∈ s.ex.reqs, e.2.dest.strand = v.key l → e.2.localWrite = false) →
      exec (.cwb x) s = .next (ends v s srcs (((linesIn v s ranges).foldl State.l1WriteBack s).modGroup v.gk fun g => { g with block := some .cwb }))) ∧
    exec (.cinv x) s = .next (ends v s srcs ((s.l1SweepKeys (linesIn v s ranges)).dropFills v.core v.asid fun va =>
      ranges.any fun r => decide (0 < r.2) && decide (va < r.1 + r.2) && decide (r.1 < va + 128)))

/-! ### The copy engine -/

/-- COPY (R90 to R94): where every live lane of the group is active, each request's checks pass and the engine has room, one request enters the engine for each
lane whose length is not 0, in ascending lane; no register changes. -/
def Obligations.CopyRequests : Prop :=
  ∀ (g : Guard) (form : CopyForm) (a b c : Src) (s : State) (v : View) (act : List Nat), Solo v s →
    c.reg.toNat % 4 = 0 → c.reg.toNat ≤ 188 → isQueue a.reg.toNat = false →
    let srcs := copySources form a b c
    v.Issues s g srcs [] act → (∀ l ∈ v.live, l ∈ act) → poisonCauses v s act srcs = [] →
    let some_ := act.filter fun l => (s.elemNow v l c.reg.toNat).val.toNat % 2 ^ 24 != 0
    (∀ l ∈ some_, copyOk v s form a b c l) → (s.copiesOf v.core).length + some_.length ≤ 64 →
    ∃ t, exec (.copy g form a b c) s = .next t ∧
      t = ends v s srcs { s with nextId := s.nextId + some_.length, ex := { s.ex with copies := t.ex.copies } } ∧
      (∀ i, ∀ h : i < some_.length, t.ex.copies.find (s.nextId + i) = some (copyRequest v s form a b c some_[i])) ∧
      ∀ n, (n < s.nextId ∨ s.nextId + some_.length ≤ n) → t.ex.copies.find n = s.ex.copies.find n

/-- SEAL (R95) where each active lane has fewer than eight open batches: the strand's batch number rises by one and D holds it; the batch is kept with
a promise, the later of the last one's and an estimate from the clock, and with REISSUED where one of its requests was made again; the strand's unsealed requests belong to it. CWAIT and SLEEPTO (R97) arm the run's batch wait, once in a run and for batches that are sealed; CSTAT (R99) reads a batch's status, or its promise. -/
def Obligations.BatchesAndTheirWaits : Prop :=
  (∀ (x : FD) (s : State) (v : View) (act : List Nat), s.view = some v → v.Placed s → x.d.toNat < 200 → v.Issues s x.g [] [(x.d, false)] act →
     (∀ l ∈ act, ((s.strandAt (v.key l)).sealedNo - (s.strandAt (v.key l)).completeNo).toNat < 8) →
     (∀ l ∈ act, ∀ k ∈ act, (s.strandAt (v.key l)).uid = (s.strandAt (v.key k)).uid → l = k) →
     ∃ t, exec (.seal x) s = .next t ∧ t.mem = s.mem ∧ t.dev = s.dev ∧ t.org = s.org ∧
       Holds v t act x.d.toNat (fun l => full ((s.strandAt (v.key l)).sealedNo + 1) false) ∧
       (∀ n, (∀ l ∈ act, v.key l ≠ n) → t.ex.strands.find n = s.ex.strands.find n) ∧
       ∀ l ∈ act, let a := s.strandAt (v.key l)
         let b := t.strandAt (v.key l)
         let again : Bool := s.ex.copies.any fun c => c.2.uid == a.uid && c.2.batch == .unsealed && c.2.reissued
         (∃ e : Word64, let batch : Batch := { num := a.sealedNo + 1, promise := maxW (a.promise a.sealedNo) (BitVec.ofNat 64 s.dev.clock + e), reissued := again }
           b = { a with x := b.x, sealedNo := a.sealedNo + 1, completeNo := b.completeNo, batches := batch :: a.batches }) ∧
         ∀ n r, s.ex.copies.find n = some r → r.uid = a.uid → r.batch = .unsealed → t.ex.copies.find n = some { r with batch := .sealed (a.sealedNo + 1) }) ∧
  (∀ (x : FS) (s : State) (v : View) (act : List Nat), s.view = some v → v.Issues s x.g [x.a.use] [] act → v.grp.run.bwait = none →
    (∀ l ∈ act, bad v s x.a l = false ∧ (s.strandAt (v.key l)).future (word v s x.a l) = false) →
    let armed (sleep : Bool) : State := ends v s [x.a.use] (s.modGroup v.gk fun g => { g with run := { g.run with
      bwait := some (act.map fun l => { lane := l, num := word v s x.a l, sleep := sleep }) } })
    exec (.cwait x) s = .next (armed false) ∧ exec (.sleepto x) s = .next (armed true)) ∧
  ∀ (x : FDS) (wide : Bool) (s : State) (v : View) (act : List Nat), s.view = some v → v.Placed s → v.Issues s x.g [x.a.use] [(x.d, wide)] act →
    (∀ l ∈ act, bad v s x.a l = false) →
    WritesBoth v s act [x.a.use] x.d wide none (fun l =>
      let b := s.strandAt (v.key l)
      let n := word v s x.a l
      let open_ : Bool := !(b.forgotten n || b.complete n)
      let again : Bool := match b.batch n with | some k => k.reissued | none => false
      (if wide then b.promise n else BitVec.ofNat 64 ((!open_).toNat + 2 * again.toNat + 4 * (b.future n).toNat), false))
      (fun _ => (false, false)) (exec (.cstat x wide) s)

/-! ### The pilot and the queues -/

/-- QLD (R150) with good addresses, no COPY of the pilot outstanding and room in its queue reserves an entry and starts its reads; PGO (R152) starts the pilot group
at its target; PSTOP (R153) waits for a live pilot group to stop, else only flushes; QSTAT (R154) reads the pilot's status or a set's counts. -/
def Obligations.PilotAndQueues : Prop :=
  (∀ (m : FMem) (q : BitVec 4) (b : Src) (s u : State) (v : View) (act : List Nat) (as : List LaneAcc) (top : Nat), s.view = some v →
    badAddress m.space m.a = false → b.reg.toNat < 192 → act.getLast? = some top → v.Issues s m.g [addrUse m.space m.a, b.use] [] act →
    poisonCauses v s act [addrUse m.space m.a] = [] → bad v s b top = false →
    let set_ := (word v s b top).toNat
    set_ < v.grid.hdr.capacity / 32 → resolve v m.space false m.hint 1 4 false (fun l => effAddr v s l m.space m.a m.off 4 false) act s = ((as, []), u) →
    (∀ e ∈ u.ex.copies, e.2.team = v.teamKey → e.2.pilot = false) → u.queueUse v.teamKey v.team set_ q.toNat < 8 →
    let op : QldOp := { core := v.core, gk := v.gk, team := v.teamKey, q := q.toNat, set_ := set_, lanes := lanesOf act,
                        pas := as.foldl (fun p a => p.put a.lane a.pa) [], vas := as.foldl (fun p a => p.put a.lane (va57 a.va)) [] }
    exec (.qld m q b) s = .next (ends v s [] (({ u with nextId := u.nextId + 1 }.modGroup v.gk fun g => { g with fullWait := none, copyWait := false }).modEx fun x =>
      { x with qlds := x.qlds.put u.nextId op }))) ∧
  (∀ (g : Guard) (a b : Src) (s : State) (v : View) (act : List Nat), s.view = some v → act ≠ [] → b.reg.toNat < 192 →
    v.Issues s g [a.use true, b.use] [] act → poisonCauses v s act [a.use true, b.use] = [] → v.grid.hdr.pilotent ≠ 0 → s.pilotOf v.teamKey = none →
    ∀ top, act.getLast? = some top → s.badTarget v.core v.asid v.team (pair v s a top) = none → s.unsettled v act = false →
    exec (.pgo g a b) s = .next (ends v s [] (s.startPilot v.teamKey v.core (pair v s a top) fun l => if l ∈ act then word v s b l else 0))) ∧
  (∀ (g : Guard) (flush : Bool) (s : State) (v : View) (act : List Nat), s.view = some v → act ≠ [] → v.Issues s g [] [] act →
    (s.pilotOf v.teamKey ≠ none → exec (.pstop g flush) s = .next (ends v s [] (s.modGroup v.gk fun g => { g with block := some (.pstop flush) }))) ∧
    (s.pilotOf v.teamKey = none → exec (.pstop g flush) s =
      .next (ends v s [] (if flush then s.modTeam v.teamKey fun t => { t with queues := [] } else s)))) ∧
  ∀ (x : FDS) (wide : Bool) (s : State) (v : View) (act : List Nat), s.view = some v → v.Placed s → v.Issues s x.g [x.a.use] [(x.d, wide)] act →
    (∀ l ∈ act, bad v s x.a l = false ∧ (wide = true → (word v s x.a l).toNat < v.grid.hdr.capacity / 32)) →
    WritesBoth v s act [x.a.use] x.d wide none (fun l =>
      (if wide then (List.range 16).foldl (fun w n => w ||| (BitVec.ofNat 64 (AMap.get [] v.team.queues ((word v s x.a l).toNat * 16 + n)).length <<< (4 * n))) 0
       else (s.pilotStatus v.teamKey).setWidth 64, false)) (fun _ => (false, false)) (exec (.qstat x wide) s)

/-! ### The matrix unit (class 6) -/

/-- MMA, MZERO, MLOAD, MSTORE and MMOV (R201 to R204, R212 to R215), their checks passed and the unit with room, enter its queue for the rows of their active
lanes, and an idle unit takes them up at once; MZERO and MLOAD claim a FREE tile; MMOV's destination is empty meanwhile. On an idle unit an MMA of no chunk is over, one of any chunk waits for its first; MLOAD
puts into its rows the elements of the codes that it read there (R214); MSTORE into the scratchpad puts its rows' words there; MMOV sends each lane the element that its operand selects (R215). -/
def Obligations.MatrixIssues : Prop :=
  ∀ (s : State) (v : View) (act : List Nat) (g : Guard) (tile : BitVec 3), Solo v s → act ≠ [] → Room v s →
    (v.Issues s g [] [] act → (s.checkTile v.teamKey v.team tile.toNat .claim = .claim ∨ s.checkTile v.teamKey v.team tile.toNat .claim = .proceed) →
      exec (.mzero g tile) s = .next (ends v s [] (started v s (queued v (claimed v s tile) (matrixOp v s act tile .mzero))))) ∧
    (∀ (ty : OpType) (slot : BitVec 3) (a : Src),
      let desc := v.grid.slots.getD slot.toNat 0
      let d := descriptor v s a (act.headD 0)
      let b := elemBits ty desc
      let srcs := quad a.reg a.ea
      v.Issues s g srcs [] act → DescOk v s act a (64 * b / 8) →
      ((s.checkTile v.teamKey v.team tile.toNat .claim = .claim ∨ s.checkTile v.teamKey v.team tile.toNat .claim = .proceed) →
        let i := matrixOp v s act tile (.mload d ty desc)
        let q := queued v (claimed v s tile) i
        exec (.mload { g := g, tile := tile, ty := ty, slot := slot, a := a }) s = .next (ends v s srcs (started v s q)) ∧
        ∀ tm m bs u, UnitIdle v s → q.matrixHeld i = false → q.ex.teams.find v.teamKey = some tm →
          q.readRows tm v.asid d 0 (64 * b / 32) (act.flatMap fun l => [2 * l, 2 * l + 1]) = (.ok (m, bs), u) →
          ∃ t, exec (.mload { g := g, tile := tile, ty := ty, slot := slot, a := a }) s = .next t ∧ ∀ r c, r < 64 → c < 64 →
            (t.tileAt v.core tile.toNat).elem r c = if r / 2 ∈ act then (loadElem ty desc (codeAt (rowNumber m r (64 * b / 32)) b c)).1 else
              if s.checkTile v.teamKey v.team tile.toNat .claim = .claim then 0 else (s.tileAt v.core tile.toNat).elem r c) ∧
      (s.checkTile v.teamKey v.team tile.toNat .use = .proceed →
        let i := matrixOp v s act tile (.mstore d ty desc)
        exec (.mstore { g := g, tile := tile, ty := ty, slot := slot, a := a }) s = .next (ends v s srcs (started v s (queued v s i))) ∧
        (let words (r : Nat) : List Word := (storeRow (s.tileAt v.core tile.toNat) ty desc r).1
         let at_ (r w : Nat) : Nat := v.core * 98304 + (v.team.scratchBase + d.rowAt r (4 * w)) / 4
         UnitIdle v s → d.scratch = true → s.mem.errors = [] → (queued v s i).matrixHeld i = false →
         (∀ r w x y, r / 2 ∈ act → x / 2 ∈ act → w < (words r).length → y < (words x).length → at_ r w = at_ x y → r = x ∧ w = y) →
         ∃ t, exec (.mstore { g := g, tile := tile, ty := ty, slot := slot, a := a }) s = .next t ∧ t.tileAt v.core tile.toNat = s.tileAt v.core tile.toNat ∧
           (∀ r w, r / 2 ∈ act → w < (words r).length → AMap.get {} t.mem.scratch (at_ r w) = TWord.fresh ((words r).getD w 0)) ∧
           ∀ k, (∀ r w, r / 2 ∈ act → w < (words r).length → at_ r w ≠ k) → AMap.get {} t.mem.scratch k = AMap.get {} s.mem.scratch k))) ∧
    (s.checkTile v.teamKey v.team tile.toNat .use = .proceed →
      (∀ (slotA slotB : BitVec 3) (a b c : Src) (kind : MKind) (chunk : Nat),
        let srcs := quad a.reg a.ea ++ quad b.reg b.ea ++ [c.use]
        let sa := v.grid.slots.getD slotA.toNat 0
        let sb := v.grid.slots.getD slotB.toNat 0
        let k := (word v s c (act.headD 0)).toNat
        let n := k * slotBits sa / 8
        badDesc a = false → badDesc b = false → v.Issues s g srcs [] act → descCauses v s act [a, b] srcs = [] → mmaKind (slotFmt sa) (slotFmt sb) = some (kind, chunk) →
        k % chunk = 0 → k ≤ 256 → rangeCauses v act (descriptor v s a (act.headD 0)) n = [] →
        rangeCauses v act (descriptor v s b (act.headD 0)) n = [] →
        let q := queued v s (matrixOp v s act tile (.mma (descriptor v s a (act.headD 0)) (descriptor v s b (act.headD 0)) sa sb k))
        exec (.mma g tile slotA slotB a b c) s = .next (ends v s srcs (started v s q)) ∧
        (UnitIdle v s → started v s q = if k = 0 then q.popMatrix v.core s.nextId else q)) ∧
      ∀ (a : Src) (b : Reg), v.Issues s g [a.use] [(b, false)] act →
        let u := markEmpty v act b false (flagT v b.toNat { s with nextId := s.nextId + 1 })
        exec (.mmov g tile a b) s = .next (ends v s [a.use] (started v s (queued v u (matrixOp v u act tile
          (.mmov (act.foldl (fun m l => AMap.put m l (word v s a l).toNat) []) (act.map fun l => destOf v s act s.nextId l b false)))))) ∧
        (UnitIdle v s → s.mem.errors = [] → ∃ t, exec (.mmov g tile a b) s = .next t ∧ Emptied v t act b.toNat ∧ ∀ k, ∀ h : k < act.length,
          let x := (word v s a act[k]).toNat
          t.ex.longs.find (s.nextId + 2 + k) = some { core := v.core, dest := destOf v s act s.nextId act[k] b false, poison := false
                                                      vals := [(s.tileAt v.core tile.toNat).elem (2 * act[k] + x / 64 % 2) (x % 64)] }))

/-- MZERO on an idle unit is performed at once (R213): the rows of the active lanes are 0, the others as they were; a claimed tile's are all 0. MREL frees the team's
tile once nothing in flight uses it. MPIN and MUNPIN (R216) raise nothing: one that would fault is dropped; MPIN adds a pin of the blocks that its rows touch; MUNPIN removes the pin of the same operands. MSAVE and
MREST (R217), from a supervisor, move a tile's image to and from memory; the tile saved is FREE. That the image which MREST brings counts as the one of its team's last barrier, where that had the tile, and
that a rollback's tile which stands waiting takes its place, is the model's choice (keepImage, log 49). -/
def Obligations.TilesAndTheirImages : Prop :=
  ((∀ (s : State) (v : View) (act : List Nat) (g : Guard) (tile : BitVec 3), Solo v s → act ≠ [] → v.Issues s g [] [] act →
     UnitIdle v s →
     (s.checkTile v.teamKey v.team tile.toNat .claim = .claim ∨ s.checkTile v.teamKey v.team tile.toNat .claim = .proceed) →
     ∃ t, exec (.mzero g tile) s = .next t ∧ ∀ r c, r < 64 → c < 64 →
       (t.tileAt v.core tile.toNat).elem r c = if r / 2 ∈ act then 0 else
         if s.checkTile v.teamKey v.team tile.toNat .claim = .claim then 0 else (s.tileAt v.core tile.toNat).elem r c) ∧
   ∀ (s : State) (v : View) (act : List Nat) (g : Guard) (tile : BitVec 3), s.view = some v → act ≠ [] → v.Issues s g [] [] act →
     s.checkTile v.teamKey v.team tile.toNat .release = .proceed → (∀ i ∈ s.matrixInFlight v.core, i.tile ≠ tile.toNat) →
     exec (.mrel g tile) s = .next (ends v s [] ((s.setTile v.team.core tile.toNat {}).modTeam v.teamKey fun t =>
       { t with tmask := t.tmask &&& ~~~(1#8 <<< tile.toNat) }))) ∧
  (∀ (s : State) (v : View) (act : List Nat) (g : Guard) (slot : BitVec 3) (a c : Src), s.view = some v → act ≠ [] → badDesc a = false →
    let srcs := quad a.reg a.ea ++ [c.use]
    v.Issues s g srcs [] act →
    let t := popQueues v srcs s
    (pinOf v s act slot a c = none → exec (.mpin g slot a c) s = .next (ends v s [] t) ∧ exec (.munpin g slot a c) s = .next (ends v s [] t)) ∧
    ∀ d k w, pinOf v s act slot a c = some (d, k, w) →
      (∀ bs u, (AMap.get [] t.ex.pins v.core).length < 16 → t.pinAddrs v ((List.range 64).flatMap fun i => d.blockAddrs i ((k * slotBits w + 7) / 8)) = (some bs, u) →
        let pin : Pin := { team := v.teamKey, desc := d, k := k, slot := w, blocks := [] }
        exec (.mpin g slot a c) s = .next (ends v s [] (bs.eraseDups.foldl (State.pinBlock v.core v.asid)
          (u.modEx fun x => { x with pins := x.pins.put v.core (AMap.get [] x.pins v.core ++ [pin]) })))) ∧
      ∀ p, (AMap.get [] t.ex.pins v.core).find? (fun p => p.desc == d && p.k == k && p.slot == w) = some p →
        exec (.munpin g slot a c) s = .next (ends v s [] (t.modEx fun x => { x with pins := x.pins.put v.core ((AMap.get [] t.ex.pins v.core).erase p) }))) ∧
  ∀ (s : State) (v : View) (act : List Nat) (g : Guard) (tile : BitVec 3) (a b : Src) (top : Nat), s.view = some v → act.getLast? = some top →
    let srcs := [a.use true, b.use]
    let core := (word v s b top).toNat
    (v.sup = 2 ∨ (v.sup ≠ 0 ∧ (core / 16 ∈ (s.partOf v).clusters ∨ core / 16 ∈ (s.partOf v).shared))) →
    v.Issues s g srcs [] act → poisonCauses v s act srcs = [] → core < 640 → (pair v s a top).toNat % 64 = 0 →
    (∀ i ∈ s.matrixInFlight core, i.tile ≠ tile.toNat) → (∀ e ∈ s.mem.errors, e.level = 7 → e.addr ≠ core * 8 + tile.toNat) →
    (∀ u, s.writeVa (cacheOf v.core) v.asid (pair v s a top) ((tileImage (s.tileAt core tile.toNat)).map TWord.fresh) = (.ok (), u) →
      exec (.msave g tile a b) s = .next (ends v s srcs (u.setTile core tile.toNat {}))) ∧
    ∀ ts u, s.readVa (cacheOf v.core) v.asid (pair v s a top) 1 4112 = (.ok ts, u) → judgeWords ts = none →
      let w := u.tileMend core tile.toNat fun _ => true
      ((ts.getD 0 {}).data.getLsbD 31 = false → exec (.mrest g tile a b) s = .next (ends v s srcs (w.setTile core tile.toNat {}))) ∧
      ((ts.getD 0 {}).data.getLsbD 31 = true →
        ∃ x : Tile, exec (.mrest g tile a b) s = .next (ends v s srcs ((w.setTile core tile.toNat x).keepImage (tileKey core tile.toNat) x)) ∧
          x.tag = some { asid := (ts.getD 0 {}).data.toNat % 4096, grid := (ts.getD 1 {}).data.toNat, team := (ts.getD 2 {}).data.toNat } ∧
          ∀ i n, i < 64 → n < 64 → x.elem i n = (ts.getD (16 + 64 * i + n) {}).data)

/-! ### The sampling array -/

/-- The array instructions of a team outside a core pair (R219 to R230). SABIND binds a free array and says in D whether the team holds it; SAFREE frees it; SALOAD installs cells or a chart; SASEED and
SACLAMP on an idle array are performed at once; SASWEEP starts its sweeps; SAREAD and SACNT put their values in flight, and SACNT.clr clears the counters that it has read; SASTAT reads at once. That SASWEEP
makes its team irrevocable only as its first colour phase is performed is the model's reading of R298 (log 54). -/
def Obligations.ArrayInstructions : Prop :=
  ∀ (s : State) (v : View) (act : List Nat) (g : Guard), Solo v s → act ≠ [] → v.ctx.halted = false → v.team.saved = false →
    let cl := v.core / 16
    let a := (s.ex.arrays.find cl).getD {}
    let tag := tagOf s v.team
    let held : Bool := a.bound == some tag
    let late (d : Reg) (l : Nat) (w : Word) : Long := { core := v.team.core, dest := destOf v s act s.nextId l d false, vals := [w], poison := false }
    (∀ d, v.ctx.vmode = 0 → v.grp.run.inputs = none → v.Issues s g [] [(d, false)] act →
      WritesFrom v s (if a.bound = none then (s.mendArray cl fun _ => true).setArray cl { bound := some tag } else s) act [] d false
        (fun _ => if a.bound = none ∨ a.bound = some tag then 1 else 0) (exec (.sabind { g := g, d := d }) s)) ∧
    (v.Issues s g [] [] act → (held = true → a.queue = []) → exec (.safree g) s = .next (ends v s [] (if held then (s.mendArray cl fun _ => true).setArray cl {} else s))) ∧
    (∀ d wide, v.Issues s g [] [(d, wide)] act → (wide = true → held = true) →
      WritesFrom v s s act [] d wide (fun _ => if wide then a.seed ++ a.sc else (arrayStatus v s).setWidth 64) (exec (.sastat { g := g, d := d } wide) s)) ∧
    (held = true →
      (∀ (x : Src) (top : Nat) (ts : List TWord) (u : State), act.getLast? = some top → a.queue = [] → v.Issues s g [x.use true] [] act → poisonCauses v s act [x.use true] = [] →
        (pair v s x top).toNat % 4 = 0 → act.any (s.loadHeld v (va57 (pair v s x top)) 2049) = false →
        s.readEach (cacheOf v.core) v.asid (pair v s x top) 2049 = (ts.map .ok, u) → judgeWords ts = none → (ts.getD 0 {}).data.toNat < 8 →
        exec (.saload g x none) s = .next (ends v s [x.use true] ((u.mendArray cl fun i => decide (16384 ≤ i)).setArray cl (((u.ex.arrays.find cl).getD {}).installChart ts)))) ∧
      (∀ (x b c : Src) (top : Nat) (ts : List TWord) (u : State),
        let srcs := [x.use true, b.use, c.use]
        act.getLast? = some top → a.queue = [] → v.Issues s g srcs [] act → poisonCauses v s act srcs = [] → (pair v s x top).toNat % 4 = 0 →
        let first := (word v s b top).toNat
        let count := (word v s c top).toNat
        first + count ≤ 16384 → act.any (s.loadHeld v (va57 (pair v s x top)) (33 * count)) = false →
        s.readEach (cacheOf v.core) v.asid (pair v s x top) (33 * count) = (ts.map .ok, u) → judgeWords ts = none →
        (∀ i, i < 33 * count → badRecordWord (i % 33) (ts.getD i {}).data = false) →
        exec (.saload g x (some (b, c))) s = .next (ends v s srcs ((u.mendArray cl fun i => decide (first ≤ i) && decide (i < first + count)).setArray cl
          (((u.ex.arrays.find cl).getD {}).installCells first count ts)))) ∧
      (∀ (x : Src) (ent : Bool) (top : Nat), act.getLast? = some top → a.queue = [] → v.Issues s g [x.use] [] act → poisonCauses v s act [x.use] = [] →
        let z : Sampler := { a with seed := word v s x top, sc := 0, entropy := ent, remain := 0, colour := 0 }
        exec (.saseed { g := g, a := x } ent) s = .next (ends v s [x.use] ({ s with nextId := s.nextId + 1 }.setArray cl z))) ∧
      (∀ (x b : Src) (c : Option Src),
        let srcs := [x.use, b.use] ++ c.toList.map (·.use)
        a.queue = [] → v.Issues s g srcs [] act → poisonCauses v s act srcs = [] →
        let z := act.foldl (fun z l => Sampler.clampWord z ((word v s x l).toNat % 512, word v s b l, c.map fun c => word v s c l)) a
        exec (.saclamp g x b c) s =
          .next (ends v s srcs ({ s with nextId := s.nextId + 1 }.setArray cl { z with queue := [], remain := 0, colour := 0 }))) ∧
      (∀ (cnt : Bool) (d : Reg) (x b : Src) (top : Nat), act.getLast? = some top → a.queue = [] → a.loaded = true → v.Issues s g [x.use, b.use] [(d, false)] act →
        poisonCauses v s act [x.use, b.use] = [] →
        let count := (word v s b top).toNat
        0 < count → count ≤ 65535 →
        ∃ t i, exec (.sasweep g cnt d x b) s = .next t ∧ (t.ex.arrays.find cl) = some { a with queue := [i], remain := count, colour := 0 } ∧
          i.op = .sweep ((word v s x top).extractLsb' 0 16) count cnt ∧ i.dests = act.map (fun l => (destOf v s act s.nextId l d false, none)) ∧
          (∀ n, n ≠ cl → t.ex.arrays.find n = s.ex.arrays.find n) ∧ Emptied v t act d.toNat ∧
          RegisterFrame v (v.nextPc s) { s with nextId := s.nextId + 1, ex := { s.ex with arrays := t.ex.arrays } } t act (regsOf d false) 0 [x.use, b.use]) ∧
      ∀ (d : Reg) (x : Src), a.queue = [] → s.mem.errors = [] → v.Issues s g [x.use] [(d, false)] act → poisonCauses v s act [x.use] = [] →
        let sent (t : State) (val : Nat → Word) : Prop := Emptied v t act d.toNat ∧
          (∀ i, ∀ h : i < act.length, t.ex.longs.find (s.nextId + 1 + i) = some (late d act[i] (val act[i]))) ∧
          (∀ n, (n < s.nextId + 1 ∨ s.nextId + 1 + act.length ≤ n) → t.ex.longs.find n = s.ex.longs.find n) ∧
          (∀ n, n ≠ cl → t.ex.arrays.find n = s.ex.arrays.find n) ∧
          RegisterFrame v (v.nextPc s) { s with nextId := s.nextId + 1 + act.length, ex := { s.ex with arrays := t.ex.arrays, longs := t.ex.longs } } t act
            (regsOf d false) 0 [x.use]
        (∃ t, exec (.saread { g := g, d := d, a := x }) s = .next t ∧ sent t (fun l => a.spins ((word v s x l).toNat % 512)) ∧
          t.ex.arrays.find cl = some { a with queue := [], remain := 0, colour := 0 }) ∧
        ∀ clr, ∃ t b, exec (.sacnt { g := g, d := d, a := x } clr) s = .next t ∧ sent t (fun l => (a.cell ((word v s x l).toNat % 16384)).counter.setWidth 32) ∧
          t.ex.arrays.find cl = some b ∧ b = { a with cells := b.cells, queue := [], remain := 0, colour := 0 } ∧
          ∀ i, ((∃ l ∈ act, (word v s x l).toNat % 16384 = i) ∧ clr = true → b.cell i = { a.cell i with counter := 0 }) ∧
            (¬ ((∃ l ∈ act, (word v s x l).toNat % 16384 = i) ∧ clr = true) → b.cell i = a.cell i))

/-! ### Strands, grids, fences, invalidations, gates -/

/-- SPAWN (R273) gives each active lane the rank of the strand that it creates, or all ones where the team is full; the team is irrevocable once one is created. A lane's
strand has the lowest free rank, x1 the lane's operand, x2 the parent's rank, every other register at its start value, and one bin of the core takes it, the team's filling bin of the entry where
there is one, else a fresh one; every other bin is as it was. -/
def Obligations.SpawnedStrands : Prop :=
  (∀ (g : Guard) (d : Reg) (a : Src) (tgt : BitVec 20) (s u : State) (v : View) (act : List Nat) (m : AMap Word), Solo v s → act ≠ [] →
    v.Issues s g [a.use] [(d, false)] act → s.badTarget v.core v.asid v.team (directTarget v.team v.split.pc tgt) = none →
    s.unperformed v act = false → s.releasing v act = false → (∀ l ∈ act, s.enginesBefore s.nextId true (v.key l) = false) →
    spawnAll v (directTarget v.team v.split.pc tgt) (fun l => (srcElems v s l a.use).getD 0 {}) act s = some (m, u) →
    exec (.spawn g d a tgt) s = .next (ends v s [a.use] (writeDest v act d (fun l => ([AMap.get 0 m l], false))
      (if act.any fun l => AMap.get 0 m l != 0xFFFFFFFF then irrevocable v u else u)))) ∧
  ∀ (v : View) (pc : Word64) (arg : Elem) (rank : Nat) (s : State), v.grid.hdr.capacity ≤ 1024 →
    let live (r : Nat) : Prop := s.ex.strands.find (v.teamKey * 2048 + r) ≠ none
    (v.grid.hdr.capacity ≤ (s.liveStrands v.teamKey).length → spawnOne v pc arg rank s = some (0xFFFFFFFF, s)) ∧
    ((s.liveStrands v.teamKey).length < v.grid.hdr.capacity → s.ex.strands.sorted = true → ∀ w t, spawnOne v pc arg rank s = some (w, t) →
      ∃ r, r < 1024 ∧ ¬ live r ∧ (∀ q, q < r → live q) ∧ w = BitVec.ofNat 32 r ∧
        let new : Strand := { uid := s.nextId, x := [] }
        t = { s with nextId := s.nextId + 1, ex := { s.ex with strands := t.ex.strands, bins := t.ex.bins } } ∧
        (∀ n, n ≠ v.teamKey * 2048 + r → t.ex.strands.find n = s.ex.strands.find n) ∧
        (∃ n b, v.core * 32 ≤ n ∧ n < v.core * 32 + 32 ∧ t.ex.bins.find n = some b ∧ (∀ k, k ≠ n → t.ex.bins.find k = s.ex.bins.find k) ∧
          b.team = v.teamKey ∧ b.pc = pc ∧ b.entered = true ∧ (b.launching = true ↔ groupSlots (s.headerOf v.teamKey) ≤ b.ranks.length) ∧
          ((∃ old, s.ex.bins.find n = some old ∧ old.team = v.teamKey ∧ old.pc = pc ∧ old.launching = false ∧
              b = { old with ranks := old.ranks ++ [r], launching := b.launching, entered := true }) ∨
           (s.ex.bins.find n = none ∧ (∀ k old, v.core * 32 ≤ k → k < v.core * 32 + 32 → s.ex.bins.find k = some old → old.team = v.teamKey → old.pc = pc → old.launching = true) ∧
              b.ranks = [r] ∧ b.started = s.dev.clock ∧ b.qset = v.grp.qset))) ∧
        ∃ x, t.ex.strands.find (v.teamKey * 2048 + r) = some { new with x := x } ∧ AMap.get {} x 1 = { val := arg.val, poison := arg.poison } ∧
          AMap.get {} x 2 = { val := BitVec.ofNat 32 rank } ∧ ∀ n, n ≠ 1 → n ≠ 2 → AMap.get {} x n = {})

/-- LAUNCH (R275): once every active lane's record has passed its checks, each lane's launch is performed in ascending lane and its status is in D: 2 for a queue that is not
enabled, 1 for a full one, else 0 and the grid is accepted. Behind a release FENCE at .dev or wider of a lane's strand, what the L1 holds dirty goes first (R236). -/
def Obligations.LaunchedGrids : Prop :=
  (∀ (x : FDS) (s u w : State) (v : View) (act : List Nat) (m : AMap (LaunchRecord × KHeader)) (ws : AMap Word64), Solo v s → act ≠ [] → v.ctx.vmode = 0 →
    v.grp.run.inputs = none →
    v.Issues s x.g [x.a.use true] [(x.d, false)] act → poisonCauses v s act [x.a.use true] = [] → (∀ l ∈ act, (pair v s x.a l).toNat % 64 = 0) →
    s.releasing v act = false → s.recordHeld v act (pair v s x.a) = false →
    launchChecks v (pair v s x.a) act s = ((m, []), u) →
    launchAll v (pair v s x.a) m act (if act.any fun l => (u.strandAt (v.key l)).released then u.l1Empty v.core v.asid else u) = (ws, w) → w.org.ctxs = s.org.ctxs →
    exec (.launch x) s = .next (ends v s [] (writeDest v act x.d (fun l => ([lo (AMap.get 0 ws l)], false))
      (if act.any fun l => AMap.get 1 ws l == 0 then irrevocable v w else w)))) ∧
  ∀ (v : View) (va : Word64) (r : LaunchRecord) (h : KHeader) (s : State),
    let q := s.lqueue v.grid.part r.queue
    let base := v.grid.display.getD (h.level - 1) 0
    (q.en = false → launchOne v va r h s = (2, s)) ∧ (q.en = true → q.full = true → launchOne v va r h s = (1, s)) ∧
    (q.en = true → q.full = false → launchOne v va r h s = (0, (s.addRef (frameKey v.grid.part base.toNat)).acceptGrid v.asid v.grid.part r.queue va r h
      (frameKey v.grid.part base.toNat) (v.grid.display.take h.level) (v.grid.fsizes.take h.level)))

/-- FENCE (R240 to R242) does not stall: with an active lane it puts one fence for those lanes in flight; from an acquire on, the split speculates from the state just after it. ICINV
(R338), TLBINV (R75 to R78) from Smilor, with their operands unpoisoned, take their effect at once and hold the split until they are complete: no translation that a lane of TLBINV
names is left. -/
def Obligations.FencesAndInvalidations : Prop :=
  (∀ (g : Guard) (sc : Scope) (o : Order) (s : State) (v : View) (act : List Nat), s.view = some v → act ≠ [] → v.Issues s g [] [] act → s.ex.fences.find s.nextId = none →
    let c := if o.releases then act.foldl (fun s l => s.modStrand (v.key l) fun t => { t with fenced := true, released := t.released || sc.wide }) (clampSys v sc act s)
             else clampSys v sc act s
    let f : FenceOp := { core := v.core, gk := v.gk, strands := act.map v.key, wide := sc.wide, rel := o.releases, acq := o.acquires,
                         sigs := (s.pairOf v).issuedSigs, pc := v.split.pc }
    let t := ends v s [] { c with nextId := s.nextId + 1, ex := { c.ex with fences := s.ex.fences.put s.nextId f } }
    (o.acquires = false → exec (.fence g sc o) s = .next t) ∧
    (o.acquires = true → ∃ grp, t.ex.groups.find v.gk = some grp ∧
      let mask : Lanes := ((grp.splits.find? Split.speculates).map (·.mask)).getD 0
      let back : Spec := { fence := s.nextId, grp := grp, fencePc := v.split.pc
                           strands := t.ex.strands.filter fun e => grp.remap.any fun r => mask.getLsbD r.1 && strandKey grp.team r.2 == e.1 }
      exec (.fence g sc o) s = .next { t with ex := { t.ex with specs := s.ex.specs.put v.gk back } })) ∧
  (∀ (g : Guard) (s : State) (v : View) (act : List Nat), s.view = some v → v.trails = false → act ≠ [] →
    (v.Issues s g [] [] act → exec (.icinv g .all) s = .next (ends v s [] (blocked v (act.foldl (fun t _ => t.codeRemove v.asid fun _ _ => true) s) .icinv))) ∧
    ∀ a b, v.Issues s g [a.use true, b.use] [] act → poisonCauses v s act [a.use true, b.use] = [] →
      exec (.icinv g (.range a b)) s = .next (ends v s [a.use true, b.use] (blocked v (act.foldl (fun t l =>
        let n := (word v s b l).toNat
        t.codeRemove v.asid fun va size => decide (0 < size) && decide (0 < n) && decide (va < (pair v s a l).toNat + n) &&
          decide ((pair v s a l).toNat < va + size)) s) .icinv))) ∧
  ∀ (g : Guard) (k : TlbKind) (s : State) (v : View) (act : List Nat), s.view = some v → v.sup = 2 → act ≠ [] → v.Issues s g (tlbSrcs k) [] act →
    poisonCauses v s act (tlbSrcs k) = [] →
    ∃ u, exec (.tlbinv g k) s = .next (ends v s (tlbSrcs k) (blocked v u (.tlbinv s.nextId (act.map (tlbSel k v s))))) ∧ u.ex.strands = s.ex.strands ∧ u.ex.groups = s.ex.groups ∧
      u.mem.partials = [] ∧
      ∀ c, ∀ e ∈ AMap.get [] u.mem.tcache c, e ∈ AMap.get [] s.mem.tcache c ∧ ∀ l ∈ act, (tlbSel k v s l).hits e = false

/-- What a group with a gate's answer becomes once the answer is taken. -/
def answerTaken (v : View) (s : State) : State := s.modGroup v.gk fun g => { g with gate := none }

/-- GSIG, GREAD and GWAIT (R322 to R325), outside a core pair. GSIG and GREAD ask the unit of their gate for its checks and its charge, GSIG behind its lanes' earlier accesses and the
write-back of the L1; accepted, GSIG ends, its write standing at the unit, and GREAD's pair is empty and its read stands at the unit; the strand goes on. A gate that denies it raises
GATE_DENIED, an empty bucket GATE_RATE with the retry value. GWAIT's lanes park at its own PC and its request goes to the unit, which arms it. That the group of a GSIG or GREAD issues nothing
until the unit has made its checks, and that a GWAIT's split asks apart from its group, is the model's choice (log 41). -/
def Obligations.GateOperations : Prop :=
  (∀ (g : Guard) (set : Bool) (a b : Src) (s : State) (v : View) (act : List Nat) (top : Nat), Solo v s → act.getLast? = some top →
    let srcs := [a.use, b.use true]
    let h := word v s a top
    v.Issues s g srcs [] act → poisonCauses v s act srcs = [] →
    (v.grp.gate = none → s.unperformed v act = false → s.releasing v act = false → (∀ l ∈ act, s.enginesBefore s.nextId true (v.key l) = false) →
      exec (.gsig g set a b) s = .next ((s.l1WriteBackAll v.core v.asid).askGate v h 0 (.sig set (pair v s b top))).idle) ∧
    (v.grp.gate = some .accepted → exec (.gsig g set a b) s = .next (ends v s srcs (answerTaken v s))) ∧
    ∀ ans c tv, ((ans = .denied ∧ c = 14 ∧ tv = h.setWidth 64) ∨ (ans = .empty tv ∧ c = 15)) → v.grp.gate = some ans → s.ex.specs.has v.gk = false →
      ∃ n, exec (.gsig g set a b) s = .next { raise v { cause := c, tval := tv, lanes := lanesOf act, lcause := act.map fun l => (l, c) } true (answerTaken v s)
        with cur := none, freeCount := n }) ∧
  (∀ (x : FDS) (s : State) (v : View) (act : List Nat) (top : Nat), Solo v s → act.getLast? = some top → v.ctx.vmode = 0 → v.Issues s x.g [x.a.use] [(x.d, true)] act →
    poisonCauses v s act [x.a.use] = [] →
    (v.grp.gate = none → exec (.gread x) s = .next (s.askGate v (word v s x.a top) 2 .read).idle) ∧
    (v.grp.gate = some .accepted →
      let u := markEmpty v act x.d true (flagT v x.d.toNat { answerTaken v s with nextId := s.nextId + 1 })
      ∃ t, exec (.gread x) s = .next t ∧ Emptied v t act x.d.toNat ∧ Emptied v t act (x.d.toNat + 1) ∧
        t = ends v s [x.a.use] (u.sendGate (gateIndex (word v s x.a top)) v.gk (.read v.core (act.map fun l => (destOf v s act s.nextId l x.d true, none)))))) ∧
  ∀ (x : FTrDT) (s : State) (v : View) (act : List Nat) (top : Nat),
    TrailerReady v s x.g [{ reg := x.d.toNat }, { reg := x.d.toNat + 2, pair := true }] act x.aw →
    v.team.pair = none → v.ctx.vmode ≠ 2 → x.d.toNat % 4 = 0 → x.d.toNat + 3 < v.grid.hdr.regs → x.d.toNat < 192 → act.getLast? = some top →
    (∀ l ∈ act, (s.elemNow v l (x.d.toNat + 1)).full = true ∧ (s.elemNow v l x.d.toNat).poison = false ∧ (s.elemNow v l (x.d.toNat + 2)).poison = false ∧
      (s.elemNow v l (x.d.toNat + 3)).poison = false) →
    let h := (s.elemNow v top x.d.toNat).val
    let threshold := (s.elemNow v top (x.d.toNat + 3)).val ++ (s.elemNow v top (x.d.toNat + 2)).val
    let u := { s with nextId := s.nextId + 1 }.sendGate (gateIndex h) v.gk (.ask h v.grid.part 1 (.arm threshold) s.nextId)
    ∃ t, exec (.gwait x) s = .next t ∧
      TrailerEnds v s u t act x.aw (fun _ => v.split.pc) (.parked (.asking s.nextId (v.nextPc s) h threshold x.tmo.toNat x.d))

/-! ### The events of the machine's own agents -/

/-- RUN_START (R40, R250, R285): an issue slot with no run starts the run of a ready split of the oldest group that can, unless a trap is held, a promise was missed
or the trap entry is bad; the others are passed over. PILOT_ISSUE (R144): the engine's next instruction issues, of the run in progress, or else of the one that it starts. AWAIT_SET_SATISFIED (R44,
R248, R263, R267): a split whose await set is full becomes ready, arrives at its barrier, or exits. L1_INSTRUCTION_FILL and LINE_REFETCH (R27, R333, R334): a line that a split misses arrives, with the runs that asked for it; one that fails its check is fetched once more: where it passes, a corrected error is logged, and a second failure raises UNCORRECTABLE
with the address of the line, or of the syllable, as a context fault (R287); a read that raises a cause delivers it. -/
def Obligations.RunsAndFetches : Prop :=
  ((∀ (core slot : Nat) (s : State) (gk : Nat) (g : Group), s.slotChoice core slot = some (gk, g) → (gk, g) ∈ s.startable core slot ∧
     ((∀ e ∈ s.startable core slot, e.2.passed < 64) → ∀ e ∈ s.startable core slot, g.age ≤ e.2.age) ∧
     (∀ i, g.nextSplit = some i → ∃ sp, g.splits[i]? = some sp ∧ sp.st = .ready) ∧
     ∀ (i : Nat) (v : View), slot ≤ 3 → s.slotGroup core slot = none → g.nextSplit = some i →
       s.viewOf gk i = some v → (v.grp.causebits = 0 ∨ v.grp.hm = true) → v.grp.missedAt = none → s.badEntryAt v = none →
       ∃ t, exec (.runStart core slot) s = .next t ∧ t = (passedOver s core slot gk (s.startRun gk i)).idle ∧ t.slotGroup core slot = some gk) ∧
   (∀ (core gk : Nat) (g : Group) (s : State), s.slotGroup core 4 = some gk → s.ex.groups.find gk = some g → s.pilotMay (gk, g) = true → g.block = none →
     exec (.pilotIssue core) s = .next { s with cur := none, turn := .issue core 4 }) ∧
   (∀ (core gk i : Nat) (g : Group) (s : State), s.slotGroup core 4 = none → s.pilotChoice core = some (gk, g) → g.nextSplit = some i →
     exec (.pilotIssue core) s = .next { s.beginRun gk i with cur := none, turn := .issue core 4 }) ∧
   ∀ (core group split : Nat) (s : State) (v : View), s.viewOf (core * 256 + group) split = some v → s.groupMoves (core * 256 + group) = true →
     (v.split.st = .awaiting → splitFull v s v.split = true → exec (.awaitSetSatisfied core group split) s =
       .next (s.modGroup (core * 256 + group) fun g => g.modSplit split fun sp => { sp with st := .ready, bw := sp.missed }).idle) ∧
     (v.split.st = .arriving → splitFull v s v.split = true → exec (.awaitSetSatisfied core group split) s =
       .next ((v.lanes.foldl (fun s l => s.modStrand (v.key l) fun t => { t with arrived := true }) s).modGroup (core * 256 + group) fun g =>
         let h := g.modSplit split fun sp => { sp with st := .parked .bar, awaits := [], bw := sp.missed }
         { h with splits := mergeSplits v.split.mask h.splits }).idle) ∧
     ∀ t, v.split.st = .exiting → v.lanes.filter (laneFull v s v.split) ≠ [] → s.exitLanes v (v.lanes.filter (laneFull v s v.split)) = some t →
       exec (.awaitSetSatisfied core group split) s = .next t.idle) ∧
  ∀ (core asid : Nat) (line : Word64) (s : State) (v : View),
    (∀ ws bad, s.missesLine core asid line = some (v, false) →
      let r := s.readCode core asid v.team line 4
      r.2.lineVerdict v line r.1 = .ok (ws, bad) → exec (.l1InstructionFill core asid line) s =
        .next (r.2.ilinePut core { asid := asid, va := line.toNat, words := ws, refetch := bad.isSome, asked := r.2.askers core asid line }).idle) ∧
    (∀ c t, s.missesLine core asid line = some (v, false) →
      let r := s.readCode core asid v.team line 4
      r.2.lineVerdict v line r.1 = .error (c, t) → exec (.l1InstructionFill core asid line) s = .next (fetchFault v c t r.2).idle) ∧
    (s.missesLine core asid line = some (v, true) →
      let r := (s.ilineDrop core asid line).readCode core asid v.team line 3
      (∀ ws, r.2.lineVerdict v line r.1 = .ok (ws, none) →
        let u := r.2.ilinePut core { asid := asid, va := line.toNat, words := ws, refetch := false, asked := r.2.askers core asid line }
        exec (.lineRefetch core asid line) s = .next (u.logError (errRec 4 0 3 core (u.ilineIndex core asid line) asid v.grid.part 0 0)).idle) ∧
      (∀ ws a, r.2.lineVerdict v line r.1 = .ok (ws, some a) → exec (.lineRefetch core asid line) s = .next (fetchFault v 12 a r.2).idle) ∧
      ∀ c t, r.2.lineVerdict v line r.1 = .error (c, t) → exec (.lineRefetch core asid line) s = .next (fetchFault v c t r.2).idle)

/-- LOAD_DATA_RETURN (R81, R118, R121): outside a core pair the words of a load or an atomic, checked, are written to the destination, or their failed check is raised. LONG_LATENCY_RESULT (R177):
the result is written and the destination full. L1_DATA_FILL (R106): a load that missed is performed; a PREF's half block is installed. HOME_SLICE_ACCESS (R67): one word of an access, a copy
request or a QLD that is still to be performed is performed, whichever the schedule takes. COPY_REQUEST_COMPLETE (R93, R95, R102): the last word of a request moves, and its batch may complete; a
request whose last word faults stays. A long-latency result that is an input of the voyage log (GREAD's) is logged or replayed first (R311). QLD_PUSH
(R150): the entry becomes the newest of its queue. -/
def Obligations.ResultsAndTransfers : Prop :=
  (∀ (core id : Nat) (s : State) (r : Req), s.ex.reqs.find id = some r → r.core = core → r.done = true → r.fwd = none →
    let val := loadValue r.ty ((wordsOfReq r).map (·.data)) r.va
    (r.kind = .load → judgeWords (wordsOfReq r) = none →
      exec (.loadDataReturn core id) s = .next (deliver r.dest (wordsOf r.ty.wide val) false (s.dropReq id)).idle) ∧
    (∀ op x u, r.kind = .atom op → judgeWords (wordsOfReq r) = none → s.logStrand r.dest.strand r.dest.uid 2 val = .val x u →
      exec (.loadDataReturn core id) s = .next (deliver r.dest (wordsOf r.ty.wide x) false (u.dropReq id)).idle) ∧
    ∀ c i, r.returns = true → s.held r.dest = false → judgeWords (wordsOfReq r) = some (c, i) → exec (.loadDataReturn core id) s = .next (s.raiseLate id r c i).idle) ∧
  (∀ (core id : Nat) (s : State) (r q : Req), s.ex.reqs.find id = some r → r.core = core → s.loadHere id r = true →
    (s.runReq id r 0).ex.reqs.find id = some q → q.kind = .load → q.done = true → q.fwd = none → judgeWords (wordsOfReq q) = none →
    exec (.loadDataReturn core id) s =
      .next (deliver q.dest (wordsOf q.ty.wide (loadValue q.ty ((wordsOfReq q).map (·.data)) q.va)) false ((s.runReq id r 0).dropReq id)).idle) ∧
  (∀ (core id : Nat) (s : State) (r : Long), s.ex.longs.find id = some r → r.core = core → Alone s r.dest →
    (r.logged = none → exec (.longLatencyResult core id) s = .next (deliver r.dest r.vals r.poison (s.modEx fun x => { x with longs := x.longs.del id })).idle) ∧
    ∀ kind x u, r.logged = some kind → s.logStrand r.dest.strand r.dest.uid kind (ofTwo r.vals) = .val x u → u.ex.teams = s.ex.teams →
      exec (.longLatencyResult core id) s = .next (deliver r.dest (twoWords x) r.poison (u.modEx fun x => { x with longs := x.longs.del id })).idle) ∧
  (∀ (core id : Nat) (s : State) (r : Req), s.ex.reqs.find id = some r → r.core = core → r.kind = .load → r.unit = .l1 → r.done = false → s.trailing r = false →
    s.reqBlocked id r = false → s.l1Hit r.core r.asid r.va r.width = false → exec (.l1DataFill core id) s = .next (s.runReq id r 0).idle) ∧
  (∀ (core id : Nat) (s : State) (f : Fill), s.ex.reqs.find id = none → s.ex.fills.find id = some f → f.core = core →
    exec (.l1DataFill core id) s = .next ((s.modEx fun x => { x with fills := x.fills.del id }).installFill f).idle) ∧
  (∀ (core id : Nat) (s : State) (r : Req), s.ex.reqs.find id = some r → r.core = core → r.unit = .slice → r.done = false → s.trailing r = false →
    s.reqBlocked id r = false → (∀ n, r.left = [n] → exec (.homeSliceAccess core id) s = .next (s.runReq id r n).idle) ∧
      (r.left = [] → exec (.homeSliceAccess core id) s = .next (s.runReq id r 0).idle) ∧
      (1 < r.left.length → ∃ n ∈ r.left, exec (.homeSliceAccess core id) s = .next (s.free.2.runReq id r n).idle)) ∧
  (∀ (core id : Nat) (s : State) (r : CopyReq), s.ex.reqs.find id = none → s.ex.copies.find id = some r → r.core = core → s.copyReady id r = true →
    (1 < r.unmoved.length → ∃ n ∈ r.unmoved, exec (.homeSliceAccess core id) s = .next (s.free.2.copyWord id r n).idle) ∧
    (∀ n q, r.unmoved = [n] → (s.copyWord id r n).ex.copies.find id = some q →
      exec (.copyRequestComplete core id) s = .next (if q.unmoved = [] then (s.copyWord id r n).copyDone id q else s.copyWord id r n).idle) ∧
    (r.unmoved = [] → r.failed = false → exec (.copyRequestComplete core id) s = .next (s.copyDone id r).idle)) ∧
  (∀ (core id l : Nat) (s : State) (o : QldOp), s.ex.reqs.find id = none → s.ex.copies.find id = none → s.ex.qlds.find id = some o → o.core = core →
    s.qldLanes id o = [l] → exec (.homeSliceAccess core id) s = .next (s.qldRead id o l).idle) ∧
  ∀ (core id : Nat) (s : State) (o : QldOp), s.ex.qlds.find id = some o → o.core = core → s.qldReady id o = true →
    exec (.qldPush core id) s = .next ((s.modEx fun x => { x with qlds := x.qlds.del id }).modTeam o.team fun t =>
      { t with queues := t.queues.put (o.set_ * 16 + o.q) (AMap.get [] t.queues (o.set_ * 16 + o.q) ++ [{ words := o.got, clk := s.dev.clock }]) }).idle

/-- BASE_DIE_REQUEST (R56, R316): the earliest request for its block is performed once its owner has tokens; a scrub needs none. MSC_COLOUR_FLUSH (R56, R57): what waits for blocks of the colours is performed first; then no entry of the colours is left, and
every other is as it was. SCRUB_PERIOD_EXPIRY (R62): when its period is over a pass visits every error of the level, and the next is due a period later. ERROR_RECORD_TIMEOUT (R64): an open corrected
record is written 1 ms after it opened. TABLE_WALK (R74, R124): a PREF's walk goes on to a fill of the L1, or brings the block into its slice; one that faults raises nothing, and one into a page of memory type 1 is dropped (R111). -/
def Obligations.MemoryEvents : Prop :=
  (∀ (id : Nat) (s : State) (q : BaseReq), s.mem.base.find id = some q → (s.baseOf q.block).head? = some id →
    (match q.kind with | .read => s.deferred q.block = false | .write _ => s.hasTokens q.block = true | .scrub => True) →
    exec (.baseDieRequest id) s = .next (s.performBase id).idle) ∧
  (∀ (colours : BitVec 16) (s : State), let u := s.settleColours colours
    (s.mem.base = [] → u = s) ∧ ∃ t, exec (.mscColourFlush colours) s = .next t ∧ t.ex = u.ex ∧ t.org = u.org ∧ t.mem.l2 = u.mem.l2 ∧
    (∀ k, colours.getLsbD (k / 4 % 409600 / 25600) = true → t.mem.msc.find k = none) ∧
    ((∀ e ∈ u.mem.errors, e.level ≠ 1) → ∀ k, colours.getLsbD (k / 4 % 409600 / 25600) = false → t.mem.msc.find k = u.mem.msc.find k)) ∧
  (∀ (l : ScrubLevel) (s : State), s.scrubNext l ≤ s.dev.clock →
    let u := (((s.mem.errors.filter (scrubCovers l)).map fun e => (e.level, e.addr, e.part)).eraseDups).foldl State.scrubUnit s
    exec (.scrubPeriodExpiry l) s = .next (u.modMem fun m => { m with scrubAt := m.scrubAt.put (scrubNumber l) (u.dev.clock + u.scrubClk l) }).idle) ∧
  (∀ (unit t : Nat) (r : ErrRec) (s : State), s.mem.openRecs.find unit = some (r, t) → t + 1250000 ≤ s.dev.clock →
    exec (.errorRecordTimeout unit) s = .next ((s.writeRecord r).modMem fun m => { m with openRecs := m.openRecs.del unit }).idle) ∧
  ∀ (id : Nat) (s : State) (w : Walk), s.mem.walks.find id = some w →
    let r := (s.modMem fun m => { m with walks := m.walks.del id }).translate w.cache w.asid (sx57 w.va) w.right
    (∀ c, r.1 = .error c → exec (.tableWalk id) s = .next r.2.idle) ∧
    (∀ e, r.1 = .ok e → w.toL1 = true → e.mt ≠ 1 →
      let f : Fill := { core := w.core, asid := w.asid, va := w.va / 128 * 128, pa := e.paOf w.va / 128 * 128, rights := e.rights, mt := e.mt, hint := w.hint }
      exec (.tableWalk id) s = .next (r.2.fresh.2.modEx fun x => { x with fills := x.fills.put r.2.nextId f }).idle) ∧
    (∀ e, r.1 = .ok e → w.pref = true → e.mt = 1 → exec (.tableWalk id) s = .next r.2.idle) ∧
    ∀ e, r.1 = .ok e → ((w.toL1 = false ∧ e.mt ≠ 1) ∨ (w.pref = false ∧ e.mt = 1)) → exec (.tableWalk id) s = .next (r.2.l2Ensure (e.paOf w.va / 256) w.asid).idle

/-- FENCE_COMPLETE (R112, R114, R241, R242): once a fence's waits are over, a release of wide scope has the L1 written back by all but the trailer of a core pair, an acquire of wide scope has it
swept, the fence is gone, and the speculation of an acquire ends; one of which the sweep takes no line that it read keeps what it did. TLBINV_COMPLETE (R78), ICINV_COMPLETE (R338), CWB_COMPLETE (R126), TILE_CLAIM_UNBLOCK (R203) and
PILOT_STOP_COMPLETE (R153) let the split issue again when what it waits for is over; the last ends the pilot group and, with .flush, empties the team's queues. -/
def Obligations.WaitsOfTheIssuer : Prop :=
  (∀ (core id : Nat) (s : State) (f : FenceOp) (v : View), s.ex.fences.find id = some f → s.fenceView f = some v → f.core = core → s.fenceReady id f = true →
    let u := if f.rel = true ∧ f.wide = true ∧ v.trails = false then s.l1WriteBackAll core v.asid else s
    let w := if f.acq = true ∧ f.wide = true then u.l1Sweep core v.asid else u
    let x := w.modEx fun x => { x with fences := x.fences.del id }
    let taken : Bool := f.acq && f.wide && (u.ex.specs.find f.gk).any (u.sweepTakes core v.asid)
    (f.acq = false → exec (.fenceComplete core id) s = .next x.idle) ∧
    (f.acq = true → exec (.fenceComplete core id) s = .next (x.endSpeculation f.gk taken).idle) ∧
    ∀ p, x.ex.specs.find f.gk = some p → (p.lines = [] → u.sweepTakes core v.asid p = false) ∧
      x.endSpeculation f.gk false = (x.modGroup f.gk fun g => { g with splits := g.splits.map fun sp =>
        (if sp.st == SplitState.parked Wait.fence then { sp with st := .ready } else sp) }).modEx fun e => { e with specs := e.specs.del f.gk }) ∧
  ∀ (core group : Nat) (s : State) (g : Group), s.ex.groups.find (core * 256 + group) = some g →
    let done := unblocked s (core * 256 + group)
    (∀ mark sels, g.block = some (.tlbinv mark sels) → (∀ e ∈ s.ex.reqs, e.1 < mark → e.2.unit = .scratch ∨ e.2.performed = true ∨ s.cancelled e.2 = true) →
      (∀ e ∈ s.ex.qlds, e.1 < mark → ∀ l ∈ lanesIn e.2.lanes, e.2.got.has l = true) → (∀ e ∈ s.ex.fills, mark ≤ e.1) →
      exec (.tlbinvComplete core group) s = .next (unblocked ((sels.foldl State.tlbLines s).asidsDone sels) (core * 256 + group)).idle) ∧
    (g.block = some .icinv → exec (.icinvComplete core group) s = .next done.idle) ∧
    (g.block = some .cwb → exec (.cwbComplete core group) s = .next done.idle) ∧
    (∀ n t, g.block = some (.claim n) → s.ex.teams.find g.team = some t → s.checkTile g.team t n .claim ≠ .block →
      exec (.tileClaimUnblock core group) s = .next done.idle) ∧
    ∀ flush, g.block = some (.pstop flush) → (∀ p, s.pilotOf g.team = some p → s.pilotQuiet p = true) →
      let u := match s.pilotOf g.team with | some p => s.endPilot g.team p | none => s
      exec (.pilotStopComplete core group) s = .next (unblocked (if flush then u.modTeam g.team fun t => { t with queues := [] } else u) (core * 256 + group)).idle

/-- MMA_CHUNK_FETCH (R207): the words of an MMA's next chunk are read row by row from both descriptors; an instruction that a resume left at the head is taken up again where its tile still allows it (R366). MMA_CHUNK_ADD (R209): the chunk is summed
into the rows of the active lanes, and what follows at the head is performed as far as it can be. SWEEP_COLOUR_PHASE (R222): the cells of the colour that are not clamped take new spins computed from
those at the phase's start, the team is irrevocable, and the next colour follows. BATCH_WAIT_END and PROMISE_EXPIRY (R97, R98) end a lane's wait, once the batch counts as complete or its promise has passed. -/
def Obligations.EngineEvents : Prop :=
  (∀ (core : Nat) (s : State) (i : MInstr) (v : View), s.matrixHead core = some i → s.engineView i.team i.gk i.pc 0 = some v →
    (i.check = true → (∀ c t, s.checkTile i.team v.team i.tile .use ≠ .cause c t) →
      exec (.mmaChunkFetch core) s = .next ((s.modMatrix core i.isn fun i => { i with check := false }).drainMatrix core 4).idle) ∧
    (∀ t, i.check = false → (∀ a b sa sb k, i.op ≠ .mma a b sa sb k) → s.performMatrix core i v = some t → exec (.mmaChunkFetch core) s = .next (t.drainMatrix core 4).idle) ∧
    ∀ a b sa sb k kind c, i.op = .mma a b sa sb k → mmaKind (slotFmt sa) (slotFmt sb) = some (kind, c) →
      (∀ ma ba u mb bb w, i.check = false → i.fetched = none → i.chunks < k / c → s.matrixHeld i = false →
        s.readRows v.team v.asid a (4 * chunkWords sa c * i.chunks) (chunkWords sa c) (i.rows.map (·.1)) = (.ok (ma, ba), u) →
        u.readRows v.team v.asid b (4 * chunkWords sb c * i.chunks) (chunkWords sb c) (List.range 64) = (.ok (mb, bb), w) →
        exec (.mmaChunkFetch core) s = .next (w.modMatrix core i.isn fun i => { i with fetched := some (ma, mb), blocks := w.pinnable (ba ++ bb).eraseDups }).idle) ∧
      ∀ ma mb, i.fetched = some (ma, mb) → (∀ e ∈ s.mem.errors, e.level = 7 → e.addr ≠ tileKey core i.tile) →
        exec (.mmaChunkAdd core) s = .next (((s.setTile core i.tile ((s.tileAt core i.tile).addChunk kind c sa sb ma mb (i.rows.map (·.1)))).modMatrix core i.isn
          fun i => { i with fetched := none, blocks := [], chunks := i.chunks + 1 }).drainMatrix core 5).idle) ∧
  (∀ (cl : Nat) (s : State) (i : SInstr) (rest : List SInstr) (v : View) (beta : BitVec 16) (n : Nat) (cnt : Bool) (us : AMap Nat) (u : State),
    let a := s.array cl
    let todo := a.phaseCells.filter fun i => !a.drawn.has i
    a.queue = i :: rest → i.op = .sweep beta n cnt → s.engineView i.team i.gk i.pc 0 = some v → a.remain ≠ 0 → v.ctx.halted = false → v.team.saved = false →
    (∀ e ∈ s.mem.errors, e.level ≠ 9) → s.phaseDraws v.asid v.grid v.team a todo = some (us, u) → a.entropy = false →
    let u := u.setIrrevocable i.team
    let spin (j : Nat) : Bool := decide (AMap.get 0 us j < (AMap.get 0 a.chart (chartIndex beta (a.field (a.cell j)))).toNat)
    let b := (a.phaseCells.map fun j => (j, spin j)).foldl (fun a b => a.setCell b.1 { a.cell b.1 with spin := b.2 }) { a with drawn := [] }
    let c := if cnt = true then b.count else b
    (a.colour < a.ncolm1.toNat → exec (.sweepColourPhase cl) s = .next (u.setArray cl { b with colour := a.colour + 1 }).idle) ∧
    (a.ncolm1.toNat ≤ a.colour → c.remain ≠ 1 →
      exec (.sweepColourPhase cl) s = .next (u.setArray cl { c with sc := c.sc + 1, remain := c.remain - 1, colour := 0 }).idle) ∧
    (a.ncolm1.toNat ≤ a.colour → c.remain = 1 → rest = [] →
      exec (.sweepColourPhase cl) s = .next ((u.setArray cl { c with sc := c.sc + 1, remain := 0, colour := 0, queue := [] }).sendResults v.core i.dests fun _ => c.sc + 1).idle)) ∧
  ∀ (core group split : Nat) (s : State) (v : View) (w : BatchWait),
    let gk := core * 256 + group
    s.viewAny gk split = some v → s.groupMoves gk = true → v.split.st ≠ .running →
    (v.split.bw.find? (fun w => !w.ended && batchOver v s w) = some w → w.sleep = false →
      exec (.batchWaitEnd core group split) s = .next (s.modGroup gk fun g => g.modAny split (Split.endBatch w.lane false)).idle) ∧
    ∀ x u, s.logStrand (v.key w.lane) (s.strandAt (v.key w.lane)).uid 1 (BitVec.ofNat 64 s.dev.clock) = .val x u → w.sleep = true →
      (v.split.bw.find? (fun w => !w.ended && batchOver v s w) = some w →
        exec (.batchWaitEnd core group split) s = .next (u.modGroup gk fun g => g.modAny split (Split.endBatch w.lane false)).idle) ∧
      (v.split.bw.find? (fun w => !w.ended && promiseOver v s w) = some w →
        exec (.promiseExpiry core group split) s = .next (u.modGroup gk fun g => g.modAny split (Split.endBatch w.lane true)).idle)

/-- SPLIT_FILING (R18, R251, R262): a split whose await set is full files its strands and leaves its group; with no bin free one launches first. BIN_PROOF_TIMER_EXPIRY (R251, R284): a bin whose timer has
expired launches. BIN_LAUNCH (R246, R251, R252): the bin that is next forms a converged group at its PC. BARRIER_COMPLETE (R267, R268): the teams' strands are released and their checkpoints taken, the
irrevocable flag and the rollback count cleared. TEAM_RETIRE (R256, R280, R376): a finished team leaves its core and its grid counts it, both teams of a core pair as one. FRAME_DISCARD (R139, R377): a released
frame's copies leave the caches and its bytes return to the heap. -/
def Obligations.StrandsAndTeams : Prop :=
  (∀ (core group split : Nat) (s : State) (v : View) (pc : Word64),
    let gk := core * 256 + group
    let ls := v.lanes.filter fun l => (v.rank l).isSome
    let r := s.fileStrands core v.teamKey pc v.grp.qset false (ls.filterMap v.rank)
    s.viewOf gk split = some v → v.split.st = .filing pc → s.groupMoves gk = true → splitFull v s v.split = true → v.split.missed = [] →
    (r.1 = [] → exec (.splitFiling core group split) s = .next ((r.2.modGroup gk fun g => g.dropLanes v.split.mask).afterDrop gk).idle) ∧
    (r.1 ≠ [] → r.1.length < ls.length →
      exec (.splitFiling core group split) s = .next ((r.2.modGroup gk fun g => g.dropLanes (lanesOf (ls.take (ls.length - r.1.length)))).afterDrop gk).idle) ∧
    (r.1.length = ls.length → ls ≠ [] → s.canForce core (v.key (ls.headD 0)) = true →
      exec (.splitFiling core group split) s = .next (s.forceBin core (v.key (ls.headD 0))).idle)) ∧
  (∀ (core bin : Nat) (s : State) (b : Bin), s.ex.bins.find (core * 32 + bin) = some b → bin < 32 → s.proofDue b = true →
    exec (.binProofTimerExpiry core bin) s = .next (s.modEx fun x => { x with bins := x.bins.modify (core * 32 + bin) fun b => { b with launching := true } }).idle) ∧
  (∀ (core bin : Nat) (s : State) (b : Bin) (pool : Bool) (u : State), s.nextLaunch core = some (core * 32 + bin) → s.ex.bins.find (core * 32 + bin) = some b →
    s.launchContext core b = some (pool, u) →
    let w := b.ranks.foldl (fun s r => s.rebatch (strandKey b.team r)) (u.modEx fun x => { x with bins := x.bins.del (core * 32 + bin), launched := x.launched.put core u.dev.clock })
    exec (.binLaunch core bin) s = .next (w.formGroup core b.team b.ranks b.pc b.qset pool b.entered).2.idle) ∧
  (∀ (core k : Nat) (s : State) (t : Team), s.ex.teams.find k = some t → t.core = core → s.barReady k = true →
    (t.pair = none → ∃ u, exec (.barrierComplete core k) s = .next u ∧ u = ((s.releaseBar k).checkpoint k).idle ∧
      (u.ex.teams.find k).map (fun x => (x.irrevocable, x.rollbacks)) = some (false, 0)) ∧
    ∀ p, t.pair = some (true, p) → s.barReady p = true → s.pairQuiet k p = true →
      exec (.barrierComplete core k) s = .next ((((s.releaseBar k).releaseBar p).checkpoint k).checkpoint p).idle) ∧
  (∀ (core k : Nat) (s : State) (t : Team), s.ex.teams.find k = some t → t.core = core → s.teamDone k = true →
    (t.pair = none → exec (.teamRetire core k) s = .next (((s.chargeTeam k).removeTeam k).teamRetired t.grid).powerEval.idle) ∧
    ∀ p, t.pair = some (true, p) → s.teamDone p = true → exec (.teamRetire core k) s =
      .next (((((s.chargeTeam k).removeTeam k).removeTeam p).modOrg fun o => { o with pairs := o.pairs.del k }).teamRetired t.grid).powerEval.idle) ∧
  ∀ (part base : Nat) (s : State) (f : Frame), s.org.frames.find (frameKey part base) = some f → f.discarding = true →
    exec (.frameDiscard part base) s = .next (((f.pages.foldl (fun s e => s.l1Discard e.1 e.2) s).modOrg fun o => { o with frames := o.frames.del (frameKey part base) }).modPart part
      fun p => { p with free := heapGive p.free f.base f.rounded }).idle

/-- JOINW_TIMEOUT (R266): the splits parked at the PC whose timer is over leave together with 0. MWAIT_WAKE, MWAIT_TIMEOUT (R270) and SLEEP_WAKE (R271) end a lane's wait once its line was written or its time has
come, and its end is logged (R311). GWAIT_TIMEOUT (R325): status 1 with the value last read. GATE_UNIT_OPERATION (R320 to R325, R347): the next operation of some group, or peer module: denied where the handle or the right is not good, turned away with
the retry value where the bucket is empty; else a GSIG is accepted, which makes its team irrevocable, and so is a GREAD, and a GWAIT is armed and compares VALUE. An accepted GSIG changes VALUE and every armed GWAIT compares
it; an accepted GREAD's value is on its way. Which group's operation comes next, and that an accepted operation stands at the unit, is the model's choice (log 41); the key and the form of a peer's operations and answers are those
of log 25. GATE_RETIRE (R319, R325): V clears, GEN rises, the waits end with status 2. -/
def Obligations.TimersAndGates : Prop :=
  (∀ (core group : Nat) (s : State) (g : Group) (pc : Word64), s.ex.groups.find (core * 256 + group) = some g → s.groupMoves (core * 256 + group) = true →
    (∃ i v p d n, s.viewOf (core * 256 + group) i = some v ∧ v.split.st = .parked (.joinw pc p (some d) n) ∧ d ≤ s.dev.clock) →
    (∀ sp ∈ g.splits, ∀ q p d n, sp.st = .parked (.joinw q p (some d) n) → d ≤ s.dev.clock → q = pc) →
    (∀ i v, s.viewOf (core * 256 + group) i = some v → s.joinLogged v = none) → s.joinEnd (core * 256 + group) g = none →
    exec (.joinwTimeout core group) s = .next (s.releaseJoin (core * 256 + group) pc false).idle) ∧
  (∀ (core group split lane : Nat) (s : State) (v : View) (x : Word64) (u : State),
    let gk := core * 256 + group
    s.viewOf gk split = some v → s.groupMoves gk = true → s.logStrand (v.key lane) (s.strandAt (v.key lane)).uid 1 (BitVec.ofNat 64 s.dev.clock) = .val x u →
    (∀ w n, laneWait v lane = some w → w.line = some n → w.seq < AMap.get 0 s.mem.wseq n →
      exec (.mwaitWake core group split lane) s = .next (u.modGroup gk fun g => g.modSplit split (Split.endMwait lane)).idle) ∧
    (∀ w d, laneWait v lane = some w → w.deadline = some d → d ≤ s.dev.clock →
      exec (.mwaitTimeout core group split lane) s = .next (u.modGroup gk fun g => g.modSplit split (Split.endMwait lane)).idle) ∧
    ∀ ws t, v.split.st = .parked (.sleep ws) → ws.find? (fun w => w.1 == lane) = some (lane, t) → t.toNat ≤ s.dev.clock →
      exec (.sleepWake core group split lane) s = .next (u.modGroup gk fun g => g.modSplit split (Split.endSleep lane)).idle) ∧
  (∀ (core group split : Nat) (s : State) (g : Group) (sp : Split) (h : Word) (t : Word64) (dl tm : Nat) (d : Reg) (last : Word64),
    s.ex.groups.find (core * 256 + group) = some g → s.teamRuns g.team = true → g.allSplits[split]? = some sp →
    sp.st = .parked (.gwait h t (some dl) tm d (some last) none) → dl ≤ s.dev.clock →
    exec (.gwaitTimeout core group split) s = .next (s.modGroup (core * 256 + group) fun g => g.modAny split fun sp =>
      { sp with st := .parked (.gwait h t (some dl) tm d (some last) (some (1, last))) }).idle) ∧
  (∀ (n gk : Nat) (o : GateOp) (s : State), s.gateWindow n = none → (AMap.get [] s.dev.gops n)[arrives s n]? = some (gk, o) →
    let compared (val th : Word64) : Option (Word × Word64) := if th.toNat ≤ val.toNat then some (0, val) else none
    let peersSee (u : State) : State := u.endPeers n fun th => compared (u.gate n).value th
    (∀ i < arrives s n, ∀ e, (AMap.get [] s.dev.gops n)[i]? = some e → e.1 ≠ gk) ∧
    (∀ h part right act id, o = .ask h part right act id →
      let told (u : State) (r : Option GateAnswer) : State :=
        (if gk < 2 ^ 40 then u.answerGroup n gk act id r (u.gate n).value else peersSee (u.answerPeer n (gk - 2 ^ 40) act r)).idle
      (¬ GateOpen s n part right h → exec (.gateUnitOperation n) s = .next (told (taken s n) (some .denied))) ∧
      (GateOpen s n part right h → ∀ r t, (s.gate n).charge (BitVec.ofNat 64 s.dev.clock) = (r, some t) →
        exec (.gateUnitOperation n) s = .next (told ((taken s n).setGate n r) (some (.empty t)))) ∧
      (GateOpen s n part right h → ∀ r, (s.gate n).charge (BitVec.ofNat 64 s.dev.clock) = (r, none) →
        exec (.gateUnitOperation n) s = .next (told ((taken s n).setGate n r) none))) ∧
    (∀ k set x, o = .sig k set x →
      let val := if set = true then x else (s.gate n).value + x
      exec (.gateUnitOperation n) s = .next (peersSee (((taken s n).setGate n { s.gate n with value := val }).modGwaits n (fun _ => true)
        fun th last => if last.isSome then (some val, compared val th) else (none, none))).idle) ∧
    (∀ core ds, o = .read core ds → exec (.gateUnitOperation n) s = .next ((taken s n).sendGread core (s.gate n).value ds).idle) ∧
    (o = .rearm → exec (.gateUnitOperation n) s = .next ((taken s n).modGwaits n (· == gk) fun th last =>
      if last.isSome then (last, none) else (some (s.gate n).value, compared (s.gate n).value th)).idle)) ∧
  (∀ (n gk id : Nat) (a : GateAct) (val : Word64) (u : State) (g : Group), u.ex.groups.find gk = some g →
    let tell (ans : GateAnswer) : State := u.modGroup gk fun g => { g with block := none, gate := some ans }
    (∀ r, (∀ th, a ≠ .arm th) → u.answerGroup n gk a id (some r) val = tell r) ∧
    (a = .read → u.answerGroup n gk a id none val = tell .accepted) ∧
    (∀ set x, a = .sig set x → u.answerGroup n gk a id none val = ((tell .accepted).setIrrevocable g.team).sendGate n gk (.sig g.team set x)) ∧
    ∀ th i v k next h t tm d, a = .arm th → g.askingAt id = some i → u.viewAny gk i = some v → v.split.st = .parked (.asking k next h t tm d) →
      (∀ r f, r.cause h v.split.mask = some f → u.answerGroup n gk a id (some r) val = raise v f false (u.modGroup gk fun g => g.modAny i Split.unasked)) ∧
      u.answerGroup n gk a id none val = (emptyGwait v v.lanes d u).modGroup gk fun g => g.modAny i fun sp =>
        { sp with pc := next, st := .parked (.gwait h t (if tm = 0 then none else some (u.dev.clock + tm)) tm d (some val)
          (if t.toNat ≤ val.toNat then some (0, val) else none)) }) ∧
  (∀ (n port : Nat) (s : State) (r : GateAnswer) (a : GateAct), s.answerPeer n port a (some r) = s.sendPeer port (.gate r) ∧
    s.answerPeer n port .read none = s.sendPeer port (.gate (.done (s.gate n).value none none))) ∧
  ∀ (n : Nat) (s : State), n ≠ 0 → (s.gate n).v = true → exec (.gateRetire n) s =
    .next (((s.setGate n { s.gate n with v := false, gen := (s.gate n).gen + 1 }).modGwaits n (fun _ => true) fun _ last => (last, some (2, 0))).endPeers n
      fun _ => some (2, 0)).idle

/-- DISPATCH_CHOICE (R277 to R283): a grid that can never be dispatched is removed; else, one dispatch in a clk, an eligible queue of the lowest level dispatches the next team of its head grid to the cores chosen.
KERNEL_PREFETCH_COMPLETE (R283): the listed lines are filled or dropped, and the team may run. QUEUE_SUBMIT (R277): the grid is accepted, or the queue's error word says why not. QUEUE_ENABLE (R276): DEFICIT is 0
where EN changes from 0 to 1. PRIO_WRITE (R281): in force from the next clk. CONTROL_REGISTER_WRITE (R8, R11): the field takes the value, with the limits of its own; a reserved field ignores it. -/
def Obligations.SchedulerEvents : Prop :=
  (∀ (part : Nat) (s : State) (lvl q : Nat), s.queueChoice part = some (lvl, q) →
    Eligible s part q ∧ (s.lqueue part q).prio.toNat = lvl ∧ ∀ r, Eligible s part r → lvl ≤ (s.lqueue part r).prio.toNat) ∧
  (∀ (part : Nat) (s : State) (k : Nat) (g : Grid) (e : BitVec 3), s.removal part = some (k, g, e) → exec (.dispatchChoice part) s = .next (s.removeGrid k g e).idle) ∧
  (∀ (part : Nat) (s : State) (p : Partition) (lvl q k c : Nat) (d : Option Nat) (g : Grid),
    let t := (List.range 4).foldl (fun s l => s.levelRounds part l) s
    s.removal part = none → s.org.parts.find part = some p → p.nextDispatch ≤ s.dev.clock → t.queueChoice part = some (lvl, q) → s.dev.power = 0 → s.dev.entering = none →
    t.headGrid part q = some (k, g) → t.fits g = some (c, d) →
    exec (.dispatchChoice part) s = .next ((t.modPart part fun p => { p with lastQ := p.lastQ.put lvl q, nextDispatch := t.dev.clock + 1 }).dispatchTeam k c d).idle) ∧
  (∀ (core k asid : Nat) (s : State) (t : Team), s.ex.teams.find k = some t → s.asidOf k = some asid → t.core = core → t.prefetch ≠ [] → s.teamRuns k = true →
    exec (.kernelPrefetchComplete core k) s =
      .next (((t.prefetch.foldl (fun s va => s.prefetchLine core asid t va) s).modTeam k fun t => { t with prefetch := [] }).becomeReady k).idle) ∧
  (∀ (part q : Nat) (s : State) (record : Word64), s.hasQueue part q = true →
    let r := s.submit part q (s.ctxOf part (s.lqueue part q).ctx.toNat) record
    exec (.queueSubmit part q record) s = .next r.2.idle ∧ (r.1 = 0 ↔ ∃ asid a b u, s.ctxOf part (s.lqueue part q).ctx.toNat = some asid ∧
      s.checkLaunch dieCache none asid none record = (.ok (a, b), u) ∧ (u.lqueue part q).en = true ∧ (u.lqueue part q).full = false ∧ r.2 = u.acceptGrid asid part q record a b 0 [] [])) ∧
  (∀ (part q : Nat) (s : State) (v : BitVec 2), s.hasQueue part q = true →
    exec (.queueEnable part q) s = .next (s.modQueue part q fun l => { l with en := true, deficit := if l.en = true then l.deficit else 0 }).idle ∧
    exec (.prioWrite part q v) s = .next (s.modQueue part q fun l => { l with prioNext := some v }).idle ∧
    (s.latchWrites.lqueue part q).prio = (s.lqueue part q).prioNext.getD (s.lqueue part q).prio ∧ (s.latchWrites.lqueue part q).prioNext = none) ∧
  (∀ (part q : Nat) (s : State) (v : BitVec 2) (record : Word64), s.hasQueue part q = false →
    exec (.queueSubmit part q record) s = .next s.idle ∧ exec (.queueEnable part q) s = .next s.idle ∧ exec (.prioWrite part q v) s = .next s.idle) ∧
  ∀ s : State, (∀ r, exec (.controlRegisterWrite r) s = .next (s.writeCtl r).idle) ∧ s.writeCtl .reserved = s ∧
    (∀ part q v, s.hasQueue part q = true → s.writeCtl (.queueQuantum part q v) = s.modQueue part q fun l => { l with quantum := v }) ∧
    (∀ part q v, s.hasQueue part q = true → s.writeCtl (.queueWakeClear part q v) = s.modQueue part q fun l => { l with wake := l.wake &&& ~~~v }) ∧
    (∀ part q, s.hasQueue part q = true → s.writeCtl (.queueDisable part q) = s.modQueue part q fun l => { l with en := false }) ∧
    (∀ asid v, s.writeCtl (.scopeClamps asid v) = s.modCtx asid fun c => { c with clamps := v }) ∧
    (∀ ms, (ms < 3600000 ∨ 604800000 < ms) → s.writeCtl (.scrubPeriod .hbm ms) = s) ∧
    (∀ part ch cpl v, (s.channel part ch).en = true → (s.writeCtl (.channelBase part ch cpl v)).channel part ch = s.channel part ch) ∧
    ∀ n lastfill value tokens burst rate gen acl, 1 ≤ n → n ≤ 65535 → (s.writeCtl (.gateRecord n lastfill value tokens burst rate gen acl true)).gate n =
      { lastfill := lastfill, tokens := tokens, burst := burst, rate := rate, acl := (acl.take 8).map (· &&& 0xFF07), gen := gen, v := true, value := value }

/-- STOP_RECORDS_COMPLETE (R294 to R296): every engine of a halted context has written its record, and its supervisor is told once. SIGNATURE_MATCH (R302, R303): the oldest signatures leave both sides
and count as a compare; equal ones, without an injection, do nothing else. STAGGER_EXPIRY (R374): the trailing team becomes ready. INJECT_WRITE, PAIR_WRITE, PREEMPT_WRITE and VLOG_WRITE (R303 to R305): when each takes effect, and that
reserved bits stay 0; that VLOG's TAIL takes effect at once is the model's reading (log 50). CONTEXT_CREATE (R136, R304, R314, R315) makes the context and names the heap, or changes nothing; after CONTEXT_DESTROY (R308, R315) it, its grids and its translations are gone; after SUPERVISOR_CONTEXT_RESET (R309) it
is neither halted nor saved, and no team of it is left. -/
def Obligations.ContextControl : Prop :=
  (∀ (asid : Nat) (s : State) (c : Ctx), s.org.ctxs.find asid = some c → c.halted = true → c.interrupt = false →
    (∀ u, s.saveWrites asid c = (true, u) →
      ∃ t, exec (.stopRecordsComplete asid) s = .next t ∧ t = (u.writeStops asid c).idle ∧ (t.org.ctxs.find asid).map (·.interrupt) = some true) ∧
    (∀ u, s.saveWrites asid c = (false, u) → exec (.stopRecordsComplete asid) s = .next u.idle) ∧
    ∀ p u, s.org.parts.find c.part = some p → (s.pagesPinned c.part p c.savePages = (true, u) → s.saveWrites asid c = (true, u)) ∧
      (s.pagesPinned c.part p c.savePages = (false, u) → s.saveWrites asid c = (false, (u.saveFault asid c.part).resetContext asid))) ∧
  (∀ (k : Nat) (s : State) (p : Pair) (c : Ctx) (a b : BitVec 64) (pc x : Nat) (as bs : List (BitVec 64 × Nat)), s.org.pairs.find k = some p → p.buffer = (a, pc) :: as →
    p.tsigs = (b, x) :: bs → s.org.ctxs.find p.asid = some c → s.teamRuns k = true → c.injectHits 1 = false →
    let u := (s.modCtx p.asid fun c => { c with compares := c.compares + 1 }).modPair k fun p => { p with buffer := as, tsigs := bs, matched := p.matched + 1 }
    (a = b → exec (.signatureMatch k) s = .next u.idle) ∧ (a ≠ b → exec (.signatureMatch k) s = .next (u.pairMismatch k pc).idle)) ∧
  (∀ (k : Nat) (s : State) (p : Pair) (t u : Team), s.org.pairs.find k = some p → s.ex.teams.find k = some t → s.ex.teams.find p.trailer = some u → p.released = false →
    t.ready = true → u.prefetch = [] → s.teamRuns p.trailer = true → p.stagger ≤ s.dev.clock →
    exec (.staggerExpiry k) s = .next ((s.modPair k fun p => { p with released := true }).modTeam p.trailer fun t => { t with ready := true }).idle) ∧
  (∀ (asid : Nat) (s : State) (v : BitVec 32), exec (.injectWrite asid v) s = .next (s.modCtx asid fun c => { c with inject := v &&& 0x80FFFFFF, compares := 0 }).idle ∧
    exec (.pairWrite asid v) s = .next (s.modCtx asid fun c => { c with pairNew := some (v &&& 0xFFFFF) }).idle) ∧
  (∀ (asid : Nat) (s : State) (v : BitVec 64), exec (.preemptWrite asid v) s = .next (s.modCtx asid fun c => { c with preemptNew := some (v &&& 0x3FFFFFFFFFFFFFFC) }).idle) ∧
  (∀ (asid : Nat) (s : State) (v : BitVec 128), ∃ f : Ctx → Ctx, exec (.vlogWrite asid v) s = .next (s.modCtx asid f).idle ∧
    ∀ c, ∃ w x, f c = { c with vlogNew := some w, vlog := x } ∧ (∀ i, i < 128 → (w.getLsbD i = true ↔ v.getLsbD i = true ∧ (i < 2 ∨ 8 ≤ i))) ∧
      ∀ i, i < 128 → x.getLsbD i = if 32 ≤ i ∧ i < 64 then v.getLsbD i else c.vlog.getLsbD i) ∧
  (∀ (r : CtxReq) (s : State) (p : Partition), s.org.parts.find r.part = some p →
    (s.asidFree r.asid = true → r.ctx ≤ 15 → s.ctxOf r.part r.ctx = none → (s.org.ctxs.filter fun e => e.2.part == r.part).length < p.contexts →
      s.heapNamed r.part p r = true → poolsFit p ((s.org.ctxs.filter fun e => e.2.part == r.part).map (·.2)) r = true →
      ∀ u, s.pagesPinned r.part p r.savePages = (true, u) →
      let w := if p.heapBase = r.heapBase ∧ p.heapSize = r.heapSize then u else u.modPart r.part fun q =>
        { q with heapBase := r.heapBase, heapSize := r.heapSize, free := if r.heapSize = 0 then [] else [(r.heapBase, r.heapSize)] }
      let c : Ctx := { part := r.part, num := r.ctx, s1root := r.s1root, shadowPool := r.shadowPool, savePages := r.savePages, preempt := r.preempt &&& 0x3FFFFFFFFFFFFFFC,
                       inject := r.inject &&& 0x80FFFFFF, pairNew := some (r.pair &&& 0xFFFFF), vlogNew := some (r.vlog &&& vlogMask) }
      exec (.contextCreate r) s = .next (w.modOrg fun o => { o with ctxs := o.ctxs.put r.asid c }).idle) ∧
    ((r.asid = 0 ∨ 4095 < r.asid ∨ s.org.ctxs.has r.asid = true ∨ r.asid ∈ s.org.usedAsids ∨ 15 < r.ctx ∨ s.heapNamed r.part p r = false ∨
        poolsFit p ((s.org.ctxs.filter fun e => e.2.part == r.part).map (·.2)) r = false ∨ p.contexts ≤ (s.org.ctxs.filter fun e => e.2.part == r.part).length) →
      exec (.contextCreate r) s = .next s.idle)) ∧
  ∀ (asid : Nat) (s : State) (c : Ctx), s.org.ctxs.find asid = some c →
    (∃ t, exec (.contextDestroy asid) s = .next t ∧ t.org.ctxs.find asid = none ∧ (∀ e ∈ t.org.grids, e.2.asid ≠ asid) ∧ ∀ x ∈ t.org.xlates, x.asid ≠ asid) ∧
    ∃ t, exec (.supervisorContextReset asid) s = .next t ∧ t = (s.resetContext asid).idle ∧ (t.org.ctxs.find asid).map (fun c => (c.halted, c.saved, c.ladder)) = some (false, false, none) ∧
      ∀ k, s.asidOf k = some asid → t.ex.teams.find k = none

/-- The pre-emption ladder (R304, R306 to R310, R317): SWITCH_TICK begins the chart's next entry, PREEMPT takes effect, and the outgoing context drains, or has nothing to save; DRAIN_EXPIRY ends stage 1; FORCE_EXPIRY halts once every group has
stopped or S3 has come; CONTEXT_SAVE_COMPLETE saves its teams; DEADLINE_EXPIRY resets the context and tells its supervisor. CONTEXT_RESUME: a halted context goes on, a saved one's teams are placed again; one that had faulted needs its supervisor first. -/
def Obligations.PreemptionLadder : Prop :=
  (∀ (root : Nat) (s : State) (p : Partition) (c : Chart), s.org.parts.find root = some p → p.chart = some c → p.nextTick ≤ s.dev.clock → c.entries ≠ [] →
    let i := if p.chartAt < c.entries.length then p.chartAt else 0
    let u := (s.modPart root fun q => { q with chartAt := i + 1, nextTick := p.nextTick + max 1 ((c.entries[i]?).elim 1 (·.dur)) }).modOrg fun o =>
      { o with ctxs := o.ctxs.map fun e => (e.1, if e.2.part / 16 * 16 = root then { e.2 with preempt := e.2.preemptNew.getD e.2.preempt, preemptNew := none } else e.2) }
    ((s.chartEntry root).bind (s.ctxAt root) = none → exec (.switchTick root) s = .next u.idle) ∧
    ∀ a, (s.chartEntry root).bind (s.ctxAt root) = some a →
      (u.residentOf a = [] → exec (.switchTick root) s = .next (u.modCtx a fun c => { c with ladder := none, saved := true }).idle) ∧
      (u.residentOf a ≠ [] → exec (.switchTick root) s = .next (onLadder u a p.nextTick .drain).idle)) ∧
  (∀ (asid t : Nat) (s : State) (c : Ctx), s.org.ctxs.find asid = some c →
    (c.ladder = some (t, .drain) → s.residentOf asid ≠ [] → t + (c.preempt.extractLsb' 2 20).toNat ≤ s.dev.clock →
      exec (.drainExpiry asid) s = .next (onLadder s asid t .reconverge).idle) ∧
    (c.ladder = some (t, .drain) → s.residentOf asid = [] → exec (.drainExpiry asid) s = .next (s.modCtx asid fun c => { c with ladder := none, saved := true }).idle) ∧
    (c.ladder = some (t, .reconverge) → s.residentOf asid ≠ [] → (s.allStopped asid = true ∨ forced c t ≤ s.dev.clock) →
      exec (.forceExpiry asid) s = .next (onLadder (s.halt asid none) asid t .saving).idle) ∧
    (c.ladder = some (t, .reconverge) → s.residentOf asid = [] → exec (.forceExpiry asid) s = .next (s.modCtx asid fun c => { c with ladder := none, saved := true }).idle) ∧
    (∀ g, c.ladder = some (t, g) → t + (c.preempt.extractLsb' 42 20).toNat ≤ s.dev.clock →
      exec (.deadlineExpiry asid) s = .next ((s.resetContext asid).modSupHelm c.part fun h => { h with lost := h.lost ++ [asid] }).idle) ∧
    (∀ u, c.ladder = some (t, .saving) → c.interrupt = true → s.saveQuiet asid = true → s.saveWrites asid c = (true, u) →
      exec (.contextSaveComplete asid) s = .next (((u.residentOf asid).foldl State.saveTeam u).saved asid).powerEval.idle) ∧
    (∀ u, c.ladder = some (t, .saving) → c.interrupt = true → s.saveQuiet asid = true → s.saveWrites asid c = (false, u) →
      exec (.contextSaveComplete asid) s = .next u.idle)) ∧
  ∀ (asid : Nat) (s : State) (c : Ctx), s.org.ctxs.find asid = some c → c.ladder = none → s.dev.power = 0 → s.dev.entering = none →
    let runs : Ctx → Ctx := fun c => { c with halted := false, preempting := false, raised := [] }
    (c.saved = true → c.faulted = true → exec (.contextResume asid) s = .next (s.modCtx asid fun c => { c with faulted := false }).idle) ∧
    (c.saved = true → c.faulted = false → s.runsNow c = true → (s.someFits asid c = true ∨ s.savedTeams asid = []) →
      let u := (s.modCtx asid fun c => { runs c with saved := false }).latchWords asid
      exec (.contextResume asid) s = .next (((u.savedTeams asid).map (·.1)).foldl (State.placeSaved c.part c.num) u).powerEval.idle) ∧
    (c.saved = false → c.halted = true → c.interrupt = true →
      let u := (s.modCtx asid fun c => { runs c with faulted := false }).latchWords asid
      exec (.contextResume asid) s = .next ((u.residentOf asid).foldl (State.resumeTeam false) u).idle) ∧
    (c.saved = false → c.halted = false → s.someFits asid c = true →
      exec (.contextResume asid) s = .next (((s.savedTeams asid).map (·.1)).foldl (State.placeSaved c.part c.num) s).powerEval.idle)

/-- PARTITION_CREATE (R314, R316, R326) makes the partition with its budgets and its buckets empty, or changes nothing; after PARTITION_DESTROY (R314, R319) it, its frames and its buckets are gone, and no entry of a gate's ACL names it; PARTITION_MIGRATE (R327) saves its contexts and moves
it, or changes nothing where the features differ. TOKEN_BUCKET_REFILL (R316): each bucket gains RATE up to BURST. TIME_CHART_INSTALL (R317). LOAD_CODE_OBJECT (R328, R329) places a good object, and refuses a bad one whole. DPF_TRANSLATION and TRANSLATION_SWAP (R337): a translation is installed
once, its map covering what R337 names, never where NOXLATE is set; then a team at a run boundary whose PCs the map holds goes on natively at the mapped PCs. The byte places in a code file (log 28), the buckets empty at first (log 53), what a swap
waits for (log 29) and the migration in one step (log 63) are the model's choices. -/
def Obligations.PartitionsAndCode : Prop :=
  (∀ (r : PartReq) (s : State), s.dev.boot = .done → requestOk r = true → s.org.parts.has r.part = false → s.vfsUsed < 63 →
    (r.part % 16 = 0 → s.rootOk r = true) → (r.part % 16 ≠ 0 → s.childOk r = true) → s.placeable r = true →
    let u := s.emptyBelow r.granules
    (s.mem.l2 = [] → s.mem.base = [] → s.mem.msc = [] → u = s) ∧
    ∃ t p, exec (.partitionCreate r) s = .next t ∧ t.org = { u.org with parts := u.org.parts.put r.part p } ∧ t.ex = u.ex ∧ t.dev = { u.dev with parted := true } ∧ p.clusters = r.clusters ∧ p.shared = r.shared ∧
      p.granules = r.granules ∧ p.colours = r.colours ∧ p.contexts = r.contexts ∧ p.queues = r.queues ∧
      p.heapBytes = r.heapBytes ∧ p.shadowBytes = r.shadowBytes ∧ p.saveBytes = r.saveBytes ∧ p.free = [] ∧ p.features = featureView r ∧
      ∀ k ∈ stacksOf r, t.mem.buckets.find (k * 256 + r.part) = some { rate := r.rate, burst := r.burst, tokens := 0 }) ∧
  (∀ (r : PartReq) (s : State), (s.dev.boot ≠ .done ∨ requestOk r = false ∨ s.org.parts.has r.part = true ∨ s.placeable r = false) → exec (.partitionCreate r) s = .next s.idle) ∧
  (∀ (part : Nat) (s : State), s.org.parts.has part = true → (part % 16 = 0 → s.siblings part part = []) →
    ∃ t, exec (.partitionDestroy part) s = .next t ∧ t.org.parts.find part = none ∧ (∀ e ∈ t.org.frames, e.2.part ≠ part) ∧ (∀ e ∈ t.mem.buckets, e.1 % 256 ≠ part) ∧
      ∀ e ∈ t.dev.gates, ∀ a ∈ e.2.acl, (a.extractLsb' 8 7).toNat = part → a.getLsbD 15 = false) ∧
  (∀ (part : Nat) (cs : List Nat) (fs : List Word) (s : State) (p : Partition), s.org.parts.find part = some p →
    (fs ≠ p.features → exec (.partitionMigrate part cs fs) s = .next s.idle) ∧
    (fs = p.features → s.moveOk part p cs = true → exec (.partitionMigrate part cs fs) s =
      .next ((((s.org.ctxs.filter fun e => e.2.part == part).map (·.1)).foldl State.saveForMove s).modPart part fun p =>
        { p with clusters := cs, shared := if cs.isEmpty then [] else p.shared }).idle)) ∧
  (∀ s : State, s.dev.lastRefill + 1024 ≤ s.dev.clock →
    ∃ t, exec .tokenBucketRefill s = .next t ∧ t.ex = s.ex ∧ t.org = s.org ∧ t.dev = { s.dev with lastRefill := s.dev.lastRefill + 1024 } ∧
      ∀ k, t.mem.buckets.find k = (s.mem.buckets.find k).map fun b => { b with tokens := min (b.burst : Int) (b.tokens + b.rate) }) ∧
  (∀ (root : Nat) (c : Chart) (s : State) (p : Partition), s.org.parts.find root = some p → root % 16 = 0 → s.chartOk root p c = true → s.dev.clock < c.epoch →
    exec (.timeChartInstall root c) s = .next (s.modPart root fun p => { p with chart := some c, chartAt := 0, nextTick := c.epoch }).idle) ∧
  (∀ (root : Nat) (c : Chart) (s : State) (p : Partition), s.org.parts.find root = some p → root % 16 = 0 → s.chartOk root p c = true → c.epoch ≤ s.dev.clock →
    let r := chartNow c.entries (s.dev.clock - (s.dev.clock - c.epoch) % c.period) s.dev.clock 0
    exec (.timeChartInstall root c) s = .next (s.modPart root fun p => { p with chart := some c, chartAt := r.1, nextTick := r.2 }).idle) ∧
  (∀ (asid : Nat) (f : CodeFile) (s : State), (s.org.ctxs.has asid = false → exec (.loadCodeObject asid f) s = .next s.idle) ∧
    (readFile f = none → exec (.loadCodeObject asid f) s = .next s.idle) ∧
    ∀ o, readFile f = some o → (loadedSections o = none → exec (.loadCodeObject asid f) s = .next s.idle) ∧
      ∀ ts, loadedSections o = some ts → (s.placeObject asid o ts = none → exec (.loadCodeObject asid f) s = .next s.idle) ∧
        ∀ u, s.org.ctxs.has asid = true → s.placeObject asid o ts = some u → exec (.loadCodeObject asid f) s = .next u.idle) ∧
  (∀ (f : CodeFile) (o : CodeObject), readFile f = some o → fileWord f.bytes 0 = 0x4F433036394E5244 ∧ fileWord f.bytes 8 = 1 ∧
    ∀ k, k < 6 → (partAt f.bytes k).1 % 64 = 0 ∧ (partAt f.bytes k).1 + (partAt f.bytes k).2 ≤ f.bytes.length) ∧
  (∀ (asid k : Nat) (header seg : Word64) (pcs : List (Word64 × Word64)) (s : State) (g : Grid) (d : SegDesc) (u w y : State) (ws map : List Word),
    s.org.grids.find? (fun e => e.2.asid == asid && e.2.khdr == header && e.2.dispatched != 0) = some (k, g) → g.hdr.form = 1 → g.hdr.noxlate = false → s.xlateOf asid header = none →
    s.readSeg asid g.hdr.segdesc = (d, u) → u.readChecked dieCache none asid d.textbase d.count = (.ok ws, w) → holdsIndirect d.count ws = false →
    w.readChecked dieCache none asid (d.map &&& ~~~3#64) ((8 * (d.map.toNat % 4) + d.count + 31) / 32) = (.ok map, y) →
    (∀ pc ∈ mapNeeds g.hdr d map ws, ∃ e ∈ pcs, e.1 = pc) → (∀ e ∈ pcs, pcForm e.2 = true) →
    let x : Xlate := { asid := asid, header := header, seg := seg, text := d.textbase.toNat, size := 4 * d.count, pcs := pcs }
    exec (.dpfTranslation asid header seg pcs) s = .next (y.modOrg fun o => { o with xlates := o.xlates ++ [x] }).idle) ∧
  ∀ (core k : Nat) (s : State) (t : Team) (g : Grid) (x : Xlate), s.ex.teams.find k = some t → s.org.grids.find t.grid = some g → s.xlateOf g.asid g.khdr = some x → t.core = core →
    s.maySwap k t = true → (∀ pc ∈ (s.checkpointOf k t).pcs ++ t.cp.pcs, x.has pc = true) → ∃ u, exec (.translationSwap core k) s = .next u ∧ (u.ex.teams.find k).map (·.inNative) = some true ∧
      (∀ e ∈ u.ex.groups, e.2.team = k → ∃ o ∈ s.ex.groups, o.1 = e.1 ∧ e.2.splits.map (·.pc) = o.2.splits.map fun sp => x.pc sp.pc) ∧
      ∀ e ∈ u.ex.groups, e.2.team ≠ k → e ∈ s.ex.groups

/-- The host interface (R84, R340 to R344): CMDTAIL_WRITE, which stops a channel whose ring it overruns, and CPLHEAD_WRITE, both in force from the next clk on, and CHANNEL_ENABLE; each doubleword of BAR0's channel registers reads as it was written, in the fields that a write reaches, and offsets that nothing stands at read zero (that BAR0 is accessed by doublewords is the model's choice, log 60); HOST_CMD_NOP, HOST_CMD_SUBMIT, HOST_CMD_COPY_TO_DEVICE and HOST_CMD_COPY_TO_HOST consume a command and write
its completion; a slot with another sequence stops the channel. HOST_INGRESS_WRITE and HOST_EGRESS_READ reach device memory with fresh codes and keep what was answered, and do nothing for a partition without a virtual function. FUNCTION_LEVEL_RESET resets every context and clears every channel's EN. -/
def Obligations.HostInterface : Prop :=
  (∀ (part ch : Nat) (v : Word) (s : State), s.hasVf part = true →
    (∃ f : Channel → Channel, exec (.cmdtailWrite part ch v) s = .next (s.modChannel part ch f).idle ∧ ∀ c, f c =
      if 2 ^ (c.size.toNat + 6) < (v - c.cmdhead).toNat then { c with tailNew := some v, err := c.err ||| 2, en := false } else { c with tailNew := some v }) ∧
    exec (.cplheadWrite part ch v) s = .next (s.modChannel part ch fun c => { c with headNew := some v }).idle ∧
    (s.latchWrites.channel part ch).cmdtail = (s.channel part ch).tailNew.getD (s.channel part ch).cmdtail ∧
    (s.latchWrites.channel part ch).cplhead = (s.channel part ch).headNew.getD (s.channel part ch).cplhead ∧
    (ch < 16 → ∀ (i : Nat) (w : Word64), i < 8 →
      let c := s.channel part ch
      let off := 0x1000 + 64 * ch + 8 * i
      let u := s.barWrite part off w
      let control : Word64 := BitVec.ofNat 64 ((w.getLsbD 0).toNat + 2 ^ 8 * (if c.en = true then c.size.toNat else min 10 (w.extractLsb' 8 4).toNat)
        + 2 ^ 12 * (c.err &&& ~~~(w.extractLsb' 12 4)).toNat)
      let base (old : Word64) : Word64 := if c.en = true then old else w &&& ~~~0xFFF#64
      u.barRead part off = ([control, 0, 0, 0, c.cpltail ++ w.extractLsb' 0 32, w.extractLsb' 32 32 ++ c.cmdhead, base c.cplbase, base c.cmdbase] : List Word64).getD i 0 ∧
      ∀ o, 0x1000 ≤ o → o / 64 ≠ off / 64 → u.barRead part o = s.barRead part o) ∧
    (∀ (off : Nat) (w : Word64), 0x1400 ≤ off → s.barRead part off = 0 ∧ s.barWrite part off w = s) ∧
    exec (.channelEnable part ch) s = .next (s.modChannel part ch fun c => { c with en := true }).idle) ∧
  (∀ (part ch : Nat) (va bus : Word64) (bytes queue : Word) (wr : Bool) (s : State), Serves s part ch →
    let seq := (s.channel part ch).cmdhead
    let slot (k : Nat) : HostDma := { bus := (s.channel part ch).cmdSlot, ok := true, words := commandWords seq k va bus bytes queue }
    let u := consumed s part ch
    let ends (r : Nat × Nat) (t : State) : State := (t.complete part ch seq r.1 r.2 wr).idle
    exec (.hostCmdNop part ch (slot 0) wr) s = .next (ends (0, 0) u) ∧
    (∀ k, 3 < k → k < 2 ^ 32 → exec (.hostCmdNop part ch (slot k) wr) s = .next (ends (1, 0) u)) ∧
    (u.hasQueue part queue.toNat = true →
      let r := u.submit part queue.toNat (u.ctxOf part ch) va
      exec (.hostCmdSubmit part ch (slot 1) wr) s = .next (ends (if r.1 = 0 then 0 else 1, r.1.toNat) r.2)) ∧
    ∀ asid, u.ctxOf part ch = some asid → bytes.toNat % 4 = 0 → bytes.toNat ≤ 2 ^ 24 →
      (∀ ws, ws.length = bytes.toNat / 4 → let r := u.ingress asid va ws
        exec (.hostCmdCopyToDevice part ch (slot 2) { bus := bus.toNat, ok := true, words := ws } wr) s = .next (ends (if r.1 = true then 0 else 3, 0) r.2)) ∧
      ∀ ws bad t, u.egress asid va (bytes.toNat / 4) = ((ws, false, bad), t) → exec (.hostCmdCopyToHost part ch (slot 3) true wr) s =
        .next (ends (if bad = true then 2 else 0, 0) (t.modPart part fun p => { p with hostWrites := p.hostWrites ++ [(bus.toNat, ws)] }))) ∧
  (∀ (part ch : Nat) (rd : HostDma) (wr : Bool) (s : State), Serves s part ch → rd.bus = (s.channel part ch).cmdSlot → rd.words.length = 16 → rd.ok = true → rd.words.getD 0 0 ≠ (s.channel part ch).cmdhead →
    exec (.hostCmdNop part ch rd wr) s = .next (s.modChannel part ch fun c => { c with err := c.err ||| 1, en := false }).idle) ∧
  (∀ (asid : Nat) (va : Word64) (ws : List Word) (n : Nat) (s : State) (c : Ctx), s.org.ctxs.find asid = some c → (s.hasVf c.part = false →
      exec (.hostIngressWrite asid va ws) s = .next s.idle ∧ exec (.hostEgressRead asid va n) s = .next s.idle) ∧ (s.hasVf c.part = true →
    exec (.hostIngressWrite asid va ws) s = .next (s.writeVa dieCache asid va (ws.map TWord.fresh)).2.idle ∧
    ∀ xs miss bad t, s.egress asid va n = ((xs, miss, bad), t) →
      exec (.hostEgressRead asid va n) s = .next (t.modPart c.part fun p => { p with hostReads := p.hostReads ++ [(xs, bad)] }).idle)) ∧
  ∀ (part : Nat) (s : State), s.hasVf part = true →
    ∃ t, exec (.functionLevelReset part) s = .next t ∧ (∀ p ch c, t.org.parts.find part = some p → p.channels.find ch = some c → c.en = false) ∧
      t = ((((s.org.ctxs.filter fun e => e.2.part == part).map (·.1)).foldl State.resetContext s).modPart part
        fun p => { p with channels := p.channels.map fun e => (e.1, { e.2 with en := false }) }).idle

/-- LINK_FLIT_RECEIVE (R345 to R347): a sound flit that is the next in sequence is delivered, and what it carries for a remote window is performed at its home slice or gate unit; any other delivers nothing; what a flit acknowledges leaves the replay buffer of 64,
which what waits to be sent then fills; one that fails its CRC asks for a replay, on which every unacknowledged flit is sent once more, as after a retrain; a failed FEC at 56 Gb/s takes the link down. LINK_MARGIN_EVALUATION, LINK_RETRAIN_COMPLETE and
LINK_STEP_UP (R346). POWER_ON_BOOT (R348): an image that verifies is measured and the next follows; one that does not halts the boot. MEASUREMENT_EXTEND (R348) and ATTESTATION_REQUEST (R349). LATENCY_TOLERANCE_WRITE, POWER_STATE_ENTRY_COMPLETE and POWER_STATE_EXIT (R350, R351). The places in
a flit's header, the forms of its messages and what lies beyond HBM (log 25), the digest (log 19), and what is written back and performed before a power state is entered (log 47) are the model's. -/
def Obligations.LinksBootAndPower : Prop :=
  (∀ (n : Nat) (f : Flit) (s : State), n < 12 → (s.port n).retraining = false → (s.port n).down = false →
    let p := s.port n
    let heard : Port := { p with corrected := p.corrected + f.fecFixed }
    (Sound f → ∃ t, t.port n = heard.take n f ∧ (∀ m, m ≠ n → t.port m = s.port m) ∧ t.mem = s.mem ∧
      exec (.linkFlitReceive n f) s = .next (if flitKind f = 0 ∧ flitSeq f = p.rxSeq % 2 ^ 32 then f.ops.foldl (State.peerOp n) t else t).idle) ∧
    (¬ Sound f → (f.fecFailed = false ∨ p.rate ≠ 56) → ∃ t, exec (.linkFlitReceive n f) s = .next t ∧ t.port n = { heard with nak := true }.control n 2) ∧
    (f.fecFailed = true → p.rate = 56 → ∃ t, exec (.linkFlitReceive n f) s = .next t ∧ t.port n = { p with down := true } ∧
      ∀ h, s.dev.helm.find 0 = some h → (t.dev.helm.find 0).map (·.linkDown) = some (h.linkDown ++ [n]))) ∧
  (∀ (n : Nat) (p : Port) (f : Flit), p.retraining = false → p.down = false →
    let q := p.take n f
    let kept := p.credited (flitCredit f)
    (flitKind f = 0 → flitSeq f = p.rxSeq % 2 ^ 32 → q.rxSeq = p.rxSeq + 1 ∧ q.nak = false ∧ q.delivered = p.delivered ++ [f.bytes]) ∧
    ((flitKind f ≠ 0 ∨ flitSeq f ≠ p.rxSeq % 2 ^ 32) → q.rxSeq = p.rxSeq ∧ q.delivered = p.delivered) ∧
    (flitKind f = 2 → ∃ more, q.wire = p.wire ++ kept.replay ++ more ∧ q.replay = kept.replay ++ more) ∧
    (∃ k, kept.replay = p.replay.drop k) ∧ (p.replay.length ≤ 64 → q.replay.length ≤ 64) ∧
    ∃ k, q.sent = p.sent.drop k ∧ q.txSeq = p.txSeq + k ∧ q.replay.map (·.msg) = kept.replay.map (·.msg) ++ (p.sent.take k).map some) ∧
  (∀ (n : Nat) (s : State), (∀ h part right a, State.peerOp n s (.gate h part right a) = s.sendGate (gateIndex h) (peerKey n) (.ask h part right a 0)) ∧
    (∀ pa w code mark, pa + 4 ≤ hbmEnd → State.peerOp n s (.write pa w code mark) = s.sliceWrite pa 0 { data := w, code := code, mark := mark }) ∧
    (∀ pa k, pa + 4 * k ≤ hbmEnd → State.peerOp n s (.read pa k) = (s.sliceReads pa 0 k).2.sendPeer n (.words (s.sliceReads pa 0 k).1)) ∧
    (∀ pa op ty data ret,
      let k := data.length / (if op = .cas then 2 else 1)
      let r := s.sliceReads pa 0 k
      pa + 4 * k ≤ hbmEnd → judgeWords r.1 = none → ∀ ws, atomResult op ty (r.1.map (·.data)) data = some ws →
        let t := (ws.zipIdx).foldl (fun u e => u.sliceWrite (pa + 4 * e.2) 0 (TWord.fresh e.1)) r.2
        State.peerOp n s (.atomic pa op ty data ret) = if ret = true then t.sendPeer n (.words r.1) else t) ∧
    ∀ pa, hbmEnd < pa → (∀ k, State.peerOp n s (.read pa k) = s) ∧ ∀ w code mark, State.peerOp n s (.write pa w code mark) = s) ∧
  (∀ (n : Nat) (low : Bool) (s : State), n < 12 → (s.port n).nextEval ≤ s.dev.clock → ∃ t, exec (.linkMarginEvaluation n low) s = .next t ∧
    let p := { s.port n with nextEval := (s.port n).nextEval + 1000000, corrected := 0 }
    t.port n = if (low = true ∨ 2048 < (s.port n).corrected) ∧ p.rate ≠ 56 ∧ p.retraining = false ∧ p.down = false
      then { p with rate := if p.rate = 112 then 80 else 56, retraining := true, retrainAt := s.dev.clock + 50000 } else p) ∧
  (∀ (n : Nat) (s : State), n < 12 → ((s.port n).retraining = true → exec (.linkRetrainComplete n) s = .next (s.modPort n fun p =>
      { p with retraining := false, retrainAt := 0 }.resend.pump n).idle ∧
      ((s.port n).down = false → ∃ more, ({ s.port n with retraining := false, retrainAt := 0 }.resend.pump n).wire = (s.port n).wire ++ (s.port n).replay ++ more)) ∧
    ((s.port n).retraining = false → (s.port n).rate ≠ 112 → exec (.linkStepUp n) s = .next (s.modPort n fun p =>
      { p with rate := if p.rate = 56 then 80 else 112, retraining := true, retrainAt := s.dev.clock + 50000, down := false }).idle)) ∧
  (∀ (j : Nat) (s : State), (s.dev.boot = .off ∧ j = 0 ∨ s.dev.boot = .running j) →
    let f := s.dev.images.getD j {}
    let digest := sha3 f.bytes
    (Config.mlDsaVerify s.dev.key digest f.signature = true → exec .powerOnBoot s = .next (s.modDev fun d =>
      { d with measures := d.measures.set j (sha3 (d.measures.getD j [] ++ digest)), boot := if j < 2 then .running (j + 1) else .done }).idle) ∧
    (Config.mlDsaVerify s.dev.key digest f.signature = false → exec .powerOnBoot s = .next (s.modDev fun d => { d with boot := .failed j 1 }).idle)) ∧
  (∀ (j : Nat) (digest : List Byte) (s : State), s.dev.boot = .done →
    ((3 < j ∧ j ≤ 7 ∨ j = 3 ∧ s.dev.parted = false) → exec (.measurementExtend j digest) s =
      .next (s.modDev fun d => { d with measures := d.measures.set j (sha3 (d.measures.getD j [] ++ digest)) }).idle) ∧
    (j < 3 → exec (.measurementExtend j digest) s = .next s.idle)) ∧
  (∀ (part : Nat) (nonce : List Byte) (s : State) (p : Partition), s.org.parts.find part = some p → s.dev.boot = .done → nonce.length = 32 →
    ∃ t r, exec (.attestationRequest part nonce) s = .next t ∧ t = (s.modDev fun d => { d with reports := d.reports ++ [r] }).idle ∧ r.measurements = s.dev.measures ∧ r.nonce = nonce ∧
      r.features = p.features ∧ r.signature = Config.mlDsaSign (s.dev.measures.flatten ++ nonce ++ partNumber ++ p.features.flatMap bytesOf)) ∧
  (∀ (part us : Nat) (s : State), ∃ t, exec (.latencyToleranceWrite part us) s = .next t ∧ t.org = (s.modPart part fun p => { p with tolerance := us }).org ∧
    ∀ n, t.dev.entering = some n → s.dev.entering = some n ∨ (s.dev.power < n ∧ (∀ e ∈ t.org.parts, exitLatency n ≤ e.2.tolerance) ∧ ∀ e ∈ s.ex.teams, e.2.saved = true)) ∧
  (∀ (n : Nat) (s : State), s.dev.entering = some n → s.memQuiet = true →
    exec .powerStateEntryComplete s = .next ((if 3 ≤ n then s.powerDown else if n = 2 then s.hbmQuiet else s).modDev fun d => { d with power := n, entering := none }).idle) ∧
  ∀ s : State, s.dev.power ≠ 0 → s.dev.entering = none → s.dev.exiting = true →
    exec .powerStateExit s = .next (s.modDev fun d => { d with power := 0, exiting := false }).idle

/-! ### Steps, encodings, reset, and what every step keeps -/

/-- What a step from a state makes of an outcome (R316). -/
def ended (s : State) (r : Result) : Result := match r with | .next t => .next (s.orDefer t) | r => r

/-- A STEP RUNS THE DECODED INSTRUCTION (R24, R40, R335): where the word, or the syllables, at the PC of a split that may issue decode to an instruction, in a run that has issued fewer than 24, step is exec of that instruction; where they do not decode, step delivers
ILLEGAL_INSTRUCTION with the reason. A turn that is an event performs it. A step that needs a block that the base die defers (R316) only asks for it, and is taken again, which is the model's reading of the deferral (log 45). -/
def Obligations.StepRunsDecoded : Prop :=
  (∀ s t : State, (t.mem.late = none → s.orDefer t = t) ∧ ∀ b, t.mem.late = some b → s.orDefer t = { s.askBlock b with cur := none, turn := .arbitrate }) ∧
  (∀ (s u : State) (v : View) (w : IWord) (i : Instr), Issuing s u v → NativeAt u v w → decode v.eng w = .ok i → v.grp.run.count < 24 →
    (u.ex.specs.has v.gk = true → u.issuesPast v i = true) → step s = ended s (exec i u)) ∧
  (∀ (s u : State) (v : View) (s0 s1 s2 : Word) (i : Instr), Issuing s u v → SyllablesAt u v s0 s1 s2 → decodeDpf v.eng s0 s1 s2 = some (.ok i) → v.grp.run.count < 24 →
    (u.ex.specs.has v.gk = true → u.issuesPast v i = true) → step s = ended s (exec i u)) ∧
  (∀ (s u : State) (v : View) (w : IWord) (r : Reject), Issuing s u v → NativeAt u v w → decode v.eng w = .error r → step s = .next (s.orDefer (raiseNow v (illegal v r.reason) u).idle)) ∧
  ∀ (s t : State) (i : Instr), s.turn = .event i → exec i { s with turn := .arbitrate } = .next t → step s = .next (s.orDefer t)

/-- Words of Table 10.10 and Table 19.6, and FMUL of the first listing, decode to the instructions beside them. -/
def Obligations.WordsDecode : Prop :=
  let x (n : BitVec 8) : Src := { reg := n, ea := false }
  decodeTableWord 96 0x00000008_00100000_000D8002 = some (.mov { g := .always, ty := .z32, d := 13, b := .imm 8 }) ∧
  decodeTableWord 96 0x00000000_20100004_020A0022 = some (.lea { g := .always, ty := .z32, d := 10, a := x 2, b := .reg (x 4) } 4) ∧
  decodeTableWord 96 0x00000008_10100000_04018023 = some (.isetp { g := .always, ty := .z32, p := 1, a := x 4, b := .imm 8, cond := .lt }) ∧
  decodeTableWord 96 0x00000000_00400706_05040043 = some (.ffma { g := .always, ty := .f32, d := 4, a := x 5, b := .reg (x 6), rm := .rn, sat := false } (x 7)) ∧
  decodeTableWord 96 0x00000000_00400008_08090042 = some (.fmul { g := .always, ty := .f32, d := 9, a := x 8, b := .reg (x 8), rm := .rn, sat := false }) ∧
  decodeTableWord 96 0x00000010_18100000_050680C0 = some (.shfl { g := .always, ty := .z32, d := 6, a := x 5, b := .imm 16, p := none } .flip) ∧
  decodeTableWord 96 0x00000000_00100000_040862C4 = some (.redl { g := .when 1 true, ty := .z32, d := 8, a := x 4, op := .add, rm := .rn }) ∧
  decodeTableWord 96 0x00000080_00000002_010300C7 = some (.plop .always 3 1 2 0 0x80) ∧
  decodeDpf .core 0x88400488 0x00200800 0 = some (.ok (.fmul { g := .always, ty := .f32, d := 9, a := x 8, b := .reg (x 8), rm := .rn, sat := false })) ∧
  decodeDpf .core 0xC0404680 0x00080000 8 = some (.ok (.mov { g := .always, ty := .z32, d := 13, b := .imm 8 }))

/-- DECODE AND ENCODE AGREE (R29, R47): every well-formed instruction that has an encoding decodes from it on an engine that permits it, with every operand as it was; and what decodes, on any engine, is a well-formed instruction that has an encoding, of which no used field is dropped. -/
def Obligations.EncodingsAgree : Prop :=
  (∀ (i : Instr) (w : IWord), WellFormed i = true → encode i = some w → decode (engineOf i) w = .ok i) ∧
  ∀ (e : Engine) (w : IWord) (i : Instr), decode e w = .ok i → WellFormed i = true ∧ ∃ w', encode i = some w' ∧ decode (engineOf i) w' = .ok i

/-- What reset leaves: power-on boot comes next, with every measurement register zero (R348), %clock at 0 and no partition, context, grid or team; the links at 112 Gb/s with nothing unacknowledged; memory canonical. Which turn comes first (log 1), what memory that nothing has written reads as and that the caches are empty (log 3), the rate of the links (log 25) and the power state
(log 26) are the model's choices. -/
def Obligations.ResetState : Prop :=
  State.reset.turn = .event .powerOnBoot ∧ State.reset.dev.boot = .off ∧ State.reset.dev.clock = 0 ∧ State.reset.dev.power = 0 ∧
  State.reset.dev.measures = List.replicate 8 (List.replicate 64 0) ∧ State.reset.org = {} ∧ State.reset.ex = {} ∧ State.reset.mem.msc = [] ∧ State.reset.mem.l2 = [] ∧
  State.reset.mem.l1d = [] ∧ State.reset.mem.l1i = [] ∧ State.reset.mem.tcache = [] ∧ (∀ n, (State.reset.port n).rate = 112 ∧ (State.reset.port n).replay = [] ∧ (State.reset.port n).wire = []) ∧
  (∀ a, State.reset.mem.byte a = unlistedByte a) ∧ State.reset.Sound ∧ ∃ t, step State.reset = .next t ∧ (t.dev.boot = .running 1 ∨ t.dev.boot = .failed 0 1)

/-- AN INVARIANT THAT EVERY STEP KEEPS: memory and scratchpad stay in their canonical form, so that equal memories are equal data; every instruction and every event keeps it too. -/
def Obligations.MemoryStaysCanonical : Prop :=
  (∀ s t : State, s.Sound → step s = .next t → t.Sound) ∧ ∀ (i : Instr) (s t : State), s.Sound → exec i s = .next t → t.Sound

end
end

