-- ==== Sys2Proof/Laws/Sparse.lean ====
section
/-! SUPPORT. Laws of the finite maps: read after write, writes to other keys, and the canonical form kept. -/

namespace Sys2Proof.AMap

variable {α : Type}

@[simp] theorem find_nil (n : Nat) : find ([] : AMap α) n = none := rfl

theorem find_cons (e : Nat × α) (m : AMap α) (n : Nat) : find (e :: m) n = if n = e.1 then some e.2 else find m n := rfl

/-- Reading after a write gives the value written; every other key reads as before. -/
@[simp] theorem find_put (m : AMap α) (k n : Nat) (x : α) : find (put m k x) n = if n = k then some x else find m n := by
  induction m with
  | nil => simp [put, find]
  | cons e m ih =>
    obtain ⟨a, v⟩ := e
    simp only [put]
    split
    · subst_vars; simp only [find]; split <;> rfl
    · split
      · simp [find]
      · simp only [find, ih]; split
        · split
          · omega
          · rfl
        · rfl

@[simp] theorem find_del (m : AMap α) (k n : Nat) : find (del m k) n = if n = k then none else find m n := by
  induction m with
  | nil => simp [del, find]
  | cons e m ih =>
    obtain ⟨a, v⟩ := e
    simp only [del, List.filter] at ih ⊢
    by_cases h : a = k
    · simp only [h, ne_eq, not_true_eq_false, decide_false]
      rw [ih]; simp only [find]; split <;> simp_all
    · simp only [ne_eq, h, not_false_eq_true, decide_true, find]
      rw [ih]; split
      · split
        · omega
        · rfl
      · rfl

@[simp] theorem find_modify (m : AMap α) (k n : Nat) (f : α → α) :
    find (modify m k f) n = if n = k then (find m k).map f else find m n := by
  unfold modify
  split
  · simp_all
  · split <;> simp_all

@[simp] theorem get_put (d : α) (m : AMap α) (k n : Nat) (x : α) : get d (put m k x) n = if n = k then x else get d m n := by
  unfold get; rw [find_put]; split <;> rfl

@[simp] theorem get_set [DecidableEq α] (d : α) (m : AMap α) (k n : Nat) (x : α) :
    get d (set d m k x) n = if n = k then x else get d m n := by
  unfold set
  split
  · unfold get; rw [find_del]; split <;> simp_all
  · exact get_put d m k n x

/-- The same where the default depends on the key. -/
theorem get_set_at [DecidableEq α] (d : Nat → α) (m : AMap α) (k n : Nat) (x : α) :
    get (d n) (set (d k) m k x) n = if n = k then x else get (d n) m n := by
  unfold set
  split
  · unfold get; rw [find_del]; split <;> simp_all
  · exact get_put (d n) m k n x

/-- A map changed value by value, keys kept. -/
@[simp] theorem find_map (m : AMap α) (f : Nat → α → α) (n : Nat) :
    find (m.map fun e => (e.1, f e.1 e.2)) n = (find m n).map (f n) := by
  induction m with
  | nil => rfl
  | cons e m ih => simp only [List.map_cons, find_cons, ih]; split <;> simp_all

@[simp] theorem put_put (m : AMap α) (k : Nat) (x y : α) : put (put m k x) k y = put m k y := by
  induction m with
  | nil => simp [put]
  | cons e m ih =>
    obtain ⟨a, v⟩ := e
    simp only [put]
    split
    · simp [put]
    · split
      · simp [put]
      · simp only [put]; rw [if_neg (by assumption), if_neg (by assumption), ih]

/-- Two changes of one entry are one change. -/
@[simp] theorem modify_modify (m : AMap α) (k : Nat) (f g : α → α) : modify (modify m k f) k g = modify m k fun x => g (f x) := by
  unfold modify
  cases h : find m k <;> simp [h]

/-- Changes at the keys of a list, no two the same, each by its own function. -/
theorem find_foldModify {β : Type} (key : β → Nat) (f : β → α → α) (l : List β) (m : AMap α) (n : Nat)
    (hi : l.Pairwise fun a b => key a ≠ key b) :
    find (l.foldl (fun m b => modify m (key b) (f b)) m) n =
      match l.find? fun b => key b == n with
      | some b => (find m n).map (f b)
      | none => find m n := by
  induction l generalizing m with
  | nil => rfl
  | cons b l ih =>
    rw [List.foldl_cons, ih _ (List.Pairwise.of_cons hi), List.find?_cons]
    by_cases h : key b = n
    · have : l.find? (fun c => key c == n) = none := by
        rw [List.find?_eq_none]; intro c hc
        have := List.rel_of_pairwise_cons hi hc
        simp only [beq_iff_eq]; omega
      simp [this, h]
    · rw [find_modify, if_neg (by omega)]
      have hb : (key b == n) = false := by simp [h]
      rw [hb]

/-- A map filtered by its keys. -/
theorem find_filter_key (m : AMap α) (p : Nat → Bool) (n : Nat) :
    find (m.filter fun e => p e.1) n = if p n then find m n else none := by
  induction m with
  | nil => simp
  | cons e m ih =>
    simp only [List.filter_cons, find_cons]
    by_cases h : n = e.1
    · subst h; split <;> simp_all [find_cons]
    · split
      · rw [find_cons, ih]; simp [h]
      · rw [ih]

@[simp] theorem has_eq (m : AMap α) (n : Nat) : has m n = (find m n).isSome := rfl

/-! ### The canonical form -/

theorem above_put {b k : Nat} {m : AMap α} {x : α} (h : above b m = true) (hb : b < k) : above b (put m k x) = true := by
  induction m generalizing b with
  | nil => simp [put, above, hb]
  | cons e m ih =>
    obtain ⟨a, v⟩ := e
    simp only [above, Bool.and_eq_true, decide_eq_true_eq] at h
    simp only [put]
    split
    · simp_all [above]
    · split
      · simp_all [above]
      · simp only [above, Bool.and_eq_true, decide_eq_true_eq]
        exact ⟨h.1, ih h.2 (by omega)⟩

theorem sorted_put {k : Nat} {m : AMap α} {x : α} (h : sorted m = true) : sorted (put m k x) = true := by
  cases m with
  | nil => rfl
  | cons e m =>
    obtain ⟨a, v⟩ := e
    simp only [sorted] at h
    simp only [put]
    split
    · simp_all [sorted]
    · split
      · simp_all [sorted, above]
      · simp only [sorted]; exact above_put h (by omega)

theorem above_mono {a b : Nat} {m : AMap α} (h : above b m = true) (hab : a ≤ b) : above a m = true := by
  cases m with
  | nil => rfl
  | cons e m => simp_all [above]; omega

theorem above_filter {b : Nat} {m : AMap α} (p : Nat × α → Bool) (h : above b m = true) : above b (m.filter p) = true := by
  induction m generalizing b with
  | nil => rfl
  | cons e m ih =>
    simp only [above, Bool.and_eq_true, decide_eq_true_eq] at h
    rw [List.filter_cons]
    split
    · simp only [above, Bool.and_eq_true, decide_eq_true_eq]; exact ⟨h.1, ih h.2⟩
    · exact ih (above_mono h.2 (by omega))

theorem sorted_of_above {b : Nat} {m : AMap α} (h : above b m = true) : sorted m = true := by
  cases m with
  | nil => rfl
  | cons e m => simp_all [above, sorted]

theorem sorted_filter {m : AMap α} (p : Nat × α → Bool) (h : sorted m = true) : sorted (m.filter p) = true := by
  cases m with
  | nil => rfl
  | cons e m =>
    rw [List.filter_cons]
    split
    · simp only [sorted] at h ⊢; exact above_filter p h
    · exact sorted_of_above (above_filter p (b := e.1) h)

theorem sorted_del {k : Nat} {m : AMap α} (h : sorted m = true) : sorted (del m k) = true := sorted_filter _ h

theorem mem_put {k : Nat} {m : AMap α} {x : α} {e : Nat × α} (h : e ∈ put m k x) : e = (k, x) ∨ e ∈ m := by
  induction m with
  | nil => simp_all [put]
  | cons a m ih =>
    simp only [put] at h
    split at h
    · simp only [List.mem_cons] at h ⊢; exact h.imp_right .inr
    · split at h
      · simp only [List.mem_cons] at h ⊢; exact h
      · simp only [List.mem_cons] at h ⊢
        rcases h with h | h
        · exact .inr (.inl h)
        · exact (ih h).imp_right .inr

/-- A write with a default that may depend on the key keeps the canonical form. -/
theorem wf_set_at [DecidableEq α] {d : Nat → α} {k : Nat} {m : AMap α} {x : α}
    (h : (sorted m && m.all fun e => decide (e.2 ≠ d e.1)) = true) :
    (sorted (set (d k) m k x) && (set (d k) m k x).all fun e => decide (e.2 ≠ d e.1)) = true := by
  simp only [Bool.and_eq_true, List.all_eq_true, decide_eq_true_eq] at h ⊢
  unfold set
  split
  · exact ⟨sorted_del h.1, fun e he => h.2 e (List.mem_filter.1 he).1⟩
  · refine ⟨sorted_put h.1, fun e he => ?_⟩
    rcases mem_put he with rfl | he
    · assumption
    · exact h.2 e he

/-- A write with a default keeps the canonical form. -/
theorem wf_set [DecidableEq α] {d : α} {k : Nat} {m : AMap α} {x : α} (h : wf d m = true) : wf d (set d m k x) = true :=
  wf_set_at (d := fun _ => d) h

theorem find_none_of_above {b n : Nat} {m : AMap α} (h : above b m = true) (hn : n ≤ b) : find m n = none := by
  induction m generalizing b with
  | nil => rfl
  | cons e m ih =>
    simp only [above, Bool.and_eq_true, decide_eq_true_eq] at h
    rw [find_cons, if_neg (by omega), ih h.2 (by omega)]

/-- In a map with rising keys an entry is found under its key. -/
theorem find_of_mem {m : AMap α} {e : Nat × α} (h : sorted m = true) (he : e ∈ m) : find m e.1 = some e.2 := by
  induction m with
  | nil => cases he
  | cons a m ih =>
    simp only [sorted] at h
    rcases List.mem_cons.1 he with rfl | he
    · simp [find_cons]
    · have hs := sorted_of_above h
      have := ih hs he
      rw [find_cons, if_neg, this]
      intro heq
      rw [find_none_of_above h (by omega)] at this
      cases this

/-- Canonical maps that read the same are the same list. -/
theorem ext_of_sorted {m n : AMap α} (hm : sorted m = true) (hn : sorted n = true) (h : ∀ k, find m k = find n k) : m = n := by
  induction m generalizing n with
  | nil =>
    cases n with
    | nil => rfl
    | cons e n => have := h e.1; simp [find_cons] at this
  | cons a m ih =>
    cases n with
    | nil => have := h a.1; simp [find_cons] at this
    | cons b n =>
      simp only [sorted] at hm hn
      have hab : a.1 = b.1 := by
        rcases Nat.lt_trichotomy a.1 b.1 with hl | he | hl
        · have := h a.1
          rw [find_cons, if_pos rfl, find_cons, if_neg (by omega), find_none_of_above hn (by omega)] at this
          cases this
        · exact he
        · have := h b.1
          rw [find_cons, if_neg (by omega), find_none_of_above hm (by omega), find_cons, if_pos rfl] at this
          cases this
      have hv : a.2 = b.2 := by have := h a.1; rw [find_cons, if_pos rfl, find_cons, if_pos hab] at this; exact Option.some.inj this
      have : m = n := by
        apply ih (sorted_of_above hm) (sorted_of_above hn)
        intro k
        by_cases hk : k ≤ a.1
        · rw [find_none_of_above hm hk, find_none_of_above hn (by omega)]
        · have := h k
          rwa [find_cons, if_neg (by omega), find_cons, if_neg (by omega)] at this
      subst this
      congr 1
      exact Prod.ext hab hv

end Sys2Proof.AMap
end

