-- ==== Sys2Proof/Laws/State.lean ====
section
/-! SUPPORT. One lemma per field per update of the state, true by definition, so that no proof unfolds a record update. -/

namespace Sys2Proof.Machine

/-! ### The four parts -/

@[simp] theorem State.modMem_dev (s : State) (f : Mem → Mem) : (s.modMem f).dev = s.dev := rfl
@[simp] theorem State.modMem_mem (s : State) (f : Mem → Mem) : (s.modMem f).mem = f s.mem := rfl
@[simp] theorem State.modMem_ex (s : State) (f : Mem → Mem) : (s.modMem f).ex = s.ex := rfl
@[simp] theorem State.modMem_org (s : State) (f : Mem → Mem) : (s.modMem f).org = s.org := rfl
@[simp] theorem State.modMem_turn (s : State) (f : Mem → Mem) : (s.modMem f).turn = s.turn := rfl
@[simp] theorem State.modMem_inputs (s : State) (f : Mem → Mem) : (s.modMem f).inputs = s.inputs := rfl
@[simp] theorem State.modMem_cur (s : State) (f : Mem → Mem) : (s.modMem f).cur = s.cur := rfl
@[simp] theorem State.modMem_freeCount (s : State) (f : Mem → Mem) : (s.modMem f).freeCount = s.freeCount := rfl
@[simp] theorem State.modMem_nextId (s : State) (f : Mem → Mem) : (s.modMem f).nextId = s.nextId := rfl

@[simp] theorem State.modEx_dev (s : State) (f : Exec → Exec) : (s.modEx f).dev = s.dev := rfl
@[simp] theorem State.modEx_mem (s : State) (f : Exec → Exec) : (s.modEx f).mem = s.mem := rfl
@[simp] theorem State.modEx_ex (s : State) (f : Exec → Exec) : (s.modEx f).ex = f s.ex := rfl
@[simp] theorem State.modEx_org (s : State) (f : Exec → Exec) : (s.modEx f).org = s.org := rfl
@[simp] theorem State.modEx_turn (s : State) (f : Exec → Exec) : (s.modEx f).turn = s.turn := rfl
@[simp] theorem State.modEx_inputs (s : State) (f : Exec → Exec) : (s.modEx f).inputs = s.inputs := rfl
@[simp] theorem State.modEx_cur (s : State) (f : Exec → Exec) : (s.modEx f).cur = s.cur := rfl
@[simp] theorem State.modEx_freeCount (s : State) (f : Exec → Exec) : (s.modEx f).freeCount = s.freeCount := rfl
@[simp] theorem State.modEx_nextId (s : State) (f : Exec → Exec) : (s.modEx f).nextId = s.nextId := rfl

@[simp] theorem State.modOrg_dev (s : State) (f : Org → Org) : (s.modOrg f).dev = s.dev := rfl
@[simp] theorem State.modOrg_mem (s : State) (f : Org → Org) : (s.modOrg f).mem = s.mem := rfl
@[simp] theorem State.modOrg_ex (s : State) (f : Org → Org) : (s.modOrg f).ex = s.ex := rfl
@[simp] theorem State.modOrg_org (s : State) (f : Org → Org) : (s.modOrg f).org = f s.org := rfl
@[simp] theorem State.modOrg_turn (s : State) (f : Org → Org) : (s.modOrg f).turn = s.turn := rfl
@[simp] theorem State.modOrg_inputs (s : State) (f : Org → Org) : (s.modOrg f).inputs = s.inputs := rfl
@[simp] theorem State.modOrg_cur (s : State) (f : Org → Org) : (s.modOrg f).cur = s.cur := rfl
@[simp] theorem State.modOrg_freeCount (s : State) (f : Org → Org) : (s.modOrg f).freeCount = s.freeCount := rfl
@[simp] theorem State.modOrg_nextId (s : State) (f : Org → Org) : (s.modOrg f).nextId = s.nextId := rfl

@[simp] theorem State.modDev_dev (s : State) (f : Device → Device) : (s.modDev f).dev = f s.dev := rfl
@[simp] theorem State.modDev_mem (s : State) (f : Device → Device) : (s.modDev f).mem = s.mem := rfl
@[simp] theorem State.modDev_ex (s : State) (f : Device → Device) : (s.modDev f).ex = s.ex := rfl
@[simp] theorem State.modDev_org (s : State) (f : Device → Device) : (s.modDev f).org = s.org := rfl
@[simp] theorem State.modDev_turn (s : State) (f : Device → Device) : (s.modDev f).turn = s.turn := rfl
@[simp] theorem State.modDev_inputs (s : State) (f : Device → Device) : (s.modDev f).inputs = s.inputs := rfl
@[simp] theorem State.modDev_cur (s : State) (f : Device → Device) : (s.modDev f).cur = s.cur := rfl
@[simp] theorem State.modDev_freeCount (s : State) (f : Device → Device) : (s.modDev f).freeCount = s.freeCount := rfl
@[simp] theorem State.modDev_nextId (s : State) (f : Device → Device) : (s.modDev f).nextId = s.nextId := rfl

@[simp] theorem State.idle_dev (s : State) : s.idle.dev = s.dev := rfl
@[simp] theorem State.idle_mem (s : State) : s.idle.mem = s.mem := rfl
@[simp] theorem State.idle_ex (s : State) : s.idle.ex = s.ex := rfl
@[simp] theorem State.idle_org (s : State) : s.idle.org = s.org := rfl
@[simp] theorem State.idle_turn (s : State) : s.idle.turn = s.turn := rfl
@[simp] theorem State.idle_inputs (s : State) : s.idle.inputs = s.inputs := rfl
@[simp] theorem State.idle_cur (s : State) : s.idle.cur = none := rfl
@[simp] theorem State.idle_freeCount (s : State) : s.idle.freeCount = s.freeCount := rfl
@[simp] theorem State.idle_nextId (s : State) : s.idle.nextId = s.nextId := rfl

@[simp] theorem State.free_fst (s : State) : s.free.1 = s.freeCount := rfl
@[simp] theorem State.free_dev (s : State) : s.free.2.dev = s.dev := rfl
@[simp] theorem State.free_mem (s : State) : s.free.2.mem = s.mem := rfl
@[simp] theorem State.free_ex (s : State) : s.free.2.ex = s.ex := rfl
@[simp] theorem State.free_org (s : State) : s.free.2.org = s.org := rfl
@[simp] theorem State.free_turn (s : State) : s.free.2.turn = s.turn := rfl
@[simp] theorem State.free_inputs (s : State) : s.free.2.inputs = s.inputs := rfl
@[simp] theorem State.free_cur (s : State) : s.free.2.cur = s.cur := rfl
@[simp] theorem State.free_freeCount (s : State) : s.free.2.freeCount = s.freeCount + 1 := rfl
@[simp] theorem State.free_nextId (s : State) : s.free.2.nextId = s.nextId := rfl

@[simp] theorem State.fresh_fst (s : State) : s.fresh.1 = s.nextId := rfl
@[simp] theorem State.fresh_dev (s : State) : s.fresh.2.dev = s.dev := rfl
@[simp] theorem State.fresh_mem (s : State) : s.fresh.2.mem = s.mem := rfl
@[simp] theorem State.fresh_ex (s : State) : s.fresh.2.ex = s.ex := rfl
@[simp] theorem State.fresh_org (s : State) : s.fresh.2.org = s.org := rfl
@[simp] theorem State.fresh_turn (s : State) : s.fresh.2.turn = s.turn := rfl
@[simp] theorem State.fresh_inputs (s : State) : s.fresh.2.inputs = s.inputs := rfl
@[simp] theorem State.fresh_cur (s : State) : s.fresh.2.cur = s.cur := rfl
@[simp] theorem State.fresh_freeCount (s : State) : s.fresh.2.freeCount = s.freeCount := rfl
@[simp] theorem State.fresh_nextId (s : State) : s.fresh.2.nextId = s.nextId + 1 := rfl

/-! ### One entry of a part -/

@[simp] theorem State.modStrand_teams (s : State) (k : Nat) (f : Strand → Strand) : (s.modStrand k f).ex.teams = s.ex.teams := rfl
@[simp] theorem State.modStrand_groups (s : State) (k : Nat) (f : Strand → Strand) : (s.modStrand k f).ex.groups = s.ex.groups := rfl
@[simp] theorem State.modStrand_strands (s : State) (k : Nat) (f : Strand → Strand) : (s.modStrand k f).ex.strands = s.ex.strands.modify k f := rfl
@[simp] theorem State.modStrand_runs (s : State) (k : Nat) (f : Strand → Strand) : (s.modStrand k f).ex.runs = s.ex.runs := rfl
@[simp] theorem State.modStrand_bins (s : State) (k : Nat) (f : Strand → Strand) : (s.modStrand k f).ex.bins = s.ex.bins := rfl
@[simp] theorem State.modStrand_specs (s : State) (k : Nat) (f : Strand → Strand) : (s.modStrand k f).ex.specs = s.ex.specs := rfl
@[simp] theorem State.modStrand_reqs (s : State) (k : Nat) (f : Strand → Strand) : (s.modStrand k f).ex.reqs = s.ex.reqs := rfl
@[simp] theorem State.modStrand_fills (s : State) (k : Nat) (f : Strand → Strand) : (s.modStrand k f).ex.fills = s.ex.fills := rfl
@[simp] theorem State.modStrand_longs (s : State) (k : Nat) (f : Strand → Strand) : (s.modStrand k f).ex.longs = s.ex.longs := rfl
@[simp] theorem State.modStrand_fences (s : State) (k : Nat) (f : Strand → Strand) : (s.modStrand k f).ex.fences = s.ex.fences := rfl
@[simp] theorem State.modStrand_copies (s : State) (k : Nat) (f : Strand → Strand) : (s.modStrand k f).ex.copies = s.ex.copies := rfl
@[simp] theorem State.modStrand_qlds (s : State) (k : Nat) (f : Strand → Strand) : (s.modStrand k f).ex.qlds = s.ex.qlds := rfl
@[simp] theorem State.modStrand_mq (s : State) (k : Nat) (f : Strand → Strand) : (s.modStrand k f).ex.mq = s.ex.mq := rfl
@[simp] theorem State.modStrand_tiles (s : State) (k : Nat) (f : Strand → Strand) : (s.modStrand k f).ex.tiles = s.ex.tiles := rfl
@[simp] theorem State.modStrand_pins (s : State) (k : Nat) (f : Strand → Strand) : (s.modStrand k f).ex.pins = s.ex.pins := rfl
@[simp] theorem State.modStrand_arrays (s : State) (k : Nat) (f : Strand → Strand) : (s.modStrand k f).ex.arrays = s.ex.arrays := rfl
@[simp] theorem State.modStrand_stops (s : State) (k : Nat) (f : Strand → Strand) : (s.modStrand k f).ex.stops = s.ex.stops := rfl
@[simp] theorem State.modStrand_mem (s : State) (k : Nat) (f : Strand → Strand) : (s.modStrand k f).mem = s.mem := rfl
@[simp] theorem State.modStrand_org (s : State) (k : Nat) (f : Strand → Strand) : (s.modStrand k f).org = s.org := rfl
@[simp] theorem State.modStrand_dev (s : State) (k : Nat) (f : Strand → Strand) : (s.modStrand k f).dev = s.dev := rfl
@[simp] theorem State.modStrand_turn (s : State) (k : Nat) (f : Strand → Strand) : (s.modStrand k f).turn = s.turn := rfl
@[simp] theorem State.modStrand_inputs (s : State) (k : Nat) (f : Strand → Strand) : (s.modStrand k f).inputs = s.inputs := rfl
@[simp] theorem State.modStrand_cur (s : State) (k : Nat) (f : Strand → Strand) : (s.modStrand k f).cur = s.cur := rfl
@[simp] theorem State.modStrand_freeCount (s : State) (k : Nat) (f : Strand → Strand) : (s.modStrand k f).freeCount = s.freeCount := rfl
@[simp] theorem State.modStrand_nextId (s : State) (k : Nat) (f : Strand → Strand) : (s.modStrand k f).nextId = s.nextId := rfl

@[simp] theorem State.modGroup_teams (s : State) (k : Nat) (f : Group → Group) : (s.modGroup k f).ex.teams = s.ex.teams := rfl
@[simp] theorem State.modGroup_groups (s : State) (k : Nat) (f : Group → Group) : (s.modGroup k f).ex.groups = s.ex.groups.modify k f := rfl
@[simp] theorem State.modGroup_strands (s : State) (k : Nat) (f : Group → Group) : (s.modGroup k f).ex.strands = s.ex.strands := rfl
@[simp] theorem State.modGroup_runs (s : State) (k : Nat) (f : Group → Group) : (s.modGroup k f).ex.runs = s.ex.runs := rfl
@[simp] theorem State.modGroup_bins (s : State) (k : Nat) (f : Group → Group) : (s.modGroup k f).ex.bins = s.ex.bins := rfl
@[simp] theorem State.modGroup_specs (s : State) (k : Nat) (f : Group → Group) : (s.modGroup k f).ex.specs = s.ex.specs := rfl
@[simp] theorem State.modGroup_reqs (s : State) (k : Nat) (f : Group → Group) : (s.modGroup k f).ex.reqs = s.ex.reqs := rfl
@[simp] theorem State.modGroup_fills (s : State) (k : Nat) (f : Group → Group) : (s.modGroup k f).ex.fills = s.ex.fills := rfl
@[simp] theorem State.modGroup_longs (s : State) (k : Nat) (f : Group → Group) : (s.modGroup k f).ex.longs = s.ex.longs := rfl
@[simp] theorem State.modGroup_fences (s : State) (k : Nat) (f : Group → Group) : (s.modGroup k f).ex.fences = s.ex.fences := rfl
@[simp] theorem State.modGroup_copies (s : State) (k : Nat) (f : Group → Group) : (s.modGroup k f).ex.copies = s.ex.copies := rfl
@[simp] theorem State.modGroup_qlds (s : State) (k : Nat) (f : Group → Group) : (s.modGroup k f).ex.qlds = s.ex.qlds := rfl
@[simp] theorem State.modGroup_mq (s : State) (k : Nat) (f : Group → Group) : (s.modGroup k f).ex.mq = s.ex.mq := rfl
@[simp] theorem State.modGroup_tiles (s : State) (k : Nat) (f : Group → Group) : (s.modGroup k f).ex.tiles = s.ex.tiles := rfl
@[simp] theorem State.modGroup_pins (s : State) (k : Nat) (f : Group → Group) : (s.modGroup k f).ex.pins = s.ex.pins := rfl
@[simp] theorem State.modGroup_arrays (s : State) (k : Nat) (f : Group → Group) : (s.modGroup k f).ex.arrays = s.ex.arrays := rfl
@[simp] theorem State.modGroup_stops (s : State) (k : Nat) (f : Group → Group) : (s.modGroup k f).ex.stops = s.ex.stops := rfl
@[simp] theorem State.modGroup_mem (s : State) (k : Nat) (f : Group → Group) : (s.modGroup k f).mem = s.mem := rfl
@[simp] theorem State.modGroup_org (s : State) (k : Nat) (f : Group → Group) : (s.modGroup k f).org = s.org := rfl
@[simp] theorem State.modGroup_dev (s : State) (k : Nat) (f : Group → Group) : (s.modGroup k f).dev = s.dev := rfl
@[simp] theorem State.modGroup_turn (s : State) (k : Nat) (f : Group → Group) : (s.modGroup k f).turn = s.turn := rfl
@[simp] theorem State.modGroup_inputs (s : State) (k : Nat) (f : Group → Group) : (s.modGroup k f).inputs = s.inputs := rfl
@[simp] theorem State.modGroup_cur (s : State) (k : Nat) (f : Group → Group) : (s.modGroup k f).cur = s.cur := rfl
@[simp] theorem State.modGroup_freeCount (s : State) (k : Nat) (f : Group → Group) : (s.modGroup k f).freeCount = s.freeCount := rfl
@[simp] theorem State.modGroup_nextId (s : State) (k : Nat) (f : Group → Group) : (s.modGroup k f).nextId = s.nextId := rfl

@[simp] theorem State.modTeam_teams (s : State) (k : Nat) (f : Team → Team) : (s.modTeam k f).ex.teams = s.ex.teams.modify k f := rfl
@[simp] theorem State.modTeam_groups (s : State) (k : Nat) (f : Team → Team) : (s.modTeam k f).ex.groups = s.ex.groups := rfl
@[simp] theorem State.modTeam_strands (s : State) (k : Nat) (f : Team → Team) : (s.modTeam k f).ex.strands = s.ex.strands := rfl
@[simp] theorem State.modTeam_runs (s : State) (k : Nat) (f : Team → Team) : (s.modTeam k f).ex.runs = s.ex.runs := rfl
@[simp] theorem State.modTeam_bins (s : State) (k : Nat) (f : Team → Team) : (s.modTeam k f).ex.bins = s.ex.bins := rfl
@[simp] theorem State.modTeam_specs (s : State) (k : Nat) (f : Team → Team) : (s.modTeam k f).ex.specs = s.ex.specs := rfl
@[simp] theorem State.modTeam_reqs (s : State) (k : Nat) (f : Team → Team) : (s.modTeam k f).ex.reqs = s.ex.reqs := rfl
@[simp] theorem State.modTeam_fills (s : State) (k : Nat) (f : Team → Team) : (s.modTeam k f).ex.fills = s.ex.fills := rfl
@[simp] theorem State.modTeam_longs (s : State) (k : Nat) (f : Team → Team) : (s.modTeam k f).ex.longs = s.ex.longs := rfl
@[simp] theorem State.modTeam_fences (s : State) (k : Nat) (f : Team → Team) : (s.modTeam k f).ex.fences = s.ex.fences := rfl
@[simp] theorem State.modTeam_copies (s : State) (k : Nat) (f : Team → Team) : (s.modTeam k f).ex.copies = s.ex.copies := rfl
@[simp] theorem State.modTeam_qlds (s : State) (k : Nat) (f : Team → Team) : (s.modTeam k f).ex.qlds = s.ex.qlds := rfl
@[simp] theorem State.modTeam_mq (s : State) (k : Nat) (f : Team → Team) : (s.modTeam k f).ex.mq = s.ex.mq := rfl
@[simp] theorem State.modTeam_tiles (s : State) (k : Nat) (f : Team → Team) : (s.modTeam k f).ex.tiles = s.ex.tiles := rfl
@[simp] theorem State.modTeam_pins (s : State) (k : Nat) (f : Team → Team) : (s.modTeam k f).ex.pins = s.ex.pins := rfl
@[simp] theorem State.modTeam_arrays (s : State) (k : Nat) (f : Team → Team) : (s.modTeam k f).ex.arrays = s.ex.arrays := rfl
@[simp] theorem State.modTeam_stops (s : State) (k : Nat) (f : Team → Team) : (s.modTeam k f).ex.stops = s.ex.stops := rfl
@[simp] theorem State.modTeam_mem (s : State) (k : Nat) (f : Team → Team) : (s.modTeam k f).mem = s.mem := rfl
@[simp] theorem State.modTeam_org (s : State) (k : Nat) (f : Team → Team) : (s.modTeam k f).org = s.org := rfl
@[simp] theorem State.modTeam_dev (s : State) (k : Nat) (f : Team → Team) : (s.modTeam k f).dev = s.dev := rfl
@[simp] theorem State.modTeam_turn (s : State) (k : Nat) (f : Team → Team) : (s.modTeam k f).turn = s.turn := rfl
@[simp] theorem State.modTeam_inputs (s : State) (k : Nat) (f : Team → Team) : (s.modTeam k f).inputs = s.inputs := rfl
@[simp] theorem State.modTeam_cur (s : State) (k : Nat) (f : Team → Team) : (s.modTeam k f).cur = s.cur := rfl
@[simp] theorem State.modTeam_freeCount (s : State) (k : Nat) (f : Team → Team) : (s.modTeam k f).freeCount = s.freeCount := rfl
@[simp] theorem State.modTeam_nextId (s : State) (k : Nat) (f : Team → Team) : (s.modTeam k f).nextId = s.nextId := rfl

@[simp] theorem State.modCtx_parts (s : State) (k : Nat) (f : Ctx → Ctx) : (s.modCtx k f).org.parts = s.org.parts := rfl
@[simp] theorem State.modCtx_ctxs (s : State) (k : Nat) (f : Ctx → Ctx) : (s.modCtx k f).org.ctxs = s.org.ctxs.modify k f := rfl
@[simp] theorem State.modCtx_grids (s : State) (k : Nat) (f : Ctx → Ctx) : (s.modCtx k f).org.grids = s.org.grids := rfl
@[simp] theorem State.modCtx_frames (s : State) (k : Nat) (f : Ctx → Ctx) : (s.modCtx k f).org.frames = s.org.frames := rfl
@[simp] theorem State.modCtx_pairs (s : State) (k : Nat) (f : Ctx → Ctx) : (s.modCtx k f).org.pairs = s.org.pairs := rfl
@[simp] theorem State.modCtx_xlates (s : State) (k : Nat) (f : Ctx → Ctx) : (s.modCtx k f).org.xlates = s.org.xlates := rfl
@[simp] theorem State.modCtx_mem (s : State) (k : Nat) (f : Ctx → Ctx) : (s.modCtx k f).mem = s.mem := rfl
@[simp] theorem State.modCtx_ex (s : State) (k : Nat) (f : Ctx → Ctx) : (s.modCtx k f).ex = s.ex := rfl
@[simp] theorem State.modCtx_dev (s : State) (k : Nat) (f : Ctx → Ctx) : (s.modCtx k f).dev = s.dev := rfl
@[simp] theorem State.modCtx_turn (s : State) (k : Nat) (f : Ctx → Ctx) : (s.modCtx k f).turn = s.turn := rfl
@[simp] theorem State.modCtx_inputs (s : State) (k : Nat) (f : Ctx → Ctx) : (s.modCtx k f).inputs = s.inputs := rfl
@[simp] theorem State.modCtx_cur (s : State) (k : Nat) (f : Ctx → Ctx) : (s.modCtx k f).cur = s.cur := rfl
@[simp] theorem State.modCtx_freeCount (s : State) (k : Nat) (f : Ctx → Ctx) : (s.modCtx k f).freeCount = s.freeCount := rfl
@[simp] theorem State.modCtx_nextId (s : State) (k : Nat) (f : Ctx → Ctx) : (s.modCtx k f).nextId = s.nextId := rfl

@[simp] theorem State.modPart_parts (s : State) (k : Nat) (f : Partition → Partition) : (s.modPart k f).org.parts = s.org.parts.modify k f := rfl
@[simp] theorem State.modPart_ctxs (s : State) (k : Nat) (f : Partition → Partition) : (s.modPart k f).org.ctxs = s.org.ctxs := rfl
@[simp] theorem State.modPart_grids (s : State) (k : Nat) (f : Partition → Partition) : (s.modPart k f).org.grids = s.org.grids := rfl
@[simp] theorem State.modPart_frames (s : State) (k : Nat) (f : Partition → Partition) : (s.modPart k f).org.frames = s.org.frames := rfl
@[simp] theorem State.modPart_pairs (s : State) (k : Nat) (f : Partition → Partition) : (s.modPart k f).org.pairs = s.org.pairs := rfl
@[simp] theorem State.modPart_xlates (s : State) (k : Nat) (f : Partition → Partition) : (s.modPart k f).org.xlates = s.org.xlates := rfl
@[simp] theorem State.modPart_mem (s : State) (k : Nat) (f : Partition → Partition) : (s.modPart k f).mem = s.mem := rfl
@[simp] theorem State.modPart_ex (s : State) (k : Nat) (f : Partition → Partition) : (s.modPart k f).ex = s.ex := rfl
@[simp] theorem State.modPart_dev (s : State) (k : Nat) (f : Partition → Partition) : (s.modPart k f).dev = s.dev := rfl
@[simp] theorem State.modPart_turn (s : State) (k : Nat) (f : Partition → Partition) : (s.modPart k f).turn = s.turn := rfl
@[simp] theorem State.modPart_inputs (s : State) (k : Nat) (f : Partition → Partition) : (s.modPart k f).inputs = s.inputs := rfl
@[simp] theorem State.modPart_cur (s : State) (k : Nat) (f : Partition → Partition) : (s.modPart k f).cur = s.cur := rfl
@[simp] theorem State.modPart_freeCount (s : State) (k : Nat) (f : Partition → Partition) : (s.modPart k f).freeCount = s.freeCount := rfl
@[simp] theorem State.modPart_nextId (s : State) (k : Nat) (f : Partition → Partition) : (s.modPart k f).nextId = s.nextId := rfl

@[simp] theorem State.modGrid_parts (s : State) (k : Nat) (f : Grid → Grid) : (s.modGrid k f).org.parts = s.org.parts := rfl
@[simp] theorem State.modGrid_ctxs (s : State) (k : Nat) (f : Grid → Grid) : (s.modGrid k f).org.ctxs = s.org.ctxs := rfl
@[simp] theorem State.modGrid_grids (s : State) (k : Nat) (f : Grid → Grid) : (s.modGrid k f).org.grids = s.org.grids.modify k f := rfl
@[simp] theorem State.modGrid_frames (s : State) (k : Nat) (f : Grid → Grid) : (s.modGrid k f).org.frames = s.org.frames := rfl
@[simp] theorem State.modGrid_pairs (s : State) (k : Nat) (f : Grid → Grid) : (s.modGrid k f).org.pairs = s.org.pairs := rfl
@[simp] theorem State.modGrid_xlates (s : State) (k : Nat) (f : Grid → Grid) : (s.modGrid k f).org.xlates = s.org.xlates := rfl
@[simp] theorem State.modGrid_mem (s : State) (k : Nat) (f : Grid → Grid) : (s.modGrid k f).mem = s.mem := rfl
@[simp] theorem State.modGrid_ex (s : State) (k : Nat) (f : Grid → Grid) : (s.modGrid k f).ex = s.ex := rfl
@[simp] theorem State.modGrid_dev (s : State) (k : Nat) (f : Grid → Grid) : (s.modGrid k f).dev = s.dev := rfl
@[simp] theorem State.modGrid_turn (s : State) (k : Nat) (f : Grid → Grid) : (s.modGrid k f).turn = s.turn := rfl
@[simp] theorem State.modGrid_inputs (s : State) (k : Nat) (f : Grid → Grid) : (s.modGrid k f).inputs = s.inputs := rfl
@[simp] theorem State.modGrid_cur (s : State) (k : Nat) (f : Grid → Grid) : (s.modGrid k f).cur = s.cur := rfl
@[simp] theorem State.modGrid_freeCount (s : State) (k : Nat) (f : Grid → Grid) : (s.modGrid k f).freeCount = s.freeCount := rfl
@[simp] theorem State.modGrid_nextId (s : State) (k : Nat) (f : Grid → Grid) : (s.modGrid k f).nextId = s.nextId := rfl

@[simp] theorem State.modPair_parts (s : State) (k : Nat) (f : Pair → Pair) : (s.modPair k f).org.parts = s.org.parts := rfl
@[simp] theorem State.modPair_ctxs (s : State) (k : Nat) (f : Pair → Pair) : (s.modPair k f).org.ctxs = s.org.ctxs := rfl
@[simp] theorem State.modPair_grids (s : State) (k : Nat) (f : Pair → Pair) : (s.modPair k f).org.grids = s.org.grids := rfl
@[simp] theorem State.modPair_frames (s : State) (k : Nat) (f : Pair → Pair) : (s.modPair k f).org.frames = s.org.frames := rfl
@[simp] theorem State.modPair_pairs (s : State) (k : Nat) (f : Pair → Pair) : (s.modPair k f).org.pairs = s.org.pairs.modify k f := rfl
@[simp] theorem State.modPair_xlates (s : State) (k : Nat) (f : Pair → Pair) : (s.modPair k f).org.xlates = s.org.xlates := rfl
@[simp] theorem State.modPair_mem (s : State) (k : Nat) (f : Pair → Pair) : (s.modPair k f).mem = s.mem := rfl
@[simp] theorem State.modPair_ex (s : State) (k : Nat) (f : Pair → Pair) : (s.modPair k f).ex = s.ex := rfl
@[simp] theorem State.modPair_dev (s : State) (k : Nat) (f : Pair → Pair) : (s.modPair k f).dev = s.dev := rfl
@[simp] theorem State.modPair_turn (s : State) (k : Nat) (f : Pair → Pair) : (s.modPair k f).turn = s.turn := rfl
@[simp] theorem State.modPair_inputs (s : State) (k : Nat) (f : Pair → Pair) : (s.modPair k f).inputs = s.inputs := rfl
@[simp] theorem State.modPair_cur (s : State) (k : Nat) (f : Pair → Pair) : (s.modPair k f).cur = s.cur := rfl
@[simp] theorem State.modPair_freeCount (s : State) (k : Nat) (f : Pair → Pair) : (s.modPair k f).freeCount = s.freeCount := rfl
@[simp] theorem State.modPair_nextId (s : State) (k : Nat) (f : Pair → Pair) : (s.modPair k f).nextId = s.nextId := rfl

/-! ### What goes to a gate unit or a peer touches the device alone -/

@[simp] theorem State.sendGate_mem (s : State) (n gk : Nat) (o : GateOp) : (s.sendGate n gk o).mem = s.mem := rfl
@[simp] theorem State.sendGate_ex (s : State) (n gk : Nat) (o : GateOp) : (s.sendGate n gk o).ex = s.ex := rfl
@[simp] theorem State.sendGate_org (s : State) (n gk : Nat) (o : GateOp) : (s.sendGate n gk o).org = s.org := rfl
@[simp] theorem State.sendGate_turn (s : State) (n gk : Nat) (o : GateOp) : (s.sendGate n gk o).turn = s.turn := rfl
@[simp] theorem State.sendGate_inputs (s : State) (n gk : Nat) (o : GateOp) : (s.sendGate n gk o).inputs = s.inputs := rfl
@[simp] theorem State.sendGate_cur (s : State) (n gk : Nat) (o : GateOp) : (s.sendGate n gk o).cur = s.cur := rfl
@[simp] theorem State.sendGate_freeCount (s : State) (n gk : Nat) (o : GateOp) : (s.sendGate n gk o).freeCount = s.freeCount := rfl
@[simp] theorem State.sendGate_nextId (s : State) (n gk : Nat) (o : GateOp) : (s.sendGate n gk o).nextId = s.nextId := rfl

@[simp] theorem State.sendPeer_mem (s : State) (port : Nat) (m : PeerMsg) : (s.sendPeer port m).mem = s.mem := rfl
@[simp] theorem State.sendPeer_ex (s : State) (port : Nat) (m : PeerMsg) : (s.sendPeer port m).ex = s.ex := rfl
@[simp] theorem State.sendPeer_org (s : State) (port : Nat) (m : PeerMsg) : (s.sendPeer port m).org = s.org := rfl
@[simp] theorem State.sendPeer_turn (s : State) (port : Nat) (m : PeerMsg) : (s.sendPeer port m).turn = s.turn := rfl
@[simp] theorem State.sendPeer_inputs (s : State) (port : Nat) (m : PeerMsg) : (s.sendPeer port m).inputs = s.inputs := rfl
@[simp] theorem State.sendPeer_cur (s : State) (port : Nat) (m : PeerMsg) : (s.sendPeer port m).cur = s.cur := rfl
@[simp] theorem State.sendPeer_freeCount (s : State) (port : Nat) (m : PeerMsg) : (s.sendPeer port m).freeCount = s.freeCount := rfl
@[simp] theorem State.sendPeer_nextId (s : State) (port : Nat) (m : PeerMsg) : (s.sendPeer port m).nextId = s.nextId := rfl

@[simp] theorem State.peerWord_dev (s : State) : s.peerWord.2.dev = s.dev := rfl
@[simp] theorem State.peerWord_mem (s : State) : s.peerWord.2.mem = s.mem := rfl
@[simp] theorem State.peerWord_ex (s : State) : s.peerWord.2.ex = s.ex := rfl
@[simp] theorem State.peerWord_org (s : State) : s.peerWord.2.org = s.org := rfl
@[simp] theorem State.peerWord_turn (s : State) : s.peerWord.2.turn = s.turn := rfl
@[simp] theorem State.peerWord_inputs (s : State) : s.peerWord.2.inputs = s.inputs := rfl
@[simp] theorem State.peerWord_cur (s : State) : s.peerWord.2.cur = s.cur := rfl
@[simp] theorem State.peerWord_nextId (s : State) : s.peerWord.2.nextId = s.nextId := rfl
@[simp] theorem State.peerWord_freeCount (s : State) : s.peerWord.2.freeCount = s.freeCount + 3 := rfl

end Sys2Proof.Machine
end

