-- ==== Sys2Proof/Laws/Registers.lean ====
section
/-! SUPPORT. What the operations over registers and predicates do, each said once: the lanes' strands and the group change as LaneStep
says and nothing else does. -/

namespace Sys2Proof.Machine

/-! ### The view -/

theorem view_cur {s : State} {v : View} (h : s.view = some v) : s.cur = some v.gk ∧ v.core = coreOf v.gk ∧
    s.ex.groups.find v.gk = some v.grp ∧ s.ex.teams.find v.teamKey = some v.team ∧ v.grp.splits[v.idx]? = some v.split ∧
    v.grp.team = v.teamKey ∧ s.org.grids.find v.team.grid = some v.grid ∧ v.asid = v.grid.asid ∧ s.org.ctxs.find v.asid = some v.ctx := by
  unfold State.view at h
  split at h
  · cases h
  rename_i gk hc
  split at h
  · cases h
  rename_i g hg
  split at h
  · rename_i i hi
    unfold State.viewOf at h
    rw [hg] at h
    simp only at h
    split at h
    · rename_i sp t hsp ht
      split at h
      · cases h
      rename_i gr hgr
      split at h
      · cases h
      rename_i c hctx
      cases h
      exact ⟨hc, rfl, hg, ht, hsp, rfl, hgr, rfl, hctx⟩
    · cases h
  · cases h

theorem view_group {s : State} {v : View} (h : s.view = some v) : s.ex.groups.find v.gk = some v.grp := (view_cur h).2.2.1
theorem view_team {s : State} {v : View} (h : s.view = some v) : s.ex.teams.find v.teamKey = some v.team := (view_cur h).2.2.2.1

/-! ### Lanes of a guard -/

theorem lanes_nodup (v : View) : v.lanes.Nodup := List.nodup_range.filter _
theorem lanes_lt {v : View} {l : Nat} (h : l ∈ v.lanes) : l < 32 := by
  simp only [View.lanes, List.mem_filter, List.mem_range] at h; exact h.1
theorem liveLanes_sublist (v : View) : (liveLanes v).Sublist v.lanes := List.filter_sublist

theorem activeLanes_sublist (v : View) (s : State) (g : Guard) : (activeLanes v s g).Sublist v.lanes := by
  unfold activeLanes
  split
  · exact liveLanes_sublist v
  · exact List.Sublist.trans List.filter_sublist (liveLanes_sublist v)

/-- The active lanes that the prologue answers are the guard's. -/
theorem prologue_active {v : View} {s : State} {g : Guard} {srcs : List Use} {dsts : List (Reg × Bool)} {bad : Bool}
    {own : List Nat → List (Nat × Nat × Word64)} {preds : List (BitVec 4)} {act : List Nat} {cs : List (Nat × Nat × Word64)}
    (h : prologue v s g srcs dsts bad own preds = .ok (act, cs)) : activeLanes v s g = act := by
  unfold prologue at h
  dsimp only at h
  repeat' (split at h)
  all_goals cases h
  all_goals rfl

theorem issues_sublist {v : View} {s : State} {g : Guard} {srcs : List Use} {dsts : List (Reg × Bool)} {bad : Bool} {preds : List (BitVec 4)}
    {act : List Nat} (h : v.Issues s g srcs dsts act bad preds) : act.Sublist v.lanes := prologue_active h ▸ activeLanes_sublist v s g

/-- Active lanes have distinct strands. -/
theorem Placed_keys {v : View} {s : State} {act : List Nat} (hp : v.Placed s) (ha : act.Sublist v.lanes) :
    act.Pairwise fun a b => v.key a ≠ v.key b := by
  have hn : act.Nodup := (lanes_nodup v).sublist ha
  rw [List.Nodup] at hn
  refine List.Pairwise.imp_of_mem ?_ hn
  intro a b ha' hb' hab he
  exact hab (hp.apart a (ha.subset ha') b (ha.subset hb') he)

/-! ### One step of the lanes -/

/-- What a register operation of a group leaves alone in it. -/
structure GroupLane (act : List Nat) (regs : List Nat) (a b : Group) : Prop where
  rest : b = { a with g := b.g, run := { a.run with t := b.run.t, tw := b.run.tw } }
  g : ∀ r, 216 ≤ r → r < 248 → r ∉ regs → AMap.get {} b.g (r - 216) = AMap.get {} a.g (r - 216)
  t : ∀ l r, l < 32 → 192 ≤ r → r < 200 → (r ∉ regs ∨ l ∉ act) → AMap.get {} b.run.t (l * 8 + (r - 192)) = AMap.get {} a.run.t (l * 8 + (r - 192))
  tw : ∀ r, 192 ≤ r → r < 200 → r ∉ regs → b.run.tw.getLsbD (r - 192) = a.run.tw.getLsbD (r - 192)
  mono : ∀ i, a.run.tw.getLsbD i = true → b.run.tw.getLsbD i = true

/-- The changes of a register operation. -/
structure LaneStep (v : View) (s t : State) (act regs : List Nat) (preds : BitVec 16) : Prop where
  mem : t.mem = s.mem
  dev : t.dev = s.dev
  org : t.org = s.org
  turn : t.turn = s.turn
  inputs : t.inputs = s.inputs
  cur : t.cur = s.cur
  freeCount : t.freeCount = s.freeCount
  nextId : t.nextId = s.nextId
  ex : t.ex = { s.ex with strands := t.ex.strands, groups := t.ex.groups }
  strands : ∀ n, (∀ l ∈ act, v.key l ≠ n) → t.ex.strands.find n = s.ex.strands.find n
  own : ∀ l ∈ act, ∀ a, s.ex.strands.find (v.key l) = some a →
    ∃ b, t.ex.strands.find (v.key l) = some b ∧ StrandKeeps regs preds a b
  groups : ∀ n, n ≠ v.gk → t.ex.groups.find n = s.ex.groups.find n
  group : ∀ a, s.ex.groups.find v.gk = some a → ∃ b, t.ex.groups.find v.gk = some b ∧ GroupLane act regs a b

theorem StrandKeeps.refl (a : Strand) : StrandKeeps [] 0 a a :=
  ⟨rfl, fun _ _ => rfl, rfl, rfl, rfl, 0, by ext; simp⟩

theorem StrandKeeps.trans {r1 r2 : List Nat} {p1 p2 : BitVec 16} {a b c : Strand} (h : StrandKeeps r1 p1 a b) (k : StrandKeeps r2 p2 b c) :
    StrandKeeps (r1 ++ r2) (p1 ||| p2) a c := by
  have e : ~~~(p1 ||| p2) = ~~~p2 &&& ~~~p1 := by ext; simp [Bool.and_comm]
  refine ⟨?_, ?_, ?_, ?_, ?_, ?_⟩
  · rw [k.rest, h.rest]
  · intro r hr
    rw [k.x r (hr.imp_right fun h => fun h' => h (List.mem_append_right _ h')),
      h.x r (hr.imp_right fun h => fun h' => h (List.mem_append_left _ h'))]
  · rw [e, ← BitVec.and_assoc, k.p, BitVec.and_assoc, BitVec.and_comm (~~~p2), ← BitVec.and_assoc, h.p, BitVec.and_assoc]
  · rw [e, ← BitVec.and_assoc, k.pp, BitVec.and_assoc, BitVec.and_comm (~~~p2), ← BitVec.and_assoc, h.pp, BitVec.and_assoc]
  · rw [e, ← BitVec.and_assoc, k.pe, BitVec.and_assoc, BitVec.and_comm (~~~p2), ← BitVec.and_assoc, h.pe, BitVec.and_assoc]
  · obtain ⟨f, hf⟩ := h.fmode
    obtain ⟨g, hg⟩ := k.fmode
    refine ⟨f ||| g, ?_⟩
    rw [hg, hf]
    ext i hi
    simp only [BitVec.getElem_or, BitVec.getElem_shiftLeft, BitVec.getElem_setWidth, BitVec.getLsbD_or]
    by_cases hi8 : i < 8 <;> simp [hi8, Bool.or_assoc]

theorem GroupLane.refl (act : List Nat) (a : Group) : GroupLane act [] a a := ⟨rfl, fun _ _ _ _ => rfl, fun _ _ _ _ _ _ => rfl, fun _ _ _ _ => rfl, fun _ h => h⟩

theorem GroupLane.trans {act r1 r2 : List Nat} {a b c : Group} (h : GroupLane act r1 a b) (k : GroupLane act r2 b c) :
    GroupLane act (r1 ++ r2) a c := by
  refine ⟨?_, ?_, ?_, ?_, fun i hi => k.mono i (h.mono i hi)⟩
  · rw [k.rest, h.rest]
  · intro r h1 h2 h3
    simp only [List.mem_append, not_or] at h3
    rw [k.g r h1 h2 h3.2, h.g r h1 h2 h3.1]
  · intro l r h0 h1 h2 h3
    simp only [List.mem_append, not_or] at h3
    rw [k.t l r h0 h1 h2 (h3.imp_left (·.2)), h.t l r h0 h1 h2 (h3.imp_left (·.1))]
  · intro r h1 h2 h3
    simp only [List.mem_append, not_or] at h3
    rw [k.tw r h1 h2 h3.2, h.tw r h1 h2 h3.1]

theorem LaneStep.refl (v : View) (s : State) (act : List Nat) : LaneStep v s s act [] 0 :=
  ⟨rfl, rfl, rfl, rfl, rfl, rfl, rfl, rfl, rfl, fun _ _ => rfl, fun _ _ a h => ⟨a, h, .refl a⟩, fun _ _ => rfl, fun a h => ⟨a, h, .refl act a⟩⟩

theorem LaneStep.trans {v : View} {s t u : State} {act r1 r2 : List Nat} {p1 p2 : BitVec 16} (h : LaneStep v s t act r1 p1)
    (k : LaneStep v t u act r2 p2) : LaneStep v s u act (r1 ++ r2) (p1 ||| p2) := by
  refine ⟨k.mem.trans h.mem, k.dev.trans h.dev, k.org.trans h.org, k.turn.trans h.turn, k.inputs.trans h.inputs, k.cur.trans h.cur,
    k.freeCount.trans h.freeCount, k.nextId.trans h.nextId, ?_, ?_, ?_, ?_, ?_⟩
  · rw [k.ex, h.ex]
  · intro n hn; rw [k.strands n hn, h.strands n hn]
  · intro l hl a ha
    obtain ⟨b, hb, hab⟩ := h.own l hl a ha
    obtain ⟨c, hc, hbc⟩ := k.own l hl b hb
    exact ⟨c, hc, hab.trans hbc⟩
  · intro n hn; rw [k.groups n hn, h.groups n hn]
  · intro a ha
    obtain ⟨b, hb, hab⟩ := h.group a ha
    obtain ⟨c, hc, hbc⟩ := k.group b hb
    exact ⟨c, hc, hab.trans hbc⟩

/-- A step may be said to touch more registers than it does. -/
theorem LaneStep.mono {v : View} {s t : State} {act regs regs' : List Nat} {preds : BitVec 16} (h : LaneStep v s t act regs preds)
    (e : ∀ r ∈ regs, r ∈ regs') : LaneStep v s t act regs' preds := by
  refine { h with own := ?_, group := ?_ }
  · intro l hl a ha
    obtain ⟨b, hb, k⟩ := h.own l hl a ha
    exact ⟨b, hb, k.rest, fun r hr => k.x r (hr.imp_right fun h h' => h (e r h')), k.p, k.pp, k.pe, k.fmode⟩
  · intro a ha
    obtain ⟨b, hb, k⟩ := h.group a ha
    exact ⟨b, hb, k.rest, fun r h1 h2 h3 => k.g r h1 h2 fun h => h3 (e r h),
      fun l r h0 h1 h2 h3 => k.t l r h0 h1 h2 (h3.imp_left fun h h' => h (e r h')), fun r h1 h2 h3 => k.tw r h1 h2 fun h => h3 (e r h), k.mono⟩

/-! ### Folds over lanes -/

theorem modStrand_fold (key : Nat → Nat) (f : Nat → Strand → Strand) (act : List Nat) (s : State) :
    act.foldl (fun s l => s.modStrand (key l) (f l)) s =
      s.modEx fun x => { x with strands := act.foldl (fun m l => m.modify (key l) (f l)) x.strands } := by
  induction act generalizing s with
  | nil => rfl
  | cons l act ih => rw [List.foldl_cons, ih]; rfl

theorem modGroup_modGroup (s : State) (k : Nat) (f g : Group → Group) : (s.modGroup k f).modGroup k g = s.modGroup k fun x => g (f x) := by
  simp [State.modGroup, State.modEx]

theorem modGroup_fold {β : Type} (k : Nat) (f : β → Group → Group) (l : List β) (s : State) (h : l ≠ []) :
    l.foldl (fun s b => s.modGroup k (f b)) s = s.modGroup k fun g => l.foldl (fun g b => f b g) g := by
  induction l generalizing s with
  | nil => cases h rfl
  | cons b l ih =>
    cases l with
    | nil => rfl
    | cons c l => rw [List.foldl_cons, ih _ (by simp), modGroup_modGroup]; rfl

theorem find?_key {v : View} {act : List Nat} (hk : act.Pairwise fun a b => v.key a ≠ v.key b) {l : Nat} (hl : l ∈ act) :
    act.find? (fun k => v.key k == v.key l) = some l := by
  induction act with
  | nil => cases hl
  | cons a act ih =>
    rcases List.mem_cons.1 hl with rfl | hl
    · simp
    · rw [List.find?_cons]
      have := List.rel_of_pairwise_cons hk hl
      have e : (v.key a == v.key l) = false := by simpa using this
      rw [e]; exact ih (List.Pairwise.of_cons hk) hl

/-- What a fold over the active lanes' strands leaves in one of them. -/
theorem strandFold_find {v : View} {act : List Nat} (f : Nat → Strand → Strand) (hk : act.Pairwise fun a b => v.key a ≠ v.key b)
    (s : State) {l : Nat} (hl : l ∈ act) :
    (act.foldl (fun s l => s.modStrand (v.key l) (f l)) s).ex.strands.find (v.key l) = (s.ex.strands.find (v.key l)).map (f l) := by
  rw [modStrand_fold, State.modEx_ex]
  rw [AMap.find_foldModify _ _ _ _ _ hk, find?_key hk hl]

theorem strandFold_other {v : View} {act : List Nat} (f : Nat → Strand → Strand) (hk : act.Pairwise fun a b => v.key a ≠ v.key b)
    (s : State) {n : Nat} (hn : ∀ l ∈ act, v.key l ≠ n) :
    (act.foldl (fun s l => s.modStrand (v.key l) (f l)) s).ex.strands.find n = s.ex.strands.find n := by
  rw [modStrand_fold, State.modEx_ex, AMap.find_foldModify _ _ _ _ _ hk]
  have : act.find? (fun l => v.key l == n) = none := by
    rw [List.find?_eq_none]; intro l hl; simpa using hn l hl
  rw [this]

/-- A fold over the active lanes' strands is a step of the lanes. -/
theorem strandFold_step {v : View} {act : List Nat} (f : Nat → Strand → Strand) (hk : act.Pairwise fun a b => v.key a ≠ v.key b)
    (s : State) {regs : List Nat} {preds : BitVec 16} (hf : ∀ l ∈ act, ∀ a, StrandKeeps regs preds a (f l a)) :
    LaneStep v s (act.foldl (fun s l => s.modStrand (v.key l) (f l)) s) act regs preds := by
  have e := modStrand_fold v.key f act s
  refine ⟨by rw [e]; rfl, by rw [e]; rfl, by rw [e]; rfl, by rw [e]; rfl, by rw [e]; rfl, by rw [e]; rfl, by rw [e]; rfl, by rw [e]; rfl,
    by rw [e]; rfl, fun n hn => strandFold_other f hk s hn, ?_, fun n _ => by rw [e]; rfl, ?_⟩
  · intro l hl a ha
    exact ⟨f l a, by rw [strandFold_find f hk s hl, ha]; rfl, hf l hl a⟩
  · intro a ha
    exact ⟨a, by rw [e]; exact ha, rfl, fun _ _ _ _ => rfl, fun _ _ _ _ _ _ => rfl, fun _ _ _ _ => rfl, fun _ h => h⟩

/-- A change of the group's t and g registers is a step of the lanes. -/
theorem group_step {v : View} (act : List Nat) (f : Group → Group) (s : State) {regs : List Nat}
    (hf : ∀ a, GroupLane act regs a (f a)) : LaneStep v s (s.modGroup v.gk f) act regs 0 := by
  refine ⟨rfl, rfl, rfl, rfl, rfl, rfl, rfl, rfl, rfl, fun _ _ => rfl, ?_, ?_, ?_⟩
  · intro l _ a ha
    exact ⟨a, ha, rfl, fun _ _ => rfl, by simp, by simp, by simp, 0, by ext; simp⟩
  · intro n hn; simp [hn]
  · intro a ha; exact ⟨f a, by simp [ha], hf a⟩

/-! ### The operations -/

theorem setX_keeps (a : Strand) (r : Nat) (e : Elem) : StrandKeeps [r] 0 a (a.setX r e) := by
  unfold Strand.setX
  split
  · exact ⟨rfl, fun _ _ => rfl, rfl, rfl, rfl, 0, by ext; simp⟩
  · rename_i h
    refine ⟨rfl, ?_, rfl, rfl, rfl, 0, by ext; simp⟩
    intro n hn
    have : n ≠ r := by
      rcases hn with rfl | hn
      · omega
      · simpa using hn
    simp [this]

/-- Writing an x register of the active lanes. -/
theorem writeX_step {v : View} {act : List Nat} (hk : act.Pairwise fun a b => v.key a ≠ v.key b) (s : State) {r : Nat} (hr : r < 192)
    (f : Nat → Elem) : LaneStep v s (act.foldl (fun s l => writeElem v l r (f l) s) s) act [r] 0 := by
  have e : (fun (s : State) l => writeElem v l r (f l) s) = fun s l => s.modStrand (v.key l) fun a => a.setX r (f l) := by
    funext s l; simp [writeElem, hr]
  rw [e]
  exact strandFold_step (fun l a => a.setX r (f l)) hk s fun l _ a => setX_keeps a r (f l)

theorem tKey {l r l' r' : Nat} (h1 : 192 ≤ r) (h2 : r < 200) (h1' : 192 ≤ r') (h2' : r' < 200)
    (h : l * 8 + (r - 192) = l' * 8 + (r' - 192)) : l = l' ∧ r = r' := by omega

theorem getFold_t (f : Nat → Elem) (r : Nat) (h1 : 192 ≤ r) (h2 : r < 200) (act : List Nat) (hn : act.Nodup) (m : AMap Elem) (l r' : Nat)
    (h1' : 192 ≤ r') (h2' : r' < 200) :
    AMap.get {} (act.foldl (fun m l => AMap.set {} m (l * 8 + (r - 192)) (f l)) m) (l * 8 + (r' - 192)) =
      if r' = r ∧ l ∈ act then f l else AMap.get {} m (l * 8 + (r' - 192)) := by
  induction act generalizing m with
  | nil => simp
  | cons a act ih =>
    rw [List.foldl_cons, ih (List.nodup_cons.1 hn |>.2)]
    by_cases hc : r' = r ∧ l ∈ act
    · simp [hc]
    · rw [if_neg hc, AMap.get_set]
      by_cases ha : l * 8 + (r' - 192) = a * 8 + (r - 192)
      · obtain ⟨rfl, rfl⟩ := tKey h1' h2' h1 h2 ha
        simp
      · rw [if_neg ha, if_neg]
        rintro ⟨rfl, hm⟩
        rcases List.mem_cons.1 hm with rfl | hm
        · exact ha rfl
        · exact hc ⟨rfl, hm⟩

theorem flagT_step {v : View} (act : List Nat) (r : Nat) (s : State) (h1 : 192 ≤ r) (h2 : r < 200) :
    LaneStep v s (flagT v r s) act [r] 0 := by
  have e : flagT v r s = s.modGroup v.gk fun g => { g with run := { g.run with tw := g.run.tw ||| (1#8 <<< (r - 192)) } } := by
    simp [flagT, h1, h2]
  rw [e]
  refine group_step act _ s fun a => ⟨rfl, fun _ _ _ _ => rfl, fun _ _ _ _ _ _ => rfl, ?_, ?_⟩
  · intro n h3 h4 h5
    have h6 : n ≠ r := by simpa using h5
    simp only [BitVec.getLsbD_or, BitVec.getLsbD_shiftLeft, BitVec.getLsbD_one]
    have : decide (n - 192 - (r - 192) = 0) = false ∨ decide (n - 192 < r - 192) = true := by
      simp; omega
    rcases this with h | h <;> simp_all
  · intro i hi; simp [hi]

theorem flagT_other {v : View} (r : Nat) (s : State) (h : r < 192 ∨ 200 ≤ r) : flagT v r s = s := by
  unfold flagT; rw [if_neg]; simp; omega

/-- Writing a t register of the active lanes. -/
theorem writeT_eq {v : View} {act : List Nat} (s : State) {r : Nat} (h1 : 192 ≤ r) (h2 : r < 200) (f : Nat → Elem) :
    act.foldl (fun s l => writeElem v l r (f l) s) s = if act = [] then s else
      s.modGroup v.gk fun g => { g with run := { g.run with t := act.foldl (fun m l => AMap.set {} m (l * 8 + (r - 192)) (f l)) g.run.t } } := by
  have e : (fun (s : State) l => writeElem v l r (f l) s) = fun s l => s.modGroup v.gk fun g =>
      { g with run := { g.run with t := AMap.set {} g.run.t (l * 8 + (r - 192)) (f l) } } := by
    funext s l; simp only [writeElem]; rw [if_neg (by omega), if_pos h2]
  rw [e]
  split
  · rename_i h; subst h; rfl
  · rename_i h
    rw [modGroup_fold v.gk (fun l g => { g with run := { g.run with t := AMap.set {} g.run.t (l * 8 + (r - 192)) (f l) } }) act s h]
    congr 1
    funext g
    clear h e
    induction act generalizing g with
    | nil => rfl
    | cons a act ih => rw [List.foldl_cons, ih]; rfl

theorem writeReg_x {v : View} {act : List Nat} {r : Nat} (hr : r < 192) (f : Nat → Elem) (s : State) :
    writeReg v act r f s = act.foldl (fun s l => writeElem v l r (f l) s) s := by
  unfold writeReg
  rw [flagT_other r s (.inl hr)]
  simp; omega

theorem writeReg_t {v : View} {act : List Nat} {r : Nat} (h1 : 192 ≤ r) (h2 : r < 200) (f : Nat → Elem) (s : State) :
    writeReg v act r f s = act.foldl (fun s l => writeElem v l r (f l) s) (flagT v r s) := by
  unfold writeReg
  rw [if_neg]; simp; omega

theorem writeReg_g {v : View} {act : List Nat} {r : Nat} (h1 : 216 ≤ r) (h2 : r < 248) (f : Nat → Elem) (s : State) :
    writeReg v act r f s = match act.getLast? with | some h => writeG v r (f h) s | none => s := by
  unfold writeReg
  rw [flagT_other r s (.inr (by omega))]
  exact if_pos (by simp [h1, h2])

/-- A destination operand: x, t or g. -/
def destReg (r : Nat) : Prop := r < 200 ∨ (216 ≤ r ∧ r < 248)

/-- WRITING A DESTINATION changes the active lanes' register, or the group's, and nothing else. -/
theorem writeReg_step {v : View} {act : List Nat} (hk : act.Pairwise fun a b => v.key a ≠ v.key b) (hn : act.Nodup) (s : State) {r : Nat}
    (hr : destReg r) (f : Nat → Elem) : LaneStep v s (writeReg v act r f s) act [r] 0 := by
  by_cases hx : r < 192
  · rw [writeReg_x hx]; exact writeX_step hk s hx f
  by_cases ht : r < 200
  · have h1 : 192 ≤ r := by omega
    rw [writeReg_t h1 ht, writeT_eq _ h1 ht]
    refine ((flagT_step act r s h1 ht).trans (r2 := [r]) (p2 := 0) ?_).mono (by simp)
    split
    · rename_i h; subst h
      exact (LaneStep.refl v _ []).mono (by simp)
    · refine group_step act _ _ fun a => ⟨rfl, fun _ _ _ _ => rfl, ?_, fun _ _ _ _ => rfl, fun _ h => h⟩
      · intro l r' _ h3 h4 h5
        rw [getFold_t f r h1 ht act hn _ l r' h3 h4, if_neg]
        rintro ⟨rfl, hm⟩
        rcases h5 with h5 | h5
        · simp at h5
        · exact h5 hm
  · have h1 : 216 ≤ r := by unfold destReg at hr; omega
    have h2 : r < 248 := by unfold destReg at hr; omega
    rw [writeReg_g h1 h2]
    split
    · rename_i h _
      refine group_step act _ s fun a => ⟨rfl, ?_, fun _ _ _ _ _ _ => rfl, fun _ _ _ _ => rfl, fun _ h => h⟩
      intro n h3 h4 h5
      have : n - 216 ≠ r - 216 := by simp at h5; omega
      simp [this]
    · exact (LaneStep.refl v s act).mono (by simp)

/-! ### Reading back -/

/-- What the lanes' reads rest on: the view's group, with its own remapping table, and a live strand in every active lane. -/
structure Standing (v : View) (s : State) (act : List Nat) : Prop where
  grp : ∃ a, s.ex.groups.find v.gk = some a ∧ a.remap = v.grp.remap
  live : ∀ l ∈ act, ∃ a, s.ex.strands.find (v.key l) = some a

theorem Standing.step {v : View} {s t : State} {act regs : List Nat} {preds : BitVec 16} (h : Standing v s act)
    (k : LaneStep v s t act regs preds) : Standing v t act := by
  obtain ⟨a, ha, hr⟩ := h.grp
  obtain ⟨b, hb, hab⟩ := k.group a ha
  refine ⟨⟨b, hb, by rw [hab.rest]; exact hr⟩, fun l hl => ?_⟩
  obtain ⟨x, hx⟩ := h.live l hl
  obtain ⟨y, hy, _⟩ := k.own l hl x hx
  exact ⟨y, hy⟩

theorem elemNow_zero (s : State) (v : View) (l : Nat) : s.elemNow v l 0 = {} := by simp [State.elemNow, readElem]

theorem elemNow_x {s : State} {v : View} {b : Group} (h : s.ex.groups.find v.gk = some b) (hr : b.remap = v.grp.remap) (l : Nat) {r : Nat}
    (h0 : r ≠ 0) (h1 : r < 192) : s.elemNow v l r = AMap.get {} (s.strandAt (v.key l)).x r := by
  have hk : View.key { v with grp := b } l = v.key l := by simp [View.key, View.rank, hr]
  simp [State.elemNow, h, readElem, h0, h1, hk]

theorem elemNow_t {s : State} {v : View} {b : Group} (h : s.ex.groups.find v.gk = some b) (l : Nat) {r : Nat} (h1 : 192 ≤ r) (h2 : r < 200) :
    s.elemNow v l r = AMap.get {} b.run.t (l * 8 + (r - 192)) := by
  unfold State.elemNow readElem
  rw [if_neg (by omega), if_neg (by omega), if_pos h2]; simp [h]

theorem elemNow_g {s : State} {v : View} {b : Group} (h : s.ex.groups.find v.gk = some b) (l : Nat) {r : Nat} (h1 : 216 ≤ r) (h2 : r < 248) :
    s.elemNow v l r = AMap.get {} b.g (r - 216) := by
  unfold State.elemNow readElem
  rw [if_neg (by omega), if_neg (by omega), if_neg (by omega), if_neg (by omega), if_pos h2]; simp [h]

theorem strandAt_of {s : State} {k : Nat} {a : Strand} (h : s.ex.strands.find k = some a) : s.strandAt k = a := by simp [State.strandAt, h]

/-- An element that no register of a step names reads as before. -/
theorem elemNow_step {v : View} {s t : State} {act regs : List Nat} {preds : BitVec 16} (hs : Standing v s act)
    (k : LaneStep v s t act regs preds) {l r : Nat} (hl : l < 32) (hr : r ∉ regs) :
    t.elemNow v l r = s.elemNow v l r := by
  obtain ⟨a, ha, hra⟩ := hs.grp
  obtain ⟨b, hb, hab⟩ := k.group a ha
  have hrb : b.remap = v.grp.remap := by rw [hab.rest]; exact hra
  by_cases h0 : r = 0
  · subst h0; rw [elemNow_zero, elemNow_zero]
  by_cases h1 : r < 192
  · rw [elemNow_x hb hrb l h0 h1, elemNow_x ha hra l h0 h1]
    by_cases hm : ∃ m ∈ act, v.key m = v.key l
    · obtain ⟨m, hm, hml⟩ := hm
      obtain ⟨x, hx⟩ := hs.live m hm
      obtain ⟨y, hy, hxy⟩ := k.own m hm x hx
      rw [← hml, strandAt_of hx, strandAt_of hy, hxy.x r (.inr hr)]
    · have := k.strands (v.key l) (fun m hm' e => hm ⟨m, hm', e⟩)
      simp only [State.strandAt, this]
  by_cases h2 : r < 200
  · rw [elemNow_t hb l (by omega) h2, elemNow_t ha l (by omega) h2, hab.t l r hl (by omega) h2 (.inl hr)]
  by_cases h3 : r < 216
  · unfold State.elemNow readElem
    simp [h0, h1, h2, h3]
  by_cases h4 : r < 248
  · rw [elemNow_g hb l (by omega) h4, elemNow_g ha l (by omega) h4, hab.g r (by omega) h4 hr]
  · unfold State.elemNow readElem
    simp [h0, h1, h2, h3, h4]

/-- What a destination holds stays so through a step that does not name it. -/
theorem Holds.step {v : View} {s t : State} {act regs : List Nat} {preds : BitVec 16} {r : Nat} {e : Nat → Elem} (h : Holds v s act r e)
    (hs : Standing v s act) (hlt : ∀ l ∈ act, l < 32) (k : LaneStep v s t act regs preds) (hr : r ∉ regs) : Holds v t act r e := by
  refine ⟨fun h0 l => by subst h0; exact elemNow_zero t v l, ?_, ?_⟩
  · intro h0 h1 l hl
    rw [elemNow_step hs k (hlt l hl) hr]; exact h.2.1 h0 h1 l hl
  · intro h1 h2 top htop l
    obtain ⟨a, ha, _⟩ := hs.grp
    obtain ⟨b, hb, hab⟩ := k.group a ha
    have := h.2.2 h1 h2 top htop l
    rw [elemNow_g ha l h1 h2] at this
    rw [elemNow_g hb l h1 h2, hab.g r h1 h2 hr]; exact this

/-- A destination holds what was written to it. -/
theorem writeReg_holds {v : View} {act : List Nat} (hk : act.Pairwise fun a b => v.key a ≠ v.key b) (hn : act.Nodup) {s : State}
    (hs : Standing v s act) {r : Nat} (hr : destReg r) (f : Nat → Elem) : Holds v (writeReg v act r f s) act r f := by
  have hstep := writeReg_step hk hn s hr f
  obtain ⟨b, hb, hrb⟩ := (hs.step hstep).grp
  refine ⟨fun h0 l => by subst h0; exact elemNow_zero _ v l, ?_, ?_⟩
  · intro h0 h1 l hl
    by_cases hx : r < 192
    · rw [elemNow_x hb hrb l (by omega) hx, writeReg_x hx]
      have e : (fun (s : State) l => writeElem v l r (f l) s) = fun s l => s.modStrand (v.key l) fun a => a.setX r (f l) := by
        funext s l; simp [writeElem, hx]
      rw [e]
      obtain ⟨a, ha⟩ := hs.live l hl
      have := strandFold_find (fun l a => a.setX r (f l)) hk s hl
      rw [ha] at this
      rw [strandAt_of this]
      have h0' : r ≠ 0 := by omega
      simp [Strand.setX, h0']
    · have h2 : 192 ≤ r := by omega
      rw [elemNow_t hb l h2 h1]
      obtain ⟨a, ha, _⟩ := (hs.step (flagT_step act r s h2 h1)).grp
      rw [writeReg_t h2 h1, writeT_eq _ h2 h1] at hb
      have hne : act ≠ [] := by rintro rfl; cases hl
      rw [if_neg hne] at hb
      simp only [State.modGroup_groups, AMap.find_modify, ↓reduceIte, ha, Option.map_some, Option.some.injEq] at hb
      rw [← hb]
      have := getFold_t f r h2 h1 act hn a.run.t l r h2 h1
      simpa [hl] using this
  · intro h1 h2 top htop l
    rw [elemNow_g hb l h1 h2]
    obtain ⟨a, ha, _⟩ := hs.grp
    rw [writeReg_g h1 h2, htop] at hb
    simp only [writeG, State.modGroup_groups, AMap.find_modify, ↓reduceIte, ha, Option.map_some, Option.some.injEq] at hb
    rw [← hb]; simp

/-! ### Lanes one after another -/

theorem StrandKeeps.mono {r1 r2 : List Nat} {p1 p2 : BitVec 16} {a b : Strand} (h : StrandKeeps r1 p1 a b) (hr : ∀ r ∈ r1, r ∈ r2)
    (hp : p1 ||| p2 = p2) : StrandKeeps r2 p2 a b := by
  have e : ~~~p2 = ~~~p1 &&& ~~~p2 := by rw [← hp]; ext i; simp
  refine ⟨h.rest, fun r k => h.x r (k.imp_right fun k k' => k (hr r k')), ?_, ?_, ?_, h.fmode⟩
  · rw [e, ← BitVec.and_assoc, h.p, BitVec.and_assoc]
  · rw [e, ← BitVec.and_assoc, h.pp, BitVec.and_assoc]
  · rw [e, ← BitVec.and_assoc, h.pe, BitVec.and_assoc]

theorem LaneStep.preds {v : View} {s t : State} {act regs : List Nat} {p1 p2 : BitVec 16} (h : LaneStep v s t act regs p1)
    (hp : p1 ||| p2 = p2) : LaneStep v s t act regs p2 := by
  refine { h with own := ?_ }
  intro l hl a ha
  obtain ⟨b, hb, k⟩ := h.own l hl a ha
  exact ⟨b, hb, k.mono (fun _ h => h) hp⟩

/-- A change of one active lane's strand. -/
theorem modStrand_step {v : View} {act : List Nat} {l : Nat} (hl : l ∈ act) (g : Strand → Strand) (s : State) {regs : List Nat}
    {preds : BitVec 16} (hg : ∀ a, StrandKeeps regs preds a (g a)) : LaneStep v s (s.modStrand (v.key l) g) act regs preds := by
  refine ⟨rfl, rfl, rfl, rfl, rfl, rfl, rfl, rfl, rfl, ?_, ?_, fun _ _ => rfl, ?_⟩
  · intro n hn; have := hn l hl; simp; intro h; exact absurd h.symm this
  · intro m hm a ha
    by_cases h : v.key m = v.key l
    · rw [h] at ha ⊢; exact ⟨g a, by simp [ha], hg a⟩
    · exact ⟨a, by simp [h, ha], (StrandKeeps.refl a).mono (by simp) (by simp)⟩
  · intro a ha; exact ⟨a, ha, rfl, fun _ _ _ _ => rfl, fun _ _ _ _ _ _ => rfl, fun _ _ _ _ => rfl, fun _ h => h⟩

theorem foldl_step {v : View} {act ls : List Nat} {op : State → Nat → State} {regs : List Nat} {preds : BitVec 16} (s : State)
    (h : ∀ l ∈ ls, ∀ s, LaneStep v s (op s l) act regs preds) : LaneStep v s (ls.foldl op s) act regs preds := by
  induction ls generalizing s with
  | nil => exact ((LaneStep.refl v s act).mono (by simp)).preds (by simp)
  | cons l ls ih =>
    have := (h l (by simp) s).trans (ih (op s l) fun m hm => h m (by simp [hm]))
    exact (this.mono (by simp)).preds (by simp)

/-- What lanes that each change their own strand leave in one of them. -/
theorem foldl_at {v : View} {act : List Nat} {op : State → Nat → State} (g : Nat → Strand → Strand)
    (hop : ∀ s l n, (op s l).ex.strands.find n = if n = v.key l then (s.ex.strands.find n).map (g l) else s.ex.strands.find n)
    (hk : act.Pairwise fun a b => v.key a ≠ v.key b) (s : State) {l : Nat} (hl : l ∈ act) :
    (act.foldl op s).ex.strands.find (v.key l) = (s.ex.strands.find (v.key l)).map (g l) := by
  induction act generalizing s with
  | nil => cases hl
  | cons a act ih =>
    rw [List.foldl_cons]
    rcases List.mem_cons.1 hl with rfl | hl'
    · have other : ∀ (ls : List Nat) (s : State), (∀ b ∈ ls, v.key l ≠ v.key b) →
          (ls.foldl op s).ex.strands.find (v.key l) = s.ex.strands.find (v.key l) := by
        intro ls
        induction ls with
        | nil => intros; rfl
        | cons b ls ihs =>
          intro s hb
          rw [List.foldl_cons, ihs _ fun c hc => hb c (by simp [hc]), hop, if_neg (hb b (by simp))]
      rw [other act _ fun b hb => List.rel_of_pairwise_cons hk hb, hop, if_pos rfl]
    · rw [ih (List.Pairwise.of_cons hk) _ hl', hop, if_neg]
      exact fun e => List.rel_of_pairwise_cons hk hl' e.symm

/-! ### Flags and predicates -/

theorem setFlags_step {v : View} {act : List Nat} (f : Nat → BitVec 5) (s : State) : LaneStep v s (setFlags v act f s) act [] 0 := by
  unfold setFlags
  refine foldl_step s fun l hl s => ?_
  split
  · exact LaneStep.refl v s act
  · exact modStrand_step hl _ s fun a => ⟨rfl, fun _ _ => rfl, rfl, rfl, rfl, f l, rfl⟩

/-- A lane's sticky flags after an instruction (R161). -/
theorem setFlags_fmode {v : View} {act : List Nat} (f : Nat → BitVec 5) (hk : act.Pairwise fun a b => v.key a ≠ v.key b) (s : State)
    {l : Nat} (hl : l ∈ act) : (setFlags v act f s).ex.strands.find (v.key l) =
      (s.ex.strands.find (v.key l)).map fun a => { a with fmode := a.fmode ||| ((f l).setWidth 32 <<< 8) } := by
  unfold setFlags
  refine foldl_at (fun l a => { a with fmode := a.fmode ||| ((f l).setWidth 32 <<< 8) }) ?_ hk s hl
  intro s l n
  split
  · rename_i h
    have : f l = 0 := by simpa using h
    simp [this]
  · simp; split <;> simp_all

theorem setBit_other (m : BitVec 16) (i : Nat) (b : Bool) : setBit m i b &&& ~~~(1#16 <<< i) = m &&& ~~~(1#16 <<< i) := by
  unfold setBit
  split
  · ext j hj; simp; cases m[j] <;> simp
  · rw [BitVec.and_assoc, BitVec.and_self]

theorem setBit_same (m : BitVec 16) (i : Nat) (hi : i < 16) (b : Bool) : (setBit m i b).getLsbD i = b := by
  unfold setBit
  split <;> simp_all

theorem setBit_ne (m : BitVec 16) (i j : Nat) (b : Bool) (h : j ≠ i) : (setBit m i b).getLsbD j = m.getLsbD j := by
  have h1 : (1#16 <<< i).getLsbD j = false := by
    simp only [BitVec.getLsbD_shiftLeft, BitVec.getLsbD_one]
    by_cases hij : j < i
    · simp [hij]
    · have : decide (j - i = 0) = false := by simp; omega
      simp [this]
  unfold setBit
  split
  · rw [BitVec.getLsbD_or, h1, Bool.or_false]
  · rw [BitVec.getLsbD_and, BitVec.getLsbD_not, h1]
    by_cases hj : j < 16
    · simp [hj]
    · simp [BitVec.getLsbD_of_ge _ _ (Nat.le_of_not_lt hj)]

/-- WRITING A PREDICATE changes that predicate of the active lanes and nothing else. -/
theorem writePred_step {v : View} {act : List Nat} (p : BitVec 4) (f : Nat → Bool × Bool) (s : State) :
    LaneStep v s (writePred v act p f s) act [] (1#16 <<< p.toNat) := by
  unfold writePred
  exact foldl_step s fun l hl s => modStrand_step hl _ s fun a => ⟨rfl, fun _ _ => rfl, setBit_other _ _ _, setBit_other _ _ _, setBit_other _ _ _, 0, by ext; simp⟩

theorem writePred_at {v : View} {act : List Nat} (p : BitVec 4) (f : Nat → Bool × Bool) (hk : act.Pairwise fun a b => v.key a ≠ v.key b)
    (s : State) {l : Nat} (hl : l ∈ act) : (writePred v act p f s).ex.strands.find (v.key l) =
      (s.ex.strands.find (v.key l)).map fun a => { a with p := setBit a.p p.toNat (f l).1, pp := setBit a.pp p.toNat (f l).2, pe := setBit a.pe p.toNat false } := by
  unfold writePred
  refine foldl_at (fun l a => { a with p := setBit a.p p.toNat (f l).1, pp := setBit a.pp p.toNat (f l).2, pe := setBit a.pe p.toNat false }) ?_ hk s hl
  intro s l n; simp; split <;> simp_all

theorem writePred_pred {v : View} {act : List Nat} (p : BitVec 4) (f : Nat → Bool × Bool) (hk : act.Pairwise fun a b => v.key a ≠ v.key b)
    {s : State} (hs : Standing v s act) {l : Nat} (hl : l ∈ act) : (writePred v act p f s).predNow v l p = f l := by
  obtain ⟨a, ha⟩ := hs.live l hl
  have := writePred_at p f hk s hl
  rw [ha] at this
  unfold State.predNow readPred
  rw [strandAt_of this]
  have hp : p.toNat < 16 := p.isLt
  simp [setBit_same _ _ hp]

/-! ### Destinations of one or two words -/

theorem writeDest_one {v : View} {act : List Nat} {d : Reg} {f : Nat → List Word × Bool} (hf : ∀ l, (f l).1.length = 1) (s : State) :
    writeDest v act d f s = writeReg v act d.toNat (fun l => full ((f l).1.getD 0 0) (f l).2) s := by
  unfold writeDest; simp [hf]; rfl

theorem writeDest_two {v : View} {act : List Nat} {d : Reg} {f : Nat → List Word × Bool} (hf : ∀ l, (f l).1.length = 2) (s : State) :
    writeDest v act d f s = writeReg v act (d.toNat + 1) (fun l => full ((f l).1.getD 1 0) (f l).2)
      (writeReg v act d.toNat (fun l => full ((f l).1.getD 0 0) (f l).2) s) := by
  unfold writeDest; simp [hf]; rfl

/-- The registers of a destination that passes the static checks. -/
def destOk (d : Reg) (pair : Bool) : Prop := ∀ r ∈ regsOf d pair, destReg r

/-- WRITING A RESULT of one word, or of two to a pair. -/
theorem writeDest_step {v : View} {act : List Nat} (hk : act.Pairwise fun a b => v.key a ≠ v.key b) (hn : act.Nodup) (s : State) {d : Reg}
    {pair : Bool} (hd : destOk d pair) {f : Nat → List Word × Bool} (hf : ∀ l, (f l).1.length = if pair then 2 else 1) :
    LaneStep v s (writeDest v act d f s) act (regsOf d pair) 0 := by
  cases pair with
  | false =>
    rw [writeDest_one (by simpa using hf)]
    exact writeReg_step hk hn s (hd _ (by simp [regsOf])) _
  | true =>
    rw [writeDest_two (by simpa using hf)]
    exact (writeReg_step hk hn s (hd d.toNat (by simp [regsOf])) _).trans (writeReg_step hk hn _ (hd (d.toNat + 1) (by simp [regsOf])) _)

theorem writeDest_holds {v : View} {act : List Nat} (hk : act.Pairwise fun a b => v.key a ≠ v.key b) (hn : act.Nodup) (hlt : ∀ l ∈ act, l < 32)
    {s : State} (hs : Standing v s act) {d : Reg} {pair : Bool} (hd : destOk d pair) {f : Nat → List Word × Bool}
    (hf : ∀ l, (f l).1.length = if pair then 2 else 1) :
    Holds v (writeDest v act d f s) act d.toNat (fun l => full ((f l).1.getD 0 0) (f l).2) ∧
    (pair → Holds v (writeDest v act d f s) act (d.toNat + 1) (fun l => full ((f l).1.getD 1 0) (f l).2)) := by
  cases pair with
  | false =>
    rw [writeDest_one (by simpa using hf)]
    exact ⟨writeReg_holds hk hn hs (hd _ (by simp [regsOf])) _, by simp⟩
  | true =>
    rw [writeDest_two (by simpa using hf)]
    have h0 := hd d.toNat (by simp [regsOf])
    have h1 := hd (d.toNat + 1) (by simp [regsOf])
    have k := writeReg_step hk hn s h0 fun l => full ((f l).1.getD 0 0) (f l).2
    refine ⟨?_, fun _ => writeReg_holds hk hn (hs.step k) h1 _⟩
    exact (writeReg_holds hk hn hs h0 _).step (hs.step k) hlt (writeReg_step hk hn _ h1 _) (by simp)

end Sys2Proof.Machine
end

