-- ==== Sys2Proof/Laws/Compute.lean ====
section
/-! SUPPORT. The shapes of the instructions that compute: what each does once nothing stops it, as one lemma for each shape. -/

namespace Sys2Proof.Machine

/-! ### What the prologue ensures -/

theorem prologue_ok {v : View} {s : State} {g : Guard} {srcs : List Use} {dsts : List (Reg × Bool)} {bad : Bool}
    {preds : List (BitVec 4)} {act : List Nat} {cs : List (Nat × Nat × Word64)}
    (h : prologue v s g srcs dsts bad (preds := preds) = .ok (act, cs)) :
    bad = false ∧ badOperands v srcs dsts = false := by
  unfold prologue at h
  split at h
  · cases h
  · rename_i h'; simpa using h'

theorem issues_ok {v : View} {s : State} {g : Guard} {srcs : List Use} {dsts : List (Reg × Bool)} {bad : Bool} {act : List Nat}
    {preds : List (BitVec 4)} (h : v.Issues s g srcs dsts act bad preds) : badOperands v srcs dsts = false := (prologue_ok h).2

theorem issues_dest {v : View} {s : State} {g : Guard} {srcs : List Use} {dsts : List (Reg × Bool)} {bad : Bool} {act : List Nat}
    {preds : List (BitVec 4)} (h : v.Issues s g srcs dsts act bad preds) {d : Reg} {pair : Bool} (hd : (d, pair) ∈ dsts) : destOk d pair := by
  have := issues_ok h
  simp only [badOperands, Bool.or_eq_false_iff, List.any_eq_false] at this
  have hb := this.1.2 _ hd
  simp only [badOperand, isQueue, Bool.true_and, Bool.or_eq_true, Bool.and_eq_true, decide_eq_true_eq, beq_iff_eq, not_or, not_and] at hb
  obtain ⟨⟨_, h2⟩, h3, h4⟩ := hb
  intro r hr
  unfold destReg
  cases pair with
  | false => simp [regsOf] at hr; subst hr; omega
  | true =>
    have h5 := h2 rfl
    simp [regsOf] at hr
    rcases hr with rfl | rfl <;> omega

/-! ### Queues popped -/

theorem eraseDups_le {α : Type} [BEq α] : ∀ (n : Nat) (l : List α), l.length ≤ n → l.eraseDups.length ≤ l.length := by
  intro n
  induction n with
  | zero => intro l h; have : l = [] := List.eq_nil_of_length_eq_zero (by omega); subst this; simp
  | succ n ih =>
    intro l h
    cases l with
    | nil => simp
    | cons a l =>
      rw [List.eraseDups_cons]
      have h1 : (l.filter fun b => !b == a).length ≤ l.length := List.length_filter_le _ _
      have := ih (l.filter fun b => !b == a) (by simp at h; omega)
      simp; omega

theorem nodup_of_eraseDups : ∀ (n : Nat) (l : List Nat), l.length ≤ n → ¬ l.eraseDups.length < l.length → l.Nodup := by
  intro n
  induction n with
  | zero => intro l h _; have : l = [] := List.eq_nil_of_length_eq_zero (by omega); subst this; exact List.nodup_nil
  | succ n ih =>
    intro l h hl
    cases l with
    | nil => exact List.nodup_nil
    | cons a l =>
      rw [List.eraseDups_cons] at hl
      have h1 : (l.filter fun b => !b == a).length ≤ l.length := List.length_filter_le _ _
      have h2 := eraseDups_le _ (l.filter fun b => !b == a) (Nat.le_refl _)
      simp only [List.length_cons] at hl h
      have h3 : (l.filter fun b => !b == a).length = l.length := by omega
      have h4 : l.filter (fun b => !b == a) = l := List.filter_eq_self.2 (List.length_filter_eq_length_iff.1 h3)
      rw [h4] at hl
      refine List.nodup_cons.2 ⟨fun hm => ?_, ih l (by omega) (by omega)⟩
      have := List.filter_eq_self.1 h4 a hm
      simp at this

theorem popList_nodup {v : View} {s : State} {srcs : List Use} {dsts : List (Reg × Bool)} (h : badOperands v srcs dsts = false) :
    ((popList v s srcs).map fun u => queueKey v u.reg).Nodup := by
  simp only [badOperands, Bool.or_eq_false_iff, decide_eq_false_iff_not] at h
  have hn := nodup_of_eraseDups _ _ (Nat.le_refl _) h.2
  have hs : (popList v s srcs).Sublist (srcs.filter fun u => isQueue u.reg) := by
    have : popList v s srcs = (srcs.filter fun u => isQueue u.reg).filter fun u => (queueHead v s u.reg).isSome := by
      simp only [popList, List.filter_filter]; congr 1; funext u; rw [Bool.and_comm]
    rw [this]; exact List.filter_sublist
  have h2 : ((popList v s srcs).map (·.reg)).Nodup := hn.sublist (hs.map _)
  have hq : ∀ u ∈ popList v s srcs, 200 ≤ u.reg ∧ u.reg < 216 := by
    intro u hu; simp only [popList, List.mem_filter, isQueue, Bool.and_eq_true, decide_eq_true_eq] at hu; omega
  rw [List.Nodup, List.pairwise_map] at h2 ⊢
  refine h2.imp_of_mem fun {a b} ha hb hab => ?_
  have := hq a ha; have := hq b hb
  unfold queueKey; omega

theorem modTeam_fold {β : Type} (k : Nat) (f : β → Team → Team) (l : List β) (s : State) :
    l.foldl (fun s b => s.modTeam k (f b)) s = s.modEx fun x => { x with teams := l.foldl (fun m b => m.modify k (f b)) x.teams } := by
  induction l generalizing s with
  | nil => rfl
  | cons b l ih => rw [List.foldl_cons, ih]; rfl

theorem find_foldModify_same {α β : Type} (k n : Nat) (f : β → α → α) (l : List β) (m : AMap α) :
    AMap.find (l.foldl (fun m b => AMap.modify m k (f b)) m) n =
      if n = k then (AMap.find m k).map fun x => l.foldl (fun x b => f b x) x else AMap.find m n := by
  induction l generalizing m with
  | nil => simp only [List.foldl_nil]; split <;> simp_all
  | cons b l ih =>
    rw [List.foldl_cons, ih]
    by_cases h : n = k
    · simp [h, Function.comp_def]
    · simp [h]

theorem get_foldTail (key : Use → Nat) (l : List Use) (hn : (l.map key).Nodup) (m : AMap (List QEntry)) (q : Nat) :
    AMap.get [] (l.foldl (fun m u => AMap.modify m (key u) List.tail) m) q =
      if l.any (fun u => key u == q) then (AMap.get [] m q).tail else AMap.get [] m q := by
  unfold AMap.get
  rw [AMap.find_foldModify key (fun _ => List.tail) l m q (List.pairwise_map.1 hn)]
  by_cases h : ∃ u ∈ l, key u = q
  · obtain ⟨u, hu, he⟩ := h
    have h1 : l.any (fun u => key u == q) = true := List.any_eq_true.2 ⟨u, hu, by simp [he]⟩
    have h2 : ∃ w, l.find? (fun u => key u == q) = some w := by
      rw [← Option.isSome_iff_exists, List.find?_isSome]; exact ⟨u, hu, by simp [he]⟩
    obtain ⟨w, hw⟩ := h2
    rw [h1, hw]
    cases AMap.find m q <;> simp
  · have h1 : l.any (fun u => key u == q) = false := by
      rw [List.any_eq_false]; intro u hu; have := fun e => h ⟨u, hu, e⟩; simpa using this
    have h2 : l.find? (fun u => key u == q) = none := by
      rw [List.find?_eq_none]; intro u hu; have := fun e => h ⟨u, hu, e⟩; simpa using this
    rw [h1, h2]; rfl

theorem keepPops_eq (s : State) (gk : Nat) (ps : List (Nat × QEntry)) :
    s.keepPops gk ps = s.modEx fun x => { x with specs := (s.keepPops gk ps).ex.specs } := by
  unfold State.keepPops; split <;> rfl

/-- POPPING QUEUES changes the queues of the view's team, what a speculating group keeps of them, and nothing else. -/
theorem popQueues_eq (v : View) (srcs : List Use) (s : State) : popQueues v srcs s = s.modEx fun x =>
    { x with
      teams := (popList v s srcs).foldl (fun m u => AMap.modify m v.teamKey (Team.pop (queueKey v u.reg))) x.teams
      specs := (s.keepPops v.gk (popHeads v s srcs)).ex.specs } := by
  unfold popQueues
  rw [modTeam_fold v.teamKey (fun u : Use => Team.pop (queueKey v u.reg)), keepPops_eq]
  rfl

theorem foldPop (key : Use → Nat) (l : List Use) (t : Team) :
    l.foldl (fun t u => Team.pop (key u) t) t =
      { t with queues := l.foldl (fun m u => AMap.modify m (key u) List.tail) t.queues } := by
  induction l generalizing t with
  | nil => rfl
  | cons u l ih => rw [List.foldl_cons, ih]; rfl

/-! ### The frame of an instruction whose body is a step of the lanes -/

theorem queueHead_clock {v : View} {s t : State} (h : t.dev = s.dev) (r : Nat) : queueHead v t r = queueHead v s r := by
  unfold queueHead; rw [h]

/-- The state after an instruction whose body u is a step of its active lanes. -/
theorem RegisterFrame.of_step {v : View} {next : Word64} {s u : State} {act regs : List Nat} {preds : BitVec 16} {srcs : List Use} {dsts : List (Reg × Bool)}
    (hv : s.view = some v) (k : LaneStep v s u act regs preds) (hq : badOperands v srcs dsts = false)
    (hf : ∀ b, u.ex.groups.find v.gk = some b → ∀ r ∈ regs, 192 ≤ r → r < 200 → b.run.tw.getLsbD (r - 192) = true) :
    RegisterFrame v next s (advance v next (popQueues v srcs u)).idle act regs preds srcs := by
  have hg := view_group hv
  have ht := view_team hv
  obtain ⟨b, hb, hab⟩ := k.group _ hg
  rw [popQueues_eq]
  refine ⟨k.mem, k.dev, k.org, k.freeCount, k.nextId, rfl, k.turn, k.inputs, ?_, ?_, k.strands, k.own, ?_, ?_, ?_, ?_⟩
  · simp only [advance, State.idle, State.modGroup, State.modEx]; rw [k.ex]
  · have hd : popHeads v u srcs = popHeads v s srcs := by
      have : popList v u srcs = popList v s srcs := by
        unfold popList; congr 1; funext w; rw [queueHead_clock k.dev w.reg]
      unfold popHeads; rw [this]
    have hx : u.ex.specs = s.ex.specs := by rw [k.ex]
    show (u.keepPops v.gk (popHeads v u srcs)).ex.specs = _
    rw [hd]
    unfold State.keepPops
    split
    · exact hx
    · simp only [State.modEx_ex, hx]
  · intro n hn; simp [advance, hn, k.groups n hn]
  · refine ⟨{ (b.modSplit v.idx fun sp => { sp with pc := next }) with run := { b.run with count := b.run.count + 1 } }, ?_, ?_⟩
    · simp [advance, hb]
    · have hc : b.run.count = v.grp.run.count := by rw [hab.rest]
      have hsp : b.splits = v.grp.splits := by rw [hab.rest]
      refine ⟨?_, hab.g, hab.t, ?_⟩
      · simp only [Group.modSplit, hsp, hc]
        conv => lhs; rw [hab.rest]
      · intro r h1 h2
        show b.run.tw.getLsbD (r - 192) = _
        by_cases hr : r ∈ regs
        · rw [hf b hb r hr h1 h2]; simp [hr]
        · rw [hab.tw r h1 h2 hr]; simp [hr]
  · intro n hn
    have : u.ex.teams = s.ex.teams := by rw [k.ex]
    simp [advance, find_foldModify_same, hn, this]
  · have hteams : u.ex.teams = s.ex.teams := by rw [k.ex]
    have hd : u.dev = s.dev := k.dev
    refine ⟨(popList v u srcs).foldl (fun t w => Team.pop (queueKey v w.reg) t) v.team, ?_, ?_⟩
    · simp only [advance, State.idle_ex, State.modGroup_teams, State.modEx_ex, hteams]
      rw [find_foldModify_same, if_pos rfl, ht]; rfl
    · have hp := foldPop (fun w => queueKey v w.reg) (popList v u srcs) v.team
      refine ⟨by rw [hp], fun q => ?_⟩
      rw [hp]
      show AMap.get [] ((popList v u srcs).foldl (fun m w => AMap.modify m (queueKey v w.reg) List.tail) v.team.queues) q = _
      rw [get_foldTail (fun u => queueKey v u.reg) _ (popList_nodup hq) v.team.queues q]
      have : (popList v u srcs).any (fun w => queueKey v w.reg == q) =
          srcs.any fun w => isQueue w.reg && queueKey v w.reg == q && (queueHead v s w.reg).isSome := by
        unfold popList
        rw [List.any_filter]
        refine congrArg srcs.any (funext fun w => ?_)
        rw [queueHead_clock hd w.reg]
        cases isQueue w.reg <;> cases (queueKey v w.reg == q) <;> simp
      rw [this]; rfl

/-! ### The shapes -/

theorem length_wordsOf (pair : Bool) (x : Word64) : (wordsOf pair x).length = if pair then 2 else 1 := by cases pair <;> rfl

theorem standing_of {v : View} {s : State} {act : List Nat} (hv : s.view = some v) (hp : v.Placed s) (ha : act.Sublist v.lanes) :
    Standing v s act := ⟨⟨v.grp, view_group hv, rfl⟩, fun l hl => hp.live l (ha.subset hl)⟩

theorem writeReg_flag {v : View} {act : List Nat} {s : State} {r : Nat}
    (f : Nat → Elem) {g b : Group} (hg : s.ex.groups.find v.gk = some g) (hb : (writeReg v act r f s).ex.groups.find v.gk = some b)
    (h1 : 192 ≤ r) (h2 : r < 200) : b.run.tw.getLsbD (r - 192) = true := by
  rw [writeReg_t h1 h2] at hb
  have e : flagT v r s = s.modGroup v.gk fun g => { g with run := { g.run with tw := g.run.tw ||| (1#8 <<< (r - 192)) } } := by
    simp [flagT, h1, h2]
  have h0 : (flagT v r s).ex.groups.find v.gk = some { g with run := { g.run with tw := g.run.tw ||| (1#8 <<< (r - 192)) } } := by
    rw [e]; simp [hg]
  rw [writeT_eq _ h1 h2] at hb
  split at hb
  · rw [h0] at hb; cases hb; simp; omega
  · simp only [State.modGroup_groups, AMap.find_modify, ↓reduceIte, h0, Option.map_some, Option.some.injEq] at hb
    rw [← hb]; simp; omega

theorem writeDest_flag {v : View} {act : List Nat} (hk : act.Pairwise fun a b => v.key a ≠ v.key b) (hn : act.Nodup) {s : State} {d : Reg}
    {pair : Bool} (hd : destOk d pair) {f : Nat → List Word × Bool} (hf : ∀ l, (f l).1.length = if pair then 2 else 1) {g b : Group}
    (hg : s.ex.groups.find v.gk = some g) (hb : (writeDest v act d f s).ex.groups.find v.gk = some b) :
    ∀ r ∈ regsOf d pair, 192 ≤ r → r < 200 → b.run.tw.getLsbD (r - 192) = true := by
  intro r hr h1 h2
  cases pair with
  | false =>
    rw [writeDest_one (by simpa using hf)] at hb
    have : r = d.toNat := by simpa [regsOf] using hr
    subst this
    exact writeReg_flag _ hg hb h1 h2
  | true =>
    rw [writeDest_two (by simpa using hf)] at hb
    have k0 := writeReg_step hk hn s (hd d.toNat (by simp [regsOf])) fun l => full ((f l).1.getD 0 0) (f l).2
    obtain ⟨c, hc, hgc⟩ := k0.group g hg
    simp [regsOf] at hr
    rcases hr with rfl | rfl
    · have hbit := writeReg_flag _ hg hc h1 h2
      obtain ⟨b', hb', hcb⟩ := (writeReg_step hk hn _ (hd (d.toNat + 1) (by simp [regsOf])) _).group c hc
      rw [hb] at hb'; cases hb'
      exact hcb.mono _ hbit
    · exact writeReg_flag _ hc hb h1 h2

theorem modStrand_fmode (s : State) (k n : Nat) (g : Strand → Strand) (hg : ∀ a, (g a).fmode = a.fmode) :
    ((s.modStrand k g).strandAt n).fmode = (s.strandAt n).fmode := by
  unfold State.strandAt
  rw [State.modStrand_strands, AMap.find_modify]
  split
  · rename_i h; subst h; cases s.ex.strands.find n <;> simp [hg]
  · rfl

/-- Writing a register changes no %fmode. -/
theorem writeReg_fmode {v : View} {act : List Nat} (r : Nat) (f : Nat → Elem) (s : State) (n : Nat) :
    ((writeReg v act r f s).strandAt n).fmode = (s.strandAt n).fmode := by
  have hfold : ∀ (ls : List Nat) (s : State),
      ((ls.foldl (fun s l => writeElem v l r (f l) s) s).strandAt n).fmode = (s.strandAt n).fmode := by
    intro ls
    induction ls with
    | nil => intro s; rfl
    | cons l ls ih =>
      intro s
      rw [List.foldl_cons, ih]
      unfold writeElem
      split
      · refine modStrand_fmode s _ n _ fun a => ?_
        unfold Strand.setX; split <;> rfl
      · split <;> rfl
  have hflag : ((flagT v r s).strandAt n).fmode = (s.strandAt n).fmode := by unfold flagT; split <;> rfl
  unfold writeReg
  dsimp only
  split
  · split
    · exact hflag
    · exact hflag
  · rw [hfold, hflag]

theorem writeDest_fmode {v : View} {act : List Nat} {d : Reg} (f : Nat → List Word × Bool) (s : State) (n : Nat) :
    ((writeDest v act d f s).strandAt n).fmode = (s.strandAt n).fmode := by
  unfold writeDest
  dsimp only
  split
  · rw [writeReg_fmode, writeReg_fmode]
  · rw [writeReg_fmode]

theorem runBody_ok {s : State} {v : View} {body : View → State → Body} {t : State} (hv : s.view = some v) (hb : body v s = .ok t) :
    runBody s body = .next (advance v (v.nextPc s) t).idle := by
  simp only [runBody, hv, hb]

/-- What the frame's reads are after the body: the advance, the pops and the end of the instruction change no register. -/
theorem elemNow_end {v : View} {u : State} (srcs : List Use) (pc : Word64) (l r : Nat) :
    (advance v pc (popQueues v srcs u)).idle.elemNow v l r = u.elemNow v l r := by
  rw [popQueues_eq]
  cases hg : u.ex.groups.find v.gk with
  | none => simp [State.elemNow, advance, hg, readElem, State.strandAt]
  | some g => simp [State.elemNow, advance, hg, readElem, State.strandAt, Group.modSplit, View.key, View.rank]

theorem strandAt_end {v : View} {u : State} (srcs : List Use) (pc : Word64) (k : Nat) :
    (advance v pc (popQueues v srcs u)).idle.strandAt k = u.strandAt k := by
  rw [popQueues_eq]; rfl

theorem Holds.end_ {v : View} {u : State} {act : List Nat} {r : Nat} {e : Nat → Elem} (h : Holds v u act r e) (srcs : List Use) (pc : Word64) :
    Holds v (advance v pc (popQueues v srcs u)).idle act r e := by
  exact ⟨fun h0 l => by rw [elemNow_end]; exact h.1 h0 l, fun h0 h1 l hl => by rw [elemNow_end]; exact h.2.1 h0 h1 l hl,
    fun h1 h2 top ht l => by rw [elemNow_end]; exact h.2.2 h1 h2 top ht l⟩

/-- THE LAW of an instruction that computes at issue (R175, R176). -/
theorem computeAtIssue_law {s : State} {v : View} {g : Guard} {srcs : List Use} {d : Reg} {pair : Bool} {act : List Nat}
    {f : View → State → List Nat → Nat → LaneOut} {bad : View → Bool} {preds : List (BitVec 4)} (hv : s.view = some v) (hp : v.Placed s)
    (hi : v.Issues s g srcs [(d, pair)] act (bad v) preds) {body : View → State → Body}
    (hbody : body v s = computeAtIssue g srcs d pair f bad preds v s) : Computes v s act srcs d pair (f v s act) (runBody s body) := by
  have hsub := issues_sublist hi
  have hk := Placed_keys hp hsub
  have hn : act.Nodup := (lanes_nodup v).sublist hsub
  have hlt : ∀ l ∈ act, l < 32 := fun l hl => lanes_lt (hsub.subset hl)
  have hst := standing_of hv hp hsub
  have hd := issues_dest hi (List.mem_singleton.2 rfl)
  let wf : Nat → List Word × Bool := fun l =>
    (wordsOf pair (f v s act l).val, (f v s act l).poison || enabledPoison v.grid.hdr (f v s act l).flags)
  have hlen : ∀ l, (wf l).1.length = if pair then 2 else 1 := fun l => length_wordsOf _ _
  have hb : body v s = .ok (popQueues v srcs (setFlags v act (fun l => (f v s act l).flags) (writeDest v act d wf s))) := by
    rw [hbody]; unfold computeAtIssue; unfold View.Issues at hi; rw [hi]; rfl
  have k1 := writeDest_step hk hn s hd hlen
  have k2 := setFlags_step (v := v) (act := act) (fun l => (f v s act l).flags) (writeDest v act d wf s)
  have hh := writeDest_holds hk hn hlt hst hd hlen
  have hst1 := hst.step k1
  refine ⟨_, runBody_ok hv hb, ?_, ?_, ?_, ?_⟩
  · refine RegisterFrame.of_step hv ((k1.trans k2).mono (by simp)) (issues_ok hi) ?_
    intro b hb r hr h1 h2
    obtain ⟨c, hc, _⟩ := k1.group _ (view_group hv)
    obtain ⟨b', hb', hcb⟩ := k2.group c hc
    rw [hb] at hb'; cases hb'
    exact hcb.mono _ (writeDest_flag hk hn hd hlen (view_group hv) hc r hr h1 h2)
  · refine Holds.end_ ((?_ : Holds v _ act d.toNat _).step hst1 hlt k2 (by simp)) srcs _
    have := hh.1
    cases pair <;> simpa [wf, wordsOf] using this
  · intro hpair
    refine Holds.end_ ((?_ : Holds v _ act (d.toNat + 1) _).step hst1 hlt k2 (by simp)) srcs _
    have := hh.2 hpair
    cases pair with
    | false => cases hpair
    | true => simpa [wf, wordsOf] using this
  · intro l hl
    rw [strandAt_end]
    obtain ⟨a, ha⟩ := hst.live l hl
    obtain ⟨b, hb, hab⟩ := k1.own l hl a ha
    have h2 := setFlags_fmode (fun l => (f v s act l).flags) hk (writeDest v act d wf s) hl
    rw [hb] at h2
    rw [strandAt_of h2, strandAt_of ha]
    have : b.fmode = a.fmode := by
      have := writeDest_fmode (v := v) (act := act) (d := d) wf s (v.key l)
      rwa [strandAt_of hb, strandAt_of ha] at this
    show b.fmode ||| _ = _
    rw [this]; rfl

/-- THE LAW of an instruction that writes a predicate. -/
theorem computePred_law {s : State} {v : View} {g : Guard} {srcs : List Use} {p : BitVec 4} {act : List Nat}
    {f : View → State → List Nat → Nat → Bool × LaneOut} (hv : s.view = some v) (hp : v.Placed s) (hi : v.Issues s g srcs [] act)
    {body : View → State → Body} (hbody : body v s = computePred g srcs p f v s) :
    ComputesPred v s act srcs p (f v s act) (runBody s body) := by
  have hsub := issues_sublist hi
  have hk := Placed_keys hp hsub
  have hst := standing_of hv hp hsub
  let wf : Nat → Bool × Bool := fun l => ((f v s act l).1, (f v s act l).2.poison || enabledPoison v.grid.hdr (f v s act l).2.flags)
  have hb : body v s = .ok (popQueues v srcs (setFlags v act (fun l => (f v s act l).2.flags) (writePred v act p wf s))) := by
    rw [hbody]; unfold computePred; unfold View.Issues at hi; rw [hi]; rfl
  have k1 := writePred_step (v := v) (act := act) p wf s
  have k2 := setFlags_step (v := v) (act := act) (fun l => (f v s act l).2.flags) (writePred v act p wf s)
  have hst1 := hst.step k1
  refine ⟨_, runBody_ok hv hb, ?_, ?_, ?_⟩
  · exact RegisterFrame.of_step hv (((k1.trans k2).mono (by simp)).preds (by simp)) (issues_ok hi) (by simp)
  · intro l hl
    obtain ⟨a, ha⟩ := hst.live l hl
    have h1 := writePred_at p wf hk s hl
    rw [ha] at h1
    have h2 := setFlags_fmode (fun l => (f v s act l).2.flags) hk (writePred v act p wf s) hl
    rw [h1] at h2
    unfold State.predNow readPred
    rw [strandAt_end, strandAt_of h2]
    have hp : p.toNat < 16 := p.isLt
    simp [setBit_same _ _ hp, wf]
  · intro l hl
    obtain ⟨a, ha⟩ := hst.live l hl
    have h1 := writePred_at p wf hk s hl
    rw [ha] at h1
    have h2 := setFlags_fmode (fun l => (f v s act l).2.flags) hk (writePred v act p wf s) hl
    rw [h1] at h2
    rw [strandAt_end, strandAt_of h2, strandAt_of ha]; rfl

/-! ### Long latency -/

theorem sendLongs (f : Nat → Long) (ls : List Nat) (s : State) : ∃ m,
    ls.foldl (fun s l => s.sendLong (f l)) s = { s with ex := { s.ex with longs := m }, nextId := s.nextId + ls.length } ∧
    (∀ i, ∀ h : i < ls.length, AMap.find m (s.nextId + i) = some (f ls[i])) ∧
    (∀ n, (n < s.nextId ∨ s.nextId + ls.length ≤ n) → AMap.find m n = s.ex.longs.find n) := by
  induction ls generalizing s with
  | nil => exact ⟨s.ex.longs, rfl, fun i h => by simp at h, fun _ _ => rfl⟩
  | cons a ls ih =>
    rw [List.foldl_cons]
    obtain ⟨m, h1, h2, h3⟩ := ih (s.sendLong (f a))
    have hid : (s.sendLong (f a)).nextId = s.nextId + 1 := rfl
    rw [hid] at h1 h2 h3
    refine ⟨m, ?_, ?_, ?_⟩
    · rw [h1, List.length_cons, Nat.add_assoc, Nat.add_comm 1]; rfl
    · intro i hi
      cases i with
      | zero =>
        rw [Nat.add_zero, h3 s.nextId (.inl (by omega))]
        show AMap.find (AMap.put s.ex.longs s.nextId (f a)) s.nextId = _
        rw [AMap.find_put, if_pos rfl]; rfl
      | succ i =>
        have := h2 i (by simpa using hi)
        rw [show s.nextId + (i + 1) = s.nextId + 1 + i by omega, this]; rfl
    · intro n hn
      rw [h3 n (by simp at hn; omega)]
      show AMap.find (AMap.put s.ex.longs s.nextId (f a)) n = _
      rw [AMap.find_put, if_neg (by simp at hn; omega)]

/-- MARKING A DESTINATION EMPTY. -/
theorem markReg_emptied {v : View} {act : List Nat} (hk : act.Pairwise fun a b => v.key a ≠ v.key b) (hn : act.Nodup) {s : State}
    (hs : Standing v s act) {r : Nat} (hr : destReg r) :
    Emptied v (writeReg v act r (fun l => { readElem v s l r with full := false }) s) act r := by
  have h := writeReg_holds hk hn hs hr fun l => { readElem v s l r with full := false }
  refine ⟨fun h0 h1 l hl => by rw [h.2.1 h0 h1 l hl], fun h1 h2 hne l => ?_⟩
  have : ∃ top, act.getLast? = some top := by
    cases hc : act.getLast? with
    | none => rw [List.getLast?_eq_none_iff] at hc; exact absurd hc hne
    | some t => exact ⟨t, rfl⟩
  obtain ⟨top, ht⟩ := this
  rw [h.2.2 h1 h2 top ht l]

theorem Emptied.step {v : View} {s t : State} {act regs : List Nat} {preds : BitVec 16} {r : Nat} (h : Emptied v s act r)
    (hs : Standing v s act) (hlt : ∀ l ∈ act, l < 32) (k : LaneStep v s t act regs preds) (hr : r ∉ regs) : Emptied v t act r := by
  refine ⟨fun h0 h1 l hl => by rw [elemNow_step hs k (hlt l hl) hr]; exact h.1 h0 h1 l hl, fun h1 h2 hne l => ?_⟩
  obtain ⟨a, ha, _⟩ := hs.grp
  obtain ⟨b, hb, hab⟩ := k.group a ha
  have := h.2 h1 h2 hne l
  rw [elemNow_g ha l h1 h2] at this
  rw [elemNow_g hb l h1 h2, hab.g r h1 h2 hr]; exact this

theorem Emptied.end_ {v : View} {u : State} {act : List Nat} {r : Nat} (h : Emptied v u act r) (srcs : List Use) (pc : Word64) :
    Emptied v (advance v pc (popQueues v srcs u)).idle act r :=
  ⟨fun h0 h1 l hl => by rw [elemNow_end srcs]; exact h.1 h0 h1 l hl, fun h1 h2 hne l => by rw [elemNow_end srcs]; exact h.2 h1 h2 hne l⟩

theorem markEmpty_step {v : View} {act : List Nat} (hk : act.Pairwise fun a b => v.key a ≠ v.key b) (hn : act.Nodup) (s : State) {d : Reg}
    {pair : Bool} (hd : destOk d pair) : LaneStep v s (markEmpty v act d pair s) act (regsOf d pair) 0 := by
  unfold markEmpty
  cases pair with
  | false => exact writeReg_step hk hn s (hd _ (by simp [regsOf])) _
  | true =>
    exact (writeReg_step hk hn s (hd d.toNat (by simp [regsOf])) _).trans (writeReg_step hk hn _ (hd (d.toNat + 1) (by simp [regsOf])) _)

theorem markEmpty_emptied {v : View} {act : List Nat} (hk : act.Pairwise fun a b => v.key a ≠ v.key b) (hn : act.Nodup)
    (hlt : ∀ l ∈ act, l < 32) {s : State} (hs : Standing v s act) {d : Reg} {pair : Bool} (hd : destOk d pair) :
    ∀ r ∈ regsOf d pair, Emptied v (markEmpty v act d pair s) act r := by
  intro r hr
  unfold markEmpty
  cases pair with
  | false =>
    have : r = d.toNat := by simpa [regsOf] using hr
    subst this
    exact markReg_emptied hk hn hs (hd _ (by simp [regsOf]))
  | true =>
    have h0 := hd d.toNat (by simp [regsOf])
    have h1 := hd (d.toNat + 1) (by simp [regsOf])
    have k := writeReg_step hk hn s h0 fun l => { readElem v s l d.toNat with full := false }
    simp [regsOf] at hr
    rcases hr with rfl | rfl
    · exact (markReg_emptied hk hn hs h0).step (hs.step k) hlt (writeReg_step hk hn _ h1 _) (by simp)
    · exact markReg_emptied hk hn (hs.step k) h1

theorem markEmpty_flag {v : View} {act : List Nat} (hk : act.Pairwise fun a b => v.key a ≠ v.key b) (hn : act.Nodup) {s : State} {d : Reg}
    {pair : Bool} (hd : destOk d pair) {g b : Group}
    (hg : s.ex.groups.find v.gk = some g) (hb : (markEmpty v act d pair s).ex.groups.find v.gk = some b) :
    ∀ r ∈ regsOf d pair, 192 ≤ r → r < 200 → b.run.tw.getLsbD (r - 192) = true := by
  intro r hr h1 h2
  unfold markEmpty at hb
  cases pair with
  | false =>
    have : r = d.toNat := by simpa [regsOf] using hr
    subst this
    exact writeReg_flag _ hg hb h1 h2
  | true =>
    have k0 := writeReg_step hk hn s (hd d.toNat (by simp [regsOf])) fun l => { readElem v s l d.toNat with full := false }
    obtain ⟨c, hc, hgc⟩ := k0.group g hg
    simp [regsOf] at hr
    rcases hr with rfl | rfl
    · have hbit := writeReg_flag _ hg hc h1 h2
      obtain ⟨b', hb', hcb⟩ := (writeReg_step hk hn _ (hd (d.toNat + 1) (by simp [regsOf])) _).group c hc
      simp only [↓reduceIte] at hb
      rw [hb] at hb'; cases hb'
      exact hcb.mono _ hbit
    · simp only [↓reduceIte] at hb
      exact writeReg_flag _ hc hb h1 h2

theorem markEmpty_fmode {v : View} {act : List Nat} (d : Reg) (pair : Bool) (s : State) (n : Nat) :
    ((markEmpty v act d pair s).strandAt n).fmode = (s.strandAt n).fmode := by
  unfold markEmpty
  cases pair
  · exact writeReg_fmode _ _ _ _
  · exact (writeReg_fmode _ _ _ _).trans (writeReg_fmode _ _ _ _)

/-- THE LAW of an instruction of long latency (R177). -/
theorem computeLater_law {s : State} {v : View} {g : Guard} {srcs : List Use} {d : Reg} {pair : Bool} {act : List Nat}
    {f : View → State → List Nat → Nat → LaneOut} (hv : s.view = some v) (hp : v.Placed s)
    (hi : v.Issues s g srcs [(d, pair)] act) {body : View → State → Body}
    (hbody : body v s = computeLater g srcs d pair f v s) : ComputesLater v s act srcs d pair (f v s act) (runBody s body) := by
  have hsub := issues_sublist hi
  have hk := Placed_keys hp hsub
  have hn : act.Nodup := (lanes_nodup v).sublist hsub
  have hlt : ∀ l ∈ act, l < 32 := fun l hl => lanes_lt (hsub.subset hl)
  have hst := standing_of hv hp hsub
  have hd := issues_dest hi (List.mem_singleton.2 rfl)
  let long : Nat → Long := fun l =>
    { core := v.core, dest := destOf v s act s.nextId l d pair, vals := wordsOf pair (f v s act l).val,
      poison := (f v s act l).poison || enabledPoison v.grid.hdr (f v s act l).flags }
  obtain ⟨m, hm, hm1, hm2⟩ := sendLongs long act s
  let s1 : State := { s with ex := { s.ex with longs := m }, nextId := s.nextId + act.length }
  have hb : body v s = .ok (popQueues v srcs (setFlags v act (fun l => (f v s act l).flags) (markEmpty v act d pair s1))) := by
    rw [hbody]; unfold computeLater; unfold View.Issues at hi; rw [hi]
    show Except.ok (popQueues v srcs (setFlags v act (fun l => (f v s act l).flags) (markEmpty v act d pair
      (act.foldl (fun s l => s.sendLong (long l)) s)))) = _
    rw [hm]
  have hv1 : s1.view = some v := hv
  have hst1 : Standing v s1 act := ⟨hst.grp, hst.live⟩
  have k1 := markEmpty_step hk hn s1 hd
  have k2 := setFlags_step (v := v) (act := act) (fun l => (f v s act l).flags) (markEmpty v act d pair s1)
  have hst2 := hst1.step k1
  have hlongs : (advance v (v.nextPc s) (popQueues v srcs (setFlags v act (fun l => (f v s act l).flags) (markEmpty v act d pair s1)))).idle.ex.longs = m := by
    rw [popQueues_eq]
    show (setFlags v act (fun l => (f v s act l).flags) (markEmpty v act d pair s1)).ex.longs = m
    rw [k2.ex, k1.ex]
  have hnext : (advance v (v.nextPc s) (popQueues v srcs (setFlags v act (fun l => (f v s act l).flags) (markEmpty v act d pair s1)))).idle.nextId
      = s.nextId + act.length := by
    rw [popQueues_eq]
    show (setFlags v act (fun l => (f v s act l).flags) (markEmpty v act d pair s1)).nextId = _
    rw [k2.nextId, k1.nextId]
  refine ⟨_, runBody_ok hv hb, ?_, ?_, ?_, ?_, ?_⟩
  · have hs1 : s.withLongs (advance v (v.nextPc s) (popQueues v srcs (setFlags v act (fun l => (f v s act l).flags)
        (markEmpty v act d pair s1)))).idle = s1 := by
      unfold State.withLongs; rw [hlongs, hnext]
    rw [hs1]
    refine RegisterFrame.of_step hv1 ((k1.trans k2).mono (by simp)) (issues_ok hi) ?_
    intro b hb r hr h1 h2
    obtain ⟨c, hc, _⟩ := k1.group _ (view_group hv1)
    obtain ⟨b', hb', hcb⟩ := k2.group c hc
    rw [hb] at hb'; cases hb'
    exact hcb.mono _ (markEmpty_flag hk hn hd (view_group hv1) hc r hr h1 h2)
  · intro n hn'
    exact ((markEmpty_emptied hk hn hlt hst1 hd n hn').step hst2 hlt k2 (by simp)).end_ srcs _
  · intro i hi'
    rw [hlongs]; exact hm1 i hi'
  · intro n hn'
    rw [hlongs]; exact hm2 n hn'
  · intro l hl
    rw [strandAt_end]
    obtain ⟨a, ha⟩ := hst1.live l hl
    obtain ⟨b, hb, hab⟩ := k1.own l hl a ha
    have h2 := setFlags_fmode (fun l => (f v s act l).flags) hk (markEmpty v act d pair s1) hl
    rw [hb] at h2
    have ha' : s.ex.strands.find (v.key l) = some a := ha
    rw [strandAt_of h2, strandAt_of ha']
    have : b.fmode = a.fmode := by
      have := markEmpty_fmode (v := v) (act := act) d pair s1 (v.key l)
      rwa [strandAt_of hb, strandAt_of ha] at this
    show b.fmode ||| _ = _
    rw [this]; rfl

end Sys2Proof.Machine
end

