-- ==== Sys2Proof/Laws/Encoding.lean ====
section
/-! SUPPORT. The fields of Table 2.3 packed into a word and read back. -/

namespace Sys2Proof

theorem extract_right {m n : Nat} (x : BitVec m) (y : BitVec n) (k w : Nat) (h : k + w ≤ n) :
    (x ++ y).extractLsb' k w = y.extractLsb' k w := by
  apply BitVec.eq_of_getLsbD_eq
  intro i hi
  simp only [BitVec.getLsbD_extractLsb', BitVec.getLsbD_append, hi, decide_true, Bool.true_and]
  rw [if_pos (by omega)]

theorem extract_left {m n : Nat} (x : BitVec m) (y : BitVec n) (k w : Nat) (h : n ≤ k) :
    (x ++ y).extractLsb' k w = x.extractLsb' (k - n) w := by
  apply BitVec.eq_of_getLsbD_eq
  intro i hi
  simp only [BitVec.getLsbD_extractLsb', BitVec.getLsbD_append, hi, decide_true, Bool.true_and]
  rw [if_neg (by omega)]
  congr 1; omega

theorem extract_all {n : Nat} (x : BitVec n) : x.extractLsb' 0 n = x := by
  apply BitVec.eq_of_getLsbD_eq
  intro i hi
  simp [hi]

theorem extract_self {m n : Nat} (x : BitVec m) (y : BitVec n) : (x ++ y).extractLsb' n m = x := by
  rw [extract_left x y n m (Nat.le_refl n), Nat.sub_self, extract_all]

theorem getLsb_right {m n : Nat} (x : BitVec m) (y : BitVec n) (k : Nat) (h : k < n) : (x ++ y).getLsbD k = y.getLsbD k := by
  rw [BitVec.getLsbD_append, if_pos h]

theorem getLsb_left {m n : Nat} (x : BitVec m) (y : BitVec n) (k : Nat) (h : n ≤ k) : (x ++ y).getLsbD k = x.getLsbD (k - n) := by
  rw [BitVec.getLsbD_append, if_neg (by omega)]

theorem bit_get (b : Bool) : (bit b).getLsbD 0 = b := by cases b <;> rfl

/-- Reading the fields of a packed word gives them back. -/
theorem unpack_pack (f : Fields) : unpack (pack f) = f := by
  obtain ⟨imm, mod, fslot, ty, r51, eac, eab, eaa, c, b, a, d, immf, gen, gsense, gpred, opc⟩ := f
  simp only [unpack, pack, Fields.mk.injEq]
  refine ⟨?_, ?_, ?_, ?_, ?_, ?_, ?_, ?_, ?_, ?_, ?_, ?_, ?_, ?_, ?_, ?_, ?_⟩ <;>
    (repeat first
      | rw [extract_right _ _ _ _ (by decide)]
      | rw [extract_left _ _ _ _ (by decide)]
      | rw [getLsb_right _ _ _ (by decide)]
      | rw [getLsb_left _ _ _ (by decide)]) <;>
    first
      | with_reducible exact extract_all _
      | with_reducible exact bit_get _

end Sys2Proof
end

