-- ==== Sys2Proof/Laws/Link.lean ====
section
/-! SUPPORT. What a port puts into a flit is what a receiver reads from it: the fields of the header, and a CRC that holds (R345). -/

namespace Sys2Proof.Machine

@[simp] theorem length_leBytes (n k : Nat) : (leBytes n k).length = k := by simp [leBytes]

theorem leBytes_succ (n k : Nat) : leBytes n (k + 1) = BitVec.ofNat 8 n :: leBytes (n / 256) k := by
  simp only [leBytes, List.range_succ_eq_map, List.map_cons, List.map_map, Nat.pow_zero, Nat.div_one]
  congr 1
  apply List.map_congr_left
  intro i _
  simp [Nat.pow_succ, Nat.div_div_eq_div_mul, Nat.mul_comm]

/-- The bytes of a number give it back, as far as they go. -/
theorem leNat_leBytes (k n : Nat) : leNat (leBytes n k) = n % 256 ^ k := by
  induction k generalizing n with
  | zero => simp [leBytes, leNat, Nat.mod_one]
  | succ k ih =>
    rw [leBytes_succ]
    show (BitVec.ofNat 8 n).toNat + 256 * leNat (leBytes (n / 256) k) = _
    rw [ih, BitVec.toNat_ofNat, show 256 ^ (k + 1) = 256 * 256 ^ k by rw [Nat.pow_succ, Nat.mul_comm], Nat.mod_mul]

/-- The 252 bytes of a flit before its CRC. -/
def flitHead (port seq kind credit : Nat) : List Byte :=
  leBytes seq 4 ++ leBytes kind 1 ++ leBytes credit 3 ++ (List.range 244).map fun i => Config.linkPayload ((port * 2 ^ 32 + seq % 2 ^ 32) * 256 + i)

theorem length_flitHead (port seq kind credit : Nat) : (flitHead port seq kind credit).length = 252 := by simp [flitHead]

theorem flitBytes_eq (port seq kind credit : Nat) :
    flitBytes port seq kind credit = flitHead port seq kind credit ++ leBytes (Config.linkCrc (flitHead port seq kind credit)).toNat 4 := rfl

/-- A flit as a port makes it: its header reads back, and its CRC holds. -/
theorem flit_fields (port seq kind credit : Nat) (f : Flit) (h : f.bytes = flitBytes port seq kind credit) :
    flitSeq f = seq % 2 ^ 32 ∧ flitKind f = kind % 256 ∧ flitCredit f = credit % 2 ^ 24 ∧ flitOk f = true := by
  have hl := length_flitHead port seq kind credit
  have hc : (Config.linkCrc (flitHead port seq kind credit)).toNat % 256 ^ 4 = (Config.linkCrc (flitHead port seq kind credit)).toNat :=
    Nat.mod_eq_of_lt (Config.linkCrc _).isLt
  refine ⟨?_, ?_, ?_, ?_⟩
  · rw [flitSeq, h, flitBytes_eq, flitHead]
    simp [leNat_leBytes]
  · rw [flitKind, h, flitBytes_eq, flitHead]
    simp [leNat_leBytes]
  · have hd : (leBytes seq 4).drop 5 = [] := List.drop_eq_nil_of_le (by simp)
    rw [flitCredit, h, flitBytes_eq, flitHead]
    simp [hd, leNat_leBytes, List.drop_append]
  · rw [flitOk, h, flitBytes_eq, List.drop_left' hl, List.take_left' hl, leNat_leBytes, hc]
    simp [hl]

end Sys2Proof.Machine
end

