-- ==== Sys2Proof/Laws/Memory.lean ====
section
/-! SUPPORT. Memory keeps its canonical form (State.Sound) under every operation of the memory system, and a byte that is written reads
back. -/

namespace Sys2Proof.Machine

/-! ### Bytes -/

/-- A byte reads as it was last written; every other reads as before. -/
@[simp] theorem Mem.byte_setByte (m : Mem) (a b : Nat) (x : Byte) : (m.setByte a x).byte b = if b = a then x else m.byte b := by
  exact AMap.get_set_at unlistedByte m.hbm a b x

/-- Bytes outside a written range read as before. -/
theorem Mem.byte_setBytes_outside (m : Mem) (a : Nat) (l : List Byte) (b : Nat) (h : b < a ∨ a + l.length ≤ b) :
    (m.setBytes a l).byte b = m.byte b := by
  induction l generalizing m a with
  | nil => rfl
  | cons x l ih =>
    simp only [List.length_cons] at h
    simp only [Mem.setBytes]
    rw [ih _ _ (by omega), Mem.byte_setByte, if_neg (by omega)]

/-- Written bytes read back. -/
theorem Mem.byte_setBytes_inside (m : Mem) (a i : Nat) (l : List Byte) (h : i < l.length) : (m.setBytes a l).byte (a + i) = l[i] := by
  induction l generalizing m a i with
  | nil => simp at h
  | cons x l ih =>
    simp only [Mem.setBytes]
    cases i with
    | zero =>
      rw [Mem.byte_setBytes_outside _ _ _ _ (.inl (by omega)), Mem.byte_setByte, if_pos (by omega)]; rfl
    | succ i =>
      rw [show a + (i + 1) = a + 1 + i by omega, ih _ _ _ (by simpa using h)]; rfl

/-- A byte write keeps the canonical form. -/
theorem Mem.wf_setByte {m : Mem} (h : Memory.wf m = true) (a : Nat) (b : Byte) : Memory.wf (m.setByte a b) = true :=
  AMap.wf_set_at (d := unlistedByte) h

/-- So does a write of several bytes. -/
theorem Mem.wf_setBytes {m : Mem} (h : Memory.wf m = true) (a : Nat) (l : List Byte) : Memory.wf (m.setBytes a l) = true := by
  induction l generalizing m a with
  | nil => exact h
  | cons b l ih => exact ih (Mem.wf_setByte h a b) _

@[simp] theorem Mem.setBytes_scratch (m : Mem) (a : Nat) (l : List Byte) : (m.setBytes a l).scratch = m.scratch := by
  induction l generalizing m a with
  | nil => rfl
  | cons b l ih => exact ih _ _

@[simp] theorem Mem.clearError_hbm (m : Mem) (l b : Nat) : (m.clearError l b).hbm = m.hbm := rfl
@[simp] theorem Mem.clearError_scratch (m : Mem) (l b : Nat) : (m.clearError l b).scratch = m.scratch := rfl
@[simp] theorem Mem.setMarkers_hbm (m : Mem) (st b : Nat) : (m.setMarkers st b).hbm = m.hbm := rfl
@[simp] theorem Mem.setMarkers_scratch (m : Mem) (st b : Nat) : (m.setMarkers st b).scratch = m.scratch := rfl
@[simp] theorem Mem.keepOwed_hbm (m : Mem) : m.keepOwed.hbm = m.hbm := rfl
@[simp] theorem Mem.keepOwed_scratch (m : Mem) : m.keepOwed.scratch = m.scratch := rfl
@[simp] theorem Mem.mend_hbm (m : Mem) (l b p : Nat) : (m.mend l b p).hbm = m.hbm := rfl
@[simp] theorem Mem.mend_scratch (m : Mem) (l b p : Nat) : (m.mend l b p).scratch = m.scratch := rfl

/-- Mending several units touches no stored byte and no scratchpad word. -/
theorem Mem.mends (l b : Nat) (ps : List Nat) (m : Mem) :
    (ps.foldl (fun m p => m.mend l b p) m).hbm = m.hbm ∧ (ps.foldl (fun m p => m.mend l b p) m).scratch = m.scratch := by
  induction ps generalizing m with
  | nil => exact ⟨rfl, rfl⟩
  | cons p ps ih => exact ih (m.mend l b p)

/-! ### What does not touch stored bytes or scratchpad words -/

/-- Soundness speaks of stored bytes and scratchpad words alone. -/
theorem State.Sound.of_mem {s t : State} (h : s.Sound) (h1 : t.mem.hbm = s.mem.hbm) (h2 : t.mem.scratch = s.mem.scratch) : t.Sound := by
  unfold State.Sound Memory.wf at *
  rw [h1, h2]; exact h

@[simp] theorem State.sound_modEx (s : State) (f : Exec → Exec) : (s.modEx f).Sound ↔ s.Sound := Iff.rfl
@[simp] theorem State.sound_modOrg (s : State) (f : Org → Org) : (s.modOrg f).Sound ↔ s.Sound := Iff.rfl
@[simp] theorem State.sound_modDev (s : State) (f : Device → Device) : (s.modDev f).Sound ↔ s.Sound := Iff.rfl
@[simp] theorem State.sound_free (s : State) : s.free.2.Sound ↔ s.Sound := Iff.rfl
@[simp] theorem State.sound_fresh (s : State) : s.fresh.2.Sound ↔ s.Sound := Iff.rfl
@[simp] theorem State.sound_freshes (s : State) (n : Nat) : (s.freshes n).2.Sound ↔ s.Sound := Iff.rfl
@[simp] theorem State.sound_idle (s : State) : s.idle.Sound ↔ s.Sound := Iff.rfl
@[simp] theorem State.sound_modGroup (s : State) (k : Nat) (f : Group → Group) : (s.modGroup k f).Sound ↔ s.Sound := Iff.rfl
@[simp] theorem State.sound_modStrand (s : State) (k : Nat) (f : Strand → Strand) : (s.modStrand k f).Sound ↔ s.Sound := Iff.rfl
@[simp] theorem State.sound_modTeam (s : State) (k : Nat) (f : Team → Team) : (s.modTeam k f).Sound ↔ s.Sound := Iff.rfl
@[simp] theorem State.sound_modCtx (s : State) (k : Nat) (f : Ctx → Ctx) : (s.modCtx k f).Sound ↔ s.Sound := Iff.rfl
@[simp] theorem State.sound_modPart (s : State) (k : Nat) (f : Partition → Partition) : (s.modPart k f).Sound ↔ s.Sound := Iff.rfl
@[simp] theorem State.sound_modGrid (s : State) (k : Nat) (f : Grid → Grid) : (s.modGrid k f).Sound ↔ s.Sound := Iff.rfl

/-- A change of memory that leaves both alone. -/
theorem State.sound_modMem {s : State} {f : Mem → Mem} (h1 : (f s.mem).hbm = s.mem.hbm) (h2 : (f s.mem).scratch = s.mem.scratch) :
    (s.modMem f).Sound ↔ s.Sound := ⟨fun h => h.of_mem h1.symm h2.symm, fun h => h.of_mem h1 h2⟩

theorem State.Sound.modMem {s : State} (h : s.Sound) (f : Mem → Mem) (h1 : (f s.mem).hbm = s.mem.hbm) (h2 : (f s.mem).scratch = s.mem.scratch) :
    (s.modMem f).Sound := h.of_mem h1 h2

/-- A fold of operations that keep soundness keeps it. -/
theorem State.Sound.foldl {α : Type} {f : State → α → State} (hf : ∀ s a, State.Sound s → (f s a).Sound) (l : List α) {s : State} (h : s.Sound) :
    (l.foldl f s).Sound := by
  induction l generalizing s with
  | nil => exact h
  | cons a l ih => exact ih (hf s a h)

/-! ### Error records and the base die -/

theorem State.Sound.ringAppend {s : State} (h : s.Sound) (n : Nat) (r : ErrRec) : (s.ringAppend n r).Sound := by
  unfold State.ringAppend
  dsimp only
  split
  · exact h
  · split <;> exact h

theorem State.Sound.writeRecordOf {s : State} (h : s.Sound) (n : Nat) (r : ErrRec) : (s.writeRecordOf n r).Sound := by
  unfold State.writeRecordOf
  dsimp only
  split
  · exact (h.ringAppend _ _).ringAppend _ _
  · exact h.ringAppend _ _

theorem State.Sound.writeRecord {s : State} (h : s.Sound) (r : ErrRec) : (s.writeRecord r).Sound := h.writeRecordOf _ r

theorem State.Sound.closeRecord {s : State} (h : s.Sound) (k : Nat) : (s.closeRecord k).Sound := by
  unfold State.closeRecord
  split
  · exact (h.writeRecord _).of_mem rfl rfl
  · exact h

theorem State.Sound.logError {s : State} (h : s.Sound) (r : ErrRec) : (s.logError r).Sound := by
  unfold State.logError
  dsimp only
  split
  · split
    · split
      · exact h
      · exact (h.closeRecord _).of_mem rfl rfl
    · exact h
  · exact (h.closeRecord _).writeRecord _

/-- Judging protected units changes only their errors and the records. -/
theorem State.Sound.judge {s : State} (h : s.Sound) (l a : Nat) (ps : List Nat) (r : SoftError → ErrRec) : (s.judge l a ps r).2.Sound := by
  unfold State.judge
  suffices hs : ∀ (b : Bool) (s : State), s.Sound → (ps.foldl (fun r' p => match r'.2.mem.errorOf l a p with
      | none => r'
      | some e => (r'.1 || !e.correctable, (if e.correctable then r'.2.modMem (·.mend l a p) else r'.2).logError (r e))) (b, s)).2.Sound from
    hs false s h
  induction ps with
  | nil => exact fun _ _ h => h
  | cons p ps ih =>
    intro b s h
    rw [List.foldl_cons]
    dsimp only
    split
    · exact ih _ _ h
    · refine ih _ _ (State.Sound.logError ?_ _)
      split
      · exact h.of_mem rfl rfl
      · exact h

theorem State.Sound.noteLate {s : State} (h : s.Sound) (b : Nat) : (s.noteLate b).Sound := by
  unfold State.noteLate
  split
  · exact h.of_mem rfl rfl
  · exact h

theorem State.Sound.hbmWrite {s : State} (h : s.Sound) (b : Nat) (bs : List Byte) (marked : Bool) : (s.hbmWrite b bs marked).Sound := by
  unfold State.hbmWrite
  have hm := Mem.mends 0 b (sectorsOf bs.length) s.mem
  have h0 : Memory.wf ((sectorsOf bs.length).foldl (fun m p => m.mend 0 b p) s.mem) = true := by
    unfold Memory.wf; rw [hm.1]; exact h.1
  have hw := Mem.wf_setBytes h0 (320 * b) bs
  constructor
  · dsimp only [State.modMem_mem]
    split <;> exact hw
  · have h2 := h.2
    dsimp only [State.modMem_mem]
    split
    · rw [Mem.setMarkers_scratch, Mem.setBytes_scratch, hm.2]; exact h2
    · rw [Mem.setBytes_scratch, hm.2]; exact h2

theorem State.Sound.charge {s : State} (h : s.Sound) (b n : Nat) : (s.charge b n).Sound := by
  unfold State.charge
  split
  · exact h
  · exact h

theorem State.Sound.mscJudge {s : State} (h : s.Sound) (b a c : Nat) (ps : List Nat := List.range 4) : (s.mscJudge b a c ps).Sound := by
  unfold State.mscJudge
  split
  · exact h
  · split
    · exact h
    · rename_i e _
      have hj := h.judge 1 b ((sectorsOf e.bytes.length).filter ps.contains) (s.blockRecord 1 b a c)
      revert hj
      generalize s.judge 1 b ((sectorsOf e.bytes.length).filter ps.contains) (s.blockRecord 1 b a c) = r
      intro hj
      dsimp only
      split
      · exact hj
      · exact hj.of_mem rfl rfl

theorem State.Sound.mscOut {s : State} (h : s.Sound) (k : Nat) : (s.mscOut k).Sound := by
  unfold State.mscOut
  split
  · exact h
  · rename_i v _
    have hj : (if v.dirty then s.mscJudge v.block 0 1 else s).Sound := by
      split
      · exact h.mscJudge _ _ _
      · exact h
    dsimp only
    generalize (if v.dirty then s.mscJudge v.block 0 1 else s) = u at hj ⊢
    refine State.Sound.modMem ?_ _ rfl rfl
    split
    · split
      · exact (hj.hbmWrite _ _ _).charge _ _
      · exact hj
    · exact hj

theorem State.Sound.mscInstall {s : State} (h : s.Sound) (e : MscEntry) : (s.mscInstall e).Sound := (h.mscOut _).modMem _ rfl rfl

theorem State.Sound.hbmRead {s : State} (h : s.Sound) (b n a c : Nat) : (s.hbmRead b n a c).2.Sound := by
  unfold State.hbmRead
  exact h.judge 0 b _ _

theorem State.Sound.baseRead {s : State} (h : s.Sound) (b a c : Nat) : (s.baseRead b a c).2.Sound := by
  have hj := h.mscJudge b a c
  unfold State.baseRead
  dsimp only
  split
  · refine State.Sound.of_mem (s := if _ then State.logError _ _ else _) ?_ rfl rfl
    split
    · exact hj.logError _
    · exact hj
  · exact ((hj.hbmRead _ _ _ _).charge _ _).mscInstall _

theorem State.Sound.metaJudge {s : State} (h : s.Sound) (b a c : Nat) (ps : List Nat := [0, 1]) : (s.metaJudge b a c ps).2.Sound := by
  have hj := h.judge 8 (b / 16) ps (s.blockRecord 8 b a c)
  unfold State.metaJudge
  dsimp only
  revert hj
  generalize s.judge 8 (b / 16) ps (s.blockRecord 8 b a c) = r
  intro hj
  split
  · exact hj.modMem _ rfl rfl
  · split
    · exact hj.logError _
    · exact hj

theorem State.Sound.baseWrite {s : State} (h : s.Sound) (b : Nat) (m : BitVec 4) (bs : List Byte) (marked : Bool) : (s.baseWrite b m bs marked).Sound := by
  unfold State.baseWrite
  dsimp only
  have hj : (if (s.mem.errors.any fun e => e.level == 8 && e.addr == b / 16) = true then (s.metaJudge b 0 1).2 else s).Sound := by
    split
    · exact h.metaJudge _ _ _
    · exact h
  revert hj
  generalize (if (s.mem.errors.any fun e => e.level == 8 && e.addr == b / 16) = true then (s.metaJudge b 0 1).2 else s) = t
  intro hj
  split
  · exact (hj.modMem _ rfl rfl).modMem _ rfl rfl
  · exact (hj.modMem _ rfl rfl).mscInstall _

/-- A scrub of a sector changes errors, records and marks. -/
theorem State.Sound.hbmScrub {s : State} (h : s.Sound) (b p : Nat) : (s.hbmScrub b p).Sound := by
  have hj := h.judge 0 b (s.mem.sectorEvents b [p]) (s.blockRecord 0 b 0 2)
  unfold State.hbmScrub
  dsimp only
  revert hj
  generalize s.judge 0 b (s.mem.sectorEvents b [p]) (s.blockRecord 0 b 0 2) = r
  intro hj
  split
  · exact hj
  · exact hj.modMem _ rfl rfl

/-! ### The home slices -/

theorem State.Sound.expandRead {s : State} (h : s.Sound) (b a c : Nat) (r : BlockRead) : (s.expandRead b a c r).2.Sound := by
  have hj := h.metaJudge b a c
  unfold State.expandRead
  dsimp only
  revert hj
  generalize s.metaJudge b a c = m
  intro hj
  split
  · exact hj
  · exact hj
  · exact State.Sound.logError hj _

theorem State.Sound.enqueueBase {s : State} (h : s.Sound) (b : Nat) (k : BaseKind) : (s.enqueueBase b k).Sound := h.of_mem rfl rfl

theorem State.Sound.l2Judge {s : State} (h : s.Sound) (b : Nat) (us : List Nat) (a c : Nat) : (s.l2Judge b us a c).Sound := by
  unfold State.l2Judge
  split
  · exact h
  · have hj := h.judge 2 b us (s.blockRecord 2 b a c)
    dsimp only
    revert hj
    generalize s.judge 2 b us (s.blockRecord 2 b a c) = r
    intro hj
    split
    · exact hj
    · refine State.Sound.of_mem hj ?_ ?_
      · dsimp only [State.modMem_mem]
        split
        · exact (Mem.mends 2 b us _).1
        · rfl
      · dsimp only [State.modMem_mem]
        split
        · exact (Mem.mends 2 b us _).2
        · rfl

theorem State.Sound.l2Evict {s : State} (h : s.Sound) (b : Nat) : (s.l2Evict b).Sound := by
  unfold State.l2Evict
  split
  · exact h
  · rename_i l _
    have hj : (if l.dirty then s.l2Judge b l2Units 0 1 else s).Sound := by
      split
      · exact h.l2Judge _ _ _ _
      · exact h
    dsimp only
    generalize (if l.dirty then s.l2Judge b l2Units 0 1 else s) = u at hj ⊢
    split
    · exact State.Sound.enqueueBase (s := u.modMem _) (hj.of_mem rfl rfl) _ _
    · exact hj.of_mem rfl rfl

theorem State.Sound.l2Install {s : State} (h : s.Sound) (b : Nat) (ws : List TWord) : (s.l2Install b ws).Sound := by
  unfold State.l2Install
  dsimp only
  rw [State.sound_modMem rfl rfl]
  repeat' split
  all_goals first
    | exact h
    | exact State.Sound.l2Evict (s := s.free.2) h _

theorem State.Sound.l2Fetch {s : State} (h : s.Sound) (b a c : Nat) : (s.l2Fetch b a c).Sound := by
  unfold State.l2Fetch
  have h1 := (h.noteLate b).baseRead b a c
  revert h1
  dsimp only
  generalize (s.noteLate b).baseRead b a c = r
  intro h1
  exact State.Sound.l2Install (State.Sound.expandRead h1 b a c r.1) b _

theorem State.Sound.performBase {s : State} (h : s.Sound) (id : Nat) : (s.performBase id).Sound := by
  unfold State.performBase
  split
  · exact h
  · dsimp only
    have h' : (s.modMem fun m => { m with base := m.base.del id }).Sound := h.of_mem rfl rfl
    split
    · split
      · exact h'
      · exact h'.l2Fetch _ _ _
    · exact h'.baseWrite _ _ _ _
    · exact State.Sound.foldl (fun _ p h => h.hbmScrub _ p) _ h'

theorem State.Sound.settleBase {s : State} (h : s.Sound) (b : Nat) : (s.settleBase b).Sound :=
  State.Sound.foldl (fun _ a h => h.performBase a) _ h

theorem State.Sound.setCompress {s : State} (h : s.Sound) (g : Nat) (on : Bool) : (s.setCompress g on).Sound := by
  unfold State.setCompress
  dsimp only
  have h' : (s.modMem fun m => { m with compress := AMap.set false m.compress g on }).Sound := h.of_mem rfl rfl
  split
  · exact h'
  · refine State.Sound.foldl (fun t b ht => ?_) _ h'
    have hs := ht.settleBase b
    split
    · exact hs
    · exact ((hs.baseRead _ _ _).expandRead _ _ _ _).baseWrite _ _ _ _

theorem State.Sound.l2Ensure {s : State} (h : s.Sound) (b a c : Nat) (us : List Nat) : (s.l2Ensure b a c us).Sound := by
  have hj := h.l2Judge b us a c
  unfold State.l2Ensure
  dsimp only
  split
  · exact h
  · split
    · exact hj
    · split
      · exact hj.settleBase _
      · exact (hj.settleBase _).l2Fetch _ _ _

theorem State.Sound.remoteRead {s : State} (h : s.Sound) (w : RWindow) (p : Nat) : (s.remoteRead w p).2.Sound := h.of_mem rfl rfl

theorem State.Sound.sliceRead {s : State} (h : s.Sound) (p a c : Nat) : (s.sliceRead p a c).2.Sound := by
  unfold State.sliceRead
  split
  · exact h.remoteRead _ _
  · exact h.l2Ensure _ _ _ _

theorem State.Sound.sliceWrite {s : State} (h : s.Sound) (p a : Nat) (t : TWord) (c : Nat) : (s.sliceWrite p a t c).Sound := by
  unfold State.sliceWrite
  split
  · exact h.of_mem rfl rfl
  · exact (h.l2Ensure (p / 256) a c [p % 256 / 8]).of_mem rfl rfl

theorem State.Sound.markBlock {s : State} (h : s.Sound) (b a : Nat) : (s.markBlock b a).Sound := (h.l2Ensure b a 0 []).of_mem rfl rfl

theorem State.Sound.sliceReads {s : State} (h : s.Sound) (p a n c : Nat) : (s.sliceReads p a n c).2.Sound := by
  induction n generalizing s p with
  | zero => exact h
  | succ n ih => exact ih (h.sliceRead p a c) (p + 4)

theorem State.Sound.sliceWrites {s : State} (h : s.Sound) (p a : Nat) (l : List TWord) : (s.sliceWrites p a l).Sound := by
  induction l generalizing s p with
  | nil => exact h
  | cons t l ih => exact ih (h.sliceWrite p a t 0) (p + 4)

/-! ### Translation -/

theorem State.Sound.readEntryAt {s : State} (h : s.Sound) (p : Nat) : (s.readEntryAt p).2.Sound := (h.sliceRead p 0 0).sliceRead (p + 4) 0 0

theorem State.Sound.walkStart {s : State} (h : s.Sound) (d : Nat) (b : Bool) (i a r : Nat) : (s.walkStart d b i a r).2.Sound := by
  unfold State.walkStart
  dsimp only
  split
  · exact h
  · split <;> exact h

theorem State.Sound.keepPartial {s : State} (h : s.Sound) (d : Nat) (p : PWalk) : (s.keepPartial d p).Sound := h.of_mem rfl rfl

theorem State.Sound.walk2 {s : State} (h : s.Sound) (d p : Nat) (g : List Nat) (i t : Nat) (ls : List Nat) : (s.walk2 d p g i t ls).2.Sound := by
  induction ls generalizing s t with
  | nil => exact h
  | cons l ls ih =>
    have hr := h.readEntryAt (t + 8 * (i / 2 ^ levelShift l % 512))
    simp only [State.walk2]
    split
    · exact hr
    · exact ih (hr.keepPartial _ _) _
    · split <;> exact hr

theorem State.Sound.walkIpa {s : State} (h : s.Sound) (d n : Nat) (p : Partition) (i : Nat) : (s.walkIpa d n p i).2.Sound :=
  (h.walkStart d true n i p.s2root).walk2 d n p.granules i _ _

theorem State.Sound.walk1 {s : State} (h : s.Sound) (d a n : Nat) (p : Partition) (va : Nat) (w : Word64) (r : BitVec 3) (t : Nat) (ls : List Nat) :
    (s.walk1 d a n p va w r t ls).2.Sound := by
  induction ls generalizing s t with
  | nil => exact h
  | cons l ls ih =>
    unfold State.walk1
    extract_lets ipa
    have h2 := h.walkIpa d n p ipa
    revert h2
    generalize s.walkIpa d n p ipa = r2
    obtain ⟨_ | f2, u⟩ := r2 <;> intro h2
    · exact h2
    · have h3 := State.Sound.readEntryAt h2 (f2.base + ipa % 2 ^ f2.size)
      revert h3
      dsimp only
      generalize u.readEntryAt (f2.base + ipa % 2 ^ f2.size) = r3
      intro h3
      split
      · exact h3
      · exact ih (State.Sound.keepPartial h3 _ _) _
      · rename_i f1 _
        split
        · exact h3
        · have h4 := State.Sound.walkIpa h3 d n p (f1.base + va % 2 ^ f1.size)
          revert h4
          generalize r3.2.walkIpa d n p (f1.base + va % 2 ^ f1.size) = r4
          obtain ⟨_ | f4, v⟩ := r4 <;> intro h4
          · exact h4
          · dsimp only
            split <;> exact h4

theorem State.Sound.tcacheAdd {s : State} (h : s.Sound) (c : Nat) (e : TEntry) : (s.tcacheAdd c e).Sound := by
  unfold State.tcacheAdd
  dsimp only
  split <;> exact h.of_mem rfl rfl

theorem State.Sound.walkFor {s : State} (h : s.Sound) (d a : Nat) (w : Word64) (r : BitVec 3) : (s.walkFor d a w r).2.Sound := by
  unfold State.walkFor
  split
  · exact h
  · split
    · exact h
    · split
      · exact h
      · rename_i c _ _ p _
        have h1 := h.walkStart d false a (va57 w) c.s1root
        revert h1
        dsimp only
        generalize s.walkStart d false a (va57 w) c.s1root = b
        intro h1
        have := State.Sound.walk1 h1 d a c.part p (va57 w) w r b.1.1 b.1.2
        split <;> (rename_i hz; rw [hz] at this; exact this)

theorem State.Sound.translate {s : State} (h : s.Sound) (c a : Nat) (w : Word64) (r : BitVec 3) : (s.translate c a w r).2.Sound := by
  unfold State.translate
  dsimp only
  split
  · exact h
  · split
    · exact h
    · have := h.walkFor (dieOfCache (cacheFor c w)) a w r
      split
      · rename_i hz; rw [hz] at this; exact this
      · rename_i hz; rw [hz] at this; exact State.Sound.tcacheAdd this _ _

theorem State.Sound.readVa {s : State} (h : s.Sound) (c a : Nat) (w : Word64) (r : BitVec 3) (n k : Nat) : (s.readVa c a w r n k).2.Sound := by
  induction n generalizing s w with
  | zero => exact h
  | succ n ih =>
    simp only [State.readVa]
    have ht := h.translate c a w r
    split
    · rename_i hz; rw [hz] at ht; exact ht
    · rename_i e u hz
      rw [hz] at ht
      have := ih (State.Sound.sliceRead ht (e.paOf (va57 w)) a k) (w + 4)
      split <;> (rename_i hy; rw [hy] at this; exact this)

theorem State.Sound.writeVa {s : State} (h : s.Sound) (c a : Nat) (w : Word64) (l : List TWord) (r : BitVec 3) : (s.writeVa c a w l r).2.Sound := by
  induction l generalizing s w with
  | nil => exact h
  | cons t l ih =>
    simp only [State.writeVa]
    have ht := h.translate c a w r
    split
    · rename_i hz; rw [hz] at ht; exact ht
    · rename_i hz; rw [hz] at ht; exact ih (State.Sound.sliceWrite ht _ _ _ _) _

/-! ### The L1 data cache -/

theorem State.Sound.l1Judge {s : State} (h : s.Sound) (k : Nat) (us : List Nat) (c : Nat) : (s.l1Judge k us c).Sound := by
  unfold State.l1Judge
  split
  · exact h
  · rename_i l _
    have hj := h.judge 3 k us fun e => s.coreRecord 3 (k / 2048) (k % 2048 * 32 + 2 * e.part) l.asid c e
    dsimp only
    revert hj
    generalize s.judge 3 k us (fun e => s.coreRecord 3 (k / 2048) (k % 2048 * 32 + 2 * e.part) l.asid c e) = r
    intro hj
    split
    · exact hj
    · split
      · exact hj.of_mem rfl rfl
      · refine State.Sound.markBlock ?_ _ _
        exact State.Sound.of_mem hj (Mem.mends 3 k us _).1 (Mem.mends 3 k us _).2

theorem State.Sound.l1Send {s : State} (h : s.Sound) (k : Nat) : (s.l1Send k).Sound := by
  unfold State.l1Send
  split
  · exact h
  · dsimp only
    have hj := h.l1Judge k l1AllUnits 1
    revert hj
    generalize s.l1Judge k l1AllUnits 1 = u
    intro hj
    refine State.Sound.modMem ?_ _ rfl rfl
    exact State.Sound.foldl (fun t i ht => by
      split
      · exact ht.sliceWrite _ _ _ _
      · exact ht) _ hj

theorem State.Sound.l1Out {s : State} (h : s.Sound) (k : Nat) : (s.l1Out k).Sound := (h.l1Send k).modMem _ rfl rfl

theorem State.Sound.l1WriteBack {s : State} (h : s.Sound) (k : Nat) : (s.l1WriteBack k).Sound :=
  State.Sound.l1Send (State.Sound.foldl (fun _ k h => h.l1Out k) _ h) k

theorem State.Sound.l1Evict {s : State} (h : s.Sound) (k : Nat) : (s.l1Evict k).Sound :=
  State.Sound.l1Out (State.Sound.foldl (fun _ k h => h.l1Out k) _ h) k

theorem State.Sound.l1WriteBackAll {s : State} (h : s.Sound) (c a : Nat) : (s.l1WriteBackAll c a).Sound :=
  State.Sound.foldl (fun _ k h => h.l1Send k) _ h

theorem State.Sound.payAt {s : State} (h : s.Sound) (p : Nat) : (s.payAt p).Sound := by
  unfold State.payAt
  split
  · exact h
  · refine State.Sound.modMem (State.Sound.foldl (fun t o ht => ?_) _ h) _ rfl rfl
    split
    · split
      · exact ht.l1Evict _
      · exact ht
    · exact ht

theorem State.Sound.payFrom {s : State} (h : s.Sound) (p n : Nat) : (s.payFrom p n).Sound := by
  unfold State.payFrom
  split
  · exact h
  · exact State.Sound.foldl (fun _ i h => h.payAt _) _ h

theorem State.Sound.l1SweepKeys {s : State} (h : s.Sound) (ks : List Nat) : (s.l1SweepKeys ks).Sound := h.of_mem rfl rfl

theorem State.Sound.l1Sweep {s : State} (h : s.Sound) (c a : Nat) : (s.l1Sweep c a).Sound := h.of_mem rfl rfl

theorem State.Sound.l1Discard {s : State} (h : s.Sound) (lo n : Nat) : (s.l1Discard lo n).Sound := h.of_mem rfl rfl

theorem State.Sound.l1FillAt {s : State} (h : s.Sound) (k : Nat) (e : TEntry) (c : Nat) : (s.l1FillAt k e c).Sound := by
  unfold State.l1FillAt
  split
  · exact h
  · rename_i l _
    have h' := h.sliceReads (e.paOf l.va) l.asid 32 c
    dsimp only
    revert h'
    generalize s.sliceReads (e.paOf l.va) l.asid 32 c = r
    exact fun h' => h'.modMem _ rfl rfl

/-! ### The scratchpad -/

/-- A word reads as it was last written; every other reads as before. -/
theorem State.scratchRead_write (s : State) (c b d e : Nat) (t : TWord) :
    (s.scratchWrite c b t).scratchRead d e = if scratchKey d e = scratchKey c b then t else s.scratchRead d e := by
  simp [State.scratchWrite, State.scratchRead]

theorem State.Sound.scratchWrite {s : State} (h : s.Sound) (c b : Nat) (t : TWord) : (s.scratchWrite c b t).Sound := ⟨h.1, AMap.wf_set h.2⟩

theorem State.Sound.scratchJudge {s : State} (h : s.Sound) (c b a k : Nat) : (s.scratchJudge c b a k).Sound := by
  unfold State.scratchJudge
  have hj := h.judge 5 (scratchKey c b / 2) [0] (s.coreRecord 5 c (2 * (scratchKey c b / 2) % 98304) a k)
  dsimp only
  revert hj
  generalize s.judge 5 (scratchKey c b / 2) [0] (s.coreRecord 5 c (2 * (scratchKey c b / 2) % 98304) a k) = r
  intro hj
  split
  · exact hj
  · exact ⟨hj.1, AMap.wf_set (AMap.wf_set hj.2)⟩

theorem State.Sound.scratchStore {s : State} (h : s.Sound) (c b : Nat) (t : TWord) (a : Nat) : (s.scratchStore c b t a).Sound :=
  (h.scratchJudge c b a 0).scratchWrite c b t

theorem State.Sound.clearScratch {s : State} (h : s.Sound) (c b n : Nat) : (s.clearScratch c b n).Sound := by
  refine ⟨h.1, ?_⟩
  have h2 := h.2
  simp only [AMap.wf, Bool.and_eq_true, List.all_eq_true] at h2 ⊢
  exact ⟨AMap.sorted_filter _ h2.1, fun e he => h2.2 e (List.mem_filter.1 he).1⟩

/-- The machine right after reset has it. -/
theorem State.reset_sound : State.reset.Sound := ⟨rfl, rfl⟩

end Sys2Proof.Machine
end

