-- ==== Sys2Proof/Tests/Slice0.lean ====
section
/-! SUPPORT. The model's own tests: ill-formed terms that WellFormed refuses, words that decode to what they stand for, states that meet the
hypotheses of each statement, and single steps with results worked out by hand from the spec. -/

namespace Sys2Proof.Tests

open Sys2Proof.Machine Sys2Proof.Claim

set_option Elab.async false

/-! ### Terms -/

def r (n : BitVec 8) : Src := { reg := n, ea := false }
def fa (t : OpType) (d a : BitVec 8) : FA := { g := .always, ty := t, d := d, a := r a }
def ab (t : OpType) (d a b : BitVec 8) : FAB := { g := .always, ty := t, d := d, a := r a, b := .reg (r b) }
def abi (t : OpType) (d a : BitVec 8) (i : Word) : FAB := { g := .always, ty := t, d := d, a := r a, b := .imm i }
def abc (t : OpType) (d a b c : BitVec 8) : FABC := { g := .always, ty := t, d := d, a := r a, b := .reg (r b), c := r c }
def far (t : OpType) (d a : BitVec 8) (rm : Rounding) : FAR := { g := .always, ty := t, d := d, a := r a, rm := rm }
def abr (t : OpType) (d a b : BitVec 8) (rm : Rounding) (sat : Bool) : FABR :=
  { g := .always, ty := t, d := d, a := r a, b := .reg (r b), rm := rm, sat := sat }
def cmp (t : OpType) (c : Cond) : FCmp := { g := .always, ty := t, p := 1, a := r 4, b := .reg (r 5), cond := c }
def fx (t : OpType) : FX := { g := .always, ty := t, d := 12, a := r 4, b := .reg (r 5), p := some 1 }
def red (t : OpType) (op : RedOp) (rm : Rounding) : FRed := { g := .always, ty := t, d := 12, a := r 4, op := op, rm := rm }
def mem (t : OpType) (sp : Space) (sc : Scope) (o : Order) : FMem :=
  { g := .always, ty := t, space := sp, scope := sc, order := o, hint := .normal, a := r 8, off := 0 }
def at_ (t : OpType) (op : AtomOp) (sp : Space) (sc : Scope) (o : Order) : FAtom :=
  { g := .always, ty := t, space := sp, op := op, scope := sc, order := o, a := r 8, b := r 4, off := 0 }
def aw (n : BitVec 8) : Await := { a := n, b := 0, c := 0, d := 0 }

/-! ### Ill-formed terms, one for each check of WellFormed -/

/-- Types (R35). -/
theorem test_wf_types :
    ([.mov { g := .always, ty := .slot, d := 1, b := .imm 0 }, .sel (ab .slot 1 2 3) 0, .add (ab .f32 1 2 3), .neg (fa .s64 1 2), .abs (fa .z32 1 2),
      .mad (abc .s8 1 2 3 4), .bfi (abc .f32 1 2 3 4), .dot4 (abc .s32 1 2 3 4) false, .bsel (abc .s32 1 2 3 4), .add64 (ab .s32 2 4 6), .lea (ab .z64 2 4 6) 0,
      .isetp (cmp .f32 .eq), .isetp (cmp .s32 .num), .fadd (abr .s32 1 2 3 .rn false), .ffma (abr .z32 1 2 3 .rn false) (r 4), .fmin (ab .s32 1 2 3), .fabs (fa .slot 1 2),
      .fsetp (cmp .f16x2 .lt), .fclass (fa .bf16x2 1 2), .frnd (far .f16x2 1 2 .rn), .fscale (abr .f16x2 1 2 3 .rn false), .fdiv (abr .f16x2 1 2 3 .rn false),
      .fexp2 (fa .bf16 1 2), .pack2 (abr .f16 1 2 3 .rn false), .shfl (fx .f16) .at, .redl (red .f64 .add .rn), .kin (fa .s8 1 2) none false, .ld (mem .slot .g .plain .plain) 1,
      .st (mem .slot .g .plain .plain) (r 1), .atom (at_ .f32 .and .g .plain .plain) 1, .red (at_ .f64 .xor .g .plain .plain), .qld (mem .s64 .g .plain .plain) 0 (r 1),
      .mload { g := .always, tile := 0, ty := .f16, slot := 0, a := r 4 }] : List Instr).all (fun i => !WellFormed i) = true := by
  decide

/-- Every other field: sub-fields, reserved bits, registers that name predicates, scopes and orders. -/
theorem test_wf_fields :
    ([.fdiv (abr .f32 1 2 3 .rn true), .pclr .always .pred 16, .ptst .always .pred 1 (r 16), .ptst .always .pred 1 { reg := 1, ea := true },
      .cvt (far .f16x2 1 2 .rn) .f32 false 0, .cvt (far .f32 1 2 .rn) .bf16x2 false 0, .cvt (far .slot 1 2 .rn) .slot false 0, .cvt (far .slot 1 2 .rz) .f32 false 0,
      .cvt (far .slot 1 2 .rn) .f32 true 0, .cvt (far .f16 1 2 .rn) .f32 false 1, .poll .always .every 16 0, .redl (red .f32 .and .rn), .redl (red .s32 .add .rz),
      .redl (red .f32 .max .rz), .kin (fa .s32 1 2) none true, .movs { g := .always, d := 1 } 17, .movsw { g := .always, a := r 1 } 29, .ld (mem .s32 .g .dev .rel) 1,
      .ld (mem .s32 .g .plain .acq) 1, .ld (mem .s32 .s .dev .plain) 1, .st (mem .s32 .g .dev .acq) (r 1), .atom (at_ .s32 .add .g .plain .ar) 1, .red (at_ .s32 .add .g .dev .acq),
      .red (at_ .s32 .exch .g .plain .plain), .red (at_ .s32 .cas .g .plain .plain), .pref .always .s .normal (r 1) 0, .qld (mem .s32 .s .plain .plain) 0 (r 1),
      .qld (mem .s32 .g .dev .plain) 0 (r 1), .mstore { g := .always, tile := 0, ty := .f32, slot := 1, a := r 4 }, .fence .always .plain .rel, .fence .always .dev .plain,
      .swi .always true 0 1] : List Instr).all (fun i => !WellFormed i) = true := by
  decide

/-! ### Words of every native instruction -/

/-- Class 0 (Tables 2.3, 2.9 and 10.2; LEA, ISETP, MOV, XOR, SHL, SEL, SHR, MUL, SUB and MIN as Table 10.10 and the listings print them). -/
theorem test_decode_integer :
    [(0x000000000000000000000001, .nop),
     (0x0000000800100000000D8002, .mov { g := .always, ty := .z32, d := 13, b := .imm 8 }),
     (0xFFFFFFFF001001002B298003, .sel { g := .always, ty := .z32, d := 41, a := r 43, b := .imm 0xFFFFFFFF } 1),
     (0x000000000000000706050004, .add (ab .s32 5 6 7)),
     (0x00078000000000001F1F8005, .sub { g := .always, ty := .s32, d := 31, a := r 31, b := .imm 491520 }),
     (0x000000000010000706050006, .adds (ab .z32 5 6 7)),
     (0x000000000000000006050007, .neg (fa .s32 5 6)),
     (0x0000000000000009080E0008, .mul (ab .s32 14 8 9)),
     (0x000000000010000706050009, .mulh (ab .z32 5 6 7)),
     (0x00000000000008070605000A, .mad (abc .s32 5 6 7 8)),
     (0x0000000040A008070605000B, .dot4 (abc .s8 5 6 7 8) true),
     (0x00000000000000070605000C, .div (ab .s32 5 6 7)),
     (0x00000000001000070605000D, .rem (ab .z32 5 6 7)),
     (0x0000FFFF000000001F1F800E, .min { g := .always, ty := .s32, d := 31, a := r 31, b := .imm 65535 }),
     (0x00000000000000070605000F, .max (ab .s32 5 6 7)),
     (0x000000000000000006050010, .abs (fa .s32 5 6)),
     (0x000000000010000706050011, .and (ab .z32 5 6 7)),
     (0x000000000010000706050012, .or (ab .z32 5 6 7)),
     (0x0000002000100000040E8013, .xor { g := .always, ty := .z32, d := 14, a := r 4, b := .imm 32 }),
     (0x000000000010000706050014, .andn (ab .z32 5 6 7)),
     (0x000000000010000006050015, .not (fa .z32 5 6)),
     (0x000000020010000004058016, .shl { g := .always, ty := .z32, d := 5, a := r 4, b := .imm 2 }),
     (0x00000005001000000C0D8017, .shr { g := .always, ty := .z32, d := 13, a := r 12, b := .imm 5 }),
     (0x000000000000000706050018, .sar (ab .s32 5 6 7)),
     (0x000000000010000706050019, .rol (ab .z32 5 6 7)),
     (0x00000000001000070605001A, .bfx (ab .z32 5 6 7)),
     (0x00000000001008070605001B, .bfi (abc .z32 5 6 7 8)),
     (0x00000000001000000605001C, .popc (fa .z32 5 6)),
     (0x00000000001000000605001D, .clz (fa .z32 5 6)),
     (0x00000000001000000605001E, .ctz (fa .z32 5 6)),
     (0x00000000001000000605001F, .brev (fa .z32 5 6)),
     (0x000000000020000A08060020, .add64 (ab .s64 6 8 10)),
     (0x000000000030000A08060021, .sub64 (ab .z64 6 8 10)),
     (0x0000000020100004020A0022, .lea (ab .z32 10 2 4) 4),
     (0x000000081010000004018023, .isetp { g := .always, ty := .z32, p := 1, a := r 4, b := .imm 8, cond := .lt }),
     (0x000000000010080706050024, .bsel (abc .z32 5 6 7 8))].all (fun e => decodeTableWord 96 e.1 == some e.2) = true := by
  decide +kernel

/-- Class 1 (Table 10.5, R36, R37, R191; FFMA, PCLR and PTST as Table 10.10 prints them, FSETP, FMUL and FRSQ as the listings do). -/
theorem test_decode_float :
    [(0x000000004840000706050040, .fadd (abr .f32 5 6 7 .rz true)),
     (0x000000002880000706050041, .fsub (abr .f16x2 5 6 7 .rdyn false)),
     (0x000000000040000B09090042, .fmul (abr .f32 9 9 11 .rn false)),
     (0x000000000040070605040043, .ffma (abr .f32 4 5 6 .rn false) (r 7)),
     (0x000000000050000A08060044, .fmin (ab .f64 6 8 10)),
     (0x000000000040000706050045, .fmax (ab .f32 5 6 7)),
     (0x000000000070000706050046, .fminm (ab .bf16 5 6 7)),
     (0x000000000040000706050047, .fmaxm (ab .f32 5 6 7)),
     (0x000000000090000006050048, .fabs (fa .bf16x2 5 6)),
     (0x000000000040000006050049, .fneg (fa .f32 5 6)),
     (0x000000001040000C0902004A, .fsetp { g := .always, ty := .f32, p := 2, a := r 9, b := .reg (r 12), cond := .lt }),
     (0x00000000004000000605004B, .fclass (fa .f32 5 6)),
     (0x00000000204000000605004C, .frnd (far .f32 5 6 .rna)),
     (0x00000000586000070605004D, .fscale (abr .f16 5 6 7 .ru true)),
     (0x000000001050000A0806004E, .fdiv (abr .f64 6 8 10 .rd false)),
     (0x00000000004000000605004F, .fsqrt (far .f32 5 6 .rn)),
     (0x000000000840000006050050, .frcp (far .f32 5 6 .rz)),
     (0x000000000040000014150051, .frsq (far .f32 21 20 .rn)),
     (0x000000000040000006050052, .fexp2 (fa .f32 5 6)),
     (0x000000000060000006050053, .flog2 (fa .f16 5 6)),
     (0x000000000040000006050054, .fsin (fa .f32 5 6)),
     (0x000000000040000006050055, .fcos (fa .f32 5 6)),
     (0x000000000040000006050056, .ftanh (fa .f32 5 6)),
     (0x000000000000000000050057, .pclr .always .reg 5),
     (0x000000000000000005010058, .ptst .always .reg 1 (r 5)),
     (0x000000001000000003010058, .ptst .always .pred 1 (r 3))].all (fun e => decodeTableWord 96 e.1 == some e.2) = true := by
  decide +kernel

/-- Classes 2 and 3 (R170 to R173, R195 to R199, R134, R135; the words that the spec prints for CVT, TFPK, TFUNPK, PACK2, SLOTQ, SHFL, POLL, REDL, SCANL, PLOP, MOVS and MOVSW). -/
theorem test_decode_lanes :
    [(0x000000004800040004060080, .cvt (far .s32 6 4 .rz) .f32 true 0),
     (0x000000000AE0090706090081, .tfpk .always 2 true 9 (r 6) (r 7) (r 9)),
     (0x0000000002E00000090A0082, .tfunpk .always 2 false 10 (r 9)),
     (0x000000000090000504070083, .pack2 (abr .bf16x2 7 4 5 .rn false)),
     (0x0000000002E0000000080084, .slotq .always 2 8),
     (0x0000001018100000050680C0, .shfl { g := .always, ty := .z32, d := 6, a := r 5, b := .imm 16, p := none } .flip),
     (0x0000000000401307060500C1, .shflr { g := .always, ty := .f32, d := 5, a := r 6, b := .reg (r 7), p := some 3 }),
     (0x0000000000200007080600C2, .xput { g := .always, ty := .s64, d := 6, a := r 8, b := .reg (r 7), p := none }),
     (0x0000000018000000020B00C3, .poll .always .mask 11 2),
     (0x0000000000100000040862C4, .redl { g := .when 1 true, ty := .z32, d := 8, a := r 4, op := .add, rm := .rn }),
     (0x0000000000100800040700C5, .scanl { g := .always, ty := .z32, d := 7, a := r 4, op := .add, rm := .rn } true),
     (0x0000000000103200060500C6, .kin (fa .z32 5 6) (some 2) true),
     (0x0000008000000002010300C7, .plop .always 3 1 2 0 0x80),
     (0x0000000000000000000500C8, .pget { g := .always, d := 5 }),
     (0x0000FFF000000000060000C9, .pput { g := .always, a := r 6 } 0xFFF0),
     (0x0000000100000000000400CA, .movs { g := .always, d := 4 } 1),
     (0x0000000C00000000090000CB, .movsw { g := .always, a := r 9 } 12)].all (fun e => decodeTableWord 96 e.1 == some e.2) = true := by
  decide +kernel

/-- Class 4 (R113, R120, R124, R125, R138, R150; the words that the spec prints). -/
theorem test_decode_memory :
    [(0x000000000040000006080100, .ld { g := .always, ty := .f32, space := .g, scope := .plain, order := .plain, hint := .normal, a := r 6, off := 0 } 8),
     (0x000000100040000906000101, .st { g := .always, ty := .f32, space := .g, scope := .plain, order := .plain, hint := .normal, a := r 6, off := 16 } (r 9)),
     (0x0000000000001B0906080102, .atom { g := .always, ty := .s32, space := .g, op := .add, scope := .dev, order := .ar, a := r 6, b := r 9, off := 0 } 8),
     (0x00000000E010030A06080102, .atom { g := .always, ty := .z32, space := .g, op := .cas, scope := .dev, order := .plain, a := r 6, b := r 10, off := 0 } 8),
     (0x0000004010000315F8000103, .red { g := .always, ty := .s32, space := .f, op := .add, scope := .dev, order := .plain, a := r 0xF8, b := r 21, off := 0x40 }),
     (0x000001000000400006000104, .pref .always .g .keep (r 6) 256),
     (0x0000004010000000F80C0105, .faddr { g := .always, d := 12, a := r 0xF8 } 0x40),
     (0x000000000000000806000106, .cwb { g := .always, a := r 6, b := r 8, off := 0 }),
     (0x000000000000000806000107, .cinv { g := .always, a := r 6, b := r 8, off := 0 }),
     (0x000000800040000906030108, .qld { g := .always, ty := .f32, space := .g, scope := .plain, order := .plain, hint := .normal, a := r 6, off := 128 } 3 (r 9))].all (fun e => decodeTableWord 96 e.1 == some e.2) = true := by
  decide +kernel

/-- Class 5 (R90, R95, R97, R99, R152 to R154, R220 to R229; the words that the spec prints). -/
theorem test_decode_engines :
    [(0x000000000000100C0A000140, .copy .always .gs (r 10) (r 12) (r 16)),
     (0x000000001000100C0A000140, .copy .always .gg (r 10) (r 12) (r 16)),
     (0x000000000000000000140141, .seal { g := .always, d := 20 }),
     (0x000000000000000014000142, .cwait { g := .always, a := r 20 }),
     (0x000000000000000014000143, .sleepto { g := .always, a := r 20 }),
     (0x000000000030000014160144, .cstat { g := .always, d := 22, a := r 20 } true),
     (0x000000000000000C0A000148, .pgo .always (r 10) (r 12)),
     (0x000000000800000000000149, .pstop .always true),
     (0x00000000003000000916014A, .qstat { g := .always, d := 22, a := r 9 } true),
     (0x000000000000000000140150, .sabind { g := .always, d := 20 }),
     (0x000000000000000000000151, .safree .always),
     (0x0000000000000D0C0A000152, .saload .always (r 10) (some (r 12, r 13))),
     (0x00000000080000000E000152, .saload .always (r 14) none),
     (0x000000000000000010000153, .saseed { g := .always, a := r 16 } false),
     (0x000000000800131211000154, .saclamp .always (r 17) (r 18) (some (r 19))),
     (0x000000000800001716150155, .sasweep .always true 21 (r 22) (r 23)),
     (0x000000000000000019180156, .saread { g := .always, d := 24, a := r 25 }),
     (0x00000000080000001B1A0157, .sacnt { g := .always, d := 26, a := r 27 } true),
     (0x0000000000300000001A0158, .sastat { g := .always, d := 26 } true)].all (fun e => decodeTableWord 96 e.1 == some e.2) = true := by
  decide +kernel

/-- Class 6 (R205, R211; the words that the spec prints). -/
theorem test_decode_matrix :
    [(0x0000000403E01E2C28010180, .mma .always 1 3 4 (r 40) (r 44) (r 30)),
     (0x000000000000000000000181, .mzero .always 0),
     (0x000000000040000030010182, .mload { g := .always, tile := 1, ty := .f32, slot := 0, a := r 48 }),
     (0x0000000002E0000030000183, .mstore { g := .always, tile := 0, ty := .slot, slot := 2, a := r 48 }),
     (0x000000000000000C05000184, .mmov .always 0 (r 5) 12),
     (0x0000000002E01E0028000185, .mpin .always 2 (r 40) (r 30)),
     (0x0000000002E01E0028000186, .munpin .always 2 (r 40) (r 30)),
     (0x000000000000000000000187, .mrel .always 0),
     (0x000000000000000402000188, .msave .always 0 (r 2) (r 4)),
     (0x000000000000000402000189, .mrest .always 0 (r 2) (r 4))].all (fun e => decodeTableWord 96 e.1 == some e.2) = true := by
  decide +kernel

/-- Class 7, trailers (R43, R258; the words that the spec prints; CALLX from Tables 2.3 and 2.9). -/
theorem test_decode_trailers :
    [(0x0000000000000000080001C0, .trail { g := .always, aw := aw 8 }),
     (0x0000000000000000000065C1, .br { g := .when 2 true, tgt := 0, aw := aw 0 }),
     (0x0000000000000000000A01C2, .brx { g := .always, d := 10, aw := aw 0 }),
     (0x0000001100000000090001C3, .call { g := .always, tgt := 0x11, aw := aw 9 }),
     (0x0400000000000302010A01C4, .callx { g := .always, d := 10, aw := { a := 1, b := 2, c := 3, d := 4 } }),
     (0x0000000000000000000001C5, .ret { g := .always, aw := aw 0 }),
     (0x000FFFE800000000090001C6, .reform { g := .always, tgt := 0xFFFE8, aw := aw 9 }),
     (0x0000000000000000000001C7, .exit (aw 0)),
     (0x0000000300000000000001C8, .lend { g := .always, tgt := 3, aw := aw 0 }),
     (0x000003E800000000000301C9, .joinw .always 3 1000 (aw 0)),
     (0x0000000000000000000001CA, .bar (aw 0)),
     (0x0000000000000000000C63CB, .mwait { g := .when 1 true, d := 12, tmo := 0, aw := aw 0 }),
     (0x0000000000000000080001CC, .rte (aw 8)),
     (0x0000000000000000000401CD, .sleep { g := .always, d := 4, aw := aw 0 }),
     (0x000003E800000000000C01CE, .gwait { g := .always, d := 12, tmo := 1000, aw := aw 0 })].all (fun e => decodeTableWord 96 e.1 == some e.2) = true := by
  decide +kernel

/-- Class 7, others (R264, R273, R275, R241, R292, R293, R326, R338, R75, R323, R324; the words that the spec prints; ICINV from Tables 2.3 and 2.9). -/
theorem test_decode_system :
    [(0x00000008000000000D0001D0, .loop .always (r 13) 8),
     (0x0000000800000000151401D1, .spawn .always 20 (r 21) 8),
     (0x0000000000000000181A01D2, .launch { g := .always, d := 26, a := r 24 }),
     (0x0000000000001200000001D3, .fence .always .core .rel),
     (0x0000000000001C00000001D3, .fence .always .part .ar),
     (0x0000000700000000000065D4, .trap (.when 2 true) 7),
     (0x000000A300000000000001D5, .swi .always false 3 5),
     (0x0000000008000000000001D5, .swi .always true 0 0),
     (0x0000000600000000001001D6, .featq .always 16 6),
     (0x0000000000000006040001D7, .icinv .always (.range (r 4) (r 6))),
     (0x0000000008000000000001D7, .icinv .always .all),
     (0x0000000000000706040001D8, .tlbinv .always (.va (r 4) (r 6) (r 7))),
     (0x0000000008000700000001D8, .tlbinv .always (.asid (r 7))),
     (0x000000000800000A080001D9, .gsig .always true (r 8) (r 10)),
     (0x0000000000000000080E01DB, .gread { g := .always, d := 14, a := r 8 })].all (fun e => decodeTableWord 96 e.1 == some e.2) = true := by
  decide +kernel
/-! ### A small machine -/

def hdr : KHeader := { regs := 192, level := 1, capacity := 64, scratchb := 4096, execent := 0x10000, trapent := 0x20000, pilotent := 0x20000 }
/-- Slots 0 to 3 hold tapered8, tapered6, s8 and f16 (Table 9.8). -/
def grid : Grid :=
  { num := 1, asid := 1, part := 0, queue := 0, record := 0, khdr := 0, hdr := hdr, teams := 1, strands := 2, slots := [3, 4, 5, 1, 0, 0, 0, 0], cword := 0,
    display := [0x400000, 0x500000], fsizes := [4096, 4096], dispatched := 1 }
def team : Team := { grid := 1, num := 0, core := 0, ready := true, trapent := 0x20000 }
def entry : TEntry := { asid := 1, part := 0, vpage := 0, size := 30, pa := 0, rights := 7, mt := 0, ipa := 0, ipaSize := 30 }
/-- x4 is 4 times the lane, x8:x9 a global address, x16 to x19 a copy descriptor of 32 bytes, x20:x21 the address 0x20000. -/
def strand (l : Nat) : Strand :=
  { uid := 2 + l, x := [(4, { val := BitVec.ofNat 32 (4 * l) }), (8, { val := BitVec.ofNat 32 (0x1000 + 64 * l) }), (16, { val := 0x40000020 }), (20, { val := 0x20000 })] }
def group : Group := { gid := 4, team := 1, remap := [(0, 0), (1, 1)], splits := [{ pc := 0x10000, mask := 3, st := .running }], run := { id := 5 } }
def part : Partition := { clusters := [0], queues := 4, contexts := 4, vf := true, helm := [0], qs := [(0, {}), (1, {})] }
def lines : List ILine := [{ asid := 1, va := 0x10000, words := oneSlotLine 1 0 }, { asid := 1, va := 0x10040, words := oneSlotLine 1 0 }, { asid := 1, va := 0x20000, words := oneSlotLine 1 0 }]
/-- Core 0 runs a team of two strands; NOP stands at 0x10000 and at 0x20000. -/
def demo : State :=
  { dev := { clock := 1000, boot := .done }
    org := { parts := [(0, part)], ctxs := [(1, { part := 0, num := 0 })], grids := [(1, grid)] }
    ex := { teams := [(1, team)], groups := [(0, group)], strands := [(2048, strand 0), (2049, strand 1)], runs := [(0, 0)] }
    mem := { tcache := [(0, [entry])], l1i := [(0, lines)] }
    turn := .arbitrate, cur := some 0, nextId := 100 }
/-- In handler mode. -/
def handler : State := demo.modGroup 0 fun g => { g with hm := true, epc := 0x10000, saved := some { splits := [{ pc := 0x10000, mask := 3 }], idx := 0 } }
/-- With a trap held as well. -/
def held : State := handler.modGroup 0 fun g => { g with causebits := 0x10, held := [{ cause := 4, epc := 0x10000, tval := 0, lanes := 1 }] }
/-- As a supervisor of the partition, and as Smilor. -/
def supervisor (n : Nat) : State := demo.modTeam 1 fun t => { t with sup := n }
/-- A strand changed. -/
def both (f : Strand → Strand) : State := (demo.modStrand 2048 f).modStrand 2049 f
/-- A register of both strands. -/
def set (n : Nat) (w : Word) : State := both fun t => { t with x := AMap.set {} t.x n { val := w } }

/-- p1 holds in lane 1 alone. -/
def lane1 : State := demo.modStrand 2049 fun t => { t with p := 2 }

/-! ### Hypotheses, and states that meet them -/

def placedB (v : View) (s : State) : Bool :=
  v.lanes.all (fun l => (s.ex.strands.find (v.key l)).isSome) && v.lanes.all fun l => v.lanes.all fun k => v.key l != v.key k || l == k
def issuesB (v : View) (s : State) (g : Guard) (srcs : List Use) (dsts : List (Reg × Bool)) (act : List Nat) (bad : Bool) : Bool :=
  match prologue v s g srcs dsts bad with
  | .ok (a, cs) => a == act && cs.isEmpty
  | .error _ => false

theorem placed_of {v : View} {s : State} (h : placedB v s = true) : v.Placed s := by
  simp only [placedB, Bool.and_eq_true, List.all_eq_true] at h
  refine ⟨fun l hl => Option.isSome_iff_exists.1 (h.1 l hl), fun l hl k hk e => ?_⟩
  have := h.2 l hl k hk
  simpa [e] using this

theorem issues_of {v : View} {s : State} {g : Guard} {srcs : List Use} {dsts : List (Reg × Bool)} {act : List Nat} {bad : Bool}
    (h : issuesB v s g srcs dsts act bad = true) : v.Issues s g srcs dsts act bad := by
  unfold issuesB at h
  unfold View.Issues
  split at h
  · rename_i a cs e
    rw [e]
    simp only [Bool.and_eq_true, beq_iff_eq, List.isEmpty_iff] at h
    rw [h.1, h.2]
  · cases h

/-- A state, operands and active lanes, and what else a statement asks of them. -/
structure Case where
  s : State := demo
  g : Guard := .always
  srcs : List Use := []
  dsts : List (Reg × Bool) := []
  act : List Nat := [0, 1]
  bad : Bool := false
  more : View → Bool := fun _ => true

/-- The hypotheses that the statements share, and the rest. -/
def Case.Ready (c : Case) : Prop :=
  ∃ v, c.s.view = some v ∧ v.Placed c.s ∧ v.Issues c.s c.g c.srcs c.dsts c.act c.bad ∧ v.team.pair = none ∧ v.lanePair = false ∧ c.more v = true

def Case.ok (c : Case) : Bool :=
  match c.s.view with
  | none => false
  | some v => placedB v c.s && issuesB v c.s c.g c.srcs c.dsts c.act c.bad && v.team.pair.isNone && !v.lanePair && c.more v

theorem ready {l : List Case} (h : l.all Case.ok = true) : ∀ c ∈ l, c.Ready := by
  intro c hc
  have h := List.all_eq_true.1 h c hc
  unfold Case.ok at h
  split at h
  · cases h
  · rename_i v hv
    simp only [Bool.and_eq_true, Option.isNone_iff_eq_none, Bool.not_eq_true'] at h
    exact ⟨v, hv, placed_of h.1.1.1.1, issues_of h.1.1.1.2, h.1.1.2, h.1.2, h.2⟩

/-- A trailer's operands and await set. -/
structure TCase where
  s : State := demo
  g : Guard := .always
  ops : List Use := []
  act : List Nat := [0, 1]
  aw : Await := { a := 0, b := 0, c := 0, d := 0 }
  more : View → Bool := fun _ => true

def TCase.Ready (c : TCase) : Prop := ∃ v, TrailerReady v c.s c.g c.ops c.act c.aw ∧ c.more v = true

def joins (sp : Split) : Bool := match sp.st with | .parked (.joinw ..) => true | _ => false

def TCase.ok (c : TCase) : Bool :=
  match c.s.view with
  | none => false
  | some v => placedB v c.s && issuesB v c.s c.g c.ops [] c.act (badAwait v c.aw) && v.grp.splits.all (!joins ·) && !v.lanePair && c.more v

theorem tready {l : List TCase} (h : l.all TCase.ok = true) : ∀ c ∈ l, c.Ready := by
  intro c hc
  have h := List.all_eq_true.1 h c hc
  unfold TCase.ok at h
  split at h
  · cases h
  · rename_i v hv
    simp only [Bool.and_eq_true, List.all_eq_true, Bool.not_eq_true'] at h
    refine ⟨v, ⟨hv, placed_of h.1.1.1.1, issues_of h.1.1.1.2, fun sp hs q p d n e => ?_, h.1.2⟩, h.2⟩
    have := h.1.1.2 sp hs
    rw [joins, e] at this
    cases this

/-- An access, and what else a statement asks. -/
structure ACase where
  s : State := demo
  m : MemUse
  act : List Nat := [0, 1]
  more : View → List LaneAcc → Bool := fun _ _ => true

def ACase.Ready (c : ACase) : Prop := ∃ v u as, Access v c.s u c.m c.act as ∧ c.more v as = true

def ACase.found (c : ACase) (v : View) : (List LaneAcc × List (Nat × Nat × Word64)) × State :=
  resolve v c.m.space c.m.scope.wide c.m.hint (accRight c.m) (accWidth c.m.ty) false (fun l => effAddr v c.s l c.m.space c.m.a c.m.off (accWidth c.m.ty) (c.m.kind != .load)) c.act c.s

def ACase.ok (c : ACase) : Bool :=
  match c.s.view with
  | none => false
  | some v =>
    placedB v c.s && v.team.pair.isNone && !v.lanePair && !(c.s.ex.specs.has v.gk) && c.s.ex.reqs.all (fun e => !e.2.localWrite) && !badAddress c.m.space c.m.a
      && c.m.b.all (fun w => (c.m.words != 4 || w.reg % 4 == 0) && (c.m.kind != .atom .cas || !isQueue w.reg))
      && issuesB v c.s c.m.g (accSources c.m) (accDest c.m) c.act false && !c.act.isEmpty && (poisonCauses v c.s c.act (accSources c.m)).isEmpty && (c.found v).1.2.isEmpty
      && c.more v (c.found v).1.1

theorem aready {l : List ACase} (h : l.all ACase.ok = true) : ∀ c ∈ l, c.Ready := by
  intro c hc
  have h := List.all_eq_true.1 h c hc
  unfold ACase.ok at h
  split at h
  · cases h
  · rename_i v hv
    simp only [Bool.and_eq_true, Option.isNone_iff_eq_none, Bool.not_eq_true', List.all_eq_true, List.isEmpty_iff, List.isEmpty_eq_false_iff, Option.all_eq_true, Bool.or_eq_true,
      beq_iff_eq, bne_iff_ne, ne_eq, AMap.has, Option.isSome_eq_false_iff] at h
    obtain ⟨⟨⟨⟨⟨⟨⟨⟨⟨⟨⟨h1, h2⟩, h3⟩, h4⟩, h5⟩, h6⟩, h7⟩, h8⟩, h9⟩, h10⟩, h11⟩, h12⟩ := h
    refine ⟨v, (c.found v).2, (c.found v).1.1, ⟨hv, placed_of h1, h2, h3, h4, h5, h6,
       fun w e => ⟨fun hw => ((h7 w e).1).resolve_left (fun n => n hw), fun hk => ((h7 w e).2).resolve_left (fun n => n hk)⟩,
      issues_of h8, h9, h10, ?_⟩, h12⟩
    show c.found v = _
    rw [← h11]

def u (n : Nat) : Use := { reg := n }
def u2 (n : Nat) : Use := { reg := n, pair := true }

/-- The operand forms of the shapes: a register, a pair, an immediate, x0, a temporary, a g register, a queue, an empty action, a guard that holds in
one lane, in none. -/
theorem witness_operand_forms : ∀ c ∈ ([
    { srcs := [u 4, u 5], dsts := [(12, false)] }, { srcs := [u2 8, u2 10], dsts := [(12, true)] }, { srcs := [u 4], dsts := [(0, false)] },
    { srcs := [u 4], dsts := [(191, false)] }, { srcs := [u 4], dsts := [(192, false)] }, { srcs := [u 216, u 247], dsts := [(247, false)] },
    { s := demo.modTeam 1 fun t => { t with queues := [(0, [{ words := [], clk := 0 }])] }, srcs := [u 200], dsts := [(12, false)] },
    { srcs := [{ reg := 4, ea := true }], dsts := [(12, false)] },
    { s := lane1, g := .when 1 true, srcs := [u 4], dsts := [(12, false)], act := [1] },
    { g := .when 1 true, srcs := [u 4], dsts := [(12, false)], act := [] }] : List Case), c.Ready := ready (by decide +kernel)

/-- IntegerArithmetic, FieldsAndBytes, MultiplyAddAndPairs, DivisionAndCompare, MovesAndNop. -/
theorem witness_integer :
    (OpType.i32 .s32 && OpType.i32 .z32 && OpType.within .s8 10 11 && OpType.within .s64 2 3 && WellFormed (.isetp (cmp .s64 .ge)) && WellFormed (.isetp (cmp .z32 .eq))
      && OpType.plain .f64 && OpType.plain .s16) = true ∧
    (∀ c ∈ ([{ srcs := (r 4).use :: (SrcB.imm 5).uses, dsts := [(12, false)] }, { srcs := [u 4, u 5, u 6], dsts := [(12, false)] },
      { srcs := u2 8 :: (SrcB.imm 5).uses true, dsts := [(12, true)] }, { srcs := [u2 8, u 4], dsts := [(12, true)] }, { srcs := [u2 8, u2 10] }, { srcs := [] }] : List Case), c.Ready) :=
  ⟨by decide, ready (by decide +kernel)⟩

/-- FloatArithmetic, FloatSignClassAndCompare, FloatLongLatency, RoundingIsRight. -/
theorem witness_float :
    (OpType.fp .f16x2 && OpType.fp .f64 && OpType.fp1 .bf16 && OpType.trans .f16 && fmt64 == fmt64) = true ∧
    (∀ c ∈ ([{ srcs := [u2 8, u2 10, u2 14], dsts := [(12, true)] }, { srcs := [u2 8, u 4], dsts := [(12, true)] }, { srcs := [u 4], dsts := [(12, false)] },
      { srcs := [u2 8], dsts := [(12, false)] }, { srcs := [u 4, u 5] }] : List Case), c.Ready) ∧
    (∃ m e, m ≠ 0 ∧ m * 2 ^ (Int.toNat (e - (fmt16.emin - fmt16.mb))) < units fmt16 fmt16.inf) ∧ ∃ m e, m ≠ 0 ∧ units fmt16 fmt16.inf ≤ m * 2 ^ (Int.toNat (e - (fmt16.emin - fmt16.mb))) :=
  ⟨by decide, ready (by decide +kernel), ⟨1, -24, by decide⟩, ⟨1, 16, by decide +kernel⟩⟩

/-- FloatArithmetic, FloatSignClassAndCompare, FloatLongLatency, Conversions: in each format a finite number of each sign, a zero, an infinity, a NaN of each kind. -/
theorem witness_float_values : ∀ f ∈ formats,
    (FiniteCode f f.one ∧ FiniteCode f (f.one + f.signBit) ∧ FiniteCode f 0 ∧ negative f f.one = false ∧ negative f (f.one + f.signBit) = true ∧ f.inf % 2 ^ (f.eb + f.mb) = f.inf ∧ nan f f.qnan = true ∧
      snan f f.qnan = false ∧ snan f (f.inf + 1) = true ∧ Below f 0 f.one ∧ Below f f.signBit 0 ∧ 0 < f.mb) ∧ formats.length = 4 ∧ isInt .s8 = true ∧ OpType.fp1 .f64 = true := by
  unfold FiniteCode Below; decide +kernel

/-- PoisonClearAndTest, Conversions, TaperedPacking (slots 0 and 1 are narrow), SlotQuery. -/
theorem witness_conversions :
    (WellFormed (.cvt (far .slot 1 2 .rn) .f32 false 7) && WellFormed (.cvt (far .f64 2 4 .rz) .s64 true 0) && OpType.packed .bf16x2) = true ∧
    (∀ c ∈ ([{ dsts := [(12, true)] }, { }, { srcs := [u2 14] }, { srcs := [u2 8], dsts := [(12, true)] }, { srcs := [u 4, u 5], dsts := [(12, false)] },
      { srcs := [u 4, u 5, u 6], dsts := [(12, false)], more := fun v => slotNarrow (v.grid.slots.getD 0 0) }, { srcs := [u 4], dsts := [(12, true)], more := fun v => slotNarrow (v.grid.slots.getD 1 0) },
      { dsts := [(12, false)] }] : List Case), c.Ready) := ⟨by decide, ready (by decide +kernel)⟩

/-- Shuffles, PushPollAndKin (each lane names lane 0), Reductions, PredicateMoves. -/
theorem witness_lanes :
    (OpType.w3264 .f64 && OpType.w3264 .z32 && WellFormed (.redl (red .f32 .add .rz)) && WellFormed (.scanl (red .s32 .and .rn) true)) = true ∧
    (∀ c ∈ ([{ srcs := [u2 8, u 4], dsts := [(12, true)] },
      { srcs := [u 4, u 5], more := fun v => !badOperands v [] [(12, false)] && [0, 1].filter (fun k => [0, 1].any fun l => (wordB v demo .z32 (.reg (r 5)) l).toNat % slots v == k) == [0]
          && !destEmpty v demo [0] (12, false) },
      { srcs := [u 4], dsts := [(12, false)] }, { srcs := [u 4] }, { dsts := [(12, false)] }, { }] : List Case), c.Ready) := ⟨by decide, ready (by decide +kernel)⟩

/-- SpecialRegisterReads and SpecialRegisterWrites: %clock, %fmode at the last rounding, a supervisor's %clamps, the trap registers in handler mode. -/
theorem witness_specials :
    (specialOk 1 && specialOk 28 && specialWide 27) = true ∧
    (∀ c ∈ ([{ dsts := [(12, true)], more := fun v => v.ctx.vmode == 0 && v.grp.run.inputs.isNone && v.core < 640 && v.asid < 4096 && v.ctx.num < 16 && v.grid.hdr.prot < 4 && v.grp.saved.isNone
        && v.grp.splits.length ≤ 32 && (v.grp.remap.find 0).isSome }, { dsts := [(12, false)] }, { s := set 4 4, srcs := [u 4], more := fun v => (word v (set 4 4) (r 4) 1).toNat % 8 == 4 },
      { srcs := [u 4], more := fun v => [0, 1].all (fun l => !bad v demo (r 4) l) && ([0, 1] : List Nat).getLast? == some 1 },
      { s := supervisor 1, srcs := [u 4], more := fun v => v.sup != 0 }, { s := handler, srcs := [u 4], more := fun v => v.grp.hm },
      { s := handler, srcs := [u2 8], more := fun v => v.grp.hm && [0, 1].all fun l => !bad v handler (r 8) l true }] : List Case), c.Ready) := ⟨by decide, ready (by decide +kernel)⟩

/-- FrameFeaturesAndInterrupts: an offset at a frame's start and one past its end; SWI with lanes and without. -/
theorem witness_frames : ∀ c ∈ ([
    { srcs := [u 4], dsts := [(12, true)], more := fun v => [0, 1].all fun l => (word v demo (r 4) l).toNat / 2 ^ 29 ≤ v.grid.hdr.level && (word v demo (r 4) l).toNat % 2 ^ 29 + 4092 ≤ v.grid.fsizes.getD 0 0 },
    { s := set 4 0x20001000, srcs := [u 4], dsts := [(12, true)], more := fun v => [0, 1].all fun l => (word v (set 4 0x20001000) (r 4) l).toNat / 2 ^ 29 ≤ v.grid.hdr.level &&
        (word v (set 4 0x20001000) (r 4) l).toNat % 2 ^ 29 == v.grid.fsizes.getD 1 0 },
    { dsts := [(12, false)] }, { more := fun v => !v.trails && demo.ex.fences.isEmpty }, { g := .when 1 true, act := [] }] : List Case), c.Ready := ready (by decide +kernel)

/-- GroupTrapEntry outside handler mode and in it, with the cause held and not held; SoftTrap; ReturnFromTrap with and without a held trap. -/
theorem witness_traps : ∀ c ∈ ([
    { more := fun v => demo.ex.groups.find v.gk == some v.grp && !v.ctx.halted && !v.grp.hm },
    { s := held, more := fun v => held.ex.groups.find v.gk == some v.grp && v.grp.hm && v.grp.causebits.getLsbD 4 && !v.grp.causebits.getLsbD 5 },
    { more := fun v => !v.pilot && v.team.trapent != 0 && (demo.ex.specs.find v.gk).isNone }, { g := .when 1 true, act := [] },
    { s := handler, more := fun v => v.grp.hm && !badAwait v (aw 0) && v.grp.causebits == 0 && validPc v handler v.grp.epc && (match v.grp.saved with
        | some sv => sv.splits.all (fun sp => sp.mask != 0) && sv.idx < sv.splits.length | none => false) },
    { s := held, more := fun v => v.grp.hm && (List.range 4).all (fun i => !v.grp.causebits.getLsbD i) && v.grp.causebits.getLsbD 4 && (v.grp.held.find? (·.cause == 4)).isSome }]
    : List Case), c.Ready := ready (by decide +kernel)

/-- CauseRoutesAndPrecision: a cause of each route, where the route is open and where it is not; and a prologue that stops with a cause. -/
theorem witness_routes : ∀ c ∈ ([
    { more := fun v => [4, 5, 13, 15, 20].contains 4 && !v.pilot && v.team.trapent != 0 },
    { more := fun v => [11, 12, 18].contains 12 && !v.team.irrevocable && v.team.rollbacks < 3 },
    { s := demo.modTeam 1 fun t => { t with rollbacks := 3, trapent := 0 }, more := fun v => v.team.trapent == 0 && 3 ≤ v.team.rollbacks },
    { more := fun v => match prologue v demo .always [u 192, u 5] [(12, false)] with | .error (.fail f) => f.cause == 3 | _ => false },
    { s := both fun t => { t with x := [(4, { full := false })] }, more := fun v => match prologue v (both fun t => { t with x := [(4, { full := false })] }) .always [{ reg := 4, ea := true }, u 5]
        [(12, false)] with | .error (.fail f) => f.cause == 4 | _ => false }] : List Case), c.Ready := ready (by decide +kernel)

/-- Branches, Calls and Loops: targets that R25 admits; a return stack with one entry, with 63; a loop stack that may grow, a count of 0, an open loop whose
count ends and one that goes on. -/
theorem witness_trailers : ∀ c ∈ ([
    { aw := aw 12, more := fun v => directTarget v.team v.split.pc 0 == 0x10000 && (demo.badTarget v.core v.asid v.team 0x10000).isNone },
    { ops := pairD 20, more := fun v => [0, 1].all fun l => (demo.badTarget v.core v.asid v.team (target v demo 20 l)).isNone && !targetBad v demo 20 l && (retsOf v demo l).length < 64 },
    { s := both fun t => { t with rets := List.replicate 63 0x20000 }, more := fun v => [0, 1].all fun l => (retsOf v (both fun t => { t with rets := List.replicate 63 0x20000 }) l).length == 63 },
    { s := both fun t => { t with rets := [0x20000] }, more := fun v => (demo.badTarget v.core v.asid v.team 0x20000).isNone },
    { s := both fun t => { t with loops := [{ count := 1, start := 0x10000 }] }, more := fun v => directTarget v.team v.split.pc 0 == 0x10000 },
    { s := both fun t => { t with loops := [{ count := 2, start := 0x10000 }] } }, { g := .when 1 true, act := [] }] : List TCase), c.Ready := tready (by decide +kernel)

/-- LOOP: lane 0 skips, lane 1 enters. -/
theorem witness_loop : ∀ c ∈ ([
    { srcs := [u 4], more := fun v => word v demo (r 4) 0 == 0 && word v demo (r 4) 1 != 0 && (loopsOf v demo 1).length < 4 && (demo.badTarget v.core v.asid v.team (directTarget v.team v.split.pc 0)).isNone },
    { s := both fun t => { t with loops := List.replicate 3 { count := 1, start := 0 } }, srcs := [u 4] }] : List Case), c.Ready := ready (by decide +kernel)

/-- JoinsAndTimedWaits: another split that still runs on; a split that is alone; a good line to wait for. -/
theorem witness_waits : ∀ c ∈ ([
    { s := demo.modGroup 0 fun g => { g with splits := [{ pc := 0x10000, mask := 1, st := .running }, { pc := 0x20000, mask := 2 }] }, act := [0],
      more := fun v => v.idx == 0 && v.ctx.vmode != 2 && (v.grp.splits[1]?).any fun sp => sp.st == .ready && sp.mask != 0 },
    { more := fun v => v.grp.splits == [v.split] && v.grp.run.skip.isEmpty && v.grp.saved.isNone && v.ctx.vmode == 0 },
    { ops := pairD 20, more := fun v => [0, 1].all fun l => !targetBad v demo 20 l && canonical (target v demo 20 l) }] : List TCase), c.Ready := tready (by decide +kernel)

/-- AccessesInFlight and ScratchpadAccesses: each kind of access in each space at the unit that performs it. -/
theorem witness_accesses : ∀ c ∈ ([
    { m := loadOf (mem .s32 .g .plain .plain) 12 }, { m := loadOf { mem .z64 .g .dev .acq with a := r 8 } 12 }, { m := loadOf { mem .s32 .s .plain .plain with a := r 4 } 12 },
    { m := loadOf { mem .s32 .f .plain .plain with a := r 248, off := 64 } 12 },
    { m := storeOf (mem .s32 .g .dev .rel) (r 4), more := fun _ as => as.all (·.unit == .slice) },
    { m := Claim.atomOf (at_ .s32 .cas .g .dev .ar) 12, more := fun _ as => as.all (·.unit == .slice) }, { m := Claim.redOf (at_ .s32 .add .g .dev .rel), more := fun _ as => as.all (·.unit == .slice) },
    { m := storeOf { mem .s32 .s .grp .plain with a := r 4 } (r 5), more := fun _ as => accWidth .s32 == 4 && as.map (·.lane) == [0, 1] },
    { s := lane1, m := Claim.redOf { at_ .s32 .add .s .grp .plain with g := .when 1 true, a := r 4 }, act := [1], more := fun _ _ => demo.mem.errors.isEmpty && (AMap.get {} demo.mem.scratch 1).judge.isNone },
    { s := lane1, m := Claim.atomOf { at_ .z32 .exch .s .core .ar with g := .when 1 true, a := r 4 } 12, act := [1] },
    { m := storeOf (mem .s32 .g .plain .plain) (r 4), more := fun _ as => as.all (·.unit == .l1) }, { m := storeOf (mem .z64 .g .grp .rel) (r 10), more := fun _ as => as.all (·.unit == .l1) },
    { m := storeOf { mem .z64 .s .plain .plain with a := r 6 } (r 10) }, { m := storeOf { mem .z8 .s .plain .plain with a := r 4, off := 1 } (r 5) },
    { m := Claim.redOf { at_ .s64 .max .s .core .plain with a := r 6, b := r 10 } }, { m := Claim.atomOf { at_ .z32 .cas .s .grp .ar with a := r 4 } 12, more := fun v _ => [0, 1].all fun l => v.key l / 2048 == v.teamKey }]
    : List ACase), c.Ready := aready (by decide +kernel)

/-- Nothing in flight, and a canonical memory, as ScratchpadAccesses asks. -/
theorem witness_quiet : Quiet demo ∧ demo.Sound := ⟨⟨rfl, rfl, rfl, rfl, rfl⟩, rfl, rfl⟩

/-- The L1 of core 0 holds the line of 0x1000. -/
def cached (s : State) : State :=
  s.modMem fun m => { m with l1d := [(32 * 8, { va := 0x1000, asid := 1, pa := 0x1000, rights := 7, mt := 0, filled := true, dirty := 0, words := List.replicate 32 (TWord.fresh 9) })] }

/-- AccessesInFlight: a sub-word store, a RED and an ATOM at the own L1, whose line they find there, with words that pass their checks. -/
theorem witness_consumes : ([storeOf (mem .z8 .g .plain .plain) (r 4), Claim.redOf (at_ .s32 .add .g .core .plain), Claim.atomOf (at_ .z32 .exch .g .grp .ar) 12].all fun m =>
    let c : ACase := { s := cached demo, m := m }
    c.ok && (match c.s.view with
      | some v => let f := c.found v; f.1.1.all (·.unit == .l1) && (badNow v (accWidth m.ty) (f.1.1.filter fun a => !f.2.strandHeld v a.lane (m.kind != .load)) f.2).1.isEmpty
      | none => false)) = true := by decide +kernel

/-- EffectiveAddresses: each space at its last good address, one past it, and misaligned, so that each clause is met. -/
theorem witness_addresses : (demo.view.all fun v =>
    (match effAddr v (set 4 4092) 0 .s (r 4) 0 4 false with | .ok va => va == 4092 | _ => false) && (match effAddr v (set 4 4096) 0 .s (r 4) 0 4 false with | .error e => e.1 == 9 | _ => false) &&
    (match effAddr v (set 4 4095) 0 .s (r 4) 0 4 false with | .error e => e.1 == 6 | _ => false) && (match effAddr v demo 0 .f (r 248) 63 1 true with | .error e => e.1 == 9 | _ => false) &&
    (match effAddr v demo 0 .f (r 248) 64 4 true with | .ok va => va == 0x400040 | _ => false) && (match effAddr v demo 0 .f (r 250) 64 4 true with | .error e => e.1 == 7 | _ => false) &&
    (match effAddr v demo 1 .g (r 8) 0 4 true with | .ok va => va == 0x1040 | _ => false) && (match effAddr v (set 9 0x01000000) 0 .g (r 8) 0 4 true with | .error e => e.1 == 8 | _ => false)) = true := by
  decide +kernel

/-- CacheInstructions. -/
theorem witness_cache : ∀ c ∈ ([
    { srcs := [u2 8], act := [0, 1], more := fun v => !badAddress .g (r 8) && (demo.l1Key v.core v.asid 0x1000).isNone },
    { s := demo.modStrand 2048 fun t => { t with p := 2 }, g := .when 1 true, srcs := [addrUse .g (r 8)], act := [0], more := fun v => !srcPoison v demo 0 (addrUse .g (r 8)) &&
        (match effAddr v demo 0 .g (r 8) 0 1 false with | .ok va => va == 0x1000 | _ => false) },
    { srcs := [u2 8, u 4], more := fun v => (poisonCauses v demo [0, 1] [u2 8, u 4]).isEmpty }] : List Case), c.Ready := ready (by decide +kernel)

/-- The view of the small machine. -/
def view0 : View :=
  { gk := 0, core := 0, grp := group, idx := 0, split := { pc := 0x10000, mask := 3, st := .running }, teamKey := 1, team := team, grid := grid, asid := 1, ctx := { part := 0, num := 0 } }

/-- CopyRequests: rows of 32 bytes, both lanes. -/
theorem witness_copy :
    (∀ c ∈ ([{ srcs := copySources .gs (r 8) (r 4) (r 16), more := fun v => v.live.all (fun l => [0, 1].contains l) && (poisonCauses v demo [0, 1] (copySources .gs (r 8) (r 4) (r 16))).isEmpty
        && [0, 1].filter (fun l => (demo.elemNow v l 16).val.toNat % 2 ^ 24 != 0) == [0, 1] && (demo.copiesOf v.core).length + 2 ≤ 64 }] : List Case), c.Ready) ∧
    (∃ v, demo.view = some v ∧ v = view0) ∧ ∀ l ∈ [0, 1], copyOk view0 demo .gs (r 8) (r 4) (r 16) l :=
  ⟨ready (by decide +kernel), ⟨_, rfl, rfl⟩, by unfold copyOk; decide +kernel⟩

/-- BatchesAndTheirWaits: with no batch open, with seven; a batch that is sealed. -/
theorem witness_batches : ∀ c ∈ ([
    { dsts := [(12, false)], more := fun v => [0, 1].all fun l => ((demo.strandAt (v.key l)).sealedNo - (demo.strandAt (v.key l)).completeNo).toNat < 8
        && [0, 1].all fun k => (demo.strandAt (v.key l)).uid != (demo.strandAt (v.key k)).uid || l == k },
    { s := both fun t => { t with sealedNo := 7 }, dsts := [(12, false)] },
    { srcs := [u 5], more := fun v => v.grp.run.bwait.isNone && [0, 1].all fun l => !bad v demo (r 5) l && !(demo.strandAt (v.key l)).future (word v demo (r 5) l) },
    { srcs := [u 5], dsts := [(12, true)] }] : List Case), c.Ready := ready (by decide +kernel)

/-- With a pilot group at 0x20000, executing or not. -/
def piloted (cur : Nat) : State :=
  { demo.modEx fun x => { x with
      groups := x.groups.put 128 { gid := 6, team := 1, remap := (List.range 32).map fun l => (l, 1024 + l), splits := [{ pc := 0x20000, mask := 0xFFFFFFFF, st := .running }], run := { id := 7 } }
      strands := (List.range 32).foldl (fun m l => m.put (2048 + 1024 + l) { uid := 10 + l, x := [] }) x.strands
      runs := x.runs.put 4 128 } with cur := some cur }

/-- PilotAndQueues: QLD to set 0, with none and with seven entries of its queue; PGO and PSTOP with and without a pilot; QSTAT. -/
theorem witness_pilot : ∀ c ∈ ([
    { srcs := [addrUse .g (r 8), u 5], more := fun v => (word v demo (r 5) 1).toNat < v.grid.hdr.capacity / 32 && (demo.queueUse v.teamKey v.team 0 0) < 8 && !bad v demo (r 5) 1 &&
        (resolve v .g false .normal 1 4 false (fun l => effAddr v demo l .g (r 8) 0 4 false) [0, 1] demo).1.2.isEmpty },
    { s := demo.modTeam 1 fun t => { t with queues := [(0, List.replicate 7 { words := [], clk := 0 })] }, srcs := [addrUse .g (r 8), u 5],
      more := fun v => demo.queueUse v.teamKey v.team 0 0 == 7 },
    { srcs := [u2 20, u 4], more := fun v => (poisonCauses v demo [0, 1] [u2 20, u 4]).isEmpty && v.grid.hdr.pilotent != 0 && (demo.pilotOf v.teamKey).isNone
        && (demo.badTarget v.core v.asid v.team (pair v demo (r 20) 1)).isNone && !demo.unsettled v [0, 1] },
    { s := piloted 0, more := fun v => ((piloted 0).pilotOf v.teamKey).isSome }, { more := fun v => (demo.pilotOf v.teamKey).isNone },
    { srcs := [u 5], dsts := [(12, true)], more := fun v => [0, 1].all fun l => !bad v demo (r 5) l && (word v demo (r 5) l).toNat < v.grid.hdr.capacity / 32 }] : List Case), c.Ready :=
  ready (by decide +kernel)

def mop (op : MOp) : MInstr := { team := 1, gk := 0, pc := 0x10000, isn := 50, tile := 1, strands := [(0, 2048), (1, 2049)], four := false, op := op }
/-- One matrix instruction is at work; tile 1 is the team's. -/
def busy : State := (demo.modEx fun x => { x with mq := [(0, [mop .mzero])], tiles := [(1, { tag := some { asid := 1, grid := 1, team := 0 } })] }).modTeam 1 fun t => { t with tmask := 2 }
/-- The tile is the team's and the unit idle. -/
def owner : State := busy.modEx fun x => { x with mq := [] }

/-- MatrixIssues: a tile to be claimed, one in use; a product of 8-bit slots with K at 0 and at 256. -/
theorem witness_matrix : ∀ c ∈ ([
    { s := busy, more := fun v => 0 < (busy.matrixInFlight v.core).length && (busy.matrixInFlight v.core).length < 4 && busy.checkTile v.teamKey v.team 0 .claim == .claim
        && busy.checkTile v.teamKey v.team 1 .claim == .proceed && busy.checkTile v.teamKey v.team 1 .use == .proceed },
    { s := busy, srcs := quad 24 false, more := fun v => !badDesc (r 24) && (descCauses v busy [0, 1] [r 24] (quad 24 false)).isEmpty
        && (rangeCauses v [0, 1] (descriptor v busy (r 24) 0) (64 * elemBits .slot (v.grid.slots.getD 1 0) / 8)).isEmpty },
    { s := busy, srcs := quad 24 false ++ quad 28 false ++ [u 5], more := fun v => mmaKind (slotFmt (v.grid.slots.getD 2 0)) (slotFmt (v.grid.slots.getD 2 0)) == some (.integer, 32)
        && (word v busy (r 5) 0).toNat % 32 == 0 && (descCauses v busy [0, 1] [r 24, r 28] (quad 24 false ++ quad 28 false ++ [u 5])).isEmpty
        && (rangeCauses v [0, 1] (descriptor v busy (r 28) 0) 256).isEmpty },
    { s := busy, srcs := [u 4], dsts := [(12, false)] }] : List Case), c.Ready := ready (by decide +kernel)

/-- The descriptor of 64 rows of 64 bytes in the scratchpad, in x24 to x27 of both strands. -/
def rows : State := [2048, 2049].foldl (fun s k => s.modStrand k fun t => { t with x := AMap.set {} (AMap.set {} t.x 26 { val := 64 }) 27 { val := 1 } }) owner

/-- MatrixIssues on an idle unit: a tile to be claimed and one in use; rows of the scratchpad that can be read, and that are apart from one another. -/
theorem witness_idle_unit : ∀ c ∈ ([
    { s := rows, srcs := quad 24 false, more := fun v => (AMap.get [] rows.ex.mq v.core).isEmpty && v.team.core == v.core && !v.team.saved && !v.ctx.halted && (rows.matrixInFlight v.core).isEmpty
        && rows.checkTile v.teamKey v.team 0 .claim == .claim && rows.checkTile v.teamKey v.team 1 .use == .proceed && !badDesc (r 24) && (descCauses v rows [0, 1] [r 24] (quad 24 false)).isEmpty
        && (rangeCauses v [0, 1] (descriptor v rows (r 24) 0) 64).isEmpty && (descriptor v rows (r 24) 0).scratch && rows.mem.errors.isEmpty
        && (let q := Claim.queued v (claimed v rows 0) (matrixOp v rows [0, 1] 0 (.mload (descriptor v rows (r 24) 0) .slot (v.grid.slots.getD 0 0)))
          !q.matrixHeld (matrixOp v rows [0, 1] 0 (.mload (descriptor v rows (r 24) 0) .slot (v.grid.slots.getD 0 0))) && (q.ex.teams.find v.teamKey).any fun t =>
            match (q.readRows t v.asid (descriptor v rows (r 24) 0) 0 16 ([0, 1].flatMap fun l => [2 * l, 2 * l + 1])).1 with | .ok _ => true | .error _ => false)
        && (let i := matrixOp v rows [0, 1] 1 (.mstore (descriptor v rows (r 24) 0) .slot (v.grid.slots.getD 0 0)); !(Claim.queued v rows i).matrixHeld i)
        && decide ((([0, 1, 2, 3].flatMap fun n => (List.range 16).map fun w => v.core * 98304 + (v.team.scratchBase + (descriptor v rows (r 24) 0).rowAt n (4 * w)) / 4)).Nodup)
        && [0, 1, 2, 3].all fun n => (storeRow (rows.tileAt v.core 1) .slot (v.grid.slots.getD 0 0) n).1.length == 16 },
    { s := owner, srcs := [u 4], dsts := [(12, false)], more := fun v => owner.mem.errors.isEmpty && (AMap.get [] owner.ex.mq v.core).isEmpty }] : List Case), c.Ready := ready (by decide +kernel)

/-- The L2 holds the first 128 blocks, of zeros but for a launch record at 0x1000 and at 0x1040 and a kernel header at 0x1080 of level 1, 16 registers and 32 strands. -/
def warmLine (b : Nat) : L2Line :=
  let word (n : Nat) : Word := match n with
    | 0 | 16 => 0x1080 | 2 | 18 => 1 | 3 | 19 => 0x20 | 48 => 0x40204000 | 51 => 64 | 52 => 0x10000 | _ => 0
  { words := if b = 16 then (List.range 64).map fun i => TWord.fresh (word i) else List.replicate 64 (TWord.fresh 0) }
def warmLines : AMap L2Line := (List.range 128).map fun b => (b, warmLine b)
def warm (s : State) : State := s.modMem fun m => { m with l2 := warmLines }

/-- TilesAndTheirImages: MZERO on an idle unit, MREL of a tile that nothing uses, MPIN with rows and with rows in the scratchpad, MUNPIN of a pin that is there. -/
theorem witness_tiles : ∀ c ∈ ([
    { s := owner, more := fun v => (AMap.get [] owner.ex.mq v.core).isEmpty && v.team.core == v.core && !v.team.saved && !v.ctx.halted && owner.checkTile v.teamKey v.team 0 .claim == .claim
        && owner.checkTile v.teamKey v.team 1 .release == .proceed },
    { srcs := quad 24 false ++ [u 5], more := fun v => (match pinOf v demo [0, 1] 2 (r 24) (r 5) with
        | some (d, k, w) => k == 0 && ((demo.pinAddrs v ((List.range 64).flatMap fun i => d.blockAddrs i ((k * slotBits w + 7) / 8))).1).isSome | none => false)
        && (AMap.get [] demo.ex.pins v.core).length < 16 },
    { s := set 27 1, srcs := quad 24 false ++ [u 5], more := fun v => (pinOf v (set 27 1) [0, 1] 2 (r 24) (r 5)).isNone },
    { s := demo.modEx fun x => { x with pins := [(0, [{ team := 1, desc := { base := 0, stride := 0, scratch := false }, k := 0, slot := 5, blocks := [] }])] }, srcs := quad 24 false ++ [u 5],
      more := fun v => pinOf v demo [0, 1] 2 (r 24) (r 5) == some ({ base := 0, stride := 0, scratch := false }, 0, 5) }] : List Case), c.Ready := ready (by decide +kernel)

/-- MSAVE and MREST as Smilor and as a supervisor of the core's partition, of core 0, at address 0x0. -/
theorem witness_images : ∀ c ∈ ([
    { s := supervisor 2, srcs := [u2 24, u 5], more := fun v => v.sup == 2 && (word v demo (r 5) 1).toNat < 640 && (pair v demo (r 24) 1).toNat % 64 == 0
        && (demo.matrixInFlight 0).isEmpty && demo.mem.errors.isEmpty },
    { s := supervisor 1, srcs := [u2 24, u 5], more := fun v => v.sup != 0 && (demo.partOf v).clusters.contains ((word v demo (r 5) 1).toNat / 16) }] : List Case), c.Ready := ready (by decide +kernel)

/-- The array of the cluster is the team's, its chart loaded. -/
def bound : State := demo.modEx fun x => { x with arrays := [(0, { bound := some { asid := 1, grid := 1, team := 0 }, loaded := true })] }

/-- ArrayInstructions: free, and held; a chart, no records and one; a sweep of one and of 65535. -/
theorem witness_array : ∀ c ∈ ([
    { dsts := [(12, false)], more := fun v => v.ctx.vmode == 0 && v.grp.run.inputs.isNone && (demo.ex.arrays.find 0).isNone }, { s := bound, dsts := [(12, true)], more := fun v => (bound.ex.arrays.find 0).any fun a => a.bound == some (tagOf bound v.team) },
    { s := bound, more := fun _ => (bound.ex.arrays.find 0).any fun a => a.queue.isEmpty && a.loaded },
    { s := warm bound, srcs := [u2 8, u 5, u 7], more := fun v => (word v (warm bound) (r 5) 1).toNat + (word v (warm bound) (r 7) 1).toNat ≤ 16384 && (pair v (warm bound) (r 8) 1).toNat % 4 == 0 },
    { s := bound, srcs := [u 4] }, { s := bound, srcs := [u 4, u 5, u 7] },
    { s := (bound.modStrand 2048 fun t => t.setX 5 { val := 65535 }).modStrand 2049 fun t => t.setX 5 { val := 65535 }, srcs := [u 4, u 5], dsts := [(12, false)],
      more := fun _ => bound.mem.errors.isEmpty },
    { s := bound, srcs := [u 4], dsts := [(12, false)] }] : List Case), c.Ready := ready (by decide +kernel)

/-- SpawnedStrands, in a team with room and in one that is full. -/
theorem witness_spawn :
    (∀ c ∈ ([{ srcs := [u 4], dsts := [(12, false)], more := fun v => (demo.badTarget v.core v.asid v.team (directTarget v.team v.split.pc 0)).isNone && !demo.unperformed v [0, 1] && !demo.releasing v [0, 1]
        && (spawnAll v (directTarget v.team v.split.pc 0) (fun l => (srcElems v demo l (u 4)).getD 0 {}) [0, 1] demo).isSome }] : List Case), c.Ready) ∧
    grid.hdr.capacity ≤ 1024 ∧ (demo.liveStrands 1).length < grid.hdr.capacity ∧ demo.ex.strands.sorted = true ∧ (spawnOne view0 0x10000 {} 0 demo).isSome = true ∧
    (let s := demo.modEx fun x => { x with bins := [(3, { team := 1, pc := 0x10000, ranks := [7], started := 900, qset := 0, launching := false })] }
     spawnOne view0 0x10000 {} 0 s).isSome = true ∧
    64 ≤ ((demo.modEx fun x => { x with strands := (List.range 64).map fun l => (2048 + l, { uid := l, x := [] }) }).liveStrands 1).length :=
  ⟨ready (by decide +kernel), by decide +kernel⟩

/-- LaunchedGrids: records that pass their checks; a queue that is not enabled, that is full, and that takes the grid. -/
theorem witness_launch :
    (∀ c ∈ ([{ s := warm demo, srcs := [u2 8], dsts := [(12, false)], more := fun v => v.ctx.vmode == 0 && v.grp.run.inputs.isNone && [0, 1].all (fun l => (pair v (warm demo) (r 8) l).toNat % 64 == 0)
        && !(warm demo).releasing v [0, 1] && !(warm demo).recordHeld v [0, 1] (pair v (warm demo) (r 8)) && (launchChecks v (pair v (warm demo) (r 8)) [0, 1] (warm demo)).1.2.isEmpty }] : List Case), c.Ready) ∧
    (demo.lqueue 0 0).en = false ∧ ((demo.modQueue 0 0 fun q => { q with en := true, grids := [9] }).lqueue 0 0).full = true ∧
    ((demo.modQueue 0 0 fun q => { q with en := true }).lqueue 0 0).full = false := ⟨ready (by decide +kernel), by decide +kernel⟩

/-- FencesAndInvalidations. -/
theorem witness_fences : ∀ c ∈ ([
    { more := fun v => (demo.ex.fences.find demo.nextId).isNone && !v.trails }, { srcs := [u2 8, u 4], more := fun v => (poisonCauses v demo [0, 1] [u2 8, u 4]).isEmpty },
    { s := supervisor 2, srcs := tlbSrcs (.va (r 8) (r 4) (r 5)), more := fun v => v.sup == 2 }, { s := supervisor 2, srcs := tlbSrcs .all }] : List Case), c.Ready := ready (by decide +kernel)

/-- Gate 1 is open to the partition, with one token left; both strands hold its handle in x28 and a threshold in x30:x31. -/
def gated : State :=
  (both fun t => { t with x := AMap.set {} t.x 28 { val := 0x10000 } }).modDev fun d =>
    { d with gates := [(1, { v := true, acl := [0x8007], rate := 1, burst := 1, tokens := 1 })] }

/-- With the answer of the gate's unit at hand. -/
def told (a : GateAnswer) : State := gated.modGroup 0 fun g => { g with gate := some a }

/-- GateOperations: each of the three before it asks its gate's unit, and with each kind of answer. -/
theorem witness_gates :
    (∀ c ∈ ([{ s := gated, srcs := [u 28, u2 8], more := fun v => v.grp.gate.isNone && !gated.unperformed v [0, 1] && !gated.releasing v [0, 1] && [0, 1].all fun l => !gated.enginesBefore gated.nextId true (v.key l) },
      { s := told .accepted, srcs := [u 28, u2 8], more := fun v => v.grp.gate == some .accepted },
      { s := told .denied, srcs := [u 28, u2 8], more := fun v => v.grp.gate == some .denied && !(told .denied).ex.specs.has v.gk },
      { s := told (.empty 2048), srcs := [u 28, u2 8], more := fun v => v.grp.gate == some (.empty 2048) && !(told (.empty 2048)).ex.specs.has v.gk },
      { s := gated, srcs := [u 28], dsts := [(12, true)], more := fun v => v.ctx.vmode == 0 && v.grp.gate.isNone },
      { s := told .accepted, srcs := [u 28], dsts := [(12, true)], more := fun v => v.grp.gate == some .accepted }] : List Case), c.Ready) ∧
    ∀ c ∈ ([{ s := gated, ops := [u 28, u2 30], more := fun v => v.team.pair.isNone && v.ctx.vmode != 2 && 28 + 3 < v.grid.hdr.regs && [0, 1].all (fun l => (gated.elemNow v l 29).full
        && !(gated.elemNow v l 28).poison && !(gated.elemNow v l 30).poison && !(gated.elemNow v l 31).poison) }] : List TCase), c.Ready := ⟨ready (by decide +kernel), tready (by decide +kernel)⟩

/-! ### Long transfers -/

/-- The first 32 KiB translate by the one entry of a cache, and stand in the L2 without errors; no page is in a remote window. -/
structure Steady (c : Nat) (s : State) : Prop where
  cache : ∀ w, AMap.get [] s.mem.tcache (cacheFor c w) = [entry]
  clean : s.mem.errors = []
  near : s.dev.windows = []
  paid : s.mem.owing = []
  line : ∀ b, b < 128 → ∃ l, s.mem.l2.find b = some l

theorem low_va {w : Word64} (h : w.toNat < 2 ^ 15) : canonical w = true ∧ va57 w = w.toNat := by
  have h1 : w.extractLsb' 56 8 = 0 := by
    apply BitVec.eq_of_toNat_eq
    simp only [BitVec.extractLsb'_toNat, Nat.shiftRight_eq_div_pow]
    rw [Nat.div_eq_of_lt (by omega)]; rfl
  refine ⟨by simp [canonical, h1], ?_⟩
  simp only [va57, BitVec.extractLsb'_toNat, Nat.shiftRight_zero]
  omega

theorem Steady.translate {c : Nat} {s : State} (hs : Steady c s) {w : Word64} (h : w.toNat < 2 ^ 15) {n : BitVec 3} (hn : (7 &&& n : BitVec 3) = n) :
    s.translate c 1 w n = (.ok entry, s) := by
  have ⟨h1, h2⟩ := low_va h
  unfold State.translate
  dsimp only
  rw [hs.cache]
  have h3 : w.toNat < 1073741824 := by omega
  have h4 : (w.toNat / 1073741824 == 0) = true := by rw [Nat.div_eq_of_lt h3]; rfl
  simp [h1, h2, h4, entry, show (7#3 &&& n = n) = True from eq_true hn]

theorem judge_clean (l a : Nat) (r : SoftError → ErrRec) (ps : List Nat) (s : State) (h : s.mem.errors = []) : s.judge l a ps r = (false, s) := by
  unfold State.judge
  induction ps with
  | nil => rfl
  | cons p ps ih => rw [List.foldl_cons]; simpa [Mem.errorOf, h] using ih

theorem Steady.ensure {c : Nat} {s : State} (hs : Steady c s) {b : Nat} (h : b < 128) (a k : Nat) (us : List Nat) : s.l2Ensure b a k us = s := by
  obtain ⟨l, hl⟩ := hs.line b h
  have hf : s.remoteAt (256 * b) = none := by unfold State.remoteAt; rw [hs.near]; rfl
  simp [State.l2Ensure, State.l2Judge, judge_clean _ _ _ _ s hs.clean, hf, AMap.has, hl]

/-- The word at an address. -/
def wordHere (s : State) (a : Nat) : TWord := (s.l2Words (a / 256)).getD (a % 256 / 4) {}
/-- The words from an address on. -/
def wordsHere (s : State) (a : Nat) : Nat → List TWord
  | 0 => []
  | n + 1 => wordHere s a :: wordsHere s (a + 4) n

theorem Steady.slice {c : Nat} {s : State} (hs : Steady c s) {a : Nat} (h : a < 2 ^ 15) (k : Nat) : s.sliceRead a 1 k = (wordHere s a, s) := by
  unfold State.sliceRead
  have hf : s.remoteAt a = none := by unfold State.remoteAt; rw [hs.near]; rfl
  rw [hf]
  dsimp only
  rw [hs.ensure (by omega)]
  rfl

theorem paOf_low {w : Word64} (h : w.toNat < 2 ^ 15) : entry.paOf (va57 w) = w.toNat := by
  rw [(low_va h).2]; simp [TEntry.paOf, entry]; omega

/-- A read of the region answers the words that stand there and changes nothing. -/
theorem Steady.read {c : Nat} {s : State} (hs : Steady c s) (n : Nat) :
    ∀ w : Word64, w.toNat + 4 * n ≤ 2 ^ 15 → s.readVa c 1 w 1 n = (.ok (wordsHere s w.toNat n), s) := by
  induction n with
  | zero => intro w _; rfl
  | succ n ih =>
    intro w h
    have hw : (w + 4).toNat = w.toNat + 4 := by rw [BitVec.toNat_add]; simp; omega
    unfold State.readVa
    rw [hs.translate (w := w) (n := 1) (by omega) rfl]
    simp only [paOf_low (w := w) (by omega), hs.slice (a := w.toNat) (by omega)]
    rw [ih (w + 4) (by omega), hw]
    rfl

/-- So does a read of the loader or the scheduler whose words pass their checks. -/
theorem Steady.checked {c : Nat} {s : State} (hs : Steady c s) (n : Nat) :
    ∀ w : Word64, w.toNat + 4 * n ≤ 2 ^ 15 → (wordsHere s w.toNat n).all (fun t => t.judge.isNone) = true →
      s.readChecked c none 1 w n = (.ok ((wordsHere s w.toNat n).map (·.data)), s) := by
  induction n with
  | zero => intro w _ _; rfl
  | succ n ih =>
    intro w h hj
    have hw : (w + 4).toNat = w.toNat + 4 := by rw [BitVec.toNat_add]; simp; omega
    simp only [wordsHere, List.all_cons, Bool.and_eq_true, Option.isNone_iff_eq_none] at hj
    unfold State.readChecked
    rw [hs.translate (w := w) (n := rRD) (by omega) rfl]
    simp only [paOf_low (w := w) (by omega), hs.slice (a := w.toNat) (by omega), hj.1]
    rw [ih (w + 4) (by omega) (by rw [hw]; exact hj.2), hw]
    rfl

/-- And the reads of SALOAD. -/
theorem Steady.each {c : Nat} {s : State} (hs : Steady c s) (n : Nat) :
    ∀ w : Word64, w.toNat + 4 * n ≤ 2 ^ 15 → s.readEach c 1 w n = ((wordsHere s w.toNat n).map .ok, s) := by
  induction n with
  | zero => intro w _; rfl
  | succ n ih =>
    intro w h
    have hw : (w + 4).toNat = w.toNat + 4 := by rw [BitVec.toNat_add]; simp; omega
    have hp (a : Nat) : s.payAt a = s := by unfold State.payAt; rw [hs.paid]; rfl
    unfold State.readEach
    rw [hs.translate (w := w) (n := rRD) (by omega) rfl]
    dsimp only
    rw [hp, paOf_low (w := w) (by omega), hs.slice (a := w.toNat) (by omega)]
    dsimp only
    rw [ih (w + 4) (by omega), hw]
    rfl

/-- A region whose words are all one word. -/
theorem wordsHere_same {s : State} {z : TWord} {lo : Nat} (hz : ∀ b, lo ≤ b → b < 128 → ∀ i, i < 64 → (s.l2Words b).getD i {} = z) (n : Nat) :
    ∀ a, lo * 256 ≤ a → a + 4 * n ≤ 2 ^ 15 → wordsHere s a n = List.replicate n z := by
  induction n with
  | zero => intro a _ _; rfl
  | succ n ih =>
    intro a hl h
    unfold wordsHere wordHere
    rw [hz _ (by omega) (by omega) _ (by omega), ih (a + 4) (by omega) (by omega)]
    rfl

/-- A write to the region succeeds. -/
theorem Steady.write {c : Nat} {n : BitVec 3} (hn : (7 &&& n : BitVec 3) = n) (l : List TWord) :
    ∀ {s : State}, Steady c s → ∀ w : Word64, w.toNat + 4 * l.length ≤ 2 ^ 15 → ∃ t, s.writeVa c 1 w l n = (.ok (), t) := by
  induction l with
  | nil => intro s _ w _; exact ⟨s, rfl⟩
  | cons x l ih =>
    intro s hs w h
    simp only [List.length_cons] at h
    have hw : (w + 4).toNat = w.toNat + 4 := by rw [BitVec.toNat_add]; simp; omega
    have hk : Steady c (s.sliceWrite w.toNat 1 x) := by
      unfold State.sliceWrite
      have hf : s.remoteAt w.toNat = none := by unfold State.remoteAt; rw [hs.near]; rfl
      rw [hf]
      dsimp only
      rw [hs.ensure (by omega)]
      refine ⟨hs.cache, hs.clean, hs.near, hs.paid, fun b hb => ?_⟩
      obtain ⟨y, hy⟩ := hs.line b hb
      dsimp only [State.modMem]
      rw [AMap.find_modify]
      split <;> simp_all
    unfold State.writeVa
    rw [hs.translate (w := w) (by omega) hn]
    dsimp only
    rw [paOf_low (by omega)]
    exact ih hk (w + 4) (by omega)

theorem warm_line (s : State) (b : Nat) (h : b < 128) : (warm s).mem.l2.find b = some (warmLine b) :=
  (by decide +kernel : ∀ b < 128, warmLines.find b = some (warmLine b)) b h

/-- A cluster's own cache is the one that its cores use; a request from elsewhere uses some die's. -/
theorem warm_core (s : State) (h1 : AMap.get [] s.mem.tcache 0 = [entry]) (h2 : s.mem.errors = []) (h3 : s.dev.windows = []) (h4 : s.mem.owing = []) : Steady 0 (warm s) :=
  ⟨fun _ => h1, h2, h3, h4, fun b hb => ⟨_, warm_line s b hb⟩⟩

theorem cacheFor_die (w : Word64) : ∃ k, k < 4 ∧ cacheFor dieCache w = 40 + k :=
  ⟨Config.arrivalDie (va57 w / 4096) % 4, Nat.mod_lt _ (by decide), rfl⟩

/-- A state whose caches all hold the entry. -/
def everywhere (s : State) : State := s.modMem fun m => { m with tcache := [0, 40, 41, 42, 43].map fun n => (n, [entry]) }

theorem warm_die (s : State) (h2 : s.mem.errors = []) (h3 : s.dev.windows = []) (h4 : s.mem.owing = []) : Steady dieCache (warm (everywhere s)) := by
  refine ⟨fun w => ?_, h2, h3, h4, fun b hb => ⟨_, warm_line _ b hb⟩⟩
  obtain ⟨k, hk, e⟩ := cacheFor_die w
  rw [e]
  exact (by decide : ∀ k < 4, AMap.get [] ([0, 40, 41, 42, 43].map fun n => (n, [entry])) (40 + k) = [entry]) k hk

theorem warm_zero (s : State) : ∀ b, 32 ≤ b → b < 128 → ∀ i, i < 64 → ((warm s).l2Words b).getD i {} = TWord.fresh 0 := by
  intro b h1 h2 i hi
  unfold State.l2Words
  rw [warm_line s b h2]
  dsimp only [warmLine]
  rw [if_neg (by omega), List.getD_eq_getElem?_getD, List.getElem?_replicate, if_pos hi, Option.getD_some]

theorem zero_words (s : State) (n : Nat) (h : 0x2000 + 4 * n ≤ 2 ^ 15) : wordsHere (warm s) 0x2000 n = List.replicate n (TWord.fresh 0) :=
  wordsHere_same (warm_zero s) n 0x2000 (by decide) h

/-- The reads of MREST, SALOAD.chart and SALOAD.cells, the write of MSAVE, and the checks of what was read. -/
theorem witness_long_transfers :
    (∃ ts, (warm demo).readVa 0 1 0x2000 1 4112 = (.ok ts, warm demo) ∧ judgeWords ts = none) ∧
    (∃ u, (warm demo).writeVa 0 1 0x2000 ((tileImage ((warm demo).tileAt 0 0)).map TWord.fresh) = (.ok (), u)) ∧
    (∃ ts, (warm bound).readEach 0 1 0x2000 2049 = (ts.map .ok, warm bound) ∧ judgeWords ts = none ∧ (ts.getD 0 {}).data.toNat < 8) ∧
    ∃ ts, (warm bound).readEach 0 1 0x2000 33 = (ts.map .ok, warm bound) ∧ judgeWords ts = none ∧ ∀ i < 33, badRecordWord (i % 33) (ts.getD i {}).data = false := by
  have hd := warm_core demo rfl rfl rfl rfl
  have hb := warm_core bound rfl rfl rfl rfl
  refine ⟨⟨_, hd.read 4112 0x2000 (by decide), ?_⟩, hd.write rfl _ 0x2000 (by decide +kernel), ⟨_, hb.each 2049 0x2000 (by decide), ?_, ?_⟩,
    ⟨_, hb.each 33 0x2000 (by decide), ?_, ?_⟩⟩
  · rw [show (0x2000 : Word64).toNat = 0x2000 from rfl, zero_words _ _ (by decide)]; decide +kernel
  · rw [show (0x2000 : Word64).toNat = 0x2000 from rfl, zero_words _ _ (by decide)]; decide +kernel
  · rw [show (0x2000 : Word64).toNat = 0x2000 from rfl, zero_words _ _ (by decide)]; decide +kernel
  · rw [show (0x2000 : Word64).toNat = 0x2000 from rfl, zero_words _ _ (by decide)]; decide +kernel
  · rw [show (0x2000 : Word64).toNat = 0x2000 from rfl, zero_words _ _ (by decide)]; decide +kernel

/-! ### Events: for each clause of a statement a state that meets its hypotheses -/

/-- The group between runs: its split as given, no run in its slot. -/
def between (f : Split → Split) : State :=
  { (demo.modGroup 0 fun g => { g with splits := [f { pc := 0x10000, mask := 3, st := .ready }] }).modEx fun x => { x with runs := [] } with cur := none }
/-- The pilot's group between runs. -/
def pilotReady : State :=
  ((piloted 0).modEx fun x => { x with runs := [(0, 0)] }).modGroup 128 fun g => { g with splits := [{ pc := 0x20000, mask := 0xFFFFFFFF, st := .ready }] }
def some? {α : Type} (o : Option α) (p : α → Bool) : Bool := match o with | some x => p x | none => false

/-- A team whose PC is at 0x3000, whose line is absent, refused once, or marked in the L2; and one at an address that is not mapped. -/
def missing (again : Bool) (mark : Bool) : State :=
  let s := (warm demo).modGroup 0 fun g => g.modSplit 0 fun sp => { sp with pc := 0x3000 }
  s.modMem fun m => { m with
    l1i := if again then [(0, [{ asid := 1, va := 0x3000, words := [], refetch := true }])] else []
    l2 := if mark then m.l2.put 48 { words := List.replicate 64 { data := 0, mark := true } } else m.l2 }
def unmapped : State := (missing false false).modMem fun m => { m with tcache := [] }
def verdict (s : State) (again : Bool) (good : Bool) : Bool :=
  some? (s.missesLine 0 1 0x3000) fun e => e.2 == again && (let q := if again then (s.ilineDrop 0 1 0x3000).readCode 0 1 e.1.team 0x3000 3 else s.readCode 0 1 e.1.team 0x3000 4
    match q.2.lineVerdict e.1 0x3000 q.1 with
    | .ok r => r.2.isNone == good | .error _ => false)

/-- RunsAndFetches. -/
theorem witness_runs_and_fetches : ([
    some? ((between id).slotChoice 0 0) (fun e => e.1 == 0) && ((between id).startable 0 0).all (fun e => e.2.passed < 64) && (between id).slotGroup 0 0 == none
      && some? ((between id).viewOf 0 0) (fun v => v.grp.causebits == 0 && v.grp.missedAt.isNone && ((between id).badEntryAt v).isNone),
    (piloted 0).slotGroup 0 4 == some 128 && some? ((piloted 0).ex.groups.find 128) (fun g => (piloted 0).pilotMay (128, g) && g.block.isNone),
    pilotReady.slotGroup 0 4 == none && some? (pilotReady.pilotChoice 0) (fun e => e.1 == 128 && e.2.nextSplit == some 0),
    some? ((between fun sp => { sp with st := .awaiting, awaits := [(3, [12])] }).viewOf 0 0) (fun v => splitFull v demo v.split) && (between fun sp => { sp with st := .awaiting }).groupMoves 0,
    some? ((between fun sp => { sp with st := .arriving }).viewOf 0 0) (fun v => splitFull v demo v.split),
    some? ((between fun sp => { sp with st := .exiting }).viewOf 0 0) (fun v => !(v.lanes.filter (laneFull v demo v.split)).isEmpty && ((between fun sp => { sp with st := .exiting }).exitLanes v [0, 1]).isSome),
    verdict (missing false false) false true, verdict (missing false true) false false, verdict (missing true false) true true, verdict (missing true true) true false,
    some? (unmapped.missesLine 0 1 0x3000) (fun e => !e.2 && (match demo.lineVerdict e.1 0x3000 (unmapped.readCode 0 1 e.1.team 0x3000 4).1 with | .error _ => true | .ok _ => false))]
    : List Bool).all id = true := by decide +kernel

def dest : Dest := { strand := 2048, uid := 2, gk := 0, gid := 4, run := 5, isn := 50, lane := 0, top := false, reg := 12, pair := false }
def req (k : AccKind) (un : AccUnit) (got : Option TWord) (done : Bool) : Req :=
  { core := 0, asid := 1, kind := k, unit := un, ty := .s32, addr := 0x1000, va := 0x1000, width := 4, dest := dest, got := [got], done := done, rights := 7 }
def flying (q : Req) : State := demo.modEx fun x => { x with reqs := [(60, q)] }
def copy (n : Nat) : CopyReq :=
  { core := 0, team := 1, strand := 2048, uid := 2, lane := 0, pilot := false, form := .gs, strided := 0x1000, packed := 0, words := n, rows := 1, planes := 1, rstride := 0, pstride := 0 }
def copying (q : CopyReq) : State := (warm demo).modEx fun x => { x with copies := [(60, q)] }
def qld (got : AMap TWord) : QldOp := { core := 0, gk := 128, team := 1, q := 0, set_ := 0, lanes := 1, pas := [(0, 0x1000)], got := got }

/-- R119, R121: of one instruction's stores to one word, or atomics at one home slice, the higher lane waits for the lower; a store of
another word does not. -/
theorem test_lanes_in_order : ([(AccKind.store, 0x1000, true), (.store, 0x1004, false), (.atom .add, 0x1004, true)].all fun e =>
    let low := req e.1 .slice none false
    let high : Req := { low with addr := e.2.1, va := e.2.1, dest := { dest with lane := 1, strand := 2049, uid := 3 } }
    ((flying low).modEx fun x => { x with reqs := x.reqs ++ [(61, high)] }).reqBlocked 61 high == e.2.2) = true := by decide

/-- ResultsAndTransfers. -/
theorem witness_results_and_transfers : ([
    (req .load .slice (some (TWord.fresh 7)) true).fwd.isNone && (judgeWords (wordsOfReq (req .load .slice (some (TWord.fresh 7)) true))).isNone,
    (match (flying (req (.atom .add) .slice (some (TWord.fresh 7)) true)).logStrand 2048 2 2 7 with | .val x _ => x == 7 | _ => false),
    (req .load .slice (some { data := 0, mark := true }) true).returns && (judgeWords (wordsOfReq (req .load .slice (some { data := 0, mark := true }) true))) == some (12, 0),
    (flying (req .load .scratch none false)).loadHere 60 (req .load .scratch none false)
      && some? (((flying (req .load .scratch none false)).runReq 60 (req .load .scratch none false) 0).ex.reqs.find 60) (fun q => q.kind == .load && q.done && q.fwd.isNone && (judgeWords (wordsOfReq q)).isNone),
    (cached (flying (req .load .l1 none false))).loadHere 60 (req .load .l1 none false)
      && some? (((cached (flying (req .load .l1 none false))).runReq 60 (req .load .l1 none false) 0).ex.reqs.find 60) (fun q => q.done && (judgeWords (wordsOfReq q)).isNone),
    decide ((demo.ex.teams.find (dest.strand / 2048)).bind (·.pair) = none),
    !(flying (req .load .l1 none false)).trailing (req .load .l1 none false) && !(flying (req .load .l1 none false)).reqBlocked 60 (req .load .l1 none false)
      && !(flying (req .load .l1 none false)).l1Hit 0 1 0x1000 4,
    !(flying (req .store .slice none false)).reqBlocked 60 (req .store .slice none false) && (req .store .slice none false).left == [0],
    decide (1 < ({ req .load .slice none false with ty := .s64, width := 8, got := [none, none] }).left.length),
    (copying (copy 8)).copyReady 60 (copy 8) && decide (1 < (copy 8).unmoved.length),
    (copying (copy 1)).copyReady 60 (copy 1) && (copy 1).unmoved == [0] && some? (((copying (copy 1)).copyWord 60 (copy 1) 0).ex.copies.find 60) (fun q => q.unmoved.isEmpty),
    some? (((copying { copy 1 with strided := 2 ^ 40 }).copyWord 60 { copy 1 with strided := 2 ^ 40 } 0).ex.copies.find 60) (fun q => q.unmoved == [0]),
    (match demo.logStrand 2048 2 4 (ofTwo [1, 2]) with | .val _ u => u.ex.teams == demo.ex.teams | _ => false),
    (copying { copy 1 with moved := [(0, true)] }).copyReady 60 { copy 1 with moved := [(0, true)] } && ({ copy 1 with moved := [(0, true)] }).unmoved.isEmpty,
    ((piloted 0).modEx fun x => { x with qlds := [(60, qld [])] }).qldLanes 60 (qld []) == [0],
    ((piloted 0).modEx fun x => { x with qlds := [(60, qld [(0, TWord.fresh 0)])] }).qldReady 60 (qld [(0, TWord.fresh 0)])] : List Bool).all id = true := by decide +kernel

/-- A request that carries data, and one for a pair. -/
def writing (k : AccKind) (un : AccUnit) : Req := { req k un none false with data := [5] }
def narrow (un : AccUnit) (got : Option TWord) : Req := { req .store un got false with data := [5], ty := .z8, width := 1, sub := true }
def performingB (s : State) (q : Req) : Bool :=
  s.ex.reqs.find 60 == some q && !q.done && s.mem.errors.isEmpty && s.mem.owing.isEmpty && !q.owed && !q.wide && q.width == accWidth q.ty && q.got.length == q.count && q.va % q.width == 0
    && q.addr % 128 == q.va % 128

theorem performing_of {s : State} {q : Req} (h : performingB s q = true) : Performing s 60 q := by
  simp only [performingB, Bool.and_eq_true, beq_iff_eq, Bool.not_eq_true', List.isEmpty_iff] at h
  obtain ⟨⟨⟨⟨⟨⟨⟨⟨⟨h1, h2⟩, h3⟩, h4⟩, h5⟩, h6⟩, h7⟩, h8⟩, h9⟩, h10⟩ := h
  exact ⟨h1, h2, ⟨h3, h4, h5⟩, .inl h6, ⟨h7, h8⟩, ⟨h9, h10⟩⟩

/-- The line of 0x1000 with its word 0 dirty and the rest not yet filled. -/
def partly (s : State) : State := (cached s).modMem fun m => { m with l1d := m.l1d.map fun e => (e.1, { e.2 with filled := false, dirty := 2 }) }

/-- AccessesInFlight, performed at the own L1: with the line there, whole or in part, and without it. -/
theorem witness_performed_at_l1 :
    (∀ q ∈ [writing .store .l1, narrow .l1 none, req .load .l1 none false, writing (.red .add) .l1, writing (.atom .add) .l1], Performing (cached (flying q)) 60 q ∧
      ((cached (flying q)).l1Key q.core q.asid q.va == some 256 && ((cached (flying q)).l1Line 256).words.length == 32 && ((cached (flying q)).l1Line 256).filled
        && (((cached (flying q)).l1Line 256).words.getD 0 {}).judge.isNone && (cached (flying { q with hit := true })).reqHits { q with hit := true }
        && (((cached (flying q)).l1Line 256).rights &&& q.right == q.right) && (cached (flying q)).mayPerform 60 q == q.localWrite) = true) ∧
    (Performing (warm (partly (flying (req .load .l1 none false)))) 60 (req .load .l1 none false) ∧
      ((warm (partly (flying (req .load .l1 none false)))).l1Key 0 1 0x1000 == some 256 && ((warm (partly (flying (req .load .l1 none false)))).mem.l2.find 16).isSome
        && !((warm (partly (flying (req .load .l1 none false)))).l1Line 256).filled && !((warm (partly (flying (req .load .l1 none false)))).l1Line 256).isDirty 0) = true) ∧
    Performing (flying (writing .store .l1)) 60 (writing .store .l1) ∧ (flying (writing .store .l1)).l1Key 0 1 0x1000 = none := by
  refine ⟨fun q hq => ?_, ⟨performing_of (by decide +kernel), by decide +kernel⟩, performing_of (by decide +kernel), by decide +kernel⟩
  simp only [List.mem_cons, List.not_mem_nil, or_false] at hq
  obtain rfl | rfl | rfl | rfl | rfl := hq <;> exact ⟨performing_of (by decide +kernel), by decide +kernel⟩

/-- AccessesInFlight, performed at the home slice: the block is there, a clean copy stands in the own L1, or none; a sub-word store before and after it has read its word. -/
theorem witness_performed_at_slice :
    ∀ q ∈ [writing .store .slice, narrow .slice none, narrow .slice (some (TWord.fresh 9)), req .load .slice none false, writing (.red .add) .slice, writing (.atom .add) .slice],
      ∀ s ∈ [warm (flying q), warm (cached (flying q))], Performing s 60 q ∧
        (q.count == 1 && s.dev.windows.isEmpty && (s.l1Key 0 1 0x1000).all (fun k => !(s.l1Line k).isDirty 0) && s.mem.l2.has 16 && (s.mem.l2.find 16).any (fun l => l.words.length == 64
          && (l.words.getD 0 {}).judge.isNone) && (s.ex.teams.find 1).any (·.pair.isNone)) = true ∧ s.l2Ensure 16 1 0 [0] = s := by
  intro q hq s hs
  simp only [List.mem_cons, List.not_mem_nil, or_false] at hq hs
  obtain rfl | rfl := hs
  · refine ⟨?_, ?_, (warm_core (flying q) rfl rfl rfl rfl).ensure (by decide) 1 0 [0]⟩ <;> obtain rfl | rfl | rfl | rfl | rfl | rfl := hq <;>
      first | exact performing_of (by decide +kernel) | decide +kernel
  · refine ⟨?_, ?_, (warm_core (cached (flying q)) rfl rfl rfl rfl).ensure (by decide) 1 0 [0]⟩ <;> obtain rfl | rfl | rfl | rfl | rfl | rfl := hq <;>
      first | exact performing_of (by decide +kernel) | decide +kernel

def errRec0 : ErrRec := errRec 2 0 0 0 0 0 0 1 0
/-- MemoryEvents: a block with and without an owner; each scrub level at the start; an open record a millisecond old; walks that fault, that fill the L1, that bring a block in. -/
theorem witness_memory_events : ([
    ((demo.modMem fun m => { m with base := [(60, { block := 16, kind := .read })] }).baseOf 16).head? == some 60 && demo.hasTokens 16,
    [ScrubLevel.hbm, .msc, .metadata, .l2, .l1, .scratch].all (fun l => (demo.modDev fun d => { d with clock := demo.scrubNext l }).scrubNext l ≤ (demo.modDev fun d => { d with clock := demo.scrubNext l }).dev.clock),
    some? ((demo.modMem fun m => { m with openRecs := [(3, (errRec0, 0))] }).mem.openRecs.find 3) (fun e => e.2 + 1250000 ≤ (demo.modDev fun d => { d with clock := 1250000 }).dev.clock),
    (match (unmapped.translate 0 1 (sx57 0x1000) 1).1 with | .error _ => true | .ok _ => false),
    (match (demo.translate 0 1 (sx57 0x1000) 1).1 with | .ok e => e.mt != 1 | .error _ => false)] : List Bool).all id = true := by decide +kernel

def fence (rel acq : Bool) : FenceOp := { core := 0, gk := 0, strands := [2048, 2049], wide := true, rel := rel, acq := acq, pc := 0x10000 }
def blockedBy (b : Block) : State := demo.modGroup 0 fun g => { g with block := some b }
/-- WaitsOfTheIssuer. -/
theorem witness_waits_of_the_issuer : ([
    (demo.modEx fun x => { x with fences := [(60, fence true false)] }).fenceReady 60 (fence true false) && (demo.fenceView (fence true false)).isSome,
    (demo.modEx fun x => { x with fences := [(60, fence false true)], specs := [(0, { fence := 60, grp := group, strands := [], fencePc := 0x10000 })] }).fenceReady 60 (fence false true),
    (blockedBy (.tlbinv 60 [.all])).ex.reqs.isEmpty && (blockedBy (.tlbinv 60 [.all])).ex.qlds.isEmpty && (blockedBy (.tlbinv 60 [.all])).ex.fills.isEmpty, some? ((blockedBy .icinv).ex.groups.find 0) (fun g => g.block == some .icinv),
    some? ((blockedBy .cwb).ex.groups.find 0) (fun g => g.block == some .cwb), demo.checkTile 1 team 0 .claim != .block,
    (demo.pilotOf 1).isNone, some? ((piloted 0).pilotOf 1) (fun p => (piloted 0).pilotQuiet p)] : List Bool).all id = true := by decide +kernel

def product : MOp := .mma { base := 0x2000, stride := 64, scratch := false } { base := 0x2000, stride := 64, scratch := false } 5 5 32
def multiplying (f : MInstr → MInstr) : State := warm (owner.modEx fun x => { x with mq := [(0, [f (mop product)])] })
def sweep : SInstr := { team := 1, gk := 0, pc := 0x10000, dests := [], op := .sweep 0 1 false }
def sweeping : Sampler := { bound := some { asid := 1, grid := 1, team := 0 }, loaded := true, queue := [sweep], remain := 1, colour := 1, ncolm1 := 1 }
def waiting (sleep : Bool) (num : Word) : State := between fun sp => { sp with st := .awaiting, bw := [{ lane := 0, num := num, sleep := sleep }] }
/-- Its batch is open and its promise is past. -/
def promised : State := (waiting true 1).modStrand 2048 fun t => { t with sealedNo := 1, batches := [{ num := 1, promise := 900 }] }
/-- The group handles a trap, and its split waits behind it. -/
def handling (s : State) : State := s.modGroup 0 fun g => { g with hm := true, splits := [], saved := some { splits := g.splits, idx := 0 } }
/-- Split 0's batch wait may end by a test. -/
def endsBatch (s : State) (test : View → BatchWait → Bool) : Bool :=
  some? (s.viewAny 0 0) fun v => s.groupMoves 0 && v.split.st != .running && (v.split.bw.find? fun w => !w.ended && test v w).isSome
def logsEnd (s : State) : Bool := match s.logStrand 2048 2 1 1000 with | .val _ _ => true | _ => false
/-- EngineEvents: an instruction whose check is due, one that needs no fetch, chunks to read and to add; a phase of an array without cells; batch waits that end. -/
theorem witness_engine_events : ([
    some? ((multiplying fun i => { i with check := true }).matrixHead 0) (fun i => i.check && some? ((multiplying id).engineView i.team i.gk i.pc 0) (fun v =>
      match (multiplying id).checkTile i.team v.team i.tile .use with | .cause _ _ => false | _ => true)),
    some? (busy.matrixHead 0) (fun i => some? (busy.engineView i.team i.gk i.pc 0) fun v => (busy.performMatrix 0 i v).isSome),
    some? ((multiplying id).matrixHead 0) (fun i => !i.check && i.fetched.isNone && i.chunks < 32 / 32 && !(multiplying id).matrixHeld i),
    (match ((multiplying id).readRows team 1 { base := 0x2000, stride := 64, scratch := false } 0 (chunkWords 5 32) [0, 1, 2, 3]).1 with | .ok _ => true | .error _ => false),
    some? ((multiplying fun i => { i with fetched := some ([], []) }).matrixHead 0) (fun i => i.fetched == some ([], [])) && (multiplying id).mem.errors.isEmpty,
    endsBatch (waiting false 0) (batchOver · (waiting false 0) ·), endsBatch (waiting true 0) (batchOver · (waiting true 0) ·) && logsEnd (waiting true 0),
    endsBatch promised (promiseOver · promised ·) && logsEnd promised,
    endsBatch (handling (waiting true 0)) (batchOver · (handling (waiting true 0)) ·), endsBatch (handling promised) (promiseOver · (handling promised) ·)] : List Bool).all id = true := by decide +kernel

/-- SWEEP_COLOUR_PHASE: no cell has the colour, so that its phase draws nothing; it is the last colour of the last sweep, the last of an earlier one, and not the last. -/
theorem witness_colour_phase :
    sweeping.phaseCells = [] ∧ ([(demo.modEx fun x => { x with arrays := [(0, sweeping)] }).array 0 == sweeping, sweeping.remain == 1, ({ sweeping with remain := 2 }).remain != 0,
      (demo.phaseDraws 1 grid team sweeping []).isSome, demo.mem.errors.isEmpty, !sweeping.entropy, sweeping.colour == sweeping.ncolm1.toNat,
      ({ sweeping with ncolm1 := 2 }).colour < ({ sweeping with ncolm1 := 2 }).ncolm1.toNat, (demo.engineView 1 0 0x10000 0).isSome] : List Bool).all id = true := by
  refine ⟨?_, by decide +kernel⟩
  unfold Sampler.phaseCells
  rw [List.filter_eq_nil_iff]
  intro i _
  simp [sweeping, Sampler.cell, AMap.get]

def filing : State := between fun sp => { sp with st := .filing 0x20000 }
def bin (n : Nat) (launching : Bool) : Bin := { team := 1, pc := 0x20000, ranks := [0, 1], started := 0, qset := n, launching := launching }
def binned (launching : Bool) : State := { (demo.modEx fun x => { x with groups := [], runs := [], bins := [(3, bin 0 launching)] }) with cur := none }
/-- One strand more has a place. -/
def full31 : State := filing.modEx fun x => { x with bins := (List.range 32).map fun n =>
  (n, if n = 0 then { bin 0 false with ranks := (List.range 31).map (· + 2) } else { bin 0 false with pc := 0x30000, ranks := [n + 40] }) }
/-- Every bin of the core holds strands of another PC. -/
def full32 : State := filing.modEx fun x => { x with bins := (List.range 32).map fun n => (n, { bin 0 false with pc := 0x30000, ranks := [n + 2] }) }
def gone : State := { (demo.modEx fun x => { x with groups := [], runs := [], strands := [] }) with cur := none }
def arrived : State := { (both fun t => { t with arrived := true }).modEx fun x => { x with groups := x.groups.modify 0 fun g => { g with splits := [{ pc := 0x10000, mask := 3, st := .parked .bar }] }, runs := [] } with cur := none }
/-- With its twin on core 16 as the trailer of a core pair. -/
def paired (s : State) : State :=
  (s.modEx fun x => { x with
      teams := (x.teams.modify 1 fun t => { t with pair := some (true, 2) }).put 2 { team with core := 16, pair := some (false, 1) }
      strands := x.strands ++ x.strands.map fun e => (e.1 + 2048, e.2) }).modOrg fun o =>
    { o with pairs := [(1, { trailer := 2, asid := 1 })] }
/-- StrandsAndTeams. -/
theorem witness_strands_and_teams : ([
    some? (filing.viewOf 0 0) (fun v => v.split.st == .filing 0x20000 && splitFull v filing v.split && (filing.fileStrands 0 1 0x20000 0 false [0, 1]).1.isEmpty
      && v.split.missed.isEmpty && (v.rank 0).isSome) && filing.groupMoves 0,
    (full32.fileStrands 0 1 0x20000 0 false [0, 1]).1.length == 2 && full32.canForce 0 2048,
    some? ((full31.viewOf 0 0)) (fun v => let ls := v.lanes.filter fun l => (v.rank l).isSome
      let r := full31.fileStrands 0 1 0x20000 v.grp.qset false (ls.filterMap v.rank)
      r.1 != [] && r.1.length < ls.length), (binned false).proofDue (bin 0 false), (binned true).nextLaunch 0 == some 3 && ((binned true).launchContext 0 (bin 0 true)).isSome,
    (demo.badTarget 0 1 team 0x20000).isNone, arrived.barReady 1, (paired arrived).barReady 1 && (paired arrived).barReady 2 && (paired arrived).pairQuiet 1 2, gone.teamDone 1,
    (paired gone).teamDone 1 && (paired gone).teamDone 2,
    some? ((demo.modOrg fun o => { o with frames := [(frameKey 0 0x400000, { part := 0, base := 0x400000, rounded := 4096, size := 4096, refs := 0, level := 0, slink := 0, grid := 1, asid := 1, discarding := true })] }).org.frames.find
      (frameKey 0 0x400000)) (·.discarding)] : List Bool).all id = true := by decide +kernel

/-- A group whose split waits. -/
def parkedOn (w : Wait) : State := between fun sp => { sp with st := .parked w }
def joining : State := (parkedOn (.joinw 0x10000 0 (some 900) 100)).modGroup 0 fun g =>
  { g with splits := g.splits.map (fun sp => { sp with mask := 1 }) ++ [{ pc := 0x10000, mask := 2, st := .ready }] }
def watching (line deadline : Option Nat) : State :=
  (parkedOn (.mwait [{ lane := 0, line := line, seq := 0, deadline := deadline }])).modMem fun m => { m with wseq := [(64, 1)] }
def sleeping : State := parkedOn (.sleep [(0, 1000)])
/-- The lane's wait may end, and its end can be logged. -/
def endsLane (s : State) (p : View → Bool) : Bool :=
  some? (s.viewOf 0 0) fun v => s.groupMoves 0 && p v && (match s.logStrand (v.key 0) (s.strandAt (v.key 0)).uid 1 1000 with | .val .. => true | _ => false)
/-- One operation stands at gate 1's unit. -/
def unitHolds (o : GateOp) : State := gated.modDev fun d => { d with gops := [(1, [(0, o)])] }
/-- The gate's bucket is empty. -/
def spent : State := gated.setGate 1 { gated.gate 1 with tokens := 0 }

/-- TimersAndGates. -/
theorem witness_timers_and_gates : ([
    joining.groupMoves 0 && some? (joining.viewOf 0 0) (fun v => (joining.joinLogged v).isNone) && some? (joining.ex.groups.find 0) fun g => (joining.joinEnd 0 g).isNone,
    endsLane (watching (some 64) none) fun v => some? (laneWait v 0) fun w => some? w.line fun n => w.seq < AMap.get 0 (watching (some 64) none).mem.wseq n,
    endsLane (watching none (some 1000)) fun v => some? (laneWait v 0) fun w => some? w.deadline fun d => d ≤ 1000,
    endsLane sleeping fun v => v.split.st == .parked (.sleep [(0, 1000)]),
    some? ((parkedOn (.gwait 0x10000 7 (some 900) 100 28 (some 3) none)).ex.groups.find 0) fun g => some? g.allSplits[0]? fun sp => sp.st == .parked (.gwait 0x10000 7 (some 900) 100 28 (some 3) none),
    [0, 1, 2].all (fun n => gated.gateCurrent 0x10000 && (gated.gate 1).allows 0 n) && !gated.gateCurrent 0x10001,
    ((gated.gate 1).charge (BitVec.ofNat 64 gated.dev.clock)).2.isNone, ((spent.gate 1).charge (BitVec.ofNat 64 spent.dev.clock)).2.isSome && spent.gateCurrent 0x10000 && (spent.gate 1).allows 0 0,
    (gated.ex.groups.find 0).isSome, (gated.gate 1).v] : List Bool).all id = true := by decide +kernel

/-- The group's split asks gate 1's unit for a wait. -/
def asking : State := (parkedOn (.asking 40 0x10040 0x10000 5 100 28)).modDev fun _ => gated.dev
/-- TimersAndGates: what the unit's operations and answers find. -/
theorem witness_gate_answers : ([(gated.gateWindow 1).isNone, (gated.ex.groups.find 0).isSome, (parkedOn (.gwait 0x10000 7 (some 900) 100 28 (some 3) none)).teamRuns 1,
    some? (asking.ex.groups.find 0) fun g => some? (g.askingAt 40) fun i => some? (asking.viewAny 0 i) fun v => v.split.st == .parked (.asking 40 0x10040 0x10000 5 100 28)
      && (GateAnswer.cause .denied 0x10000 v.split.mask).isSome] : List Bool).all id = true := by decide +kernel

theorem witness_gate_unit (o : GateOp) : (AMap.get [] (unitHolds o).dev.gops 1)[arrives (unitHolds o) 1]? = some (0, o) := by
  have h : AMap.get [] (unitHolds o).dev.gops 1 = [(0, o)] := rfl
  simp [arrives, h, gateNext, Nat.mod_one]

/-- A grid of two teams stands at the head of the enabled queue 0; the partition has a heap of n bytes. -/
def queued (n : Nat) : State :=
  (((demo.modCtx 1 fun c => { c with shadowPool := 16777216 }).modPart 0 fun p => { p with free := [(0x100000, n)], heapSize := n }).modOrg fun o => { o with grids := o.grids.put 2 { grid with num := 2, dispatched := 0, display := [], fsizes := [] } }).modQueue 0 0
    fun q => { q with en := true, grids := [2] }
/-- The dies have the translation, and the header in the L2 is of level 0. -/
def scheduling : State := (warm (everywhere demo)).modMem fun m => { m with l2 := m.l2.put 16 { words := (warmLine 16).words.set 48 (TWord.fresh 0x40200000) } }
def enabled : State := scheduling.modQueue 0 0 fun q => { q with en := true }

theorem scheduling_steady : Steady dieCache enabled := by
  have h := warm_die demo rfl rfl rfl
  refine ⟨h.cache, h.clean, h.near, h.paid, fun b hb => ?_⟩
  obtain ⟨l, hl⟩ := h.line b hb
  show ∃ l, AMap.find (AMap.put (warm (everywhere demo)).mem.l2 16 _) b = some l
  rw [AMap.find_put]
  split
  · exact ⟨_, rfl⟩
  · exact ⟨l, hl⟩

/-- The scheduler reads a good record at 0x1000, whose header is of level 0. -/
theorem witness_submission : ∃ a b, enabled.checkLaunch dieCache none 1 none 0x1000 = (.ok (a, b), enabled) := by
  have h1 := scheduling_steady.checked 16 0x1000 (by decide) (by decide +kernel)
  have h2 := scheduling_steady.checked 32 0x1080 (by decide) (by decide +kernel)
  refine ⟨parseRecord ((wordsHere enabled 0x1000 16).map (·.data)), parseHeader ((wordsHere enabled 0x1080 32).map (·.data)), ?_⟩
  unfold State.checkLaunch
  rw [if_neg (by decide), h1]
  dsimp only
  rw [show badRecordField ((wordsHere enabled (0x1000 : Word64).toNat 16).map (·.data)) = none from by decide +kernel,
    show badSlot (parseRecord ((wordsHere enabled (0x1000 : Word64).toNat 16).map (·.data))).slots = none from by decide +kernel]
  dsimp only
  rw [show (parseRecord ((wordsHere enabled (0x1000 : Word64).toNat 16).map (·.data))).khdr = 0x1080 from by decide +kernel, h2]
  dsimp only
  rw [show badHeader ((wordsHere enabled (0x1080 : Word64).toNat 32).map (·.data)) = none from by decide +kernel]
  dsimp only
  rw [if_neg (by decide +kernel), if_neg (by decide +kernel)]
  rfl
/-- SchedulerEvents: an empty heap, a heap with room; a team with a prefetch list; a submission that a queue takes, one that it does not; a queue that is there, one that is not. -/
theorem witness_scheduler_events : ([
    ((queued 65536).queueChoice 0).isSome, ((queued 0).removal 0).isSome, ((queued 65536).removal 0).isNone,
    some? ((queued 65536).org.parts.find 0) fun p => p.nextDispatch ≤ 1000,
    (let t := (List.range 4).foldl (fun s l => s.levelRounds 0 l) (queued 65536)
     some? (t.queueChoice 0) fun c => some? (t.headGrid 0 c.2) fun e => (t.fits e.2).isSome),
    (demo.modTeam 1 fun t => { t with prefetch := [0x10000] }).teamRuns 1, (demo.asidOf 1).isSome,
    enabled.ctxOf 0 (enabled.lqueue 0 0).ctx.toNat == some 1, (enabled.lqueue 0 0).en && !(enabled.lqueue 0 0).full, demo.hasQueue 0 0, !demo.hasQueue 0 9,
    ((demo.modChannel 0 0 fun c => { c with en := true }).channel 0 0).en] : List Bool).all id = true := by decide +kernel

def asid1 (f : Ctx → Ctx) : State := demo.modCtx 1 f
/-- A halted context one of whose save-area pages is not mapped. -/
def faultyPages : State := asid1 fun c => { c with halted := true, savePages := [0] }
/-- The leader and the trailer of a core pair have a signature each, equal or not. -/
def signed (same : Bool) : State := (paired demo).modPair 1 fun p => { p with buffer := [(5, 0x10000)], tsigs := [(if same then 5 else 6, 0x10000)] }
def staggered : State := (paired demo).modPair 1 fun p => { p with stagger := 1000, released := false }
def ctxReq (asid : Nat) : CtxReq := { part := 0, ctx := 1, asid := asid, s1root := 0, shadowPool := 0, savePages := [], heapBase := 0, heapSize := 0, preempt := 0, inject := 0, pair := 0, vlog := 0 }
/-- ContextControl: a halted context; signatures that match and that do not; a request that is granted, and one for an ASID in use. -/
theorem witness_context_control : ([
    some? ((asid1 fun c => { c with halted := true }).org.ctxs.find 1) fun c => c.halted && !c.interrupt && ((asid1 fun c => { c with halted := true }).saveWrites 1 c).1,
    some? (faultyPages.org.ctxs.find 1) fun c => c.halted && !c.interrupt && !(faultyPages.saveWrites 1 c).1,
    [true, false].all fun b => some? ((signed b).org.pairs.find 1) fun p => p.buffer.length == 1 && p.tsigs.length == 1 && (signed b).teamRuns 1 && some? ((signed b).org.ctxs.find p.asid) fun c => !c.injectHits 1,
    some? (staggered.org.pairs.find 1) fun p => !p.released && p.stagger ≤ staggered.dev.clock && some? (staggered.ex.teams.find 1) (·.ready)
      && some? (staggered.ex.teams.find p.trailer) (fun u => u.prefetch.isEmpty) && staggered.teamRuns p.trailer,
    demo.asidFree (ctxReq 2).asid && (demo.ctxOf 0 1).isNone && some? (demo.org.parts.find 0) fun p => (demo.org.ctxs.filter fun e => e.2.part == 0).length < p.contexts && (demo.pagesPinned 0 p []).1
      && demo.heapNamed 0 p (ctxReq 2) && poolsFit p ((demo.org.ctxs.filter fun e => e.2.part == 0).map (·.2)) (ctxReq 2),
    some? (demo.org.parts.find 0) fun p => !demo.heapNamed 0 p { ctxReq 2 with heapSize := 4096 },
    demo.org.ctxs.has (ctxReq 1).asid] : List Bool).all id = true := by decide +kernel

/-- The root's chart has two entries, of contexts 0 and 1, and stands at the first; its tick has come. -/
def chart : Chart := { epoch := 500, period := 8192, clmask := 1, entries := [{ dur := 4096, child := 0, ctx := 0 }, { dur := 4096, child := 0, ctx := 1 }] }
def charted (i : Nat) : State := demo.modPart 0 fun p => { p with chart := some chart, chartAt := i, nextTick := 1000 }
def without (s : State) : State := s.modEx fun x => { x with teams := [], groups := [], strands := [], runs := [] }
def ladder (g : Stage) (f : Ctx → Ctx) : State := asid1 fun c => f { c with ladder := some (0, g), preempt := 0 }
/-- In its last stage, its records written, with these pages of a save area. -/
def savingTo (ps : List Nat) : State := ladder .saving fun c => { c with interrupt := true, savePages := ps }
/-- The team has been saved, its context not, and lately. -/
def parkedTeam (f : Ctx → Ctx) : State := (without (asid1 f)).modEx fun x => { x with teams := [(1, { team with saved := true })] }
/-- PreemptionLadder: ticks into the chart's first entry, and out of it with and without teams; the stages when they end early, at their time and with nothing left; resumes. -/
theorem witness_preemption : ([
    ((charted 0).chartEntry 0).bind ((charted 0).ctxAt 0) == none, ((charted 1).chartEntry 0).bind ((charted 1).ctxAt 0) == some 1, ((charted 1).residentOf 1).length == 1, ((without (charted 1)).residentOf 1).isEmpty,
    some? ((charted 1).org.parts.find 0) fun p => p.nextTick ≤ 1000 && p.chart.isSome,
    [Stage.drain, .reconverge, .saving].all fun g => some? ((ladder g id).org.ctxs.find 1) fun c => c.ladder == some (0, g) && 0 + (c.preempt.extractLsb' 2 20).toNat ≤ 1000 && forced c 0 ≤ 1000
      && 0 + (c.preempt.extractLsb' 42 20).toNat ≤ 1000 && !((ladder g id).residentOf 1).isEmpty && ((without (ladder g id)).residentOf 1).isEmpty,
    (without (ladder .reconverge id)).allStopped 1, some? ((savingTo [0]).org.ctxs.find 1) (fun c => c.interrupt && !((savingTo [0]).saveWrites 1 c).1) && (savingTo [0]).saveQuiet 1,
    some? ((savingTo []).org.ctxs.find 1) (fun c => c.interrupt && ((savingTo []).saveWrites 1 c).1) && (savingTo []).saveQuiet 1,
    some? ((parkedTeam fun c => { c with saved := true, faulted := true }).org.ctxs.find 1) fun c => c.saved && c.faulted && c.ladder.isNone,
    some? ((parkedTeam fun c => { c with saved := true }).org.ctxs.find 1) fun c => c.saved && !c.faulted && (parkedTeam fun c => { c with saved := true }).runsNow c && (parkedTeam fun c => { c with saved := true }).someFits 1 c,
    some? ((asid1 fun c => { c with halted := true, interrupt := true }).org.ctxs.find 1) fun c => c.halted && c.interrupt && !c.saved,
    some? ((parkedTeam id).org.ctxs.find 1) fun c => !c.saved && !c.halted && (parkedTeam id).someFits 1 c, demo.dev.power == 0 && demo.dev.entering.isNone] : List Bool).all id = true := by decide +kernel

def partReq (n rate : Nat) : PartReq :=
  { part := n, clusters := [1], shared := [], granules := [], dieLocal := none, colours := [3], rate := rate, burst := 1, contexts := 1, queues := 1, heapBytes := 0, shadowBytes := 0, saveBytes := 0, s2root := 0, helm := [1], wantVf := false,
    features := 0, byHostOrRoot := true }
/-- A number as n bytes, the lowest first. -/
def le (n x : Nat) : List Byte := (List.range n).map fun i => BitVec.ofNat 8 (x / 256 ^ i)
/-- A code object's file: one section of 8 bytes at 192, of a kind and for a VA; a symbol at its byte 4, and a relocation that puts the low half of the symbol's
address plus 8 at its byte 0 (R328, R330). -/
def object (tag kind va : Nat) : CodeFile :=
  { bytes := le 8 tag ++ le 8 1 ++ ([(128, 32), (192, 8), (256, 32), (320, 24), (384, 0), (384, 0)].flatMap fun (e : Nat × Nat) => le 8 e.1 ++ le 8 e.2) ++ le 16 0
      ++ le 8 kind ++ le 8 8 ++ le 8 8 ++ le 8 192 ++ le 32 0 ++ le 64 0 ++ le 8 0 ++ le 8 0 ++ le 8 4 ++ le 8 1 ++ le 32 0 ++ le 8 0 ++ le 8 1 ++ le 8 8 ++ le 40 0
    places := [{ va := va, mapVa := 0, imageVa := 0, segVa := 0 }], gotVa := 0x3000 }
/-- What it holds, and its section relocated: 0x2000 + 4 + 8. -/
def parsed (kind va : Nat) : CodeObject :=
  { sections := [{ kind := kind, align := 8, size := 8, va := va, mapVa := 0, imageVa := 0, segVa := 0, words := [0, 0] }], symbols := [{ sect := some 0, value := 4, header := false }]
    relocs := [{ site := 0, ty := 1, sect := 0, sym := 0, addend := 8 }], gotVa := 0x3000 }
def relocated (va : Nat) (w : Word) : List ObjSection := [{ kind := 2, align := 8, size := 8, va := va, mapVa := 0, imageVa := 0, segVa := 0, words := [w, 0] }]

/-- LOAD_CODE_OBJECT: a file with another tag, a section of no kind, a section whose VA no page maps, and a good object with its relocation applied, which is placed. -/
theorem witness_loader :
    readFile (object 0 2 0x2000) = none ∧ (readFile (object 0x4F433036394E5244 5 0x2000) = some (parsed 5 0x2000) ∧ loadedSections (parsed 5 0x2000) = none) ∧
    (readFile (object 0x4F433036394E5244 2 (2 ^ 60)) = some (parsed 2 (2 ^ 60)) ∧ loadedSections (parsed 2 (2 ^ 60)) = some (relocated (2 ^ 60) 12) ∧
      demo.placeObject 1 (parsed 2 (2 ^ 60)) (relocated (2 ^ 60) 12) = none) ∧
    readFile (object 0x4F433036394E5244 2 0x2000) = some (parsed 2 0x2000) ∧ loadedSections (parsed 2 0x2000) = some (relocated 0x2000 0x200C) ∧
    ∃ t, (warm (everywhere demo)).placeObject 1 (parsed 2 0x2000) (relocated 0x2000 0x200C) = some t := by
  refine ⟨by decide +kernel, ⟨by decide +kernel, by decide +kernel⟩, ⟨by decide +kernel, by decide +kernel, ?_⟩, by decide +kernel, by decide +kernel, ?_⟩
  · decide +kernel
  · obtain ⟨t, ht⟩ := (warm_die demo rfl rfl rfl).write (n := 0) rfl ([0x200C, 0].map TWord.fresh) 0x2000 (by decide)
    refine ⟨t, ?_⟩
    have hp : State.placeSection 1 (warm (everywhere demo)) (relocated 0x2000 0x200C).head! = some t := by
      unfold State.placeSection State.loadWords
      rw [show (warm (everywhere demo)).writeVa dieCache 1 (BitVec.ofNat 64 (relocated 0x2000 0x200C).head!.va)
        ((sectionWords (relocated 0x2000 0x200C).head!).map TWord.fresh) 0 = (.ok (), t) from ht]
    have hs : foldAll (State.placeSection 1) (warm (everywhere demo)) (relocated 0x2000 0x200C) = some t := by
      unfold relocated foldAll at *
      exact congrArg (fun o => Option.bind o fun c => foldAll (State.placeSection 1) c []) hp
    unfold State.placeObject
    rw [hs]
    rfl

/-- The team runs portable code, of which the translator knows; its segment descriptor stands at address 0 and names no syllable. -/
def xlate : Xlate := { asid := 1, header := 0, seg := 0, text := 0, size := 0, pcs := [(0x10000, 0x20000)] }
def portable (known : Bool) : State :=
  ((warm (everywhere (between id))).modOrg fun o => { o with grids := [(1, { grid with hdr := { hdr with form := 1 } })], xlates := if known then [xlate] else [] }).modTeam 1 fun t => { t with inNative := false }
/-- Its segment holds no syllable; the map holds the entries of its header. -/
theorem witness_translation : (∃ d u ws w map y, (portable false).readSeg 1 0 = (d, u) ∧ u.readChecked dieCache none 1 d.textbase d.count = (.ok ws, w) ∧ holdsIndirect d.count ws = false ∧
    w.readChecked dieCache none 1 (d.map &&& ~~~3#64) ((8 * (d.map.toNat % 4) + d.count + 31) / 32) = (.ok map, y) ∧
    (∀ pc ∈ mapNeeds hdr d map ws, ∃ e ∈ [((0x10000 : Word64), (0x40000 : Word64)), (0x20000, 0x50000)], e.1 = pc) ∧ ∀ e ∈ [((0x10000 : Word64), (0x40000 : Word64)), (0x20000, 0x50000)], pcForm e.2 = true) := by
  have h : Steady dieCache (portable false) := by
    have h := warm_die (between id) rfl rfl rfl
    exact ⟨h.cache, h.clean, h.near, h.paid, h.line⟩
  have hw := h.checked 8 0 (by decide) (by decide +kernel)
  have hm : (mapNeeds hdr { textbase := 0, map := 0, image := 0, count := 0 } [] []).all (fun pc => [((0x10000 : Word64), (0x40000 : Word64)), (0x20000, 0x50000)].any fun e => e.1 == pc) = true := by
    decide +kernel
  refine ⟨{ textbase := 0, map := 0, image := 0, count := 0 }, portable false, [], portable false, [], portable false, ?_, rfl, rfl, ?_, fun pc h => ?_, List.all_eq_true.mp (by decide)⟩
  · unfold State.readSeg
    rw [hw]
    dsimp only
    rw [show (wordsHere (portable false) (0 : Word64).toNat 8).map (·.data) = List.replicate 8 0 from by decide +kernel]
    rfl
  · dsimp only
    rw [show (8 * ((0 : Word64).toNat % 4) + 0 + 31) / 32 = 0 from by decide]
    rfl
  · obtain ⟨e, he, h⟩ := List.any_eq_true.1 (List.all_eq_true.1 hm pc h)
    exact ⟨e, he, beq_iff_eq.1 h⟩

/-- PartitionsAndCode: a root, a child, and a request above its root's rate; a move; charts that begin later and that have begun. -/
theorem witness_partitions_and_code : ([
    requestOk (partReq 16 1) && !demo.org.parts.has 16 && demo.vfsUsed < 63 && demo.rootOk (partReq 16 1), requestOk { partReq 1 1 with clusters := [0] },
    (demo.modPart 0 fun p => { p with rate := 1, colours := [3] }).childOk { partReq 1 1 with clusters := [0] }, !requestOk (partReq 16 0),
    demo.org.parts.has 0 && (demo.siblings 0 0).isEmpty, some? ((demo.modPart 0 fun p => { p with features := [0, 1] }).org.parts.find 0) fun p => demo.moveOk 0 p [5] && demo.moveOk 0 p [], demo.dev.lastRefill + 1024 ≤ (demo.modDev fun d => { d with clock := 1024 }).dev.clock,
    some? (demo.org.parts.find 0) fun p => demo.chartOk 0 p { chart with clmask := 1, entries := [{ dur := 8192, child := 1, ctx := 0 }] }, 
    some? ((portable false).org.grids.find? fun e => e.2.asid == 1 && e.2.khdr == 0 && e.2.dispatched != 0) fun e => e.2.hdr.form == 1 && !e.2.hdr.noxlate && ((portable false).xlateOf 1 0).isNone,
    some? ((portable true).xlateOf 1 0) fun x => x.pc 0x10000 == 0x20000, some? ((portable true).ex.teams.find 1) fun t => (portable true).maySwap 1 t &&
      ((portable true).checkpointOf 1 t).pcs ++ t.cp.pcs == [0x10000] && xlate.has 0x10000] : List Bool).all id = true := by decide +kernel

/-- Channel 0 of the partition is enabled and holds one command. -/
def serving : State := demo.modChannel 0 0 fun c => { c with en := true, cmdtail := 1 }
/-- HostInterface. -/
theorem witness_host_interface :
    Serves serving 0 0 ∧ ([demo.hasVf 0, (consumed serving 0 0).hasQueue 0 0, (consumed serving 0 0).ctxOf 0 0 == some 1, ((consumed serving 0 0).egress 1 0 0).1 == ([], false, false),
      demo.org.ctxs.has 1, !(demo.modPart 0 fun p => { p with vf := false }).hasVf 0, (commandWords 7 0 0 0 0 0).length == 16, (commandWords 7 0 0 0 0 0).getD 0 0 != (serving.channel 0 0).cmdhead] : List Bool).all id = true := by
  refine ⟨⟨?_, ?_, ?_, ?_⟩, ?_⟩ <;> decide +kernel

/-- A flit with this header and no payload, whose CRC holds. -/
def flit (seq kind : Nat) : Flit := { bytes := flitBytes 0 seq kind 0, fecFixed := 1, fecFailed := false }
/-- LinksBootAndPower: sound flits that carry payload, the next and a repeated one, one that asks for a replay, one that is too short, and one that FEC gives up at 56 Gb/s; an atomic
of a peer's; ports that evaluate, retrain and step up. -/
theorem witness_links_boot_and_power :
    (∀ n k, Sound (flit n k)) ∧ (flitKind (flit 0 0) = 0 ∧ flitSeq (flit 0 0) = (demo.port 0).rxSeq ∧ flitSeq (flit 0 0) ≠ ((demo.modPort 0 fun p => { p with rxSeq := 1 }).port 0).rxSeq % 2 ^ 32 ∧
      flitKind (flit 0 2) = 2) ∧ ¬ Sound { bytes := [] } ∧
    ([((demo.modPort 0 fun p => { p with rate := 56 }).port 0).rate == 56, (demo.port 0).rate != 56, (demo.port 0).replay.length ≤ 64, (demo.port 0).nextEval ≤ (demo.modDev fun d => { d with clock := 1000000 }).dev.clock,
      ((demo.modPort 0 fun p => { p with retraining := true }).port 0).retraining, ((demo.modPort 0 fun p => { p with rate := 80 }).port 0).rate != 112, State.reset.dev.boot == .off, demo.dev.boot == .done,
      (let a := (warm demo).sliceReads 0x1000 0 1; (judgeWords a.1).isNone && (atomResult .add .s32 (a.1.map (·.data)) [1]).isSome),
      demo.org.parts.has 0, (demo.modDev fun d => { d with entering := some 1 }).memQuiet, (demo.modDev fun d => { d with power := 1, exiting := true }).dev.exiting] : List Bool).all id = true := by
  have hf (n k : Nat) := flit_fields 0 n k 0 (flit n k) rfl
  refine ⟨fun n k => ?_, ⟨(hf 0 0).2.1, (hf 0 0).1, ?_, (hf 0 2).2.1⟩, fun h => absurd h.2.1 (by decide), by decide +kernel⟩
  · have h := (hf n k).2.2.2
    simp only [flitOk, Bool.and_eq_true, beq_iff_eq] at h
    exact ⟨rfl, h.1, h.2⟩
  · rw [(hf 0 0).1]; decide

/-! ### Steps -/

/-- It is the turn of slot 0 of core 0, where slot 0 of the line at 0x10000 holds a word, or portable code stands. -/
def native (w : IWord) : State := demo.modMem fun m => { m with l1i := [(0, [{ asid := 1, va := 0x10000, words := oneSlotLine w 0 }])] }
def syllables (a b c : Word) : State :=
  (demo.modMem fun m => { m with l1i := [(0, [{ asid := 1, va := 0x10000, words := (a :: b :: c :: List.replicate 13 0).map TWord.fresh }])] }).modTeam 1 fun t =>
    { t with inNative := false, seg := some { textbase := 0x10000, map := 0, image := 0, count := 16 } }
def atIssue (u : State) : State := { u with turn := .issue 0 0, cur := none }
def issuesIn (u : State) (p : View → Bool) : Bool := some? u.view fun v => v.gk == 0 && u.mayIssue v && v.grp.run.count < 24 && !u.ex.specs.has v.gk && p v

theorem issuing_of {u : State} {p : View → Bool} (hc : { atIssue u with turn := .arbitrate, cur := some 0 } = u) (hs : (atIssue u).slotGroup 0 0 = some 0) (he : u.mem.errors = []) (h : issuesIn u p = true) :
    ∃ v, Issuing (atIssue u) u v ∧ p v = true ∧ v.grp.run.count < 24 ∧ u.ex.specs.has v.gk = false := by
  unfold issuesIn some? at h
  split at h
  · rename_i v hv
    simp only [Bool.and_eq_true, beq_iff_eq, decide_eq_true_eq, Bool.not_eq_true'] at h
    obtain ⟨⟨⟨⟨h1, h2⟩, h3⟩, h4⟩, h5⟩ := h
    exact ⟨v, ⟨⟨0, 0, rfl, by rw [h1]; exact hs⟩, by rw [h1]; exact hc.symm, hv, h2, fun e => by simp [atIssue, he]⟩, h5, h3, h4⟩
  · cases h

def nativeB (u : State) (v : View) (w : IWord) : Bool :=
  v.team.inNative && pcForm v.split.pc && some? (u.goodLine v (lineVa v.split.pc)) fun ws => !lineIllegal ws && slotValid ws (slotNo v.split.pc) && slotWord ws (slotNo v.split.pc) == w
def syllablesB (u : State) (v : View) (a b : Word) : Bool :=
  let at_ (va : Word64) (w : Word) : Bool := !dpfOutside v.team va && some? (u.syllable v va) fun x => x.data == w
  !v.team.inNative && v.split.pc.extractLsb' 0 2 == 0 && at_ v.split.pc a && at_ (v.split.pc + 4) b
/-- StepRunsDecoded: a MOV and a FMUL as native words, a word of no instruction, and the two as syllables. -/
theorem witness_step : ([
    issuesIn (native 0x00000008_00100000_000D8002) fun v => nativeB (native 0x00000008_00100000_000D8002) v 0x00000008_00100000_000D8002 && (match decode v.eng 0x00000008_00100000_000D8002 with | .ok _ => true | .error _ => false),
    issuesIn (native 0x1FF) fun v => nativeB (native 0x1FF) v 0x1FF && (match decode v.eng 0x1FF with | .ok _ => false | .error _ => true),
    issuesIn (syllables 0x88400488 0x00200800 0) fun v => syllablesB (syllables 0x88400488 0x00200800 0) v 0x88400488 0x00200800
      && (match decodeDpf v.eng 0x88400488 0x00200800 0 with | some (.ok _) => true | _ => false)] : List Bool).all id = true := by decide +kernel
theorem witness_step_turn : { atIssue (native 0x1FF) with turn := .arbitrate, cur := some 0 } = native 0x1FF ∧ (atIssue (native 0x1FF)).slotGroup 0 0 = some 0 ∧ (native 0x1FF).mem.errors = [] :=
  ⟨rfl, by decide +kernel, rfl⟩

/-- EncodingsAgree: an instruction that is well formed and has an encoding. -/
theorem witness_encoding : WellFormed (.plop .always 3 1 2 0 0x80) = true ∧ encode (.plop .always 3 1 2 0 0x80) = some 0x00000080_00000002_010300C7 := by decide +kernel
/-- MemoryStaysCanonical: the state after reset, whose step answers a next state. -/
theorem witness_canonical : State.reset.Sound ∧ ∃ t, step State.reset = .next t := ⟨⟨by decide, by decide⟩, _, rfl⟩

/-! ### Single steps -/

/-- A register of a lane after an instruction. -/
def reg (o : Result) (l n : Nat) : Option Word := match o with | .next t => (t.ex.strands.find (2048 + l)).map fun e => (AMap.get {} e.x n).val | _ => none
/-- The words of lane 0's long-latency result. -/
def late (o : Result) : Option (List Word) := match o with | .next t => t.ex.longs.head?.map (·.2.vals) | _ => none
/-- The machine with x5 and x6 given in both strands. -/
def with56 (a b : Word) : State := both fun t => { t with x := AMap.set {} (AMap.set {} t.x 5 { val := a }) 6 { val := b } }

/-- ADD wraps, its destination a source as well (Table 10.3). -/
theorem test_add_wraps : reg (exec (.add (ab .z32 5 5 6)) (with56 0xFFFFFFFF 8)) 1 5 = some 7 := by decide +kernel
/-- ADDS clamps to 2^31 - 1, and to 2^32 - 1 (Table 10.3). -/
theorem test_adds_signed : reg (exec (.adds (ab .s32 12 5 6)) (with56 0x7FFFFFFF 1)) 0 12 = some 0x7FFFFFFF := by decide +kernel
theorem test_adds_unsigned : reg (exec (.adds (ab .z32 12 5 6)) (with56 0xFFFFFFFF 1)) 0 12 = some 0xFFFFFFFF := by decide +kernel
/-- SUB takes b from a: 3 - 5. -/
theorem test_sub_order : reg (exec (.sub (ab .s32 12 5 6)) (with56 3 5)) 0 12 = some 0xFFFFFFFE := by decide +kernel
/-- MULH of -1 and 2: floor(-2 / 2^32) is -1. -/
theorem test_mulh_signed : reg (exec (.mulh (ab .s32 12 5 6)) (with56 0xFFFFFFFF 2)) 0 12 = some 0xFFFFFFFF := by decide +kernel
/-- A shift by the whole width gives 0, an arithmetic one copies the sign. -/
theorem test_shr_width : reg (exec (.shr (ab .z32 5 5 6)) (with56 0xFFFFFFFF 32)) 0 5 = some 0 := by decide +kernel
theorem test_sar_width : reg (exec (.sar (ab .z32 12 5 6)) (with56 0x80000000 32)) 0 12 = some 0xFFFFFFFF := by decide +kernel
/-- The selectors that R182 works out. -/
theorem test_bsel : ([(0x03020100, 0x44332211), (0x04050607, 0x55667788), (0x18181818, 0), (0x00000010, 0x111111FF)] : List (Word × Word)).all (fun e =>
    reg (exec (.bsel { abc .z32 12 5 6 7 with b := .imm e.1 }) ((with56 0x44332211 0).modStrand 2048 fun t => { t with x := AMap.set {} t.x 7 { val := 0x88776655 } })) 0 12 == some e.2) = true := by decide +kernel
/-- BFX.s32 of a field that reaches above bit 31: bits 28 to 35 of 0x80000000 read as 1s from bit 31 on, so 0xF8 with fill. -/
theorem test_bfx_above : reg (exec (.bfx (abi .s32 12 5 0x081C)) (with56 0x80000000 0)) 0 12 = some 0xFFFFFFF8 := by decide +kernel
/-- Table 10.4. -/
theorem test_div_zero : late (exec (.div (ab .s32 12 5 6)) (with56 7 0)) = some [0xFFFFFFFF] := by decide +kernel
theorem test_rem_overflow : late (exec (.rem (ab .s32 12 5 6)) (with56 0x80000000 0xFFFFFFFF)) = some [0] := by decide +kernel
/-- 1.0 + 2.0 = 3.0. -/
theorem test_fadd : reg (exec (.fadd (abr .f32 12 5 6 .rn false)) (with56 0x3F800000 0x40000000)) 0 12 = some 0x40400000 := by decide +kernel
/-- The two conversions that R160 works out. -/
theorem test_cvt_nan : reg (exec (.cvt (far .f16 12 5 .rn) .f32 false 0) (with56 0x7F800001 0)) 0 12 = some 0x7E00 := by decide +kernel
theorem test_cvt_quiet_nan : reg (exec (.cvt (far .f16 12 5 .rn) .f32 false 0) (with56 0xFFC12000 0)) 0 12 = some 0xFE09 := by decide +kernel
/-- REDL adds 0 and 4 (R198). -/
theorem test_redl : [0, 1].all (fun l => reg (exec (.redl (red .z32 .add .rn)) demo) l 12 == some 4) = true := by decide +kernel
/-- SHFL.xor by 1 exchanges the lanes' 0 and 4. -/
theorem test_shfl : reg (exec (.shfl { fx .z32 with b := .imm 1 } .flip) demo) 0 12 = some 4 := by decide +kernel
/-- A group's splits, by PC and lanes. -/
def places (o : Result) : List (Word64 × Lanes) := match o with | .next t => ((t.ex.groups.find 0).map fun g => g.splits.map fun sp => (sp.pc, sp.mask)).getD [] | _ => []
/-- BR 0x10000 bytes on, 1,024 lines, where p1 holds: in lane 1 alone (R43, R260). -/
theorem test_br_splits : (places (exec (.br { g := .when 1 true, tgt := 0x2000, aw := aw 0 }) lane1)).contains (0x20000, 2) = true := by decide +kernel
/-- LEND: the lane that leaves the loop is the fall-through split and comes first; the lane that goes on follows it (R247, R265). -/
theorem test_lend_order : places (exec (.lend { g := .always, tgt := 0x2000, aw := aw 0 })
    ((demo.modStrand 2048 fun t => { t with loops := [{ count := 2, start := 0x20000 }] }).modStrand 2049
      fun t => { t with loops := [{ count := 1, start := 0x20000 }] })) = [(0x10040, 2), (0x20000, 1)] := by decide +kernel
/-- SWI.q 3, 1 sets bit 3 of that queue's WAKE (R293). -/
theorem test_swi_queue : (match exec (.swi .always false 3 1) demo with | .next t => (t.lqueue 0 1).wake | _ => 0) = 8 := by decide +kernel
/-- MOVS of %slot (Table 7.2). -/
theorem test_movs_slot : reg (exec (.movs { g := .always, d := 12 } 2) demo) 1 12 = some 1 := by decide +kernel

end Sys2Proof.Tests
end

section
/-! ## Events of the scheduler (R8, R11, R276 to R283)

One lemma for each function that these events go through: the turn among a level's queues, the submission, the writes of a queue's control block, and the control fields
that have limits of their own. -/

namespace Sys2Proof.Machine

open Sys2Proof.Claim

/-! ### The instruction of each event -/

theorem exec_dispatchChoice (part : Nat) (s : State) : exec (.dispatchChoice part) s = execDispatchChoice part s := rfl
theorem exec_kernelPrefetchComplete (core k : Nat) (s : State) : exec (.kernelPrefetchComplete core k) s = execKernelPrefetchComplete core k s := rfl
theorem exec_queueSubmit (part q : Nat) (record : Word64) (s : State) : exec (.queueSubmit part q record) s = execQueueSubmit part q record s := rfl
theorem exec_queueEnable (part q : Nat) (s : State) : exec (.queueEnable part q) s = execQueueEnable part q s := rfl
theorem exec_prioWrite (part q : Nat) (v : BitVec 2) (s : State) : exec (.prioWrite part q v) s = execPrioWrite part q v s := rfl
theorem exec_controlRegisterWrite (r : CtlReg) (s : State) : exec (.controlRegisterWrite r) s = .next (s.writeCtl r).idle := rfl

/-! ### The choice of a queue (R278) -/

/-- The first answer over 0, 1, … comes from the least number that has one. -/
theorem findSome?_range_least {α : Type} {f : Nat → Option α} {b : α} (n : Nat) (h : (List.range n).findSome? f = some b) :
    ∃ a, f a = some b ∧ ∀ c < a, f c = none := by
  induction n with
  | zero => cases h
  | succ n ih =>
    rw [List.range_succ, List.findSome?_append] at h
    cases hn : (List.range n).findSome? f with
    | some x => exact ih (by rw [hn] at h ⊢; exact h)
    | none =>
      rw [hn, Option.none_or, List.findSome?_singleton] at h
      exact ⟨n, h, fun c hc => List.findSome?_eq_none_iff.1 hn c (List.mem_range.2 hc)⟩

/-- The turn goes round all 64 queues, wherever it begins. -/
theorem mem_turn (last : Nat) {q : Nat} (h : q < 64) : q ∈ (List.range 64).map fun i => (last + 1 + i) % 64 :=
  List.mem_map.2 ⟨(q + 63 * (last + 1)) % 64, List.mem_range.2 (by omega), by omega⟩

/-- The queues of a level that may dispatch. -/
def State.levelEligible (s : State) (part lvl : Nat) : List Nat :=
  (s.levelQueues part lvl).filter fun q => decide (0 ≤ (s.lqueue part q).deficit) && s.headFits part q

/-- The queue of a level whose turn it is, among those that may dispatch. -/
def State.levelChoice (s : State) (part lvl : Nat) : Option Nat :=
  let last := match s.org.parts.find part with | some p => AMap.get 63 p.lastQ lvl | none => 63
  ((List.range 64).map fun i => (last + 1 + i) % 64).find? (s.levelEligible part lvl).contains

theorem queueChoice_eq (s : State) (part : Nat) :
    s.queueChoice part = (List.range 4).findSome? fun lvl => (s.levelChoice part lvl).map fun q => (lvl, q) := rfl

/-- A head team that fits is a head team. -/
theorem headGrid_isSome_of_headFits {s : State} {part q : Nat} (h : s.headFits part q = true) : (s.headGrid part q).isSome = true := by
  unfold State.headFits at h
  cases hq : s.headGrid part q with
  | some e => rfl
  | none => rw [hq] at h; cases h

theorem mem_levelEligible {s : State} {part lvl q : Nat} : q ∈ s.levelEligible part lvl ↔ Eligible s part q ∧ (s.lqueue part q).prio.toNat = lvl := by
  simp only [State.levelEligible, State.levelQueues, List.mem_filter, List.mem_range, Bool.and_eq_true, beq_iff_eq, decide_eq_true_eq, Eligible]
  constructor
  · rintro ⟨⟨hq, hp, -⟩, hd, hf⟩; exact ⟨⟨hq, hf, hd⟩, hp⟩
  · rintro ⟨⟨hq, hf, hd⟩, hp⟩; exact ⟨⟨hq, hp, headGrid_isSome_of_headFits hf⟩, hd, hf⟩

theorem levelChoice_eligible {s : State} {part lvl q : Nat} (h : s.levelChoice part lvl = some q) : Eligible s part q ∧ (s.lqueue part q).prio.toNat = lvl :=
  mem_levelEligible.1 (List.contains_iff_mem.1 (List.find?_some h))

/-- A level without a choice has no eligible queue. -/
theorem not_eligible_of_levelChoice_none {s : State} {part lvl r : Nat} (h : s.levelChoice part lvl = none) (hp : (s.lqueue part r).prio.toNat = lvl) : ¬ Eligible s part r :=
  fun hr => List.find?_eq_none.1 h r (mem_turn _ hr.1) (List.contains_iff_mem.2 (mem_levelEligible.2 ⟨hr, hp⟩))

theorem queueChoice_lowest {s : State} {part lvl q : Nat} (h : s.queueChoice part = some (lvl, q)) :
    Eligible s part q ∧ (s.lqueue part q).prio.toNat = lvl ∧ ∀ r, Eligible s part r → lvl ≤ (s.lqueue part r).prio.toNat := by
  rw [queueChoice_eq] at h
  obtain ⟨a, ha, hless⟩ := findSome?_range_least 4 h
  obtain ⟨q', hq, he⟩ := Option.map_eq_some_iff.1 ha
  cases he
  obtain ⟨hel, hp⟩ := levelChoice_eligible hq
  refine ⟨hel, hp, fun r hr => Nat.le_of_not_lt fun hlt => ?_⟩
  exact not_eligible_of_levelChoice_none (Option.map_eq_none_iff.1 (hless _ hlt)) rfl hr

/-! ### The dispatch choice and the prefetch (R278 to R283) -/

theorem execDispatchChoice_removal {s : State} {part k : Nat} {g : Grid} {e : BitVec 3} (h : s.removal part = some (k, g, e)) :
    execDispatchChoice part s = .next (s.removeGrid k g e).idle := by
  unfold execDispatchChoice; rw [h]

/-- The queue chosen after the four levels' rounds (R279) dispatches, where nothing is to be removed and the module is awake. -/
theorem execDispatchChoice_dispatch {s t : State} {part lvl q k c : Nat} {p : Partition} {d : Option Nat} {g : Grid}
    (ht : t = (List.range 4).foldl (fun s l => s.levelRounds part l) s) (hr : s.removal part = none) (hp : s.org.parts.find part = some p)
    (hnow : p.nextDispatch ≤ s.dev.clock) (hq : t.queueChoice part = some (lvl, q)) (hpow : s.dev.power = 0) (hent : s.dev.entering = none)
    (hg : t.headGrid part q = some (k, g)) (hf : t.fits g = some (c, d)) :
    execDispatchChoice part s =
      .next ((t.modPart part fun p => { p with lastQ := p.lastQ.put lvl q, nextDispatch := t.dev.clock + 1 }).dispatchTeam k c d).idle := by
  have hawake : (s.dev.power != 0 || s.dev.entering.isSome) = false := by rw [hpow, hent]; rfl
  unfold execDispatchChoice
  simp only [hr, hp, hnow, ← ht, hq, hawake, hg, hf, decide_true, Bool.not_true, Bool.false_eq_true, ↓reduceIte]

theorem execKernelPrefetchComplete_due {s : State} {core k asid : Nat} {t : Team} (ht : s.ex.teams.find k = some t) (ha : s.asidOf k = some asid)
    (hc : t.core = core) (hne : t.prefetch ≠ []) (hrun : s.teamRuns k = true) :
    execKernelPrefetchComplete core k s =
      .next (((t.prefetch.foldl (fun s va => s.prefetchLine core asid t va) s).modTeam k fun t => { t with prefetch := [] }).becomeReady k).idle := by
  have hdue : (t.core != core || t.prefetch.isEmpty || !s.teamRuns k) = false := by
    rw [hc, hrun, List.isEmpty_eq_false_iff.2 hne, bne_self_eq_false]; rfl
  simp only [execKernelPrefetchComplete, ht, ha, hdue, Bool.false_eq_true, ↓reduceIte]

/-! ### Submission (R277) -/

section
variable {s u : State} {part q asid : Nat} {record : Word64}

theorem submit_badRecord {e : CheckFail} (hl : s.checkLaunch dieCache none asid none record = (.error e, u)) : (s.submit part q (some asid) record).1 = 1 := by
  simp only [State.submit, hl]

theorem submit_disabled {r : LaunchRecord × KHeader} (hl : s.checkLaunch dieCache none asid none record = (.ok r, u)) (hen : (u.lqueue part q).en = false) :
    (s.submit part q (some asid) record).1 = 5 := by
  simp only [State.submit, hl, hen, Bool.not_false, ↓reduceIte]

theorem submit_full {r : LaunchRecord × KHeader} (hl : s.checkLaunch dieCache none asid none record = (.ok r, u)) (hen : (u.lqueue part q).en = true)
    (hfull : (u.lqueue part q).full = true) : (s.submit part q (some asid) record).1 = 4 := by
  simp only [State.submit, hl, hen, hfull, Bool.not_true, Bool.false_eq_true, ↓reduceIte]

theorem submit_accepted {a : LaunchRecord} {b : KHeader} (hl : s.checkLaunch dieCache none asid none record = (.ok (a, b), u)) (hen : (u.lqueue part q).en = true)
    (hfull : (u.lqueue part q).full = false) : s.submit part q (some asid) record = (0, u.acceptGrid asid part q record a b 0 [] []) := by
  simp only [State.submit, hl, hen, hfull, Bool.not_true, Bool.false_eq_true, ↓reduceIte]

end

/-- A submission without an error word is one whose record and header hold, to an enabled queue with room. -/
theorem submit_accepts_iff (s : State) (part q : Nat) (ctx : Option Nat) (record : Word64) :
    (s.submit part q ctx record).1 = 0 ↔ ∃ asid a b u, ctx = some asid ∧ s.checkLaunch dieCache none asid none record = (.ok (a, b), u) ∧
      (u.lqueue part q).en = true ∧ (u.lqueue part q).full = false ∧ (s.submit part q ctx record).2 = u.acceptGrid asid part q record a b 0 [] [] := by
  constructor
  · intro h
    have notRefused {e : BitVec 3} (he : (s.submit part q ctx record).1 = e) : e = 0 := he.symm.trans h
    cases ctx with
    | none => exact absurd (notRefused (e := 1) rfl) (by decide)
    | some asid =>
      rcases hl : s.checkLaunch dieCache none asid none record with ⟨e | ⟨a, b⟩, u⟩
      · exact absurd (notRefused (submit_badRecord hl)) (by decide)
      · cases hen : (u.lqueue part q).en with
        | false => exact absurd (notRefused (submit_disabled hl hen)) (by decide)
        | true =>
          cases hfull : (u.lqueue part q).full with
          | true => exact absurd (notRefused (submit_full hl hen hfull)) (by decide)
          | false => exact ⟨asid, a, b, u, rfl, hl, hen, hfull, by rw [submit_accepted hl hen hfull]⟩
  · rintro ⟨asid, a, b, u, rfl, hl, hen, hfull, -⟩
    rw [submit_accepted hl hen hfull]

/-! ### Writes of a queue's control block (R276, R277, R281) -/

theorem execQueueSubmit_hasQueue {s : State} {part q : Nat} (h : s.hasQueue part q = true) (record : Word64) :
    execQueueSubmit part q record s = .next (s.submit part q (s.ctxOf part (s.lqueue part q).ctx.toNat) record).2.idle := by
  simp only [execQueueSubmit, h, Bool.not_true, Bool.false_eq_true, ↓reduceIte]

theorem execQueueEnable_hasQueue {s : State} {part q : Nat} (h : s.hasQueue part q = true) :
    execQueueEnable part q s = .next (s.modQueue part q fun l => { l with en := true, deficit := if l.en = true then l.deficit else 0 }).idle := by
  have hen : (fun l : LQueue => if l.en = true then l else { l with en := true, deficit := 0 }) =
      fun l => { l with en := true, deficit := if l.en = true then l.deficit else 0 } := by
    funext l
    obtain ⟨_, _, _, _, _, _, _, _, _, _, en, _, _⟩ := l
    cases en <;> rfl
  rw [← hen]; simp only [execQueueEnable, h, Bool.not_true, Bool.false_eq_true, ↓reduceIte]

theorem execPrioWrite_hasQueue {s : State} {part q : Nat} (h : s.hasQueue part q = true) (v : BitVec 2) :
    execPrioWrite part q v s = .next (s.modQueue part q fun l => { l with prioNext := some v }).idle := by
  simp only [execPrioWrite, h, Bool.not_true, Bool.false_eq_true, ↓reduceIte]

/-- A write to a queue that the partition does not have changes nothing. -/
theorem queueWrites_without_queue {s : State} {part q : Nat} (h : s.hasQueue part q = false) (v : BitVec 2) (record : Word64) :
    execQueueSubmit part q record s = .next s.idle ∧ execQueueEnable part q s = .next s.idle ∧ execPrioWrite part q v s = .next s.idle := by
  simp only [execQueueSubmit, execQueueEnable, execPrioWrite, h, Bool.not_false, ↓reduceIte, and_self]

/-- A queue as the next clk finds it: the priority written last is in force. -/
def LQueue.latched (l : LQueue) : LQueue := { l with prio := l.prioNext.getD l.prio, prioNext := none }
/-- A channel as the next clk finds it. -/
def Channel.latched (c : Channel) : Channel := { c with cmdtail := c.tailNew.getD c.cmdtail, cplhead := c.headNew.getD c.cplhead, tailNew := none, headNew := none }
/-- A partition as the next clk finds it. -/
def Partition.latched (p : Partition) : Partition :=
  { p with qs := p.qs.map fun e => (e.1, e.2.latched), channels := p.channels.map fun e => (e.1, e.2.latched) }

theorem latchWrites_parts (s : State) : s.latchWrites.org.parts = s.org.parts.map fun e => (e.1, e.2.latched) := rfl

theorem get_latched_qs (p : Partition) (q : Nat) : AMap.get {} p.latched.qs q = (AMap.get {} p.qs q).latched := by
  have hfind : p.latched.qs.find q = (p.qs.find q).map LQueue.latched := AMap.find_map p.qs (fun _ => LQueue.latched) q
  rw [AMap.get, AMap.get, hfind]
  cases p.qs.find q <;> rfl

theorem lqueue_latchWrites (s : State) (part q : Nat) : s.latchWrites.lqueue part q = (s.lqueue part q).latched := by
  have hfind : s.latchWrites.org.parts.find part = (s.org.parts.find part).map Partition.latched := AMap.find_map s.org.parts (fun _ => Partition.latched) part
  unfold State.lqueue
  rw [hfind]
  cases s.org.parts.find part with
  | none => rfl
  | some p => exact get_latched_qs p q

/-! ### Control fields (R8, R11) -/

theorem writeQueue_hasQueue {s : State} {part q : Nat} (h : s.hasQueue part q = true) (f : LQueue → LQueue) : s.writeQueue part q f = s.modQueue part q f := if_pos h

/-- A period outside Table 3.6 is ignored. -/
theorem writeCtl_scrubPeriod_outside (s : State) {lvl : ScrubLevel} {ms : Nat} (h : ms < (scrubRange lvl).1 ∨ (scrubRange lvl).2 < ms) : s.writeCtl (.scrubPeriod lvl ms) = s := by
  refine if_neg fun hin => ?_
  simp only [Bool.and_eq_true, decide_eq_true_eq] at hin
  omega

/-- A change that leaves a channel as it stands. -/
theorem channel_hostChannel_fixed {s : State} {part ch : Nat} {f : Channel → Channel} (h : f (s.channel part ch) = s.channel part ch) :
    (s.hostChannel part ch f).channel part ch = s.channel part ch := by
  unfold State.hostChannel State.modChannel
  split
  · split
    · unfold State.channel at h ⊢
      rw [State.modPart_parts, AMap.find_modify, if_pos rfl]
      cases hp : s.org.parts.find part with
      | none => rfl
      | some p =>
        rw [hp] at h
        simpa only [Option.map_some, AMap.get_put, ↓reduceIte] using h
    · rfl
  · rfl

/-- A ring's base does not move while its channel is enabled. -/
theorem putBase_enabled {c : Channel} (h : c.en = true) (cpl : Bool) (v : Word64) : c.putBase cpl v = c := if_pos h

theorem gate_writeCtl_gateRecord (s : State) {n : Nat} (lastfill value : Word64) (tokens burst rate gen : BitVec 16) (acl : List (BitVec 16)) (v : Bool) (h1 : 1 ≤ n) (h2 : n ≤ 65535) :
    (s.writeCtl (.gateRecord n lastfill value tokens burst rate gen acl v)).gate n =
      { lastfill := lastfill, tokens := tokens, burst := burst, rate := rate, acl := (acl.take 8).map (· &&& 0xFF07), gen := gen, v := v, value := value } := by
  have hn : (n == 0 || decide (65535 < n)) = false := by
    rw [beq_eq_false_iff_ne.2 (by omega), decide_eq_false (by omega)]; rfl
  simp only [State.writeCtl, hn, Bool.false_eq_true, ↓reduceIte, State.gate, State.modDev_dev, AMap.find_put, Option.getD_some]

/-! ### The obligation -/

/-- Settles O50: the queue chosen is of the lowest level because the levels are tried in order and the turn passes every queue; each other event by its function's lemma above. -/
theorem schedulerEvents : Obligations.SchedulerEvents := by
  unfold Obligations.SchedulerEvents
  refine ⟨fun _ _ _ _ h => queueChoice_lowest h, ?removal, ?dispatch, ?prefetch, ?submit, ?queue, ?noQueue, ?control⟩
  case removal => exact fun part s _ _ _ h => (exec_dispatchChoice part s).trans (execDispatchChoice_removal h)
  case dispatch =>
    intro part s p lvl q k c d g t hr hp hnow hq hpow hent hg hf
    exact (exec_dispatchChoice part s).trans (execDispatchChoice_dispatch rfl hr hp hnow hq hpow hent hg hf)
  case prefetch =>
    exact fun core k _ s _ ht ha hc hne hrun => (exec_kernelPrefetchComplete core k s).trans (execKernelPrefetchComplete_due ht ha hc hne hrun)
  case submit =>
    exact fun part q s record h => ⟨(exec_queueSubmit part q record s).trans (execQueueSubmit_hasQueue h record), submit_accepts_iff s part q _ record⟩
  case queue =>
    intro part q s v h
    rw [lqueue_latchWrites]
    exact ⟨(exec_queueEnable part q s).trans (execQueueEnable_hasQueue h), (exec_prioWrite part q v s).trans (execPrioWrite_hasQueue h v), rfl, rfl⟩
  case noQueue =>
    intro part q s v record h
    rw [exec_queueSubmit, exec_queueEnable, exec_prioWrite]
    exact queueWrites_without_queue h v record
  case control =>
    intro s
    exact ⟨fun r => exec_controlRegisterWrite r s, rfl, fun _ _ _ h => writeQueue_hasQueue h _, fun _ _ _ h => writeQueue_hasQueue h _,
      fun _ _ h => writeQueue_hasQueue h _, fun _ _ => rfl, fun _ h => writeCtl_scrubPeriod_outside s h,
      fun _ _ cpl v h => channel_hostChannel_fixed (putBase_enabled h cpl v),
      fun _ lastfill value tokens burst rate gen acl h1 h2 => gate_writeCtl_gateRecord s lastfill value tokens burst rate gen acl true h1 h2⟩

end Sys2Proof.Machine
end

section
/-! ## Events of strands and teams (R18, R139, R246, R251, R252, R256, R262, R267, R268, R280, R284, R376, R377)

One lemma for each way in which these events come about: the three ends of a filing, a bin's timer and launch, and the barrier and the retirement of a team alone or of a
core pair. -/

namespace Sys2Proof.Machine

/-! ### The instruction of each event -/

theorem exec_splitFiling (core group split : Nat) (s : State) : exec (.splitFiling core group split) s = execSplitFiling core group split s := rfl
theorem exec_binProofTimerExpiry (core bin : Nat) (s : State) : exec (.binProofTimerExpiry core bin) s = execBinProofTimerExpiry core bin s := rfl
theorem exec_binLaunch (core bin : Nat) (s : State) : exec (.binLaunch core bin) s = execBinLaunch core bin s := rfl
theorem exec_barrierComplete (core k : Nat) (s : State) : exec (.barrierComplete core k) s = execBarrierComplete core k s := rfl
theorem exec_teamRetire (core k : Nat) (s : State) : exec (.teamRetire core k) s = execTeamRetire core k s := rfl
theorem exec_frameDiscard (part base : Nat) (s : State) : exec (.frameDiscard part base) s = execFrameDiscard part base s := rfl

/-! ### Filing (R18, R251, R262) -/

/-- The lanes of a split that hold a strand, in the order in which they are filed. -/
def View.filers (v : View) : List Nat := v.lanes.filter fun l => (v.rank l).isSome

/-- A split's strands filed at a PC: the ranks that found no bin, and the state then. -/
def State.fileSplit (s : State) (core : Nat) (v : View) (pc : Word64) : List Nat × State :=
  s.fileStrands core v.teamKey pc v.grp.qset false (v.filers.filterMap v.rank)

/-- A split without a missed promise raises none before its filing (R98). -/
theorem promiseMissed_eq_none {s : State} {v : View} {gk i : Nat} (hv : s.viewOf gk i = some v) (hm : v.split.missed = []) : s.promiseMissed gk i = none := by
  simp only [State.promiseMissed, hv, hm, Option.bind_some, List.find?_nil, Option.map_none]

section
variable {core group split : Nat} {s : State} {v : View} {pc : Word64}
  (hv : s.viewOf (core * 256 + group) split = some v) (hst : v.split.st = .filing pc) (hmv : s.groupMoves (core * 256 + group) = true)
  (hfull : splitFull v s v.split = true) (hmiss : v.split.missed = [])
include hv hst hmv hfull hmiss

/-- A filing that may happen: it waits for a bin where no strand of the split found one, else the lanes of those that did leave the group. -/
theorem execSplitFiling_due (done : List Nat) (hdone : v.filers.take (v.filers.length - (s.fileSplit core v pc).1.length) = done) :
    execSplitFiling core group split s =
      if done.isEmpty && !v.filers.isEmpty then
        if s.canForce core (v.key (v.filers.headD 0)) then .next (s.forceBin core (v.key (v.filers.headD 0))).idle else .fault .notDue
      else .next (((s.fileSplit core v pc).2.modGroup (core * 256 + group) fun g =>
        g.dropLanes (if (s.fileSplit core v pc).1.isEmpty then v.split.mask else lanesOf done)).afterDrop (core * 256 + group)).idle := by
  subst hdone
  simp only [execSplitFiling, hv, hst, hmv, hfull, promiseMissed_eq_none hv hmiss, Bool.not_true, Bool.or_self, Bool.false_eq_true, ↓reduceIte]
  rfl

/-- Every strand found a bin: the whole split leaves its group. -/
theorem execSplitFiling_all (hleft : (s.fileSplit core v pc).1 = []) :
    execSplitFiling core group split s =
      .next (((s.fileSplit core v pc).2.modGroup (core * 256 + group) fun g => g.dropLanes v.split.mask).afterDrop (core * 256 + group)).idle := by
  have hdone : v.filers.take (v.filers.length - (s.fileSplit core v pc).1.length) = v.filers := by
    rw [hleft, List.length_nil, Nat.sub_zero, List.take_length]
  rw [execSplitFiling_due hv hst hmv hfull hmiss _ hdone, Bool.and_not_self, hleft]
  rfl

/-- Some strands found a bin and some did not: the lanes of the first leave the group. -/
theorem execSplitFiling_some (hleft : (s.fileSplit core v pc).1 ≠ []) (hlt : (s.fileSplit core v pc).1.length < v.filers.length) :
    execSplitFiling core group split s =
      .next (((s.fileSplit core v pc).2.modGroup (core * 256 + group) fun g =>
        g.dropLanes (lanesOf (v.filers.take (v.filers.length - (s.fileSplit core v pc).1.length)))).afterDrop (core * 256 + group)).idle := by
  have hsome : (v.filers.take (v.filers.length - (s.fileSplit core v pc).1.length)).isEmpty = false := by
    rw [List.isEmpty_eq_false_iff, ← List.length_pos_iff, List.length_take]
    omega
  rw [execSplitFiling_due hv hst hmv hfull hmiss _ rfl, hsome, List.isEmpty_eq_false_iff.2 hleft]
  rfl

/-- No strand found a bin: a filling bin launches first. -/
theorem execSplitFiling_none (hlen : (s.fileSplit core v pc).1.length = v.filers.length) (hne : v.filers ≠ [])
    (hforce : s.canForce core (v.key (v.filers.headD 0)) = true) :
    execSplitFiling core group split s = .next (s.forceBin core (v.key (v.filers.headD 0))).idle := by
  have hdone : v.filers.take (v.filers.length - (s.fileSplit core v pc).1.length) = [] := by rw [hlen, Nat.sub_self, List.take_zero]
  rw [execSplitFiling_due hv hst hmv hfull hmiss _ hdone, List.isEmpty_eq_false_iff.2 hne, hforce]
  rfl

end

/-! ### Bins (R246, R251, R252, R284) -/

theorem execBinProofTimerExpiry_due {s : State} {core bin : Nat} {b : Bin} (hb : s.ex.bins.find (core * 32 + bin) = some b) (hn : bin < 32) (hdue : s.proofDue b = true) :
    execBinProofTimerExpiry core bin s =
      .next (s.modEx fun x => { x with bins := x.bins.modify (core * 32 + bin) fun b => { b with launching := true } }).idle := by
  simp only [execBinProofTimerExpiry, hb, hn, hdue, decide_true, Bool.and_self, ↓reduceIte]

/-- The bin that is next, with a context in the state that `launchContext` gives, forms its group there. -/
theorem execBinLaunch_next {s u : State} {core bin : Nat} {b : Bin} {pool : Bool} (hnext : s.nextLaunch core = some (core * 32 + bin))
    (hb : s.ex.bins.find (core * 32 + bin) = some b) (hctx : s.launchContext core b = some (pool, u)) :
    execBinLaunch core bin s = .next ((b.ranks.foldl (fun s r => s.rebatch (strandKey b.team r))
      (u.modEx fun x => { x with bins := x.bins.del (core * 32 + bin), launched := x.launched.put core u.dev.clock })).formGroup
        core b.team b.ranks b.pc b.qset pool b.entered).2.idle := by
  simp only [execBinLaunch, hb, hnext, hctx, bne_self_eq_false, Bool.false_eq_true, ↓reduceIte]

/-! ### Barriers (R267, R268) -/

@[simp] theorem State.releaseBar_teams (s : State) (k : Nat) : (s.releaseBar k).ex.teams = s.ex.teams := rfl

/-- A checkpoint leaves its team neither irrevocable nor rolled back. -/
theorem checkpoint_clears {s : State} {k : Nat} {t : Team} (ht : s.ex.teams.find k = some t) :
    ((s.checkpoint k).ex.teams.find k).map (fun x => (x.irrevocable, x.rollbacks)) = some (false, 0) := by
  simp only [State.checkpoint, ht, State.modTeam_teams, AMap.find_modify, ↓reduceIte, Option.map_some]

section
variable {s : State} {core k p : Nat} {t : Team} (ht : s.ex.teams.find k = some t) (hc : t.core = core)
include ht hc

theorem execBarrierComplete_alone (hready : s.barReady k = true) (hpair : t.pair = none) :
    execBarrierComplete core k s = .next ((s.releaseBar k).checkpoint k).idle := by
  simp only [execBarrierComplete, ht, hc, hready, hpair, bne_self_eq_false, Bool.not_true, Bool.or_self, Bool.false_eq_true, ↓reduceIte]

theorem execBarrierComplete_pair (hready : s.barReady k = true) (hpair : t.pair = some (true, p)) (hp : s.barReady p = true) (hquiet : s.pairQuiet k p = true) :
    execBarrierComplete core k s = .next ((((s.releaseBar k).releaseBar p).checkpoint k).checkpoint p).idle := by
  simp only [execBarrierComplete, ht, hc, hready, hpair, hp, hquiet, bne_self_eq_false, Bool.not_true, Bool.or_self, Bool.false_eq_true, ↓reduceIte]

/-! ### Retirement (R256, R280, R376) -/

theorem execTeamRetire_alone (hdone : s.teamDone k = true) (hpair : t.pair = none) :
    execTeamRetire core k s = .next (((s.chargeTeam k).removeTeam k).teamRetired t.grid).powerEval.idle := by
  simp only [execTeamRetire, ht, hc, hdone, hpair, bne_self_eq_false, Bool.not_true, Bool.or_self, Bool.false_eq_true, ↓reduceIte]

/-- The grid counts a core pair as one team. -/
theorem execTeamRetire_pair (hdone : s.teamDone k = true) (hpair : t.pair = some (true, p)) (hp : s.teamDone p = true) :
    execTeamRetire core k s = .next (((((s.chargeTeam k).removeTeam k).removeTeam p).modOrg fun o => { o with pairs := o.pairs.del k }).teamRetired t.grid).powerEval.idle := by
  simp only [execTeamRetire, ht, hc, hdone, hpair, hp, bne_self_eq_false, Bool.not_true, Bool.or_self, Bool.false_eq_true, ↓reduceIte]

end

/-! ### Frames (R139, R377) -/

theorem execFrameDiscard_due {s : State} {part base : Nat} {f : Frame} (hf : s.org.frames.find (frameKey part base) = some f) (hd : f.discarding = true) :
    execFrameDiscard part base s =
      .next (((f.pages.foldl (fun s e => s.l1Discard e.1 e.2) s).modOrg fun o => { o with frames := o.frames.del (frameKey part base) }).modPart part
        fun p => { p with free := heapGive p.free f.base f.rounded }).idle := by
  simp only [execFrameDiscard, hf, hd, Bool.not_true, Bool.false_eq_true, ↓reduceIte]

/-! ### The obligation -/

/-- Settles O48: a filing by how many of the split's strands found a bin, a barrier and a retirement by whether the team is one of a core pair; each other event by its
function's lemma above. -/
theorem strandsAndTeams : Obligations.StrandsAndTeams := by
  unfold Obligations.StrandsAndTeams
  refine ⟨?filing, ?timer, ?launch, ?barrier, ?retire, ?discard⟩
  case filing =>
    intro core group split s v pc gk ls r hv hst hmv hfull hmiss
    rw [exec_splitFiling]
    exact ⟨execSplitFiling_all hv hst hmv hfull hmiss, execSplitFiling_some hv hst hmv hfull hmiss, execSplitFiling_none hv hst hmv hfull hmiss⟩
  case timer =>
    exact fun core bin s _ hb hn hdue => (exec_binProofTimerExpiry core bin s).trans (execBinProofTimerExpiry_due hb hn hdue)
  case launch =>
    exact fun core bin s _ _ _ hnext hb hctx => (exec_binLaunch core bin s).trans (execBinLaunch_next hnext hb hctx)
  case barrier =>
    intro core k s t ht hc hready
    have hteam : (s.releaseBar k).ex.teams.find k = some t := by rw [State.releaseBar_teams, ht]
    rw [exec_barrierComplete]
    exact ⟨fun hpair => ⟨_, execBarrierComplete_alone ht hc hready hpair, rfl, checkpoint_clears hteam⟩,
      fun _ hpair hp hquiet => execBarrierComplete_pair ht hc hready hpair hp hquiet⟩
  case retire =>
    intro core k s t ht hc hdone
    rw [exec_teamRetire]
    exact ⟨execTeamRetire_alone ht hc hdone, fun _ hpair hp => execTeamRetire_pair ht hc hdone hpair hp⟩
  case discard =>
    exact fun part base s _ hf hd => (exec_frameDiscard part base s).trans (execFrameDiscard_due hf hd)

end Sys2Proof.Machine
end

section
/-! ## Events of memory (R56, R57, R62, R64, R74, R111, R124, R316)

A flush takes one entry after another out of the memory-side cache. `FlushKeeps` says what all that this may involve (the errors judged and logged, the write to HBM and its
charge) leaves alone; the flush then follows by a fold over the entries' keys. Each other event has one lemma for each way in which it comes about. -/

namespace Sys2Proof.AMap

/-- A value that is found stands in the list under its key. -/
theorem mem_of_find {α : Type} {m : AMap α} {k : Nat} {x : α} (h : find m k = some x) : (k, x) ∈ m := by
  induction m with
  | nil => cases h
  | cons e m ih =>
    rw [find_cons] at h
    split at h
    · next hk => subst hk; cases h; exact List.mem_cons_self
    · exact List.mem_cons_of_mem _ (ih h)

end Sys2Proof.AMap

namespace Sys2Proof.Machine

/-! ### The instruction of each event -/

theorem exec_baseDieRequest (id : Nat) (s : State) : exec (.baseDieRequest id) s = execBaseDieRequest id s := rfl
theorem exec_mscColourFlush (colours : BitVec 16) (s : State) : exec (.mscColourFlush colours) s = execMscColourFlush colours s := rfl
theorem exec_scrubPeriodExpiry (l : ScrubLevel) (s : State) : exec (.scrubPeriodExpiry l) s = execScrubPeriodExpiry l s := rfl
theorem exec_errorRecordTimeout (unit : Nat) (s : State) : exec (.errorRecordTimeout unit) s = execErrorRecordTimeout unit s := rfl
theorem exec_tableWalk (id : Nat) (s : State) : exec (.tableWalk id) s = execTableWalk id s := rfl

/-! ### Requests at the base die (R56, R316) -/

section
variable {id : Nat} {s : State} {q : BaseReq} (hq : s.mem.base.find id = some q) (hfirst : (s.baseOf q.block).head? = some id)
include hq hfirst

theorem execBaseDieRequest_read (hk : q.kind = .read) (hd : s.deferred q.block = false) : execBaseDieRequest id s = .next (s.performBase id).idle := by
  simp only [execBaseDieRequest, hq, hfirst, hk, hd, beq_self_eq_true, Bool.not_false, Bool.and_self, ↓reduceIte]

theorem execBaseDieRequest_write {ws : List TWord} (hk : q.kind = .write ws) (ht : s.hasTokens q.block = true) :
    execBaseDieRequest id s = .next (s.performBase id).idle := by
  simp only [execBaseDieRequest, hq, hfirst, hk, ht, beq_self_eq_true, Bool.and_self, ↓reduceIte]

theorem execBaseDieRequest_scrub (hk : q.kind = .scrub) : execBaseDieRequest id s = .next (s.performBase id).idle := by
  simp only [execBaseDieRequest, hq, hfirst, hk, beq_self_eq_true, Bool.and_self, ↓reduceIte]

end

/-! ### What a flush leaves alone -/

/-- What every part of a flush keeps of memory: the L2 is as it was, the memory-side cache gets no new entry and no new error. -/
structure Mem.FlushKeeps (m n : Mem) : Prop where
  l2 : n.l2 = m.l2
  msc : ∀ k, m.msc.find k = none → n.msc.find k = none
  errors : ∀ e ∈ n.errors, e.level = 1 → e ∈ m.errors

/-- What every part of a flush keeps of the state. -/
structure State.FlushKeeps (s t : State) : Prop where
  ex : t.ex = s.ex
  org : t.org = s.org
  mem : s.mem.FlushKeeps t.mem

namespace Mem.FlushKeeps

theorem refl (m : Mem) : m.FlushKeeps m := ⟨rfl, fun _ h => h, fun _ h _ => h⟩

theorem trans {l m n : Mem} (h : l.FlushKeeps m) (h' : m.FlushKeeps n) : l.FlushKeeps n :=
  ⟨h'.l2.trans h.l2, fun k hk => h'.msc k (h.msc k hk), fun e he hl => h.errors e (h'.errors e he hl) hl⟩

/-- A memory with the same L2, memory-side cache and errors. -/
theorem of_eq {m n : Mem} (hl2 : n.l2 = m.l2) (hmsc : n.msc = m.msc) (herr : n.errors = m.errors) : m.FlushKeeps n :=
  ⟨hl2, fun k hk => by rw [hmsc, hk], fun e he _ => herr ▸ he⟩

theorem mend (m : Mem) (l a p : Nat) : m.FlushKeeps (m.mend l a p) := ⟨rfl, fun _ h => h, fun _ he _ => (List.mem_filter.1 he).1⟩

theorem clearError (m : Mem) (l a : Nat) : m.FlushKeeps (m.clearError l a) := ⟨rfl, fun _ h => h, fun _ he _ => (List.mem_filter.1 he).1⟩

theorem mends (l a : Nat) (ps : List Nat) (m : Mem) : m.FlushKeeps (ps.foldl (fun m p => m.mend l a p) m) :=
  List.foldlRecOn (motive := m.FlushKeeps) ps _ (refl m) fun n hn p _ => hn.trans (mend n l a p)

/-- Markers are errors of HBM. -/
theorem setMarkers (m : Mem) (stack block : Nat) : m.FlushKeeps (m.setMarkers stack block) := by
  refine ⟨rfl, fun _ h => h, fun e he hl => ?_⟩
  rcases List.mem_append.1 he with he | he
  · exact (clearError m 0 block).errors e he hl
  · obtain ⟨p, -, rfl⟩ := List.mem_map.1 he
    cases hl

end Mem.FlushKeeps

/-- Storage bytes are apart from everything else in memory. -/
theorem Mem.setBytes_eq_hbm (m : Mem) (a : Nat) (bs : List Byte) : ∃ h, m.setBytes a bs = { m with hbm := h } := by
  induction bs generalizing m a with
  | nil => exact ⟨m.hbm, rfl⟩
  | cons b bs ih => exact ih (m.setByte a b) (a + 1)

theorem Mem.FlushKeeps.setBytes (m : Mem) (a : Nat) (bs : List Byte) : m.FlushKeeps (m.setBytes a bs) := by
  obtain ⟨h, he⟩ := m.setBytes_eq_hbm a bs
  rw [he]
  exact .of_eq rfl rfl rfl

theorem Mem.mends_msc (l a : Nat) (ps : List Nat) (m : Mem) : (ps.foldl (fun m p => m.mend l a p) m).msc = m.msc :=
  List.foldlRecOn (motive := fun n : Mem => n.msc = m.msc) ps _ rfl fun _ hn _ _ => hn

@[simp] theorem Mem.setBytes_msc (m : Mem) (a : Nat) (bs : List Byte) : (m.setBytes a bs).msc = m.msc := by
  obtain ⟨h, he⟩ := m.setBytes_eq_hbm a bs
  rw [he]

namespace State.FlushKeeps

variable {s t u : State}

theorem refl (s : State) : s.FlushKeeps s := ⟨rfl, rfl, .refl _⟩

theorem trans (h : s.FlushKeeps t) (h' : t.FlushKeeps u) : s.FlushKeeps u := ⟨h'.ex.trans h.ex, h'.org.trans h.org, h.mem.trans h'.mem⟩

theorem modMem {f : Mem → Mem} (h : s.mem.FlushKeeps (f s.mem)) : s.FlushKeeps (s.modMem f) := ⟨rfl, rfl, h⟩

/-- A fold of operations that each keep it. -/
theorem foldl {α : Type} {f : State → α → State} (hf : ∀ (s : State) a, s.FlushKeeps (f s a)) (l : List α) (s : State) : s.FlushKeeps (l.foldl f s) :=
  List.foldlRecOn (motive := s.FlushKeeps) l f (refl s) fun t ht a _ => ht.trans (hf t a)

/-! ### The error records -/

theorem ringAppend (s : State) (n : Nat) (r : ErrRec) : s.FlushKeeps (s.ringAppend n r) := by
  unfold State.ringAppend
  dsimp only
  split
  · exact modMem (.of_eq rfl rfl rfl)
  · split <;> exact ⟨rfl, rfl, .of_eq rfl rfl rfl⟩

theorem writeRecord (s : State) (r : ErrRec) : s.FlushKeeps (s.writeRecord r) := by
  unfold State.writeRecord State.writeRecordOf
  dsimp only
  split
  · exact (ringAppend _ _ _).trans (ringAppend _ _ _)
  · exact ringAppend _ _ _

theorem closeRecord (s : State) (key : Nat) : s.FlushKeeps (s.closeRecord key) := by
  unfold State.closeRecord
  split
  · exact (writeRecord _ _).trans (modMem (.of_eq rfl rfl rfl))
  · exact refl s

theorem logError (s : State) (r : ErrRec) : s.FlushKeeps (s.logError r) := by
  unfold State.logError
  dsimp only
  split
  · split
    · split
      · exact modMem (.of_eq rfl rfl rfl)
      · exact (closeRecord _ _).trans (modMem (.of_eq rfl rfl rfl))
    · exact modMem (.of_eq rfl rfl rfl)
  · exact (closeRecord _ _).trans (writeRecord _ _)

/-! ### An entry that is judged and leaves -/

theorem judge (s : State) (l a : Nat) (ps : List Nat) (r : SoftError → ErrRec) : s.FlushKeeps (s.judge l a ps r).2 := by
  refine List.foldlRecOn (motive := fun q : Bool × State => s.FlushKeeps q.2) ps _ (refl s) fun q hq p _ => ?_
  split
  · exact hq
  · refine (hq.trans ?_).trans (logError _ _)
    split
    · exact modMem (.mend _ _ _ _)
    · exact refl _

theorem mscJudge (s : State) (block asid source : Nat) (only : List Nat := List.range 4) : s.FlushKeeps (s.mscJudge block asid source only) := by
  unfold State.mscJudge
  split
  · exact refl s
  · rename_i k _
    split
    · exact refl s
    · rename_i e hk
      have hj := judge s 1 block ((sectorsOf e.bytes.length).filter only.contains) (s.blockRecord 1 block asid source)
      generalize s.judge 1 block ((sectorsOf e.bytes.length).filter only.contains) (s.blockRecord 1 block asid source) = r at hj ⊢
      dsimp only
      split
      · exact hj
      · refine ⟨hj.ex, hj.org, hj.mem.l2, fun n hn => ?_, fun e he hl => hj.mem.errors e (List.mem_filter.1 he).1 hl⟩
        have hne : n ≠ k := fun h => by rw [h, hk] at hn; cases hn
        dsimp only [State.modMem_mem]
        split
        · rw [AMap.find_put, if_neg hne, hj.mem.msc n hn]
        · rw [AMap.find_del, if_neg hne, hj.mem.msc n hn]

theorem hbmWrite (s : State) (block : Nat) (bs : List Byte) (marked : Bool) : s.FlushKeeps (s.hbmWrite block bs marked) := by
  have hw := (Mem.FlushKeeps.mends 0 block (sectorsOf bs.length) s.mem).trans (.setBytes _ (320 * block) bs)
  unfold State.hbmWrite
  refine modMem ?_
  dsimp only
  split
  · exact hw.trans (.setMarkers _ _ _)
  · exact hw

theorem charge (s : State) (block n : Nat) : s.FlushKeeps (s.charge block n) := by
  unfold State.charge
  split
  · exact modMem (.of_eq rfl rfl rfl)
  · exact refl s

end State.FlushKeeps

@[simp] theorem State.hbmWrite_msc (s : State) (block : Nat) (bs : List Byte) (marked : Bool) : (s.hbmWrite block bs marked).mem.msc = s.mem.msc := by
  have hw := (Mem.setBytes_msc ((sectorsOf bs.length).foldl (fun m p => m.mend 0 block p) s.mem) (320 * block) bs).trans (Mem.mends_msc _ _ _ _)
  cases marked <;> exact hw

@[simp] theorem State.charge_msc (s : State) (block n : Nat) : (s.charge block n).mem.msc = s.mem.msc := by
  unfold State.charge
  split <;> rfl

/-! ### An entry leaves the memory-side cache (R55, R63) -/

/-- The state in which an entry that leaves has been judged, where it is dirty. -/
def State.judgedOut (s : State) (v : MscEntry) : State := if v.dirty then s.mscJudge v.block 0 1 else s

/-- The state in which the entry at a key, as it now stands, has been written to HBM, where it is dirty. -/
def State.writtenOut (s : State) (k : Nat) : State :=
  match s.mem.msc.find k with
  | some v => if v.dirty then (s.hbmWrite v.block v.bytes v.marked).charge v.block (v.bytes.length / 80) else s
  | none => s

theorem State.FlushKeeps.judgedOut (s : State) (v : MscEntry) : s.FlushKeeps (s.judgedOut v) := by
  unfold State.judgedOut
  split
  · exact mscJudge _ _ _ _
  · exact refl s

theorem State.FlushKeeps.writtenOut (s : State) (k : Nat) : s.FlushKeeps (s.writtenOut k) := by
  unfold State.writtenOut
  split
  · split
    · exact (hbmWrite _ _ _ _).trans (charge _ _ _)
    · exact refl s
  · exact refl s

@[simp] theorem State.writtenOut_msc (s : State) (k : Nat) : (s.writtenOut k).mem.msc = s.mem.msc := by
  unfold State.writtenOut
  split
  · split
    · rw [State.charge_msc, State.hbmWrite_msc]
    · rfl
  · rfl

theorem mscOut_absent {s : State} {k : Nat} (h : s.mem.msc.find k = none) : s.mscOut k = s := by simp only [State.mscOut, h]

theorem mscOut_present {s : State} {k : Nat} {v : MscEntry} (h : s.mem.msc.find k = some v) :
    s.mscOut k = ((s.judgedOut v).writtenOut k).modMem fun m => { m.clearError 1 v.block with msc := m.msc.del k } := by
  simp only [State.mscOut, h]
  rfl

theorem State.FlushKeeps.mscOut (s : State) (k : Nat) : s.FlushKeeps (s.mscOut k) := by
  cases h : s.mem.msc.find k with
  | none => rw [mscOut_absent h]; exact refl s
  | some v =>
    rw [mscOut_present h]
    refine ((judgedOut s v).trans (writtenOut _ k)).trans (modMem ⟨rfl, fun n hn => ?_, fun e he _ => (List.mem_filter.1 he).1⟩)
    rw [AMap.find_del, hn, ite_self]

theorem mscOut_removes (s : State) (k : Nat) : (s.mscOut k).mem.msc.find k = none := by
  cases h : s.mem.msc.find k with
  | none => rw [mscOut_absent h, h]
  | some v => rw [mscOut_present h, State.modMem_mem, AMap.find_del, if_pos rfl]

/-! Without an error in the memory-side cache the entries that stay are untouched. -/

/-- No protected unit of the memory-side cache holds an error. -/
def Mem.MscClean (m : Mem) : Prop := ∀ e ∈ m.errors, e.level ≠ 1

theorem Mem.MscClean.errorOf {m : Mem} (h : m.MscClean) (a p : Nat) : m.errorOf 1 a p = none := by
  have hnil : m.errors.filter (fun e => e.level == 1 && e.addr == a && e.part == p) = [] :=
    List.filter_eq_nil_iff.2 fun e he => by simp [h e he]
  simp only [Mem.errorOf, hnil]

theorem Mem.MscClean.flush {m n : Mem} (h : m.MscClean) (hk : m.FlushKeeps n) : n.MscClean := fun e he hl => h e (hk.errors e he hl) hl

theorem Mem.MscClean.judge {s : State} (h : s.mem.MscClean) (a : Nat) (ps : List Nat) (r : SoftError → ErrRec) : s.judge 1 a ps r = (false, s) := by
  refine List.foldlRecOn (motive := fun q : Bool × State => q = (false, s)) ps _ rfl fun q hq p _ => ?_
  simp only [hq, h.errorOf]

theorem Mem.MscClean.mscJudge {s : State} (h : s.mem.MscClean) (block asid source : Nat) (only : List Nat := List.range 4) :
    s.mscJudge block asid source only = s := by
  unfold State.mscJudge
  split
  · rfl
  · split
    · rfl
    · simp only [h.judge, Bool.not_false, ↓reduceIte]

theorem Mem.MscClean.judgedOut {s : State} (h : s.mem.MscClean) (v : MscEntry) : s.judgedOut v = s := by
  unfold State.judgedOut
  rw [h.mscJudge, ite_self]

theorem mscOut_keeps_others {s : State} (h : s.mem.MscClean) {k n : Nat} (hn : n ≠ k) : (s.mscOut k).mem.msc.find n = s.mem.msc.find n := by
  cases hk : s.mem.msc.find k with
  | none => rw [mscOut_absent hk]
  | some v => rw [mscOut_present hk, h.judgedOut, State.modMem_mem, AMap.find_del, if_neg hn, State.writtenOut_msc]

/-! ### The flush of some colours (R56, R57) -/

/-- Every entry of a list of keys is gone once all of them have left. -/
theorem mscOuts_remove {ks : List Nat} {n : Nat} (hn : n ∈ ks) (s : State) : (ks.foldl State.mscOut s).mem.msc.find n = none := by
  induction ks generalizing s with
  | nil => cases hn
  | cons k ks ih =>
    rcases List.mem_cons.1 hn with rfl | hn
    · exact (State.FlushKeeps.foldl State.FlushKeeps.mscOut ks _).mem.msc n (mscOut_removes s n)
    · exact ih hn _

theorem mscOuts_keep_others {ks : List Nat} {n : Nat} (hn : n ∉ ks) {s : State} (h : s.mem.MscClean) :
    (ks.foldl State.mscOut s).mem.msc.find n = s.mem.msc.find n := by
  induction ks generalizing s with
  | nil => rfl
  | cons k ks ih =>
    rw [List.mem_cons, not_or] at hn
    obtain ⟨hk, hks⟩ := hn
    rw [List.foldl_cons, ih hks (h.flush (State.FlushKeeps.mscOut s k).mem), mscOut_keeps_others h hk]

/-- The keys of the memory-side cache's entries in sets of some colours. -/
def State.colourKeys (s : State) (colours : BitVec 16) : List Nat :=
  (s.mem.msc.filter fun e => colours.getLsbD (e.1 / 4 % 409600 / 25600)).map (·.1)

theorem coloured_of_mem_colourKeys {s : State} {colours : BitVec 16} {k : Nat} (h : k ∈ s.colourKeys colours) :
    colours.getLsbD (k / 4 % 409600 / 25600) = true := by
  obtain ⟨e, he, rfl⟩ := List.mem_map.1 h
  exact (List.mem_filter.1 he).2

theorem mem_colourKeys {s : State} {colours : BitVec 16} {k : Nat} {v : MscEntry} (hk : s.mem.msc.find k = some v)
    (hc : colours.getLsbD (k / 4 % 409600 / 25600) = true) : k ∈ s.colourKeys colours :=
  List.mem_map.2 ⟨(k, v), List.mem_filter.2 ⟨AMap.mem_of_find hk, hc⟩, rfl⟩

/-- The state after the entries of some colours have left. -/
def State.flushColours (s : State) (colours : BitVec 16) : State := (s.colourKeys colours).foldl State.mscOut s

theorem execMscColourFlush_eq (colours : BitVec 16) (s : State) :
    execMscColourFlush colours s = .next ((s.settleColours colours).flushColours colours).idle := rfl

theorem State.FlushKeeps.flushColours (s : State) (colours : BitVec 16) : s.FlushKeeps (s.flushColours colours) := foldl mscOut _ s

theorem flushColours_removes {colours : BitVec 16} {k : Nat} (hc : colours.getLsbD (k / 4 % 409600 / 25600) = true) (s : State) :
    (s.flushColours colours).mem.msc.find k = none := by
  cases hk : s.mem.msc.find k with
  | none => exact (State.FlushKeeps.flushColours s colours).mem.msc k hk
  | some v => exact mscOuts_remove (mem_colourKeys hk hc) s

theorem flushColours_keeps_others {colours : BitVec 16} {k : Nat} (hc : colours.getLsbD (k / 4 % 409600 / 25600) = false) {s : State} (h : s.mem.MscClean) :
    (s.flushColours colours).mem.msc.find k = s.mem.msc.find k :=
  mscOuts_keep_others (fun hk => Bool.false_ne_true (hc.symm.trans (coloured_of_mem_colourKeys hk))) h

theorem settleColours_without_requests {s : State} (h : s.mem.base = []) (colours : BitVec 16) : s.settleColours colours = s := by
  simp only [State.settleColours, h, List.map_nil, List.eraseDups_nil, List.filter_nil, List.foldl_nil]

/-! ### Scrubs and error records (R62, R64) -/

theorem execScrubPeriodExpiry_due {l : ScrubLevel} {s u : State} (hdue : s.scrubNext l ≤ s.dev.clock)
    (hu : (((s.mem.errors.filter (scrubCovers l)).map fun e => (e.level, e.addr, e.part)).eraseDups).foldl State.scrubUnit s = u) :
    execScrubPeriodExpiry l s = .next (u.modMem fun m => { m with scrubAt := m.scrubAt.put (scrubNumber l) (u.dev.clock + u.scrubClk l) }).idle := by
  simp only [execScrubPeriodExpiry, Nat.not_lt.2 hdue, hu, ↓reduceIte]

theorem closeRecord_open {s : State} {unit t : Nat} {r : ErrRec} (h : s.mem.openRecs.find unit = some (r, t)) :
    s.closeRecord unit = (s.writeRecord r).modMem fun m => { m with openRecs := m.openRecs.del unit } := by
  simp only [State.closeRecord, h]

/-- A millisecond is 1,250,000 clk (R7). -/
theorem execErrorRecordTimeout_due {s : State} {unit t : Nat} {r : ErrRec} (h : s.mem.openRecs.find unit = some (r, t)) (hdue : t + 1250000 ≤ s.dev.clock) :
    execErrorRecordTimeout unit s = .next ((s.writeRecord r).modMem fun m => { m with openRecs := m.openRecs.del unit }).idle := by
  have hms : t + clkPerSecond / 1000 ≤ s.dev.clock := hdue
  simp only [execErrorRecordTimeout, h, hms, ↓reduceIte, closeRecord_open h]

/-! ### Walks (R74, R111, R124) -/

/-- What the walk of an identifier answers, with the state that holds it no more. -/
def State.walked (s : State) (id : Nat) (w : Walk) : Except (Nat × Word64) TEntry × State :=
  (s.modMem fun m => { m with walks := m.walks.del id }).translate w.cache w.asid (sx57 w.va) w.right

/-- The fill of the L1 to which a walk goes on. -/
def Walk.fill (w : Walk) (e : TEntry) : Fill :=
  { core := w.core, asid := w.asid, va := w.va / 128 * 128, pa := e.paOf w.va / 128 * 128, rights := e.rights, mt := e.mt, hint := w.hint }

section
variable {id : Nat} {s : State} {w : Walk} (hw : s.mem.walks.find id = some w)
include hw

theorem execTableWalk_fault {c : Nat × Word64} (hr : (s.walked id w).1 = .error c) : execTableWalk id s = .next (s.walked id w).2.idle := by
  have hwalk : s.walked id w = (.error c, (s.walked id w).2) := Prod.ext hr rfl
  unfold State.walked at hwalk
  simp only [execTableWalk, hw]
  rw [hwalk]
  rfl

/-- A walk that finds a page is dropped, or goes on to a fill of the L1 or to its block's slice. -/
theorem execTableWalk_page {e : TEntry} (hr : (s.walked id w).1 = .ok e) :
    execTableWalk id s =
      if w.pref && e.mt == 1 then .next (s.walked id w).2.idle
      else if w.toL1 && e.mt != 1 then
        .next ((s.walked id w).2.fresh.2.modEx fun x => { x with fills := x.fills.put (s.walked id w).2.nextId (w.fill e) }).idle
      else .next ((s.walked id w).2.l2Ensure (e.paOf w.va / 256) w.asid).idle := by
  have hwalk : s.walked id w = (.ok e, (s.walked id w).2) := Prod.ext hr rfl
  unfold State.walked at hwalk
  simp only [execTableWalk, hw]
  rw [hwalk]
  rfl

theorem execTableWalk_fill {e : TEntry} (hr : (s.walked id w).1 = .ok e) (hl1 : w.toL1 = true) (hmt : e.mt ≠ 1) :
    execTableWalk id s = .next ((s.walked id w).2.fresh.2.modEx fun x => { x with fills := x.fills.put (s.walked id w).2.nextId (w.fill e) }).idle := by
  simp only [execTableWalk_page hw hr, hl1, bne, beq_eq_false_iff_ne.2 hmt, Bool.and_false, Bool.not_false, Bool.and_self, Bool.false_eq_true, ↓reduceIte]

theorem execTableWalk_dropped {e : TEntry} (hr : (s.walked id w).1 = .ok e) (hpref : w.pref = true) (hmt : e.mt = 1) :
    execTableWalk id s = .next (s.walked id w).2.idle := by
  simp only [execTableWalk_page hw hr, hpref, hmt, beq_self_eq_true, Bool.and_self, ↓reduceIte]

theorem execTableWalk_block {e : TEntry} (hr : (s.walked id w).1 = .ok e) (hto : (w.toL1 = false ∧ e.mt ≠ 1) ∨ (w.pref = false ∧ e.mt = 1)) :
    execTableWalk id s = .next ((s.walked id w).2.l2Ensure (e.paOf w.va / 256) w.asid).idle := by
  rw [execTableWalk_page hw hr]
  rcases hto with ⟨hl1, hmt⟩ | ⟨hpref, hmt⟩
  · simp only [hl1, beq_eq_false_iff_ne.2 hmt, Bool.and_false, Bool.false_and, Bool.false_eq_true, ↓reduceIte]
  · simp only [hpref, hmt, bne_self_eq_false, Bool.false_and, Bool.and_false, Bool.false_eq_true, ↓reduceIte]

end

/-! ### The obligation -/

/-- Settles O45: a flush by a fold over its entries, each of which leaves alone what is not its own; each other event by its function's lemma for the case. -/
theorem memoryEvents : Obligations.MemoryEvents := by
  unfold Obligations.MemoryEvents
  refine ⟨?request, ?flush, ?scrub, ?record, ?walk⟩
  case request =>
    intro id s q hq hfirst hmay
    rw [exec_baseDieRequest]
    cases hk : q.kind with
    | read => rw [hk] at hmay; exact execBaseDieRequest_read hq hfirst hk hmay
    | write ws => rw [hk] at hmay; exact execBaseDieRequest_write hq hfirst hk hmay
    | scrub => exact execBaseDieRequest_scrub hq hfirst hk
  case flush =>
    intro colours s u
    have hkeeps := State.FlushKeeps.flushColours u colours
    refine ⟨fun h => settleColours_without_requests h colours, (u.flushColours colours).idle, ?_, hkeeps.ex, hkeeps.org, hkeeps.mem.l2,
      fun _ hc => flushColours_removes hc u, fun hclean _ hc => flushColours_keeps_others hc hclean⟩
    rw [exec_mscColourFlush, execMscColourFlush_eq]
  case scrub =>
    exact fun l s hdue => (exec_scrubPeriodExpiry l s).trans (execScrubPeriodExpiry_due hdue rfl)
  case record =>
    exact fun unit _ _ s h hdue => (exec_errorRecordTimeout unit s).trans (execErrorRecordTimeout_due h hdue)
  case walk =>
    intro id s w hw r
    rw [exec_tableWalk]
    exact ⟨fun _ hr => execTableWalk_fault hw hr, fun _ hr hl1 hmt => execTableWalk_fill hw hr hl1 hmt,
      fun _ hr hpref hmt => execTableWalk_dropped hw hr hpref hmt, fun _ hr hto => execTableWalk_block hw hr hto⟩

end Sys2Proof.Machine
end

section
/-! ## Effective addresses (R86, R113, R115, R138) -/

namespace Sys2Proof.Machine

open Sys2Proof.Claim

/-! ### What an address operand reads as -/

@[simp] theorem valR_pair (v : View) (s : State) (l : Nat) (a : Src) : (valR v s l a true).1 = pair v s a l := rfl

@[simp] theorem lo_valR (v : View) (s : State) (l : Nat) (a : Src) : lo (valR v s l a false).1 = word v s a l :=
  BitVec.setWidth_setWidth_of_le (srcW v s l a.use) (show 32 ≤ 64 by decide)

/-- R69: bits 63 to 57 as a number are 0 or 127, as bit 56 says. -/
theorem canonical_iff (a : Word64) : canonical a = true ↔ a.toNat / 2 ^ 57 = 127 * (a.toNat / 2 ^ 56 % 2) := by
  have hlt : a.toNat / 2 ^ 56 < 256 := by omega
  have htop : (a.extractLsb' 56 8).toNat = a.toNat / 2 ^ 56 := by
    rw [BitVec.extractLsb'_toNat, Nat.shiftRight_eq_div_pow, Nat.mod_eq_of_lt hlt]
  have hhalf : a.toNat / 2 ^ 57 = a.toNat / 2 ^ 56 / 2 := (Nat.div_div_eq_div_mul _ _ _).symm
  simp only [canonical, Bool.or_eq_true, beq_iff_eq, ← BitVec.toNat_inj, htop, hhalf, BitVec.reduceToNat]
  generalize a.toNat / 2 ^ 56 = b at hlt ⊢
  omega

/-! ### The three spaces -/

theorem effAddr_global (v : View) (s : State) (l : Nat) (a : Src) (off : Word) (w : Nat) (writes : Bool) (va : Word64)
    (hva : pair v s a l + off.signExtend 64 = va) :
    effAddr v s l .g a off w writes =
      if va.toNat % w ≠ 0 then .error (6, va) else if ¬ canonical va = true then .error (8, va) else .ok va := by
  simp only [effAddr, valR_pair, hva, bne_iff_ne, Bool.not_eq_true', Bool.not_eq_true]

theorem effAddr_scratchpad (v : View) (s : State) (l : Nat) (a : Src) (off : Word) (w : Nat) (writes : Bool) (o : Nat) (ho : offset v s a off l = o) :
    effAddr v s l .s a off w writes =
      if o % w ≠ 0 then .error (6, BitVec.ofNat 64 o)
      else if scratchSize v.grid.hdr < o + w then .error (9, BitVec.ofNat 64 o) else .ok (BitVec.ofNat 64 o) := by
  have hnat : (word v s a l + off).toNat = o := ho
  have hword : (word v s a l + off).setWidth 64 = BitVec.ofNat 64 o := by rw [← hnat, BitVec.ofNat_toNat]
  simp only [effAddr, lo_valR, bne_iff_ne, View.scratch, hword, hnat]

/-- An access of w bytes at an offset o of a frame of n bytes leaves the frame, or writes its header (R115, R137). -/
theorem outsideFrame_iff (o : Int) (n w : Nat) (writes : Bool) :
    (decide (o < 0) || decide ((n : Int) < o + w) || (writes && decide (o < 64))) = true ↔ o < 0 ∨ (n : Int) < o + w ∨ (writes = true ∧ o < 64) := by
  simp only [Bool.or_eq_true, Bool.and_eq_true, decide_eq_true_eq, or_assoc]

/-- In frame space a lane's word is a level and an offset, to which the instruction's offset adds (R138, R141). -/
theorem effAddr_frame (v : View) (s : State) (l : Nat) (a : Src) (off : Word) (w : Nat) (writes : Bool) (k : Nat) (o : Int)
    (hk : (word v s a l).toNat / 2 ^ 29 = k) (ho : ((word v s a l).toNat % 2 ^ 29 : Nat) + off.toInt = o) :
    effAddr v s l .f a off w writes =
      if o % w ≠ 0 then .error (6, frameTval k o)
      else if v.grid.hdr.level < k then .error (7, frameTval k o)
      else if o < 0 ∨ (v.grid.fsizes.getD k 0 : Int) < o + w ∨ (writes = true ∧ o < 64) then .error (9, frameTval k o)
      else .ok (v.grid.display.getD k 0 + BitVec.ofInt 64 o) := by
  simp only [effAddr, lo_valR, hk, ho, bne_iff_ne, frameOf]
  by_cases hlevel : v.grid.hdr.level < k
  · simp only [if_pos hlevel]
  · simp only [if_neg hlevel, outsideFrame_iff]

/-! ### The obligation -/

/-- Settles O29: each space by its lemma above; the statement says of bits 63 to 57 what `canonical` says. -/
theorem effectiveAddresses : Obligations.EffectiveAddresses := by
  unfold Obligations.EffectiveAddresses
  intro v s l a off t writes w
  refine ⟨?global, ?scratchpad, ?frame⟩
  case global =>
    intro va
    simp only [effAddr_global v s l a off w writes va rfl, canonical_iff, ne_eq]
  case scratchpad => exact effAddr_scratchpad v s l a off w writes _ rfl
  case frame => exact effAddr_frame v s l a off w writes _ _ rfl rfl

end Sys2Proof.Machine
end

section
/-! ## The checks of the prologue (R31, R32, R34, R41, R49, R131, R132)

An instruction whose prologue answers some active lane has passed every check of the prologue (`Passes`), and `Passes` in turn gives the prologue's answer
whatever causes of its own the instruction adds: these would join others that stop it, and nothing stops it. -/

namespace Sys2Proof.Machine

/-! ### Causes that stop an instruction -/

theorem pickCause_eq_none {cs : List (Nat × Nat × Word64)} : pickCause cs = none ↔ cs = [] := by
  cases cs with
  | nil => exact ⟨fun _ => rfl, fun _ => rfl⟩
  | cons c cs => exact ⟨fun h => (nomatch h), fun h => (nomatch h)⟩

theorem hardStop_eq_none {v : View} {s : State} {cs hard : List (Nat × Nat × Word64)} {srcs : List Use} {preds : List (BitVec 4)} :
    hardStop v s cs hard srcs preds = none ↔ cs = [] ∧ hard = [] := by
  simp only [hardStop, Option.map_eq_none_iff, pickCause_eq_none, List.append_eq_nil_iff]

/-- Nothing that a read consumes stops the instruction only where nothing is consumed. -/
theorem nil_of_hardStop_hard {v : View} {s : State} {cs hard : List (Nat × Nat × Word64)} {srcs : List Use} {preds : List (BitVec 4)}
    (h : (if hard.isEmpty then none else hardStop v s cs hard srcs preds) = none) : hard = [] := by
  split at h
  · next hnil => exact List.isEmpty_iff.1 hnil
  · exact (hardStop_eq_none.1 h).2

/-- Causes found before the operands are read stop the instruction whatever others join them: UNCORRECTABLE (12) and the rest are passed on apart. -/
theorem nil_of_hardStop_early {v : View} {s : State} {pre a b c d : List (Nat × Nat × Word64)} {srcs : List Use} {preds : List (BitVec 4)}
    (h : (if pre.isEmpty then none else hardStop v s (pre.filter (·.2.1 != 12) ++ a ++ b ++ c) (pre.filter (·.2.1 == 12) ++ d) srcs preds) = none) : pre = [] := by
  split at h
  · next hnil => exact List.isEmpty_iff.1 hnil
  · simp only [hardStop_eq_none, List.append_eq_nil_iff, List.filter_eq_nil_iff, bne_iff_ne, beq_iff_eq] at h
    obtain ⟨⟨⟨⟨hother, -⟩, -⟩, -⟩, h12, -⟩ := h
    exact List.eq_nil_iff_forall_not_mem.2 fun x hx => hother x hx (h12 x hx)

theorem emptyCauses_of_full {v : View} {s : State} {act : List Nat} {srcs : List Use}
    (h : srcs.any (fun u => act.any fun l => srcEmpty v s l u) = false) : emptyCauses v s act srcs = [] := by
  have hnone : srcs.filter (fun u => u.ea && act.any fun l => srcEmpty v s l u) = [] := by
    refine List.filter_eq_nil_iff.2 fun u hu hea => ?_
    exact List.any_eq_false.1 h u hu (Bool.and_eq_true_iff.1 hea).2
  simp only [emptyCauses, hnone]

/-- Without a cause of the guard every active lane is sure to read its operands. -/
theorem filter_without_causes (ls : List Nat) : (ls.filter fun l => !(([] : List (Nat × Nat × Word64)).any fun c => c.1 == l)) = ls :=
  List.filter_eq_self.2 fun _ _ => rfl

/-- Register errors that are no corrected ones are the hard ones. -/
theorem hardErrors_of_registerErrors {v : View} {s : State} {act : List Nat} {srcs : List Use} {preds : List (BitVec 4)} {cs : List (Nat × Nat × Word64)}
    (h : registerErrors v s act srcs preds = .ok cs) : hardErrors v s act srcs preds = cs := by
  unfold registerErrors at h
  dsimp only at h
  split at h <;> cases h
  rfl

theorem not_unwrittenTemp_of_tempCauses {v : View} {act : List Nat} {srcs : List Use} (hact : act ≠ []) (h : tempCauses v act srcs = []) :
    srcs.any (unwrittenTemp v) = false := by
  unfold tempCauses at h
  split at h
  · exact absurd (List.map_eq_nil_iff.1 h) hact
  · next hany => exact eq_false_of_ne_true hany

/-- No register that a lane reads stays uncorrectable. -/
theorem readable_of_hardErrors {v : View} {s : State} {act : List Nat} {srcs : List Use} {preds : List (BitVec 4)} (h : hardErrors v s act srcs preds = []) :
    (readsOf act srcs).any (fun k => (readElem v s k.1 k.2).err == 2) = false := by
  simp only [hardErrors, List.map_eq_nil_iff, List.append_eq_nil_iff, List.filter_eq_nil_iff, decide_eq_true_eq] at h
  obtain ⟨hreads, -⟩ := h
  refine List.any_eq_false.2 fun k hk htwo => hreads k hk ?_
  rw [eq_of_beq htwo]
  decide

/-! ### All checks passed -/

/-- The checks of the prologue, all of them passed with some lanes active. -/
structure Passes (v : View) (s : State) (g : Guard) (srcs : List Use) (dsts : List (Reg × Bool)) (bad : Bool) (preds : List (BitVec 4)) (act : List Nat) : Prop where
  operands : (bad || badOperands v srcs dsts) = false
  active : activeLanes v s g = act
  some_ : act ≠ []
  guard : guardCauses v s g = []
  temps : tempCauses v act srcs = []
  full : srcs.any (fun u => act.any fun l => srcEmpty v s l u) = false
  dests : dsts.any (destEmpty v s act) = false
  errors : registerErrors v s act srcs preds = .ok []

section
variable {v : View} {s : State} {g : Guard} {srcs : List Use} {dsts : List (Reg × Bool)} {bad : Bool} {preds : List (BitVec 4)} {act : List Nat}

/-- A prologue that answers some lanes has passed its checks. -/
theorem passes_of_prologue {own fixed : List Nat → List (Nat × Nat × Word64)} {shown : List Use} {cs : List (Nat × Nat × Word64)} (hact : act ≠ [])
    (h : prologue v s g srcs dsts bad own preds shown fixed = .ok (act, cs)) :
    Passes v s g srcs dsts bad preds act ∧ cs = sourceCauses v s act srcs shown := by
  unfold prologue at h
  split at h
  · cases h
  rename_i hoperands
  dsimp only at h
  split at h
  · rename_i hnone
    split at h <;> cases h
    exact absurd (List.isEmpty_iff.1 (Bool.and_eq_true_iff.1 hnone).1) hact
  split at h
  · cases h
  rename_i hearly
  split at h
  · cases h
  rename_i hfull
  split at h
  · cases h
  rename_i hard herrors
  split at h
  · cases h
  rename_i hhard
  cases h
  obtain ⟨hguardTemps, -⟩ := List.append_eq_nil_iff.1 (nil_of_hardStop_early hearly)
  obtain ⟨hguard, htemps⟩ := List.append_eq_nil_iff.1 hguardTemps
  rw [hguard, filter_without_causes] at htemps
  rw [nil_of_hardStop_hard hhard] at herrors
  rw [Bool.not_eq_true, Bool.or_eq_false_iff] at hfull
  obtain ⟨hfull, hdests⟩ := hfull
  exact ⟨⟨eq_false_of_ne_true hoperands, rfl, hact, hguard, htemps, hfull, hdests, herrors⟩, rfl⟩

/-- What has passed the checks gets the same answer with causes of the instruction's own. -/
theorem Passes.answers {own fixed : List Nat → List (Nat × Nat × Word64)} {shown : List Use} (h : Passes v s g srcs dsts bad preds act) :
    prologue v s g srcs dsts bad own preds shown fixed = .ok (act, sourceCauses v s act srcs shown) := by
  simp only [prologue, h.operands, h.active, h.guard, filter_without_causes, h.temps, emptyCauses_of_full h.full, h.full, h.dests, h.errors,
    List.append_nil, List.isEmpty_nil, Bool.and_true, Bool.or_self, Bool.false_eq_true, ↓reduceIte, List.isEmpty_iff, h.some_]

/-- An instruction that issues passes the checks, and no entry that it pops is marked or fails its code. -/
theorem passes_of_issues (hi : v.Issues s g srcs dsts act bad preds) (hact : act ≠ []) :
    Passes v s g srcs dsts bad preds act ∧ sourceCauses v s act srcs srcs = [] := by
  obtain ⟨hpasses, hcauses⟩ := passes_of_prologue hact hi
  exact ⟨hpasses, hcauses.symm⟩

/-- The prologue of an instruction that issues gives the same answer with causes of its own that join others (R49). -/
theorem prologue_own_of_issues (own : List Nat → List (Nat × Nat × Word64)) (hi : v.Issues s g srcs dsts act bad preds) (hact : act ≠ []) :
    prologue v s g srcs dsts bad own preds = .ok (act, []) := by
  obtain ⟨hpasses, hcauses⟩ := passes_of_issues hi hact
  rw [hpasses.answers, hcauses]

end

end Sys2Proof.Machine
end

section
/-! ## PREF, CWB and CINV (R124 to R127) -/

namespace Sys2Proof.Machine

open Sys2Proof.Claim

/-! ### Checks that have passed -/

theorem lanePairCompare_single {v : View} (h : v.lanePair = false) (n : Nat) (s : State) : lanePairCompare v n s = .ok s := by
  simp only [lanePairCompare, h, Bool.not_false, ↓reduceIte]

/-- What follows a check that has passed. -/
theorem except_ok_bind {ε α β : Type} (a : α) (f : α → Except ε β) : (Except.ok a >>= f) = f a := rfl

theorem checkCauses_nil : checkCauses [] = .ok () := rfl

/-! ### The instructions -/

theorem exec_pref (g : Guard) (sp : Space) (h : Hint) (a : Src) (off : Word) (s : State) : exec (.pref g sp h a off) s = execPref g sp h a off s := rfl
theorem exec_cwb (x : FRange) (s : State) : exec (.cwb x) s = execCwb x s := rfl
theorem exec_cinv (x : FRange) (s : State) : exec (.cinv x) s = execCinv x s := rfl

/-! ### PREF (R124) -/

/-- The walk that a PREF starts. -/
def prefWalk (v : View) (h : Hint) (va : Word64) : Walk :=
  { cache := cacheOf v.core, asid := v.asid, va := va57 va, right := 1, core := v.core, toL1 := decide (h ≠ .nol1), hint := h, pref := true }

/-- A state with a PREF's walk in flight. -/
def State.startPref (s : State) (v : View) (h : Hint) (va : Word64) : State :=
  { s with nextId := s.nextId + 1, mem := { s.mem with walks := s.mem.walks.put s.nextId (prefWalk v h va) } }

/-- Whether the L1 of the view's core has the line of an address filled. -/
def State.lineFilled (s : State) (v : View) (va : Word64) : Bool :=
  match s.l1Key v.core v.asid (va57 va) with
  | some k => (s.l1Line k).filled
  | none => false

theorem lineFilled_iff {s : State} {v : View} {va : Word64} :
    s.lineFilled v va = true ↔ ∃ k, s.l1Key v.core v.asid (va57 va) = some k ∧ (s.l1Line k).filled = true := by
  unfold State.lineFilled
  cases s.l1Key v.core v.asid (va57 va) with
  | none => simp
  | some k => simp

section
variable {v : View} {s : State} {g : Guard} {u : Use} {l : Nat}

/-- A lane that has passed the checks and reads no poison is not dropped. -/
theorem prefDrops_of_passes (hp : Passes v s g [u] [] false [] [l]) (hcauses : sourceCauses v s [l] [u] [u] = []) (hpoison : srcPoison v s l u = false) :
    prefDrops v s g u l = false := by
  have htemp : unwrittenTemp v u = false := by simpa using not_unwrittenTemp_of_tempCauses hp.some_ hp.temps
  have hfull : srcEmpty v s l u = false := by simpa using hp.full
  have hpopped : sourceCauses v s [l] [u] [] = [] := (List.append_eq_nil_iff.1 hcauses).2
  have hreads := readable_of_hardErrors (hardErrors_of_registerErrors hp.errors)
  simp only [prefDrops, hp.guard, htemp, hfull, hpoison, hreads, hpopped, List.any_nil, List.isEmpty_nil, Bool.and_false, Bool.not_true, Bool.or_self]

/-- A queue whose entry a lane reads has one. -/
theorem queueHead_of_full (h : srcEmpty v s l u = false) : (isQueue u.reg && !u.ea && (queueHead v s u.reg).isNone) = false := by
  unfold srcEmpty at h
  split at h
  · rw [h, Bool.and_false]
  · next hq => rw [eq_false_of_ne_true hq, Bool.false_and, Bool.false_and]

end

theorem execPref_lane {v : View} {s : State} {g : Guard} {sp : Space} {h : Hint} {a : Src} {off : Word} {l : Nat} {va : Word64} (hv : s.view = some v)
    (hname : badAddress sp a = false) (hi : v.Issues s g [addrUse sp a] [] [l]) (hpoison : srcPoison v s l (addrUse sp a) = false)
    (hea : effAddr v s l sp a off 1 false = .ok va) (hsingle : v.lanePair = false) :
    execPref g sp h a off s = .next (ends v s [addrUse sp a] (if s.lineFilled v va then s else s.startPref v h va)) := by
  obtain ⟨hpasses, hcauses⟩ := passes_of_issues hi (List.cons_ne_nil l [])
  have hops : badOperands v [addrUse sp a] [] = false := (Bool.or_eq_false_iff.1 hpasses.operands).2
  have hkept := prefDrops_of_passes hpasses hcauses hpoison
  have hfull : srcEmpty v s l (addrUse sp a) = false := by simpa using hpasses.full
  refine runBody_ok hv ?_
  simp only [hname, hops, hpasses.active, hkept, queueHead_of_full hfull, hfull, hpasses.errors, lanePairCompare_single hsingle, List.filter_cons, List.filter_nil,
    List.any_cons, List.any_nil, List.isEmpty_cons, List.foldl_cons, List.foldl_nil, Bool.or_self, Bool.not_false, Bool.false_eq_true, ↓reduceIte]
  refine congrArg (fun t => Except.ok (popQueues v [addrUse sp a] t)) ?_
  have hl1 : (h != Hint.nol1) = decide (h ≠ .nol1) := by cases h <;> rfl
  simp only [hea, hl1]
  rfl

/-! ### CWB and CINV (R125 to R127) -/

theorem rangesOf_eq (x : FRange) (v : View) (s : State) (act : List Nat) :
    rangesOf x v s act = act.map fun l => (va57 (pair v s x.a l + x.off.signExtend 64), (word v s x.b l).toNat) := by
  simp only [rangesOf, valR_pair, lo_valR]

section
variable {x : FRange} {s : State} {v : View} {act : List Nat} (hv : s.view = some v) (hact : act ≠ []) (hsingle : v.lanePair = false)
  (hname : badAddress .g x.a = false) (hi : v.Issues s x.g [x.a.use true, x.b.use] [] act) (hpoison : poisonCauses v s act [x.a.use true, x.b.use] = [])
include hv hact hsingle hname hi hpoison

theorem execCwb_writesBack (hdone : ∀ l ∈ act, ∀ e ∈ s.ex.reqs, e.2.dest.strand = v.key l → e.2.localWrite = false) :
    execCwb x s = .next (ends v s [x.a.use true, x.b.use]
      (((linesIn v s (rangesOf x v s act)).foldl State.l1WriteBack s).modGroup v.gk fun g => { g with block := some .cwb })) := by
  have hpro := prologue_own_of_issues (fun ls => poisonCauses v s ls [x.a.use true, x.b.use]) hi hact
  have hperformed : (act.any fun l => s.ex.reqs.any fun e => e.2.dest.strand == v.key l && e.2.localWrite) = false := by
    simp only [List.any_eq_false, Bool.and_eq_true, beq_iff_eq, not_and, Bool.not_eq_true]
    exact hdone
  refine runBody_ok hv ?_
  simp only [hname, hpro, hpoison, hperformed, lanePairCompare_single hsingle, List.isEmpty_eq_false_iff.2 hact,
    except_ok_bind, checkCauses_nil, List.append_nil, Bool.false_eq_true, ↓reduceIte]
  rfl

theorem execCinv_sweeps :
    execCinv x s = .next (ends v s [x.a.use true, x.b.use] ((s.l1SweepKeys (linesIn v s (rangesOf x v s act))).dropFills v.core v.asid fun va =>
      (rangesOf x v s act).any fun r => decide (0 < r.2) && decide (va < r.1 + r.2) && decide (r.1 < va + 128))) := by
  have hpro := prologue_own_of_issues (fun ls => poisonCauses v s ls [x.a.use true, x.b.use]) hi hact
  refine runBody_ok hv ?_
  simp only [hname, hpro, hpoison, lanePairCompare_single hsingle, List.isEmpty_eq_false_iff.2 hact,
    except_ok_bind, checkCauses_nil, List.append_nil, Bool.false_eq_true, ↓reduceIte]
  rfl

end

/-! ### The obligation -/

/-- Settles O32: each instruction passes its checks, and its lemma above gives its effect; PREF by whether the L1 has the line filled. -/
theorem cacheInstructions : Obligations.CacheInstructions := by
  unfold Obligations.CacheInstructions
  refine ⟨?pref, ?ranges⟩
  case pref =>
    intro g sp h a off s v l va hv hname hi hpoison hea hsingle w there
    rw [exec_pref, execPref_lane hv hname hi hpoison hea hsingle]
    exact ⟨fun hthere => by rw [if_pos (lineFilled_iff.2 hthere)], fun hmiss => by rw [if_neg (mt lineFilled_iff.1 hmiss)]; rfl⟩
  case ranges =>
    intro x s v act hv hact hsingle hname srcs hi hpoison ranges
    rw [exec_cwb, exec_cinv]
    have hranges : ranges = rangesOf x v s act := (rangesOf_eq x v s act).symm
    rw [hranges]
    exact ⟨execCwb_writesBack hv hact hsingle hname hi hpoison, execCinv_sweeps hv hact hsingle hname hi hpoison⟩

end Sys2Proof.Machine
end

section
/-! ## The routes of a cause, and its precision (R145, R287, R288, R298, Table 17.1) -/

namespace Sys2Proof.Machine

open Sys2Proof.Claim

/-! ### The routes -/

/-- Table 17.1: the causes that trap the group. -/
theorem groupCause_iff (h : KHeader) (c : Nat) : groupCause h c = true ↔ c ∈ [4, 5, 13, 15, 20] ∨ (c = 6 ∧ h.misgrp = true) := by
  simp only [groupCause, Bool.or_eq_true, Bool.and_eq_true, beq_iff_eq, List.mem_cons, List.not_mem_nil, or_false, or_assoc]

/-- A cause takes the group route where that is open: for no pilot, and with a trap entry. -/
theorem groupRoute_iff (v : View) (f : Fail) :
    (groupCause v.grid.hdr f.cause && !v.pilot && v.team.trapent != 0) = true ↔
      (f.cause ∈ [4, 5, 13, 15, 20] ∨ (f.cause = 6 ∧ v.grid.hdr.misgrp = true)) ∧ v.pilot = false ∧ v.team.trapent ≠ 0 := by
  rw [Bool.and_eq_true, Bool.and_eq_true, groupCause_iff, Bool.not_eq_true', bne_iff_ne, and_assoc]

theorem willRollback_iff (v : View) (f : Fail) :
    willRollback v f = true ↔
      f.cause ∈ [11, 12, 18] ∧ f.fetch = false ∧ v.pilot = false ∧ v.team.irrevocable = false ∧ v.team.rollbacks < 3 := by
  simp only [willRollback, rollbackCause, Bool.and_eq_true, Bool.or_eq_true, beq_iff_eq, Bool.not_eq_true', decide_eq_true_eq, List.mem_cons,
    List.not_mem_nil, or_false, or_assoc, and_assoc]

section
variable {v : View} {f : Fail} (inRun : Bool) (s : State) (hkeep : f.clearArm = false)
include hkeep

theorem raise_group (hgroup : (groupCause v.grid.hdr f.cause && !v.pilot && v.team.trapent != 0) = true) :
    raise v f inRun s = takeGroupTrap v f.cause (f.epc.getD v.split.pc) f.tval (if f.lanes = 0 then v.split.mask else f.lanes) inRun s := by
  simp only [raise, hkeep, hgroup, beq_iff_eq, Bool.false_eq_true, ↓reduceIte]

theorem raise_rollback (hgroup : ¬ (groupCause v.grid.hdr f.cause && !v.pilot && v.team.trapent != 0) = true) (hback : willRollback v f = true) :
    raise v f inRun s = s.rollback v f := by
  simp only [raise, hkeep, hgroup, hback, Bool.false_eq_true, ↓reduceIte]

theorem raise_context (hgroup : ¬ (groupCause v.grid.hdr f.cause && !v.pilot && v.team.trapent != 0) = true) (hback : ¬ willRollback v f = true) :
    raise v f inRun s = raiseContext v f (f.epc.getD v.split.pc) v.engine s := by
  simp only [raise, hkeep, hgroup, hback, Bool.false_eq_true, ↓reduceIte]

end

/-- A context fault is listed for its engine, with the delivered cause in each raising lane where no lane's own is known (R294). -/
theorem raiseContext_eq (v : View) (f : Fail) (epc : Word64) (engine : Nat) (s : State) :
    raiseContext v f epc engine s = s.halt v.asid (some
      { engine := engine, unit_ := v.core, group := (if v.pilot then 0xFF else v.gk % 256), cause := f.cause, epc := epc, tval := f.tval, hm := v.grp.hm,
        lcause := if f.lcause = [] then (lanesIn (if f.lanes = 0 then v.split.mask else f.lanes)).map (fun l => (l, f.cause)) else f.lcause }) := by
  simp only [raiseContext, beq_iff_eq, List.isEmpty_iff]

/-! ### Precision -/

/-- Outside speculation a cause is delivered at once (R243). -/
theorem raiseNow_calm {v : View} {s : State} (f : Fail) (hcalm : s.ex.specs.find v.gk = none) : raiseNow v f s = raise v f true s := by
  have hnone : s.ex.specs.has v.gk = false := by rw [AMap.has, hcalm, Option.isSome_none]
  simp only [raiseNow, hnone, Bool.false_eq_true, ↓reduceIte]

section
variable {s : State} {v : View} {f : Fail} {body : View → State → Body} (hv : s.view = some v) (hcalm : s.ex.specs.find v.gk = none)
  (hbody : body v s = .error (.fail f))
include hv hcalm hbody

theorem runBody_fail : runBody s body = .next { raise v f true s with cur := none, freeCount := (raise v f true s).freeCount + 1 } := by
  simp only [runBody, hv, hbody, raiseNow_calm f hcalm]
  rfl

theorem runTrailer_fail : runTrailer s body = .next { raise v f true s with cur := none, freeCount := (raise v f true s).freeCount + 1 } := by
  simp only [runTrailer, hv, hbody, raiseNow_calm f hcalm]
  rfl

end

/-- An instruction runs a body that stops with whatever cause its checks on the operands of x find. -/
def StopsAtOperands (x : FAB) (i : Instr) : Prop :=
  ∃ body : View → State → Body, (∀ s, exec i s = runBody s body) ∧
    ∀ v s f, prologue v s x.g (x.a.use :: x.b.uses) [(x.d, false)] = .error (.fail f) → body v s = .error (.fail f)

theorem stopsAtOperands_of_alu2 {x : FAB} {i : Instr} {f : Bool → Word → Word → Word} (hexec : ∀ s, exec i s = runBody s (alu2 x f)) :
    StopsAtOperands x i :=
  ⟨alu2 x f, hexec, fun v s f hstop => by rw [alu2, computeAtIssue, hstop]; rfl⟩

theorem stopsAtOperands_of_aluDiv {x : FAB} {i : Instr} {f : Bool → Word → Word → Word × BitVec 5} (hexec : ∀ s, exec i s = runBody s (aluDiv x f)) :
    StopsAtOperands x i :=
  ⟨aluDiv x f, hexec, fun v s f hstop => by rw [aluDiv, computeLater, hstop]; rfl⟩

/-- The integer instructions of two sources have the shapes `alu2` and `aluDiv`. -/
theorem stopsAtOperands_of_mem (x : FAB) :
    ∀ i ∈ [Instr.add x, .sub x, .adds x, .mul x, .mulh x, .min x, .max x, .and x, .or x, .xor x, .andn x, .div x, .rem x, .shl x, .shr x, .sar x, .rol x, .bfx x],
      StopsAtOperands x i := by
  have two {i : Instr} {f : Bool → Word → Word → Word} (hexec : ∀ s, exec i s = runBody s (alu2 x f)) := stopsAtOperands_of_alu2 hexec
  have late {i : Instr} {f : Bool → Word → Word → Word × BitVec 5} (hexec : ∀ s, exec i s = runBody s (aluDiv x f)) := stopsAtOperands_of_aluDiv hexec
  simp only [List.forall_mem_cons]
  exact ⟨two fun _ => rfl, two fun _ => rfl, two fun _ => rfl, two fun _ => rfl, two fun _ => rfl, two fun _ => rfl, two fun _ => rfl, two fun _ => rfl,
    two fun _ => rfl, two fun _ => rfl, two fun _ => rfl, late fun _ => rfl, late fun _ => rfl, two fun _ => rfl, two fun _ => rfl, two fun _ => rfl,
    two fun _ => rfl, two fun _ => rfl, fun _ hi => (List.not_mem_nil hi).elim⟩

/-! ### The obligation -/

/-- Settles O23: `raise` tries the routes of Table 17.1 in order; a body that stops with a cause hands the state before it to `raise`, and the bodies of the integer
instructions of two sources begin with the checks of their operands. -/
theorem causeRoutesAndPrecision : Obligations.CauseRoutesAndPrecision := by
  unfold Obligations.CauseRoutesAndPrecision
  refine ⟨?routes, ?shapes, ?integers⟩
  case routes =>
    intro v f inRun s hkeep
    dsimp only
    rw [← groupRoute_iff, ← willRollback_iff]
    exact ⟨raise_group inRun s hkeep, raise_rollback inRun s hkeep,
      fun hgroup hback => (raise_context inRun s hkeep hgroup hback).trans (raiseContext_eq v f _ _ s)⟩
  case shapes =>
    intro body s v f hv hcalm hbody
    exact ⟨_, runBody_fail hv hcalm hbody, runTrailer_fail hv hcalm hbody⟩
  case integers =>
    intro x s v f hv hcalm hstop i hi
    obtain ⟨body, hexec, hstops⟩ := stopsAtOperands_of_mem x i hi
    exact ⟨_, (hexec s).trans (runBody_fail hv hcalm (hstops v s f hstop))⟩

end Sys2Proof.Machine
end

section
/-! ## QLD, PGO, PSTOP and QSTAT (R150 to R154) -/

namespace Sys2Proof.Machine

open Sys2Proof.Claim

/-! ### Poison of a source -/

theorem readElem_queue (v : View) (s : State) (l : Nat) {r : Nat} (h : isQueue r = true) : readElem v s l r = {} := by
  simp only [isQueue, Bool.and_eq_true, decide_eq_true_eq] at h
  obtain ⟨hlow, hhigh⟩ := h
  rw [readElem, if_neg (by omega), if_neg (by omega), if_neg (by omega), if_pos hhigh]

/-- A register without poison as a source has none as an element either; a queue's number reads as an element of no register. -/
theorem readElem_poison_of_good {v : View} {s : State} {l : Nat} {a : Src} (h : bad v s a l = false) : (readElem v s l a.reg.toNat).poison = false := by
  cases hqueue : isQueue a.reg.toNat with
  | true => rw [readElem_queue v s l hqueue]
  | false => simpa [bad, srcPoison, srcElems, Src.use, hqueue] using h

theorem poisonCauses_of_good {v : View} {s : State} {act : List Nat} {a : Src} (h : ∀ l ∈ act, bad v s a l = false) : poisonCauses v s act [a.use] = [] := by
  refine List.filterMap_eq_nil_iff.2 fun l hl => ?_
  have hgood := readElem_poison_of_good (h l hl)
  simp [Src.use, hgood]

/-! ### Checks that have passed -/

/-- Without active lanes the prologue gives the same answer whatever causes of its own the instruction adds. -/
theorem prologue_own_without_lanes {v : View} {s : State} {g : Guard} {srcs : List Use} {dsts : List (Reg × Bool)} {bad : Bool} {preds : List (BitVec 4)}
    (own : List Nat → List (Nat × Nat × Word64)) (hi : v.Issues s g srcs dsts [] bad preds) :
    prologue v s g srcs dsts bad own preds = .ok ([], []) := by
  have hact := prologue_active hi
  unfold View.Issues prologue at hi
  split at hi
  · cases hi
  rename_i hoperands
  dsimp only at hi
  split at hi
  · rename_i hnone
    rw [prologue, if_neg hoperands]
    dsimp only
    rw [if_pos hnone]
    exact hi
  rename_i hsome
  split at hi
  · cases hi
  rename_i hearly
  obtain ⟨hguardTemps, -⟩ := List.append_eq_nil_iff.1 (nil_of_hardStop_early hearly)
  obtain ⟨hguard, -⟩ := List.append_eq_nil_iff.1 hguardTemps
  rw [hact, hguard] at hsome
  exact absurd rfl hsome

/-- An instruction whose own causes are none gets the answer of the prologue without them, whatever lanes are active. -/
theorem prologue_own_of_issues_any {v : View} {s : State} {g : Guard} {srcs : List Use} {dsts : List (Reg × Bool)} {bad : Bool} {preds : List (BitVec 4)}
    {act : List Nat} (own : List Nat → List (Nat × Nat × Word64)) (hi : v.Issues s g srcs dsts act bad preds) :
    prologue v s g srcs dsts bad own preds = .ok (act, []) := by
  by_cases hact : act = []
  · subst hact
    exact prologue_own_without_lanes own hi
  · exact prologue_own_of_issues own hi hact

/-- Where no source has a cause, none of those shown has one that are no display registers (R31). -/
theorem sourceCauses_shown_eq_nil {v : View} {s : State} {act : List Nat} {srcs shown : List Use} (h : sourceCauses v s act srcs srcs = [])
    (hshown : ∀ u ∈ shown, u.reg < 248) : sourceCauses v s act srcs shown = [] := by
  obtain ⟨-, hpopped⟩ := List.append_eq_nil_iff.1 h
  refine List.append_eq_nil_iff.2 ⟨List.flatMap_eq_nil_iff.2 fun u hu => ?_, hpopped⟩
  have hlt := hshown u hu
  rw [if_neg (by simp only [Bool.and_eq_true, decide_eq_true_eq]; omega)]

theorem popQueues_nil (v : View) (s : State) : popQueues v [] s = s := rfl

/-! ### The instructions -/

theorem exec_qld (m : FMem) (q : BitVec 4) (b : Src) (s : State) : exec (.qld m q b) s = execQld m q b s := rfl
theorem exec_pgo (g : Guard) (a b : Src) (s : State) : exec (.pgo g a b) s = execPgo g a b s := rfl
theorem exec_pstop (g : Guard) (flush : Bool) (s : State) : exec (.pstop g flush) s = execPstop g flush s := rfl
theorem exec_qstat (x : FDS) (wide : Bool) (s : State) : exec (.qstat x wide) s = execQstat x wide s := rfl

/-! ### QLD (R150) -/

theorem pilotCopies_eq_false {s : State} {k : Nat} : s.pilotCopies k = false ↔ ∀ e ∈ s.ex.copies, e.2.team = k → e.2.pilot = false := by
  simp only [State.pilotCopies, List.any_eq_false, Bool.and_eq_true, beq_iff_eq, not_and, Bool.not_eq_true]

/-- The operation that a QLD puts in flight for the accesses of its lanes. -/
def qldOp (v : View) (q : BitVec 4) (set_ : Nat) (act : List Nat) (as : List LaneAcc) : QldOp :=
  { core := v.core, gk := v.gk, team := v.teamKey, q := q.toNat, set_ := set_, lanes := lanesOf act,
    pas := as.foldl (fun p a => p.put a.lane a.pa) [], vas := as.foldl (fun p a => p.put a.lane (va57 a.va)) [] }

/-- A state with an entry reserved for a QLD, which no longer waits. -/
def State.reserveQld (s : State) (gk : Nat) (op : QldOp) : State :=
  ({ s with nextId := s.nextId + 1 }.modGroup gk fun g => { g with fullWait := none, copyWait := false }).modEx fun x =>
    { x with qlds := x.qlds.put s.nextId op }

theorem execQld_reserves {m : FMem} {q : BitVec 4} {b : Src} {s u : State} {v : View} {act : List Nat} {as : List LaneAcc} {top set_ : Nat}
    (hv : s.view = some v) (hname : badAddress m.space m.a = false) (hb : b.reg.toNat < 192) (htop : act.getLast? = some top)
    (hi : v.Issues s m.g [addrUse m.space m.a, b.use] [] act) (hpoison : poisonCauses v s act [addrUse m.space m.a] = []) (hgood : bad v s b top = false)
    (hset : (word v s b top).toNat = set_) (hrange : set_ < v.grid.hdr.capacity / 32)
    (hreads : resolve v m.space false m.hint 1 4 false (fun l => effAddr v s l m.space m.a m.off 4 false) act s = ((as, []), u))
    (hcopies : u.pilotCopies v.teamKey = false) (hroom : u.queueUse v.teamKey v.team set_ q.toNat < 8) :
    execQld m q b s = .next (ends v s [] (u.reserveQld v.gk (qldOp v q set_ act as))) := by
  have hact : act ≠ [] := by rintro rfl; cases htop
  obtain ⟨hpasses, hcauses⟩ := passes_of_issues hi hact
  have hshown : sourceCauses v s act [addrUse m.space m.a, b.use] (if m.space == .f then [b.use] else [addrUse m.space m.a, b.use]) = [] := by
    split
    · exact sourceCauses_shown_eq_nil hcauses fun w hw => by rw [List.mem_singleton.1 hw]; exact Nat.lt_trans hb (by decide)
    · exact hcauses
  have hpoisonSet : poisonCauses v s [top] [b.use] = [] := poisonCauses_of_good fun l hl => List.mem_singleton.1 hl ▸ hgood
  refine runBody_ok hv ?_
  have hregister : decide (192 ≤ b.reg.toNat) = false := decide_eq_false (by omega)
  simp only [hname, hregister, Bool.or_self, hpasses.answers, hshown, except_ok_bind, htop, rRD, hreads, hpoison, hpasses.active, beq_self_eq_true, ↓reduceIte,
    Option.toList, hpoisonSet, lo_valR, hset, Nat.not_le.2 hrange, List.append_nil, checkCauses_nil, hcopies, Bool.false_eq_true, Nat.not_le.2 hroom]
  rfl

/-! ### PGO (R152) -/

theorem execPgo_starts {g : Guard} {a b : Src} {s : State} {v : View} {act : List Nat} {top : Nat} (hv : s.view = some v) (hact : act ≠ [])
    (hb : b.reg.toNat < 192) (hi : v.Issues s g [a.use true, b.use] [] act) (hpoison : poisonCauses v s act [a.use true, b.use] = [])
    (hentry : v.grid.hdr.pilotent ≠ 0) (hpilot : s.pilotOf v.teamKey = none) (htop : act.getLast? = some top)
    (htarget : s.badTarget v.core v.asid v.team (pair v s a top) = none) (hsettled : s.unsettled v act = false) :
    execPgo g a b s = .next (ends v s [] (s.startPilot v.teamKey v.core (pair v s a top) fun l => if l ∈ act then word v s b l else 0)) := by
  obtain ⟨hpasses, hcauses⟩ := passes_of_issues hi hact
  have hdead : (v.grid.hdr.pilotent == 0 || (s.pilotOf v.teamKey).isSome) = false := by
    rw [hpilot, beq_false_of_ne hentry]
    rfl
  have hregister : decide (192 ≤ b.reg.toNat) = false := decide_eq_false (by omega)
  refine runBody_ok hv ?_
  simp only [hregister, hpasses.answers, hcauses, atEntry, except_ok_bind, htop, hdead, hpoison, htarget, valR_pair, lo_valR, hsettled, ite_self,
    List.append_nil, Bool.false_eq_true, ↓reduceIte, List.contains_iff_mem]
  rfl

/-! ### PSTOP (R153) -/

section
variable {g : Guard} {flush : Bool} {s : State} {v : View} {act : List Nat} (hv : s.view = some v) (hact : act ≠ []) (hi : v.Issues s g [] [] act)
include hv hact hi

theorem execPstop_waits {k : Nat} (hpilot : s.pilotOf v.teamKey = some k) :
    execPstop g flush s = .next (ends v s [] (s.modGroup v.gk fun g => { g with block := some (.pstop flush) })) := by
  refine runBody_ok hv ?_
  unfold View.Issues at hi
  simp only [hi, hpilot, except_ok_bind, List.isEmpty_eq_false_iff.2 hact, Bool.false_eq_true, ↓reduceIte]
  rfl

theorem execPstop_flushes (hpilot : s.pilotOf v.teamKey = none) :
    execPstop g flush s = .next (ends v s [] (if flush then s.flushQueues v.teamKey else s)) := by
  refine runBody_ok hv ?_
  unfold View.Issues at hi
  simp only [hi, hpilot, except_ok_bind, List.isEmpty_eq_false_iff.2 hact, Bool.false_eq_true, ↓reduceIte]
  rfl

end

/-! ### QSTAT (R154) -/

/-- The counts of the sixteen queues of a set, four bits each (R154). -/
def queueCounts (t : Team) (set_ : Nat) : Word64 :=
  (List.range 16).foldl (fun w n => w ||| (BitVec.ofNat 64 (AMap.get [] t.queues (set_ * 16 + n)).length <<< (4 * n))) 0

/-- What QSTAT answers a lane. -/
def qstatValue (v : View) (s : State) (a : Src) (wide : Bool) (l : Nat) : Word64 :=
  if wide then queueCounts v.team (word v s a l).toNat else (s.pilotStatus v.teamKey).setWidth 64

theorem lo_setWidth (w : Word) : lo (w.setWidth 64) = w :=
  (BitVec.setWidth_setWidth_of_le w (show 32 ≤ 64 by decide)).trans (BitVec.setWidth_eq w)

theorem wordsOf_qstatValue (v : View) (s : State) (a : Src) (wide : Bool) (l : Nat) :
    wordsOf wide (qstatValue v s a wide l) = if wide then twoWords (queueCounts v.team (word v s a l).toNat) else [s.pilotStatus v.teamKey] := by
  cases wide with
  | true => rfl
  | false => exact congrArg (fun w => [w]) (lo_setWidth _)

theorem setFlags_zero (v : View) (act : List Nat) (s : State) : setFlags v act (fun _ => 0) s = s := by
  induction act with
  | nil => rfl
  | cons l act ih => exact ih

theorem enabledPoison_zero (h : KHeader) : enabledPoison h 0 = false := by
  simp [enabledPoison]

/-- What computes without exceptions leaves %fmode as it was. -/
theorem writesBoth_of_computes {v : View} {s : State} {act : List Nat} {srcs : List Use} {d : Reg} {wide : Bool} {val : Nat → Word64} {r : Result}
    (ok : Nat → Bool × Bool) (h : Computes v s act srcs d wide (fun l => { val := val l }) r) :
    WritesBoth v s act srcs d wide none (fun l => (val l, false)) ok r := by
  obtain ⟨t, ht, hframe, hlow, hhigh, hfmode⟩ := h
  simp only [enabledPoison_zero, Bool.or_self] at hlow hhigh
  refine ⟨t, ht, hframe, hlow, hhigh, fun _ hn => (Option.some_ne_none _ hn.symm).elim, fun l hl => ?_⟩
  rw [hfmode l hl]
  simp [fmodeWith]

theorem execQstat_computes {x : FDS} {wide : Bool} {s : State} {v : View} {act : List Nat} (hv : s.view = some v) (hp : v.Placed s)
    (hi : v.Issues s x.g [x.a.use] [(x.d, wide)] act)
    (hgood : ∀ l ∈ act, bad v s x.a l = false ∧ (wide = true → (word v s x.a l).toNat < v.grid.hdr.capacity / 32)) :
    Computes v s act [x.a.use] x.d wide (fun l => { val := qstatValue v s x.a wide l }) (execQstat x wide s) := by
  have hpoison : poisonCauses v s act [x.a.use] = [] := poisonCauses_of_good fun l hl => (hgood l hl).1
  have hsets : (act.filter fun l => wide && decide (v.grid.hdr.capacity / 32 ≤ (word v s x.a l).toNat)) = [] := by
    refine List.filter_eq_nil_iff.2 fun l hl hout => ?_
    obtain ⟨hwide, hle⟩ := Bool.and_eq_true_iff.1 hout
    exact Nat.not_le.2 ((hgood l hl).2 hwide) (of_decide_eq_true hle)
  refine computeAtIssue_law (bad := fun _ => false) (f := fun v s _ l => { val := qstatValue v s x.a wide l }) hv hp hi ?_
  simp only [computeAtIssue, prologue_own_of_issues_any _ hi, except_ok_bind, lo_valR, hpoison, hsets, List.append_nil, List.map_nil, checkCauses_nil,
    wordsOf_qstatValue, enabledPoison_zero, Bool.or_self, setFlags_zero]
  rfl

/-! ### The obligation -/

/-- Settles O35: QLD, PGO and PSTOP pass their checks, and the lemma of each above gives its effect; QSTAT computes at issue. -/
theorem pilotAndQueues : Obligations.PilotAndQueues := by
  unfold Obligations.PilotAndQueues
  refine ⟨?qld, ?pgo, ?pstop, ?qstat⟩
  case qld =>
    intro m q b s u v act as top hv hname hb htop hi hpoison hgood set_ hrange hreads hcopies hroom op
    exact (exec_qld m q b s).trans (execQld_reserves hv hname hb htop hi hpoison hgood rfl hrange hreads (pilotCopies_eq_false.2 hcopies) hroom)
  case pgo =>
    intro g a b s v act hv hact hb hi hpoison hentry hpilot top htop htarget hsettled
    exact (exec_pgo g a b s).trans (execPgo_starts hv hact hb hi hpoison hentry hpilot htop htarget hsettled)
  case pstop =>
    intro g flush s v act hv hact hi
    rw [exec_pstop]
    refine ⟨fun hlive => ?_, execPstop_flushes hv hact hi⟩
    obtain ⟨k, hk⟩ := Option.ne_none_iff_exists'.1 hlive
    exact execPstop_waits hv hact hi hk
  case qstat =>
    intro x wide s v act hv hp hi hgood
    rw [exec_qstat]
    exact writesBoth_of_computes _ (execQstat_computes hv hp hi hgood)

end Sys2Proof.Machine
end
